-- ==== Sys2Proof/Word.lean ====
section
/-! DEFINITION. The words of the 8086 (spec/00_scope.md R7, R9): bytes, 16-bit words, 20-bit physical
addresses, and the operand width of an instruction form. -/

namespace Sys2Proof

/-- Eight bits (R12: "byte, word: 8 bits, 16 bits"). -/
abbrev Byte := BitVec 8

/-- Sixteen bits: a register, an offset, a segment value, a port address (R7). -/
abbrev Word := BitVec 16

/-- A 20-bit physical address (R7, R60). -/
abbrev PhysAddr := BitVec 20

/-- The operand width of an instruction (R9: `w` is 8 or 16; R103: the `w` bit). -/
inductive Width where
  /-- `w = 0`: a byte operation. -/
  | byte
  /-- `w = 1`: a word operation. -/
  | word
deriving DecidableEq, Repr

/-- The number of bits of a width. -/
abbrev Width.bits : Width → Nat
  | .byte => 8
  | .word => 16

end Sys2Proof
end

