-- ==== Sys2Proof/Config.lean ====
section
/-! DEFINITION. What the spec leaves open (spec/00_scope.md R6, R7; spec/92_eei_decisions.md, "Open
parameters"): opaque constants, so that nothing in Lean can evaluate one and a claim holds for every
value. Each is named in a log entry of notes/assumptions. -/

namespace Sys2Proof.Config

/-- The word drawn by the `n`-th draw of a value the spec calls undefined (R6). DESIGN CHOICE of form:
one stream of draws, indexed by `State.draws` (log entry 4). Safe. -/
opaque freeWord : Nat → Word

/-- `FLAGS_UNUSED` (R35, D4): what the bits of the flag register that hold no flag read as at the
`n`-th draw; only bits 1, 3, 5 and 12 to 15 are used. "Any", a fresh draw at each read (log entry 5).
Safe. -/
opaque flagsUnused : Nat → Word

/-- The port oracle (R75, D8): the byte the environment answers to a read of a port, at the `n`-th
draw, where the environment has scripted no answer (log entry 10). Safe. -/
opaque portOracle : Nat → Word → Byte

/-- What the bus gives an instruction or an interrupt that reads an address behind which the platform has
neither RAM nor ROM (R73 (c), R352), at the `n`-th draw: any byte (log entry 35). Safe. -/
opaque busByte : Nat → Nat → Byte

/-- What the bus gives the fetch at such an address, at the `n`-th draw: any byte (log entry 35). Safe. -/
opaque busFetch : Nat → Nat → Byte

/-- `IDIV_MIN_QUOTIENT_FAULTS` (R208, D17): whether an IDIV quotient of -128 or -32768 raises type 0
(log entry 6). Safe. -/
opaque idivMinQuotientFaults : Bool

/-- `INT_SHADOW` (R364, D20): whether STI and a load of SS inhibit interrupts for one instruction (log
entry 7). Safe. -/
opaque intShadow : Bool

end Sys2Proof.Config
end

