-- ==== Sys2Proof/Syntax.lean ====
section
/-! DEFINITION. The syntax of the 8086: registers, operands, and one constructor of `Instr` for each of
the 136 rows of spec/opcode_table.json (spec/30_encoding.md R110 to R122). A constructor keeps every
field of the row's encoding, so that two encodings of one operation (R133) are two terms. The synonyms
of R136 are names of one constructor (Machine/Names.lean). -/

namespace Sys2Proof

/-- The 16-bit general registers, in the order of their numbers (spec/10_state.md R21). -/
inductive Reg16 where
  | ax | cx | dx | bx | sp | bp | si | di
deriving DecidableEq, Repr

/-- The 8-bit general registers, in the order of their numbers (spec/10_state.md R23). -/
inductive Reg8 where
  | al | cl | dl | bl | ah | ch | dh | bh
deriving DecidableEq, Repr

/-- The segment registers, in the order of their numbers (spec/10_state.md R30). -/
inductive SegReg where
  | es | cs | ss | ds
deriving DecidableEq, Repr

/-- A register number `i` of `r8[i]` and `r16[i]` (R10): which register it names depends on the width
of the instruction, so both register operands of a form have one size (R24). -/
inductive RegNum where
  | r0 | r1 | r2 | r3 | r4 | r5 | r6 | r7
deriving DecidableEq, Repr

/-- The base part of an effective address: the eight values of `rm` (spec/30_encoding.md R104). -/
inductive EaBase where
  | bxSi | bxDi | bpSi | bpDi | si | di | bp | bx
deriving DecidableEq, Repr

/-- A memory operand (spec/20_memory.md R80), with the displacement form its ModRM byte has (R104). -/
inductive Mem where
  /-- `mod = 00`, `rm = 110`: the 16-bit offset stands in the instruction. -/
  | direct (off : Word)
  /-- `mod = 00`: no displacement. -/
  | plain (base : EaBase)
  /-- `mod = 01`: an 8-bit displacement, sign-extended. -/
  | disp8 (base : EaBase) (d : Byte)
  /-- `mod = 10`: a 16-bit displacement. -/
  | disp16 (base : EaBase) (d : Word)
deriving DecidableEq, Repr

/-- The `r/m` operand of a ModRM byte: a register (`mod = 11`) or memory (R104). -/
inductive RM where
  | reg (i : RegNum)
  | mem (m : Mem)
deriving DecidableEq, Repr

/-- The `d` bit (R103): which of `reg` and `r/m` is the destination. -/
inductive Dir where
  /-- `d = 0`: `r/m` is the destination. -/
  | toRm
  /-- `d = 1`: `reg` is the destination. -/
  | toReg
deriving DecidableEq, Repr

/-- An immediate of the instruction's width (R105). -/
inductive Imm where
  | b (v : Byte)
  | w (v : Word)
deriving DecidableEq, Repr

/-- The immediate of the group 80H to 83H (R114): its opcode fixes the width and the sign extension. -/
inductive GroupImm where
  /-- Opcode 80: Eb,Ib. -/
  | eb (v : Byte)
  /-- Opcode 81: Ew,Iw. -/
  | ew (v : Word)
  /-- Opcode 82: Eb,Ib, the twin of 80 (R133). -/
  | ebTwin (v : Byte)
  /-- Opcode 83: Ew,Ib sign-extended. -/
  | ewSigned (v : Byte)
deriving DecidableEq, Repr

/-- The `v` bit of the shifts and rotates (R103, R240): by one, or by CL. -/
inductive ShiftCount where
  | one
  | cl
deriving DecidableEq, Repr

/-- The five string operations (spec/43_string.md). -/
inductive StringOp where
  | movs | cmps | stos | lods | scas
deriving DecidableEq, Repr

/-- The instructions: one constructor per row of spec/opcode_table.json, in the table's order. The
four rows of format `F_PREFIX` are constructors too; an instruction in memory is a run of prefix rows
followed by one other row (R101, R102), and `decode` reads it whole. -/
inductive Instr where
  -- 00H to 3FH (R111)
  | addRm (d : Dir) (w : Width) (reg : RegNum) (rm : RM)
  | addAcc (imm : Imm)
  | orRm (d : Dir) (w : Width) (reg : RegNum) (rm : RM)
  | orAcc (imm : Imm)
  | adcRm (d : Dir) (w : Width) (reg : RegNum) (rm : RM)
  | adcAcc (imm : Imm)
  | sbbRm (d : Dir) (w : Width) (reg : RegNum) (rm : RM)
  | sbbAcc (imm : Imm)
  | andRm (d : Dir) (w : Width) (reg : RegNum) (rm : RM)
  | andAcc (imm : Imm)
  | subRm (d : Dir) (w : Width) (reg : RegNum) (rm : RM)
  | subAcc (imm : Imm)
  | xorRm (d : Dir) (w : Width) (reg : RegNum) (rm : RM)
  | xorAcc (imm : Imm)
  | cmpRm (d : Dir) (w : Width) (reg : RegNum) (rm : RM)
  | cmpAcc (imm : Imm)
  | pushSreg (sr : SegReg)
  | popSreg (sr : SegReg)
  | segOverride (sr : SegReg)
  | daa
  | das
  | aaa
  | aas
  -- 40H to 5FH (R112)
  | incReg (r : Reg16)
  | decReg (r : Reg16)
  | pushReg (r : Reg16)
  | popReg (r : Reg16)
  -- 70H to 7FH (R113)
  | jo (disp : Byte)
  | jno (disp : Byte)
  | jb (disp : Byte)
  | jae (disp : Byte)
  | je (disp : Byte)
  | jne (disp : Byte)
  | jbe (disp : Byte)
  | ja (disp : Byte)
  | js (disp : Byte)
  | jns (disp : Byte)
  | jp (disp : Byte)
  | jnp (disp : Byte)
  | jl (disp : Byte)
  | jge (disp : Byte)
  | jle (disp : Byte)
  | jg (disp : Byte)
  -- 80H to 8FH (R114)
  | addImm (g : GroupImm) (rm : RM)
  | orImm (imm : Imm) (rm : RM)
  | adcImm (g : GroupImm) (rm : RM)
  | sbbImm (g : GroupImm) (rm : RM)
  | andImm (imm : Imm) (rm : RM)
  | subImm (g : GroupImm) (rm : RM)
  | xorImm (imm : Imm) (rm : RM)
  | cmpImm (g : GroupImm) (rm : RM)
  | testRm (w : Width) (reg : RegNum) (rm : RM)
  | xchgRm (w : Width) (reg : RegNum) (rm : RM)
  | movRm (d : Dir) (w : Width) (reg : RegNum) (rm : RM)
  | movRmSreg (sr : SegReg) (rm : RM)
  | lea (r : Reg16) (m : Mem)
  | movSregRm (sr : SegReg) (rm : RM)
  | popRm (rm : RM)
  -- 90H to 9FH (R115)
  | nop
  | xchgAcc (r : Reg16)
  | cbw
  | cwd
  | callFar (off seg : Word)
  | wait
  | pushf
  | popf
  | sahf
  | lahf
  -- A0H to AFH (R116)
  | movAccMoffs (w : Width) (addr : Word)
  | movMoffsAcc (w : Width) (addr : Word)
  | movs (w : Width)
  | cmps (w : Width)
  | testAcc (imm : Imm)
  | stos (w : Width)
  | lods (w : Width)
  | scas (w : Width)
  -- B0H to BFH (R117)
  | movRegImm (reg : RegNum) (imm : Imm)
  -- C0H to CFH (R118)
  | retImm (data : Word)
  | ret
  | les (r : Reg16) (m : Mem)
  | lds (r : Reg16) (m : Mem)
  | movRmImm (imm : Imm) (rm : RM)
  | retfImm (data : Word)
  | retf
  | int3
  | intN (type : Byte)
  | into
  | iret
  -- D0H to DFH (R119)
  | rol (cnt : ShiftCount) (w : Width) (rm : RM)
  | ror (cnt : ShiftCount) (w : Width) (rm : RM)
  | rcl (cnt : ShiftCount) (w : Width) (rm : RM)
  | rcr (cnt : ShiftCount) (w : Width) (rm : RM)
  | shl (cnt : ShiftCount) (w : Width) (rm : RM)
  | shr (cnt : ShiftCount) (w : Width) (rm : RM)
  | sar (cnt : ShiftCount) (w : Width) (rm : RM)
  | aam
  | aad
  | xlat
  | esc (code : BitVec 6) (rm : RM)
  -- E0H to EFH (R120)
  | loopne (disp : Byte)
  | loope (disp : Byte)
  | loop (disp : Byte)
  | jcxz (disp : Byte)
  | inImm (w : Width) (port : Byte)
  | outImm (w : Width) (port : Byte)
  | callRel (disp : Word)
  | jmpRel16 (disp : Word)
  | jmpFar (off seg : Word)
  | jmpRel8 (disp : Byte)
  | inDx (w : Width)
  | outDx (w : Width)
  -- F0H to FFH (R121)
  | lock
  | repne
  | rep
  | hlt
  | cmc
  | testImm (imm : Imm) (rm : RM)
  | notRm (w : Width) (rm : RM)
  | negRm (w : Width) (rm : RM)
  | mulRm (w : Width) (rm : RM)
  | imulRm (w : Width) (rm : RM)
  | divRm (w : Width) (rm : RM)
  | idivRm (w : Width) (rm : RM)
  | clc
  | stc
  | cli
  | sti
  | cld
  | std
  | incRm (w : Width) (rm : RM)
  | decRm (w : Width) (rm : RM)
  | callRm (rm : RM)
  | callFarMem (m : Mem)
  | jmpRm (rm : RM)
  | jmpFarMem (m : Mem)
  | pushRm (rm : RM)
deriving DecidableEq, Repr

/-- The string instruction of an operation and a width. -/
def StringOp.instr : StringOp → Width → Instr
  | .movs, w => .movs w
  | .cmps, w => .cmps w
  | .stos, w => .stos w
  | .lods, w => .lods w
  | .scas, w => .scas w

end Sys2Proof
end

