-- ==== Sys2Proof/Machine/Bits.lean ====
section
/-! DEFINITION. Bit fields, byte order, sign extension and register numbers: the helpers that the
decoder and the machine share (spec/00_scope.md R9; spec/20_memory.md R63; spec/30_encoding.md R103 to
R106). -/

namespace Sys2Proof

/-- The word whose low byte is `lo` and whose high byte is `hi`: little-endian order (R63). -/
def wordOf (lo hi : Byte) : Word := hi ++ lo

/-- Bits 7:0 of a word. -/
def loByte (v : Word) : Byte := v.extractLsb' 0 8

/-- Bits 15:8 of a word. -/
def hiByte (v : Word) : Byte := v.extractLsb' 8 8

/-- `sext_16` of an 8-bit displacement or immediate (R9, R105, R106). -/
def sext8 (v : Byte) : Word := v.signExtend 16

/-- `zext_16` of a byte (R9). -/
def zext8 (v : Byte) : Word := v.zeroExtend 16

/-- The register a number names in a word operation (R21). -/
def RegNum.reg16 : RegNum → Reg16
  | .r0 => .ax | .r1 => .cx | .r2 => .dx | .r3 => .bx
  | .r4 => .sp | .r5 => .bp | .r6 => .si | .r7 => .di

/-- The register a number names in a byte operation (R23). -/
def RegNum.reg8 : RegNum → Reg8
  | .r0 => .al | .r1 => .cl | .r2 => .dl | .r3 => .bl
  | .r4 => .ah | .r5 => .ch | .r6 => .dh | .r7 => .bh

/-- The number of a register number. -/
def RegNum.num : RegNum → Nat
  | .r0 => 0 | .r1 => 1 | .r2 => 2 | .r3 => 3 | .r4 => 4 | .r5 => 5 | .r6 => 6 | .r7 => 7

/-- The register number of a 3-bit field. -/
def RegNum.ofNum : Nat → RegNum
  | 0 => .r0 | 1 => .r1 | 2 => .r2 | 3 => .r3 | 4 => .r4 | 5 => .r5 | 6 => .r6 | _ => .r7

/-- The number of a 16-bit register (R21). -/
def Reg16.num : Reg16 → Nat
  | .ax => 0 | .cx => 1 | .dx => 2 | .bx => 3 | .sp => 4 | .bp => 5 | .si => 6 | .di => 7

/-- The 16-bit register of a 3-bit field (R21). -/
def Reg16.ofNum : Nat → Reg16
  | 0 => .ax | 1 => .cx | 2 => .dx | 3 => .bx | 4 => .sp | 5 => .bp | 6 => .si | _ => .di

/-- The number of a segment register (R30). -/
def SegReg.num : SegReg → Nat
  | .es => 0 | .cs => 1 | .ss => 2 | .ds => 3

/-- The segment register of a 2-bit field (R30). -/
def SegReg.ofNum : Nat → SegReg
  | 0 => .es | 1 => .cs | 2 => .ss | _ => .ds

/-- The value of `rm` for a base (R104). -/
def EaBase.num : EaBase → Nat
  | .bxSi => 0 | .bxDi => 1 | .bpSi => 2 | .bpDi => 3 | .si => 4 | .di => 5 | .bp => 6 | .bx => 7

/-- The base of a value of `rm` (R104). -/
def EaBase.ofNum : Nat → EaBase
  | 0 => .bxSi | 1 => .bxDi | 2 => .bpSi | 3 => .bpDi | 4 => .si | 5 => .di | 6 => .bp | _ => .bx

/-- The `w` bit (R103). -/
def Width.bit : Width → Nat
  | .byte => 0
  | .word => 1

/-- The `d` bit (R103). -/
def Dir.bit : Dir → Nat
  | .toRm => 0
  | .toReg => 1

/-- The `v` bit (R103). -/
def ShiftCount.bit : ShiftCount → Nat
  | .one => 0
  | .cl => 1

/-- The width of an immediate. -/
def Imm.width : Imm → Width
  | .b _ => .byte
  | .w _ => .word

/-- The value of an immediate, at its width. -/
def Imm.value : (imm : Imm) → BitVec (Imm.width imm).bits
  | .b v => v
  | .w v => v

/-- The width of an immediate of the group 80H to 83H (R114). -/
def GroupImm.width : GroupImm → Width
  | .eb _ | .ebTwin _ => .byte
  | .ew _ | .ewSigned _ => .word

/-- The value of an immediate of the group 80H to 83H: opcode 83 sign-extends its byte (R105, R114). -/
def GroupImm.value : (g : GroupImm) → BitVec (GroupImm.width g).bits
  | .eb v => v
  | .ebTwin v => v
  | .ew v => v
  | .ewSigned v => sext8 v

end Sys2Proof
end

