-- ==== Sys2Proof/WellFormed.lean ====
section
/-! DEFINITION. Which terms of `Instr` some encoding spells (spec/30_encoding.md R104, R122, R131). The
sizes of operands need no check: a form's width stands once in its constructor (spec/10_state.md
R24). -/

namespace Sys2Proof

/-- `[BP]` without a displacement has no encoding: `mod = 00`, `rm = 110` is the direct address (R80,
R104). -/
def Mem.wellFormed : Mem → Bool
  | .plain .bp => false
  | _ => true

/-- A memory operand of the `r/m` is well formed. -/
def RM.wellFormed : RM → Bool
  | .reg _ => true
  | .mem m => m.wellFormed

/-- The term is spelt by an encoding: its memory operand exists, MOV and POP do not write CS (R31,
R131), and XCHG AX,AX in the short form is NOP (R115). -/
def Instr.wellFormed : Instr → Bool
  | .popSreg sr => sr != .cs
  | .movSregRm sr rm => sr != .cs && rm.wellFormed
  | .xchgAcc r => r != .ax
  | .addRm _ _ _ rm | .orRm _ _ _ rm | .adcRm _ _ _ rm | .sbbRm _ _ _ rm
  | .andRm _ _ _ rm | .subRm _ _ _ rm | .xorRm _ _ _ rm | .cmpRm _ _ _ rm
  | .movRm _ _ _ rm => rm.wellFormed
  | .testRm _ _ rm | .xchgRm _ _ rm => rm.wellFormed
  | .addImm _ rm | .adcImm _ rm | .sbbImm _ rm | .subImm _ rm | .cmpImm _ rm => rm.wellFormed
  | .orImm _ rm | .andImm _ rm | .xorImm _ rm | .movRmImm _ rm | .testImm _ rm => rm.wellFormed
  | .movRmSreg _ rm | .popRm rm | .callRm rm | .jmpRm rm | .pushRm rm => rm.wellFormed
  | .lea _ m | .les _ m | .lds _ m | .callFarMem m | .jmpFarMem m => m.wellFormed
  | .rol _ _ rm | .ror _ _ rm | .rcl _ _ rm | .rcr _ _ rm
  | .shl _ _ rm | .shr _ _ rm | .sar _ _ rm => rm.wellFormed
  | .esc _ rm => rm.wellFormed
  | .notRm _ rm | .negRm _ rm | .mulRm _ rm | .imulRm _ rm | .divRm _ rm | .idivRm _ rm
  | .incRm _ rm | .decRm _ rm => rm.wellFormed
  | .addAcc _ | .orAcc _ | .adcAcc _ | .sbbAcc _ | .andAcc _ | .subAcc _ | .xorAcc _ | .cmpAcc _
  | .testAcc _ => true
  | .pushSreg _ | .segOverride _ | .daa | .das | .aaa | .aas => true
  | .incReg _ | .decReg _ | .pushReg _ | .popReg _ => true
  | .jo _ | .jno _ | .jb _ | .jae _ | .je _ | .jne _ | .jbe _ | .ja _ => true
  | .js _ | .jns _ | .jp _ | .jnp _ | .jl _ | .jge _ | .jle _ | .jg _ => true
  | .nop | .cbw | .cwd | .callFar _ _ | .wait | .pushf | .popf | .sahf | .lahf => true
  | .movAccMoffs _ _ | .movMoffsAcc _ _ => true
  | .movs _ | .cmps _ | .stos _ | .lods _ | .scas _ => true
  | .movRegImm _ _ | .retImm _ | .ret | .retfImm _ | .retf => true
  | .int3 | .intN _ | .into | .iret => true
  | .aam | .aad | .xlat => true
  | .loopne _ | .loope _ | .loop _ | .jcxz _ => true
  | .inImm _ _ | .outImm _ _ | .inDx _ | .outDx _ => true
  | .callRel _ | .jmpRel16 _ | .jmpFar _ _ | .jmpRel8 _ => true
  | .lock | .repne | .rep | .hlt | .cmc => true
  | .clc | .stc | .cli | .sti | .cld | .std => true

end Sys2Proof
end

