-- ==== Sys2Proof/Decode.lean ====
section
/-! DEFINITION. The decoder and the encoder (spec/30_encoding.md R101 to R122). `decodeRow` reads one
row of spec/opcode_table.json, `decode` a whole instruction with its prefixes; both are total, and
reject by name. -/

namespace Sys2Proof

/-! ## Kinds of instruction -/

/-- One of the four rows of format `F_PREFIX` (R102, R122). -/
def Instr.isPrefix : Instr → Bool
  | .segOverride _ | .lock | .repne | .rep => true
  | _ => false

/-- A string instruction: what a repeat prefix may stand before (R102, R261). -/
def Instr.isString : Instr → Bool
  | .movs _ | .cmps _ | .stos _ | .lods _ | .scas _ => true
  | _ => false

/-- The `r/m` operand is memory. -/
def RM.isMem : RM → Bool
  | .reg _ => false
  | .mem _ => true

/-- The instruction has a memory operand, so that LOCK may stand before it (R102, R291). Implicit
stack accesses are not operands; XLAT's table byte and the string elements are (R83, R268). DEDUCED,
log entry 21. -/
def Instr.hasMemOperand : Instr → Bool
  | .addRm _ _ _ rm | .orRm _ _ _ rm | .adcRm _ _ _ rm | .sbbRm _ _ _ rm
  | .andRm _ _ _ rm | .subRm _ _ _ rm | .xorRm _ _ _ rm | .cmpRm _ _ _ rm
  | .movRm _ _ _ rm => rm.isMem
  | .testRm _ _ rm | .xchgRm _ _ rm => rm.isMem
  | .addImm _ rm | .adcImm _ rm | .sbbImm _ rm | .subImm _ rm | .cmpImm _ rm => rm.isMem
  | .orImm _ rm | .andImm _ rm | .xorImm _ rm | .movRmImm _ rm | .testImm _ rm => rm.isMem
  | .movRmSreg _ rm | .movSregRm _ rm => rm.isMem
  | .popRm rm | .callRm rm | .jmpRm rm | .pushRm rm => rm.isMem
  | .lea _ _ | .les _ _ | .lds _ _ | .callFarMem _ | .jmpFarMem _ => true
  | .rol _ _ rm | .ror _ _ rm | .rcl _ _ rm | .rcr _ _ rm
  | .shl _ _ rm | .shr _ _ rm | .sar _ _ rm => rm.isMem
  | .esc _ rm => rm.isMem
  | .notRm _ rm | .negRm _ rm | .mulRm _ rm | .imulRm _ rm | .divRm _ rm | .idivRm _ rm
  | .incRm _ rm | .decRm _ rm => rm.isMem
  | .movAccMoffs _ _ | .movMoffsAcc _ _ | .xlat => true
  | .movs _ | .cmps _ | .stos _ | .lods _ | .scas _ => true
  | _ => false

/-! ## Reading fields -/

/-- Why bytes spell no instruction. The model gives such bytes no meaning (R102, R131). -/
inductive DecodeError where
  /-- The bytes end inside the instruction. Raised only on a list that is too short: the machine
  fetches as many bytes as the longest instruction has. Safe. -/
  | truncated
  /-- No row of the table matches: the encodings of R131. Safe: the hardware does something that no
  document describes. -/
  | unassigned
  /-- Two prefixes of one kind before one instruction (R102, D34). Safe. -/
  | duplicatePrefix
  /-- A repeat prefix before an instruction that is not a string instruction (R102). Safe. -/
  | repeatBeforeNonString
  /-- A LOCK prefix before an instruction that has no memory operand (R102, D23). Safe. -/
  | lockWithoutMemory
deriving DecidableEq, Repr

/-- What reading one row gives: the instruction and the bytes after it, or why there is none. -/
abbrev RowResult := Except DecodeError (Instr × List Byte)

/-- Read one byte of the instruction. -/
def take8 (bs : List Byte) (k : Byte → List Byte → RowResult) : RowResult :=
  match bs with
  | b :: rest => k b rest
  | [] => .error .truncated

/-- Read a two-byte field, low byte first (R63, R101). -/
def take16 (bs : List Byte) (k : Word → List Byte → RowResult) : RowResult :=
  match bs with
  | lo :: hi :: rest => k (wordOf lo hi) rest
  | _ => .error .truncated

/-- Read an immediate of a width (R105). -/
def takeImm (w : Width) (bs : List Byte) (k : Imm → List Byte → RowResult) : RowResult :=
  match w with
  | .byte => take8 bs fun v rest => k (.b v) rest
  | .word => take16 bs fun v rest => k (.w v) rest

/-- Read a ModRM byte and its displacement (R104): the `reg` field and the `r/m` operand. -/
def takeModRM (bs : List Byte) (k : Nat → RM → List Byte → RowResult) : RowResult :=
  take8 bs fun b rest =>
    let reg := (b.extractLsb' 3 3).toNat
    let rm := (b.extractLsb' 0 3).toNat
    match (b.extractLsb' 6 2).toNat with
    | 0 =>
      if rm = 6 then take16 rest fun off rest => k reg (.mem (.direct off)) rest
      else k reg (.mem (.plain (EaBase.ofNum rm))) rest
    | 1 => take8 rest fun d rest => k reg (.mem (.disp8 (EaBase.ofNum rm) d)) rest
    | 2 => take16 rest fun d rest => k reg (.mem (.disp16 (EaBase.ofNum rm) d)) rest
    | _ => k reg (.reg (RegNum.ofNum rm)) rest

/-- Read a ModRM byte whose `reg` field names a register. -/
def takeRegRM (bs : List Byte) (k : RegNum → RM → Instr) : RowResult :=
  takeModRM bs fun reg rm rest => .ok (k (RegNum.ofNum reg) rm, rest)

/-- Read a ModRM byte whose `r/m` must be memory: `mod = 11` spells no instruction (R118, R131). -/
def takeMem (bs : List Byte) (k : Reg16 → Mem → Instr) : RowResult :=
  takeModRM bs fun reg rm rest =>
    match rm with
    | .mem m => .ok (k (Reg16.ofNum reg) m, rest)
    | .reg _ => .error .unassigned

/-- Read a far pointer: offset, then segment (R106). -/
def takeFar (bs : List Byte) (k : Word → Word → Instr) : RowResult :=
  take16 bs fun off rest => take16 rest fun seg rest => .ok (k off seg, rest)

/-- The two-operand instruction of an operation number, ModRM form (R111). -/
def aluRm (op : Nat) (d : Dir) (w : Width) (reg : RegNum) (rm : RM) : Instr :=
  match op with
  | 0 => .addRm d w reg rm
  | 1 => .orRm d w reg rm
  | 2 => .adcRm d w reg rm
  | 3 => .sbbRm d w reg rm
  | 4 => .andRm d w reg rm
  | 5 => .subRm d w reg rm
  | 6 => .xorRm d w reg rm
  | _ => .cmpRm d w reg rm

/-- The two-operand instruction of an operation number, accumulator and immediate (R111). -/
def aluAcc (op : Nat) (imm : Imm) : Instr :=
  match op with
  | 0 => .addAcc imm
  | 1 => .orAcc imm
  | 2 => .adcAcc imm
  | 3 => .sbbAcc imm
  | 4 => .andAcc imm
  | 5 => .subAcc imm
  | 6 => .xorAcc imm
  | _ => .cmpAcc imm

/-- 00H to 3FH (R111): `op` is bits 5:3 of the opcode and `lo` bits 2:0. -/
def row00 (op lo : Nat) (bs : List Byte) : RowResult :=
  match lo with
  | 0 => takeRegRM bs (aluRm op .toRm .byte)
  | 1 => takeRegRM bs (aluRm op .toRm .word)
  | 2 => takeRegRM bs (aluRm op .toReg .byte)
  | 3 => takeRegRM bs (aluRm op .toReg .word)
  | 4 => take8 bs fun v rest => .ok (aluAcc op (.b v), rest)
  | 5 => take16 bs fun v rest => .ok (aluAcc op (.w v), rest)
  | 6 =>
    match op with
    | 0 => .ok (.pushSreg .es, bs)
    | 1 => .ok (.pushSreg .cs, bs)
    | 2 => .ok (.pushSreg .ss, bs)
    | 3 => .ok (.pushSreg .ds, bs)
    | 4 => .ok (.segOverride .es, bs)
    | 5 => .ok (.segOverride .cs, bs)
    | 6 => .ok (.segOverride .ss, bs)
    | _ => .ok (.segOverride .ds, bs)
  | _ =>
    match op with
    | 0 => .ok (.popSreg .es, bs)
    | 1 => .error .unassigned
    | 2 => .ok (.popSreg .ss, bs)
    | 3 => .ok (.popSreg .ds, bs)
    | 4 => .ok (.daa, bs)
    | 5 => .ok (.das, bs)
    | 6 => .ok (.aaa, bs)
    | _ => .ok (.aas, bs)

/-- 70H to 7FH (R113): the conditional jumps, by condition number. -/
def row70 (c : Nat) (bs : List Byte) : RowResult :=
  take8 bs fun d rest =>
    match c with
    | 0 => .ok (.jo d, rest)
    | 1 => .ok (.jno d, rest)
    | 2 => .ok (.jb d, rest)
    | 3 => .ok (.jae d, rest)
    | 4 => .ok (.je d, rest)
    | 5 => .ok (.jne d, rest)
    | 6 => .ok (.jbe d, rest)
    | 7 => .ok (.ja d, rest)
    | 8 => .ok (.js d, rest)
    | 9 => .ok (.jns d, rest)
    | 10 => .ok (.jp d, rest)
    | 11 => .ok (.jnp d, rest)
    | 12 => .ok (.jl d, rest)
    | 13 => .ok (.jge d, rest)
    | 14 => .ok (.jle d, rest)
    | _ => .ok (.jg d, rest)

/-- The group 80H and 81H with an immediate at the width of the operation: every `/n` (R114). -/
def groupFull (g : GroupImm) (imm : Imm) (n : Nat) (rm : RM) (rest : List Byte) : RowResult :=
  match n with
  | 0 => .ok (.addImm g rm, rest)
  | 1 => .ok (.orImm imm rm, rest)
  | 2 => .ok (.adcImm g rm, rest)
  | 3 => .ok (.sbbImm g rm, rest)
  | 4 => .ok (.andImm imm rm, rest)
  | 5 => .ok (.subImm g rm, rest)
  | 6 => .ok (.xorImm imm rm, rest)
  | _ => .ok (.cmpImm g rm, rest)

/-- The group 82H and 83H: /1, /4 and /6 are not documented (R114, R131). -/
def groupShort (g : GroupImm) (n : Nat) (rm : RM) (rest : List Byte) : RowResult :=
  match n with
  | 0 => .ok (.addImm g rm, rest)
  | 2 => .ok (.adcImm g rm, rest)
  | 3 => .ok (.sbbImm g rm, rest)
  | 5 => .ok (.subImm g rm, rest)
  | 7 => .ok (.cmpImm g rm, rest)
  | _ => .error .unassigned

/-- 80H to 8FH (R114). -/
def row80 (lo : Nat) (bs : List Byte) : RowResult :=
  match lo with
  | 0 => takeModRM bs fun n rm rest => take8 rest fun v rest => groupFull (.eb v) (.b v) n rm rest
  | 1 => takeModRM bs fun n rm rest => take16 rest fun v rest => groupFull (.ew v) (.w v) n rm rest
  | 2 => takeModRM bs fun n rm rest => take8 rest fun v rest => groupShort (.ebTwin v) n rm rest
  | 3 => takeModRM bs fun n rm rest => take8 rest fun v rest => groupShort (.ewSigned v) n rm rest
  | 4 => takeRegRM bs (.testRm .byte)
  | 5 => takeRegRM bs (.testRm .word)
  | 6 => takeRegRM bs (.xchgRm .byte)
  | 7 => takeRegRM bs (.xchgRm .word)
  | 8 => takeRegRM bs (.movRm .toRm .byte)
  | 9 => takeRegRM bs (.movRm .toRm .word)
  | 10 => takeRegRM bs (.movRm .toReg .byte)
  | 11 => takeRegRM bs (.movRm .toReg .word)
  | 12 => takeModRM bs fun n rm rest =>
      if n < 4 then .ok (.movRmSreg (SegReg.ofNum n) rm, rest) else .error .unassigned
  | 13 => takeMem bs .lea
  | 14 => takeModRM bs fun n rm rest =>
      if n < 4 ∧ n ≠ 1 then .ok (.movSregRm (SegReg.ofNum n) rm, rest) else .error .unassigned
  | _ => takeModRM bs fun n rm rest =>
      if n = 0 then .ok (.popRm rm, rest) else .error .unassigned

/-- 90H to 9FH (R115). -/
def row90 (lo : Nat) (bs : List Byte) : RowResult :=
  match lo with
  | 0 => .ok (.nop, bs)
  | 8 => .ok (.cbw, bs)
  | 9 => .ok (.cwd, bs)
  | 10 => takeFar bs .callFar
  | 11 => .ok (.wait, bs)
  | 12 => .ok (.pushf, bs)
  | 13 => .ok (.popf, bs)
  | 14 => .ok (.sahf, bs)
  | 15 => .ok (.lahf, bs)
  | n => .ok (.xchgAcc (Reg16.ofNum n), bs)

/-- A0H to AFH (R107, R116). -/
def rowA0 (lo : Nat) (bs : List Byte) : RowResult :=
  match lo with
  | 0 => take16 bs fun a rest => .ok (.movAccMoffs .byte a, rest)
  | 1 => take16 bs fun a rest => .ok (.movAccMoffs .word a, rest)
  | 2 => take16 bs fun a rest => .ok (.movMoffsAcc .byte a, rest)
  | 3 => take16 bs fun a rest => .ok (.movMoffsAcc .word a, rest)
  | 4 => .ok (.movs .byte, bs)
  | 5 => .ok (.movs .word, bs)
  | 6 => .ok (.cmps .byte, bs)
  | 7 => .ok (.cmps .word, bs)
  | 8 => take8 bs fun v rest => .ok (.testAcc (.b v), rest)
  | 9 => take16 bs fun v rest => .ok (.testAcc (.w v), rest)
  | 10 => .ok (.stos .byte, bs)
  | 11 => .ok (.stos .word, bs)
  | 12 => .ok (.lods .byte, bs)
  | 13 => .ok (.lods .word, bs)
  | 14 => .ok (.scas .byte, bs)
  | _ => .ok (.scas .word, bs)

/-- C0H to CFH (R118). -/
def rowC0 (lo : Nat) (bs : List Byte) : RowResult :=
  match lo with
  | 2 => take16 bs fun v rest => .ok (.retImm v, rest)
  | 3 => .ok (.ret, bs)
  | 4 => takeMem bs .les
  | 5 => takeMem bs .lds
  | 6 => takeModRM bs fun n rm rest => take8 rest fun v rest =>
      if n = 0 then .ok (.movRmImm (.b v) rm, rest) else .error .unassigned
  | 7 => takeModRM bs fun n rm rest => take16 rest fun v rest =>
      if n = 0 then .ok (.movRmImm (.w v) rm, rest) else .error .unassigned
  | 10 => take16 bs fun v rest => .ok (.retfImm v, rest)
  | 11 => .ok (.retf, bs)
  | 12 => .ok (.int3, bs)
  | 13 => take8 bs fun t rest => .ok (.intN t, rest)
  | 14 => .ok (.into, bs)
  | 15 => .ok (.iret, bs)
  | _ => .error .unassigned

/-- The shifts and rotates D0H to D3H, by `/n` (R119). -/
def shiftGroup (cnt : ShiftCount) (w : Width) (bs : List Byte) : RowResult :=
  takeModRM bs fun n rm rest =>
    match n with
    | 0 => .ok (.rol cnt w rm, rest)
    | 1 => .ok (.ror cnt w rm, rest)
    | 2 => .ok (.rcl cnt w rm, rest)
    | 3 => .ok (.rcr cnt w rm, rest)
    | 4 => .ok (.shl cnt w rm, rest)
    | 5 => .ok (.shr cnt w rm, rest)
    | 7 => .ok (.sar cnt w rm, rest)
    | _ => .error .unassigned

/-- ESC (R110 `F_ESC`, R119): the 6-bit code is `xxx ++ yyy`. -/
def escRow (xxx : Nat) (bs : List Byte) : RowResult :=
  takeModRM bs fun yyy rm rest => .ok (.esc (BitVec.ofNat 6 (8 * xxx + yyy)) rm, rest)

/-- D0H to DFH (R119). -/
def rowD0 (lo : Nat) (bs : List Byte) : RowResult :=
  match lo with
  | 0 => shiftGroup .one .byte bs
  | 1 => shiftGroup .one .word bs
  | 2 => shiftGroup .cl .byte bs
  | 3 => shiftGroup .cl .word bs
  | 4 => take8 bs fun b rest => if b = 0x0A#8 then .ok (.aam, rest) else .error .unassigned
  | 5 => take8 bs fun b rest => if b = 0x0A#8 then .ok (.aad, rest) else .error .unassigned
  | 6 => .error .unassigned
  | 7 => .ok (.xlat, bs)
  | n => escRow (n - 8) bs

/-- E0H to EFH (R120). -/
def rowE0 (lo : Nat) (bs : List Byte) : RowResult :=
  match lo with
  | 0 => take8 bs fun d rest => .ok (.loopne d, rest)
  | 1 => take8 bs fun d rest => .ok (.loope d, rest)
  | 2 => take8 bs fun d rest => .ok (.loop d, rest)
  | 3 => take8 bs fun d rest => .ok (.jcxz d, rest)
  | 4 => take8 bs fun p rest => .ok (.inImm .byte p, rest)
  | 5 => take8 bs fun p rest => .ok (.inImm .word p, rest)
  | 6 => take8 bs fun p rest => .ok (.outImm .byte p, rest)
  | 7 => take8 bs fun p rest => .ok (.outImm .word p, rest)
  | 8 => take16 bs fun d rest => .ok (.callRel d, rest)
  | 9 => take16 bs fun d rest => .ok (.jmpRel16 d, rest)
  | 10 => takeFar bs .jmpFar
  | 11 => take8 bs fun d rest => .ok (.jmpRel8 d, rest)
  | 12 => .ok (.inDx .byte, bs)
  | 13 => .ok (.inDx .word, bs)
  | 14 => .ok (.outDx .byte, bs)
  | _ => .ok (.outDx .word, bs)

/-- The group F6H and F7H, by `/n`: only /0 has an immediate (R108, R121). -/
def unaryGroup (w : Width) (bs : List Byte) : RowResult :=
  takeModRM bs fun n rm rest =>
    match n with
    | 0 => takeImm w rest fun imm rest => .ok (.testImm imm rm, rest)
    | 2 => .ok (.notRm w rm, rest)
    | 3 => .ok (.negRm w rm, rest)
    | 4 => .ok (.mulRm w rm, rest)
    | 5 => .ok (.imulRm w rm, rest)
    | 6 => .ok (.divRm w rm, rest)
    | 7 => .ok (.idivRm w rm, rest)
    | _ => .error .unassigned

/-- The group FFH, by `/n` (R121): /3 and /5 need memory. -/
def groupFF (bs : List Byte) : RowResult :=
  takeModRM bs fun n rm rest =>
    match n with
    | 0 => .ok (.incRm .word rm, rest)
    | 1 => .ok (.decRm .word rm, rest)
    | 2 => .ok (.callRm rm, rest)
    | 3 => match rm with
      | .mem m => .ok (.callFarMem m, rest)
      | .reg _ => .error .unassigned
    | 4 => .ok (.jmpRm rm, rest)
    | 5 => match rm with
      | .mem m => .ok (.jmpFarMem m, rest)
      | .reg _ => .error .unassigned
    | 6 => .ok (.pushRm rm, rest)
    | _ => .error .unassigned

/-- F0H to FFH (R121). -/
def rowF0 (lo : Nat) (bs : List Byte) : RowResult :=
  match lo with
  | 0 => .ok (.lock, bs)
  | 1 => .error .unassigned
  | 2 => .ok (.repne, bs)
  | 3 => .ok (.rep, bs)
  | 4 => .ok (.hlt, bs)
  | 5 => .ok (.cmc, bs)
  | 6 => unaryGroup .byte bs
  | 7 => unaryGroup .word bs
  | 8 => .ok (.clc, bs)
  | 9 => .ok (.stc, bs)
  | 10 => .ok (.cli, bs)
  | 11 => .ok (.sti, bs)
  | 12 => .ok (.cld, bs)
  | 13 => .ok (.std, bs)
  | 14 => takeModRM bs fun n rm rest =>
      match n with
      | 0 => .ok (.incRm .byte rm, rest)
      | 1 => .ok (.decRm .byte rm, rest)
      | _ => .error .unassigned
  | _ => groupFF bs

/-- Read one row of the opcode table (R111 to R121): the instruction of the row and the bytes after
it. A prefix byte is a row of its own here. -/
def decodeRow (bs : List Byte) : RowResult :=
  match bs with
  | [] => .error .truncated
  | b :: rest =>
    let lo := b.toNat % 16
    match b.toNat / 16 with
    | 0 | 1 | 2 | 3 => row00 (b.toNat / 8) (b.toNat % 8) rest
    | 4 => if lo < 8 then .ok (.incReg (Reg16.ofNum lo), rest)
           else .ok (.decReg (Reg16.ofNum (lo - 8)), rest)
    | 5 => if lo < 8 then .ok (.pushReg (Reg16.ofNum lo), rest)
           else .ok (.popReg (Reg16.ofNum (lo - 8)), rest)
    | 6 => .error .unassigned
    | 7 => row70 lo rest
    | 8 => row80 lo rest
    | 9 => row90 lo rest
    | 10 => rowA0 lo rest
    | 11 => if lo < 8 then take8 rest fun v rest => .ok (.movRegImm (RegNum.ofNum lo) (.b v), rest)
            else take16 rest fun v rest => .ok (.movRegImm (RegNum.ofNum (lo - 8)) (.w v), rest)
    | 12 => rowC0 lo rest
    | 13 => rowD0 lo rest
    | 14 => rowE0 lo rest
    | _ => rowF0 lo rest

/-- An instruction read whole: its prefix rows in the order they stand, the row they belong to, and
the number of its bytes, prefixes included (R101, R108). -/
structure Decoded where
  prefixes : List Instr
  instr : Instr
  length : Nat
deriving DecidableEq, Repr

/-- Two prefixes of one kind: segment override, repeat, or lock (R102). -/
def samePrefixKind (a b : Instr) : Bool :=
  match a, b with
  | .segOverride _, .segOverride _ => true
  | .lock, .lock => true
  | .rep, .rep | .rep, .repne | .repne, .rep | .repne, .repne => true
  | _, _ => false

/-- One of the two repeat prefixes. -/
def Instr.isRepeatPrefix : Instr → Bool
  | .rep | .repne => true
  | _ => false

/-- What R102 says of an instruction with prefixes: a repeat prefix needs a string instruction, LOCK
needs a memory operand. -/
def checkPrefixes (prefixes : List Instr) (i : Instr) : Option DecodeError :=
  if prefixes.any Instr.isRepeatPrefix && !i.isString then some .repeatBeforeNonString
  else if prefixes.contains .lock && !i.hasMemOperand then some .lockWithoutMemory
  else none

/-- The length of the longest instruction: three prefixes and six bytes (R101, R102). -/
def maxLength : Nat := 9

/-- Read prefix rows and then the row they belong to; `seen` are the prefixes read so far, in order.
There is at most one prefix of each of the three kinds, so three rows of fuel reach every instruction
and the fourth ends it. -/
def decodeFrom (fuel : Nat) (seen : List Instr) (total : Nat) (bs : List Byte) :
    Except DecodeError Decoded :=
  match decodeRow bs with
  | .error e => .error e
  | .ok (i, rest) =>
    if i.isPrefix then
      if seen.any (samePrefixKind i) then .error .duplicatePrefix
      else match fuel with
        | 0 => .error .duplicatePrefix
        | fuel + 1 => decodeFrom fuel (seen ++ [i]) total rest
    else match checkPrefixes seen i with
      | some e => .error e
      | none => .ok ⟨seen, i, total - rest.length⟩

/-- Read the instruction that the bytes begin with (R101, R102, R108). -/
def decode (bs : List Byte) : Except DecodeError Decoded := decodeFrom 3 [] bs.length bs

/-! ## The encoder -/

/-- A word field of the instruction, low byte first (R63, R101). -/
def bytes16 (v : Word) : List Byte := [loByte v, hiByte v]

/-- An immediate field (R105). -/
def bytesImm : Imm → List Byte
  | .b v => [v]
  | .w v => bytes16 v

/-- The byte of a number below 256. -/
def byteOf (n : Nat) : Byte := BitVec.ofNat 8 n

/-- The ModRM byte of its three fields (R104). -/
def modrm (mod reg rm : Nat) : Byte := byteOf (64 * mod + 8 * reg + rm)

/-- The ModRM byte and displacement of a memory operand (R104). -/
def encodeMem (reg : Nat) : Mem → List Byte
  | .direct off => modrm 0 reg 6 :: bytes16 off
  | .plain base => [modrm 0 reg base.num]
  | .disp8 base d => [modrm 1 reg base.num, d]
  | .disp16 base d => modrm 2 reg base.num :: bytes16 d

/-- The ModRM byte and displacement of an `r/m` operand (R104). -/
def encodeRM (reg : Nat) : RM → List Byte
  | .reg i => [modrm 3 reg i.num]
  | .mem m => encodeMem reg m

/-- `B+0` to `B+3` of R111: opcode bits 5:3 are the operation, bit 1 is `d`, bit 0 is `w`. -/
def encodeAluRm (op : Nat) (d : Dir) (w : Width) (reg : RegNum) (rm : RM) : List Byte :=
  byteOf (8 * op + 2 * d.bit + w.bit) :: encodeRM reg.num rm

/-- `B+4` and `B+5` of R111. -/
def encodeAluAcc (op : Nat) (imm : Imm) : List Byte :=
  byteOf (8 * op + 4 + imm.width.bit) :: bytesImm imm

/-- The opcode of the group 80H to 83H and its immediate (R114). -/
def encodeGroup (n : Nat) (g : GroupImm) (rm : RM) : List Byte :=
  match g with
  | .eb v => 0x80#8 :: encodeRM n rm ++ [v]
  | .ew v => 0x81#8 :: encodeRM n rm ++ bytes16 v
  | .ebTwin v => 0x82#8 :: encodeRM n rm ++ [v]
  | .ewSigned v => 0x83#8 :: encodeRM n rm ++ [v]

/-- An opcode with `w` in bit 0, a ModRM byte with a fixed `reg` field, and an immediate. -/
def encodeRmImm (opcode n : Nat) (imm : Imm) (rm : RM) : List Byte :=
  byteOf (opcode + imm.width.bit) :: encodeRM n rm ++ bytesImm imm

/-- D0H to D3H (R119). -/
def encodeShift (n : Nat) (cnt : ShiftCount) (w : Width) (rm : RM) : List Byte :=
  byteOf (0xD0 + 2 * cnt.bit + w.bit) :: encodeRM n rm

/-- An opcode with `w` in bit 0 and a ModRM byte with a fixed `reg` field. -/
def encodeUnary (opcode n : Nat) (w : Width) (rm : RM) : List Byte :=
  byteOf (opcode + w.bit) :: encodeRM n rm

/-- The bytes of one row of the table (R110 to R121). -/
def encode : Instr → List Byte
  | .addRm d w reg rm => encodeAluRm 0 d w reg rm
  | .addAcc imm => encodeAluAcc 0 imm
  | .orRm d w reg rm => encodeAluRm 1 d w reg rm
  | .orAcc imm => encodeAluAcc 1 imm
  | .adcRm d w reg rm => encodeAluRm 2 d w reg rm
  | .adcAcc imm => encodeAluAcc 2 imm
  | .sbbRm d w reg rm => encodeAluRm 3 d w reg rm
  | .sbbAcc imm => encodeAluAcc 3 imm
  | .andRm d w reg rm => encodeAluRm 4 d w reg rm
  | .andAcc imm => encodeAluAcc 4 imm
  | .subRm d w reg rm => encodeAluRm 5 d w reg rm
  | .subAcc imm => encodeAluAcc 5 imm
  | .xorRm d w reg rm => encodeAluRm 6 d w reg rm
  | .xorAcc imm => encodeAluAcc 6 imm
  | .cmpRm d w reg rm => encodeAluRm 7 d w reg rm
  | .cmpAcc imm => encodeAluAcc 7 imm
  | .pushSreg sr => [byteOf (0x06 + 8 * sr.num)]
  | .popSreg sr => [byteOf (0x07 + 8 * sr.num)]
  | .segOverride sr => [byteOf (0x26 + 8 * sr.num)]
  | .daa => [0x27#8]
  | .das => [0x2F#8]
  | .aaa => [0x37#8]
  | .aas => [0x3F#8]
  | .incReg r => [byteOf (0x40 + r.num)]
  | .decReg r => [byteOf (0x48 + r.num)]
  | .pushReg r => [byteOf (0x50 + r.num)]
  | .popReg r => [byteOf (0x58 + r.num)]
  | .jo d => [0x70#8, d]
  | .jno d => [0x71#8, d]
  | .jb d => [0x72#8, d]
  | .jae d => [0x73#8, d]
  | .je d => [0x74#8, d]
  | .jne d => [0x75#8, d]
  | .jbe d => [0x76#8, d]
  | .ja d => [0x77#8, d]
  | .js d => [0x78#8, d]
  | .jns d => [0x79#8, d]
  | .jp d => [0x7A#8, d]
  | .jnp d => [0x7B#8, d]
  | .jl d => [0x7C#8, d]
  | .jge d => [0x7D#8, d]
  | .jle d => [0x7E#8, d]
  | .jg d => [0x7F#8, d]
  | .addImm g rm => encodeGroup 0 g rm
  | .orImm imm rm => encodeRmImm 0x80 1 imm rm
  | .adcImm g rm => encodeGroup 2 g rm
  | .sbbImm g rm => encodeGroup 3 g rm
  | .andImm imm rm => encodeRmImm 0x80 4 imm rm
  | .subImm g rm => encodeGroup 5 g rm
  | .xorImm imm rm => encodeRmImm 0x80 6 imm rm
  | .cmpImm g rm => encodeGroup 7 g rm
  | .testRm w reg rm => encodeUnary 0x84 reg.num w rm
  | .xchgRm w reg rm => encodeUnary 0x86 reg.num w rm
  | .movRm d w reg rm => byteOf (0x88 + 2 * d.bit + w.bit) :: encodeRM reg.num rm
  | .movRmSreg sr rm => 0x8C#8 :: encodeRM sr.num rm
  | .lea r m => 0x8D#8 :: encodeMem r.num m
  | .movSregRm sr rm => 0x8E#8 :: encodeRM sr.num rm
  | .popRm rm => 0x8F#8 :: encodeRM 0 rm
  | .nop => [0x90#8]
  | .xchgAcc r => [byteOf (0x90 + r.num)]
  | .cbw => [0x98#8]
  | .cwd => [0x99#8]
  | .callFar off seg => 0x9A#8 :: bytes16 off ++ bytes16 seg
  | .wait => [0x9B#8]
  | .pushf => [0x9C#8]
  | .popf => [0x9D#8]
  | .sahf => [0x9E#8]
  | .lahf => [0x9F#8]
  | .movAccMoffs w a => byteOf (0xA0 + w.bit) :: bytes16 a
  | .movMoffsAcc w a => byteOf (0xA2 + w.bit) :: bytes16 a
  | .movs w => [byteOf (0xA4 + w.bit)]
  | .cmps w => [byteOf (0xA6 + w.bit)]
  | .testAcc imm => byteOf (0xA8 + imm.width.bit) :: bytesImm imm
  | .stos w => [byteOf (0xAA + w.bit)]
  | .lods w => [byteOf (0xAC + w.bit)]
  | .scas w => [byteOf (0xAE + w.bit)]
  | .movRegImm reg imm => byteOf (0xB0 + 8 * imm.width.bit + reg.num) :: bytesImm imm
  | .retImm v => 0xC2#8 :: bytes16 v
  | .ret => [0xC3#8]
  | .les r m => 0xC4#8 :: encodeMem r.num m
  | .lds r m => 0xC5#8 :: encodeMem r.num m
  | .movRmImm imm rm => encodeRmImm 0xC6 0 imm rm
  | .retfImm v => 0xCA#8 :: bytes16 v
  | .retf => [0xCB#8]
  | .int3 => [0xCC#8]
  | .intN t => [0xCD#8, t]
  | .into => [0xCE#8]
  | .iret => [0xCF#8]
  | .rol cnt w rm => encodeShift 0 cnt w rm
  | .ror cnt w rm => encodeShift 1 cnt w rm
  | .rcl cnt w rm => encodeShift 2 cnt w rm
  | .rcr cnt w rm => encodeShift 3 cnt w rm
  | .shl cnt w rm => encodeShift 4 cnt w rm
  | .shr cnt w rm => encodeShift 5 cnt w rm
  | .sar cnt w rm => encodeShift 7 cnt w rm
  | .aam => [0xD4#8, 0x0A#8]
  | .aad => [0xD5#8, 0x0A#8]
  | .xlat => [0xD7#8]
  | .esc code rm => byteOf (0xD8 + code.toNat / 8) :: encodeRM (code.toNat % 8) rm
  | .loopne d => [0xE0#8, d]
  | .loope d => [0xE1#8, d]
  | .loop d => [0xE2#8, d]
  | .jcxz d => [0xE3#8, d]
  | .inImm w p => [byteOf (0xE4 + w.bit), p]
  | .outImm w p => [byteOf (0xE6 + w.bit), p]
  | .callRel d => 0xE8#8 :: bytes16 d
  | .jmpRel16 d => 0xE9#8 :: bytes16 d
  | .jmpFar off seg => 0xEA#8 :: bytes16 off ++ bytes16 seg
  | .jmpRel8 d => [0xEB#8, d]
  | .inDx w => [byteOf (0xEC + w.bit)]
  | .outDx w => [byteOf (0xEE + w.bit)]
  | .lock => [0xF0#8]
  | .repne => [0xF2#8]
  | .rep => [0xF3#8]
  | .hlt => [0xF4#8]
  | .cmc => [0xF5#8]
  | .testImm imm rm => encodeRmImm 0xF6 0 imm rm
  | .notRm w rm => encodeUnary 0xF6 2 w rm
  | .negRm w rm => encodeUnary 0xF6 3 w rm
  | .mulRm w rm => encodeUnary 0xF6 4 w rm
  | .imulRm w rm => encodeUnary 0xF6 5 w rm
  | .divRm w rm => encodeUnary 0xF6 6 w rm
  | .idivRm w rm => encodeUnary 0xF6 7 w rm
  | .clc => [0xF8#8]
  | .stc => [0xF9#8]
  | .cli => [0xFA#8]
  | .sti => [0xFB#8]
  | .cld => [0xFC#8]
  | .std => [0xFD#8]
  | .incRm w rm => encodeUnary 0xFE 0 w rm
  | .decRm w rm => encodeUnary 0xFE 1 w rm
  | .callRm rm => 0xFF#8 :: encodeRM 2 rm
  | .callFarMem m => 0xFF#8 :: encodeMem 3 m
  | .jmpRm rm => 0xFF#8 :: encodeRM 4 rm
  | .jmpFarMem m => 0xFF#8 :: encodeMem 5 m
  | .pushRm rm => 0xFF#8 :: encodeRM 6 rm

/-- The bytes of an instruction with its prefixes (R101, R102). -/
def encodeWith (prefixes : List Instr) (i : Instr) : List Byte :=
  prefixes.flatMap encode ++ encode i

/-! ## The host's numbering -/

/-- The bytes of an instruction whose bits spec/opcode_table.json numbers as `w` (R122): the table's
unit is the byte pair `b0 * 256 + b1`, so the byte at an even place is the high half of its pair.
Every bit above `nbits` is 0. DEDUCED, log entry 25. -/
def tableBytes (nbits w : Nat) : List Byte :=
  (List.range maxLength).map fun k =>
    if nbits ≤ 8 then (if k = 0 then byteOf (w % 256) else 0#8)
    else byteOf (w % 2 ^ nbits / 2 ^ (16 * (k / 2)) % 65536 / (if k % 2 = 0 then 256 else 1) % 256)

/-- The instruction the decoder reads from a word of the opcode table, the bits above it 0. A prefix
byte is read as its own row. -/
def decodeTableWord (nbits w : Nat) : Option Instr :=
  match decodeRow (tableBytes nbits w) with
  | .ok (i, _) => some i
  | .error _ => none

end Sys2Proof
end

