-- ==== Sys2Proof/Machine/State.lean ====
section
/-! DEFINITION. The state of the machine (spec/10_state.md R20 to R39, R50), the two ways a step can
stop, and the state after reset. Every field is plain data. INVENTORY.md lists each with its rule. -/

namespace Sys2Proof.Machine

/-- The ways the machine can stop with a fault: none. The 8086 has no condition that stops it: no
memory access faults (R62, R68), no address is missing (R60, R73), and what the hardware detects it
turns into an interrupt (R352). -/
inductive Fault where
deriving DecidableEq, Repr

/-- Why the model gives a step no meaning. -/
inductive Refusal where
  /-- Raised by `exec` for an instruction whose meaning is not written. No arm raises it. Safe. -/
  | notModelled (mnemonic : String)
  /-- Raised by the fetch: the bytes at CS:IP spell no instruction of this spec (R102, R131). Safe. -/
  | undecodable (reason : DecodeError)
  /-- Raised by MOV and POP for a term that no encoding spells, whose destination is CS (R31, R131,
  D24). Safe. -/
  | codeSegmentDestination
  /-- Raised by the fetch: a byte of the instruction was written since the last taken transfer of
  control, so the prefetch queue may hold the old byte (R400, D14). Safe. -/
  | selfModifiedCode
  /-- Raised by a repeated string instruction that also has a segment override or LOCK prefix, where
  an interrupt can be accepted during it: the 8086 resumes it wrongly (R401, D34). Safe. -/
  | interruptibleRepeatWithPrefix
deriving DecidableEq, Repr

/-- The eight 16-bit general registers (R21). -/
structure Regs where
  ax : Word
  cx : Word
  dx : Word
  bx : Word
  sp : Word
  bp : Word
  si : Word
  di : Word
deriving DecidableEq, Repr

/-- The four segment registers (R30). -/
structure Segs where
  es : Word
  cs : Word
  ss : Word
  ds : Word
deriving DecidableEq, Repr

/-- The nine flags of the flag register (R33). The bits that hold no flag are not state: they are
drawn at each read and discarded at each write (R35). -/
structure Flags where
  cf : Bool
  pf : Bool
  af : Bool
  zf : Bool
  sf : Bool
  tf : Bool
  /-- IF, the interrupt flag. -/
  ifl : Bool
  df : Bool
  /-- OF, the overflow flag. -/
  ofl : Bool
deriving DecidableEq, Repr

/-- The two repeat prefixes (R102): F3 is REP, REPE and REPZ, F2 is REPNE and REPNZ. -/
inductive RepeatPrefix where
  | repe
  | repne
deriving DecidableEq, Repr

/-- The prefixes seen and not yet consumed while one instruction is decoded (R39 (g)). -/
structure Prefixes where
  seg : Option SegReg
  rep : Option RepeatPrefix
  lock : Bool
deriving DecidableEq, Repr

/-- No prefix seen: what every instruction begins with, and what stands between steps (R39 (g)). -/
def Prefixes.none : Prefixes := ⟨Option.none, Option.none, false⟩

/-- A repeated string instruction between two iterations (R261, R263): what it is, its prefixes, and
the offset of the instruction after it. While it stands, IP holds the offset of its first byte. -/
structure Repeating where
  op : StringOp
  width : Width
  prefixes : Prefixes
  next : Word
deriving DecidableEq, Repr

/-- What the platform has behind a physical address (R73 (c)). -/
inductive MemKind where
  /-- Memory that is read and written. -/
  | ram
  /-- Memory that is read; a write changes nothing. -/
  | rom
  /-- No memory: empty space, or a device of the platform. A read gives whatever the bus gives; a write
  changes no memory. -/
  | bus
deriving DecidableEq, Repr

/-- A region of the platform's memory map (R73 (c)). -/
structure Region where
  base : Nat
  size : Nat
  kind : MemKind
deriving DecidableEq, Repr

/-- The input pins as the environment drives them (R39 (c), R353). -/
structure Pins where
  /-- The level of INTR, with the type the interrupt controller supplies when it is acknowledged. -/
  intr : Option Byte
  /-- The level of NMI; its rising edge is latched. -/
  nmi : Bool
  /-- TEST is asserted (low). -/
  test : Bool
  /-- RESET is asserted. -/
  reset : Bool
deriving DecidableEq, Repr

/-- No pin asserted. -/
def Pins.idle : Pins := ⟨none, false, false, false⟩

/-- What the environment can see the processor do on the bus besides plain memory accesses (R75, R290,
R291). -/
inductive BusEvent where
  /-- `PortRead(port, n)` and the value it returned. -/
  | portRead (port : Word) (w : Width) (v : Word)
  /-- `PortWrite(port, n, v)`. -/
  | portWrite (port : Word) (w : Width) (v : Word)
  /-- The word read of ESC, at its physical address, whose data the 8086 discards. -/
  | escRead (addr : PhysAddr) (v : Word)
  /-- The LOCK output is asserted for the instruction whose accesses follow. -/
  | lockAsserted
deriving DecidableEq, Repr

/-- The state of the machine: what R20 lists, and the model's own fields at the end (marked so). -/
structure State where
  /-- The general registers (R21). -/
  regs : Regs
  /-- The segment registers (R30). -/
  segs : Segs
  /-- The instruction pointer (R25); while an instruction runs and while the processor waits, the next
  one's offset (R26, R288). -/
  ip : Word
  /-- The flag register (R33). -/
  flags : Flags
  /-- Memory (R60): the bytes that differ from `unlistedByte`, in rising order of address. -/
  mem : List Host.Cell
  /-- The platform's map of what lies behind each address (R73 (c)): the first region that holds an
  address says; an address in none is RAM. No instruction and no reset changes it (log entry 3). -/
  memMap : List Region
  /-- `halted` (R39 (a)): set by HLT. -/
  halted : Bool
  /-- `waiting` (R39 (b)): the wait state of WAIT. -/
  waiting : Bool
  /-- `int_shadow` (R39 (d), R364). -/
  intShadow : Bool
  /-- A single-step trap is due: an instruction that began with TF = 1 has completed (R362). -/
  trapPending : Bool
  /-- The latched NMI request (R39 (c), R353). -/
  nmiLatch : Bool
  /-- The bus LOCK output (R39 (e)). -/
  lockOutput : Bool
  /-- The prefixes of the instruction being executed (R39 (g)). -/
  prefixes : Prefixes
  /-- The offset of the first byte of the instruction being executed, prefixes included, which it stays
  while the processor waits: what R263 and R288 push instead of IP. -/
  instrStart : Word
  /-- A repeated string instruction between two iterations (R263). -/
  repeating : Option Repeating
  /-- The set `W` of R400: the physical addresses written since the last taken transfer of control, in
  rising order. It stands for the prefetch queue (R39 (f), R91). -/
  written : List Nat
  /-- The input pins now (R39 (c)). -/
  pins : Pins
  /-- MODEL'S OWN. What the environment will drive the pins to: one entry is taken by each step, and
  the pins keep their levels when none is left (log entry 9). -/
  pinSchedule : List Pins
  /-- MODEL'S OWN. The bytes the environment will answer to port reads, before the oracle is asked
  (R75; log entry 10). -/
  portScript : List Byte
  /-- MODEL'S OWN. The bus events so far, the latest first (R75: port writes are output events). -/
  busEvents : List BusEvent
  /-- MODEL'S OWN. How many draws have been made from the free values of Config (R6; log entry 4). -/
  draws : Nat
deriving DecidableEq, Repr

/-- What one step, or one meaning, answers. -/
abbrev Res := Host.Outcome State Fault Refusal

/-- What an address that memory does not list reads as. The spec gives memory no contents at power-on
(`MEM0`, R50, D9). DESIGN CHOICE, unsafe: 00H (log entry 2). -/
def unlistedByte : Byte := 0x00#8

/-- The number of bytes of memory (R60). -/
def memorySize : Nat := 2 ^ 20

/-- The canonical form of memory: addresses strictly rising and inside the address space, and no entry
equal to what an unlisted address reads as. -/
abbrev Memory.wf (m : List Host.Cell) : Prop :=
  m.Pairwise (fun x y => x.1 < y.1) ∧ ∀ c ∈ m, c.1 < memorySize ∧ c.2 ≠ unlistedByte

/-- The canonical form of the set of written addresses: strictly rising, inside the address space. -/
abbrev WrittenSet.wf (l : List Nat) : Prop :=
  l.Pairwise (· < ·) ∧ ∀ a ∈ l, a < memorySize

/-- The general registers after reset. The spec gives them no value (R50, R51). DESIGN CHOICE, unsafe:
zero (log entry 1). -/
def Regs.reset : Regs := ⟨0#16, 0#16, 0#16, 0#16, 0#16, 0#16, 0#16, 0#16⟩

/-- The segment registers after reset (R50). -/
def Segs.reset : Segs := { es := 0x0000#16, cs := 0xFFFF#16, ss := 0x0000#16, ds := 0x0000#16 }

/-- All nine flags clear: the flag register after reset (R50). -/
def Flags.clear : Flags := ⟨false, false, false, false, false, false, false, false, false⟩

/-- The machine right after reset (R50, R390, R391): memory lists nothing and no input is asserted. -/
def State.reset : State where
  regs := Regs.reset
  segs := Segs.reset
  ip := 0x0000#16
  flags := Flags.clear
  mem := []
  memMap := []
  halted := false
  waiting := false
  intShadow := false
  trapPending := false
  nmiLatch := false
  lockOutput := false
  prefixes := Prefixes.none
  instrStart := 0x0000#16
  repeating := none
  written := []
  pins := Pins.idle
  pinSchedule := []
  portScript := []
  busEvents := []
  draws := 0

end Sys2Proof.Machine
end

