-- ==== Sys2Proof/Machine/Flags.lean ====
section
/-! DEFINITION. The flag register as a word and the flag helpers (spec/10_state.md R33 to R36, R40 to
R44): the results and the flags of addition, subtraction and logic at any width, written over unbounded
integers as the spec writes them. -/

namespace Sys2Proof.Machine

/-- A word whose bit `i` is `b` and whose other bits are 0. -/
def bitWord (i : Nat) (b : Bool) : Word := if b then 1#16 <<< i else 0#16

/-- The bits of the flag register that hold no flag: 1, 3, 5 and 12 to 15 (R35). -/
def unusedMask : Word := 0xF02A#16

/-- The 16-bit image of the nine flags (R33), the unused positions taken from `unused` (R35). -/
def Flags.toWord (f : Flags) (unused : Word) : Word :=
  (unused &&& unusedMask) |||
    (bitWord 0 f.cf ||| bitWord 2 f.pf ||| bitWord 4 f.af ||| bitWord 6 f.zf ||| bitWord 7 f.sf |||
      bitWord 8 f.tf ||| bitWord 9 f.ifl ||| bitWord 10 f.df ||| bitWord 11 f.ofl)

/-- The nine flags of a 16-bit image; the other bits are discarded (R33, R35, R168). -/
def Flags.ofWord (v : Word) : Flags where
  cf := v.getLsbD 0
  pf := v.getLsbD 2
  af := v.getLsbD 4
  zf := v.getLsbD 6
  sf := v.getLsbD 7
  tf := v.getLsbD 8
  ifl := v.getLsbD 9
  df := v.getLsbD 10
  ofl := v.getLsbD 11

/-- The five flags of the low byte taken from a byte, the others kept (R166). -/
def Flags.setLow (f : Flags) (v : Byte) : Flags :=
  { f with
    sf := v.getLsbD 7, zf := v.getLsbD 6, af := v.getLsbD 4, pf := v.getLsbD 2, cf := v.getLsbD 0 }

/-- The low eight bits hold an even number of ones (R34, R40). -/
def evenParity {n : Nat} (v : BitVec n) : Bool :=
  !(v.getLsbD 0 ^^ v.getLsbD 1 ^^ v.getLsbD 2 ^^ v.getLsbD 3 ^^
    v.getLsbD 4 ^^ v.getLsbD 5 ^^ v.getLsbD 6 ^^ v.getLsbD 7)

/-- `SZP_w(v)` (R40). -/
def Flags.szp {n : Nat} (f : Flags) (v : BitVec n) : Flags :=
  { f with sf := v.msb, zf := decide (v.toNat = 0), pf := evenParity v }

/-- The result of `ADD_w(a, b, c)`: the sum modulo `2^w` (R41). -/
def addResult {n : Nat} (a b : BitVec n) (c : Bool) : BitVec n :=
  BitVec.ofNat n (a.toNat + b.toNat + c.toNat)

/-- The flags of `ADD_w(a, b, c)` (R41). -/
def Flags.add {n : Nat} (f : Flags) (a b : BitVec n) (c : Bool) : Flags :=
  let r := addResult a b c
  { f.szp r with
    cf := decide (2 ^ n ≤ a.toNat + b.toNat + c.toNat)
    af := decide (16 ≤ a.toNat % 16 + b.toNat % 16 + c.toNat)
    ofl := decide (a.msb = b.msb ∧ r.msb ≠ a.msb) }

/-- The result of `SUB_w(a, b, c)`: the difference modulo `2^w` (R42). -/
def subResult {n : Nat} (a b : BitVec n) (c : Bool) : BitVec n :=
  BitVec.ofInt n ((a.toNat : Int) - b.toNat - c.toNat)

/-- The flags of `SUB_w(a, b, c)` (R42). -/
def Flags.sub {n : Nat} (f : Flags) (a b : BitVec n) (c : Bool) : Flags :=
  let r := subResult a b c
  { f.szp r with
    cf := decide (a.toNat < b.toNat + c.toNat)
    af := decide (a.toNat % 16 < b.toNat % 16 + c.toNat)
    ofl := decide (a.msb ≠ b.msb ∧ r.msb ≠ a.msb) }

/-- `LOGIC_w(v)` but for AF, which is undefined (R43). -/
def Flags.logic {n : Nat} (f : Flags) (v : BitVec n) : Flags :=
  { f.szp v with cf := false, ofl := false }

/-- A choice of flags: those an instruction leaves undefined (R36, the letter `u`). -/
abbrev FlagSet := Flags

/-- No flag. -/
def FlagSet.none : FlagSet := Flags.clear

/-- AF alone: the logical instructions, and a shift by one (R43, R241). -/
def FlagSet.onlyAf : FlagSet := { FlagSet.none with af := true }

/-- OF alone: DAA and DAS, and a rotate by more than one (R196, R203, R241). -/
def FlagSet.onlyOf : FlagSet := { FlagSet.none with ofl := true }

/-- AF and OF: a shift by more than one (R241). -/
def FlagSet.afOf : FlagSet := { FlagSet.none with af := true, ofl := true }

/-- OF, SF, ZF and PF: AAA and AAS (R195, R202). -/
def FlagSet.asciiAdjust : FlagSet :=
  { FlagSet.none with ofl := true, sf := true, zf := true, pf := true }

/-- SF, ZF, AF and PF: MUL and IMUL (R204, R205). -/
def FlagSet.multiply : FlagSet :=
  { FlagSet.none with sf := true, zf := true, af := true, pf := true }

/-- CF, OF and AF: AAM and AAD (R206, R209). -/
def FlagSet.decimal : FlagSet := { FlagSet.none with cf := true, ofl := true, af := true }

/-- The six status flags: DIV and IDIV (R207, R208). -/
def FlagSet.status : FlagSet :=
  { FlagSet.none with cf := true, pf := true, af := true, zf := true, sf := true, ofl := true }

/-- The flags after those of `u` become undefined (R6): each takes its bit of the drawn word. -/
def Flags.undefine (f : Flags) (u : FlagSet) (drawn : Word) : Flags :=
  let d := Flags.ofWord drawn
  { cf := if u.cf then d.cf else f.cf
    pf := if u.pf then d.pf else f.pf
    af := if u.af then d.af else f.af
    zf := if u.zf then d.zf else f.zf
    sf := if u.sf then d.sf else f.sf
    tf := if u.tf then d.tf else f.tf
    ifl := if u.ifl then d.ifl else f.ifl
    df := if u.df then d.df else f.df
    ofl := if u.ofl then d.ofl else f.ofl }

end Sys2Proof.Machine
end

