-- ==== Sys2Proof/Machine/Ops.lean ====
section
/-! DEFINITION. The operations over registers, memory, the stack, the ports and the free values that
the meanings share; taking an interrupt, and the return from one. -/

namespace Sys2Proof.Machine

/-! ## Registers (spec/10_state.md R21 to R23, R30) -/

/-- The register named. -/
def Regs.get (g : Regs) : Reg16 → Word
  | .ax => g.ax | .cx => g.cx | .dx => g.dx | .bx => g.bx
  | .sp => g.sp | .bp => g.bp | .si => g.si | .di => g.di

/-- Write the register named. -/
def Regs.set (g : Regs) (r : Reg16) (v : Word) : Regs :=
  match r with
  | .ax => { g with ax := v } | .cx => { g with cx := v }
  | .dx => { g with dx := v } | .bx => { g with bx := v }
  | .sp => { g with sp := v } | .bp => { g with bp := v }
  | .si => { g with si := v } | .di => { g with di := v }

/-- The segment register named. -/
def Segs.get (g : Segs) : SegReg → Word
  | .es => g.es | .cs => g.cs | .ss => g.ss | .ds => g.ds

/-- Write the segment register named. -/
def Segs.set (g : Segs) (r : SegReg) (v : Word) : Segs :=
  match r with
  | .es => { g with es := v } | .cs => { g with cs := v }
  | .ss => { g with ss := v } | .ds => { g with ds := v }

/-- Read a 16-bit general register. -/
def State.reg16 (s : State) (r : Reg16) : Word := s.regs.get r

/-- Write a 16-bit general register. -/
def State.setReg16 (r : Reg16) (v : Word) (s : State) : State := { s with regs := s.regs.set r v }

/-- The word register that an 8-bit register is a half of (R23). -/
def wordReg : Reg8 → Reg16
  | .al | .ah => .ax
  | .cl | .ch => .cx
  | .dl | .dh => .dx
  | .bl | .bh => .bx

/-- The 8-bit register is the high half of its word (R23). -/
def isHighHalf : Reg8 → Bool
  | .al | .cl | .dl | .bl => false
  | .ah | .ch | .dh | .bh => true

/-- Read an 8-bit register: `AL = AX[7:0]`, `AH = AX[15:8]` (R23). -/
def State.reg8 (s : State) (r : Reg8) : Byte :=
  if isHighHalf r then hiByte (s.reg16 (wordReg r)) else loByte (s.reg16 (wordReg r))

/-- Write an 8-bit register; the other half of its word keeps its value (R23). -/
def State.setReg8 (r : Reg8) (v : Byte) (s : State) : State :=
  let old := s.reg16 (wordReg r)
  s.setReg16 (wordReg r) (if isHighHalf r then wordOf (loByte old) v else wordOf v (hiByte old))

/-- `r8[i]` or `r16[i]`, by the width (R10). -/
def State.readReg (w : Width) (i : RegNum) (s : State) : BitVec w.bits :=
  match w with
  | .byte => s.reg8 i.reg8
  | .word => s.reg16 i.reg16

/-- Write `r8[i]` or `r16[i]`, by the width (R10). -/
def State.writeReg (w : Width) (i : RegNum) (v : BitVec w.bits) (s : State) : State :=
  match w with
  | .byte => s.setReg8 i.reg8 v
  | .word => s.setReg16 i.reg16 v

/-- The accumulator: AL or AX (R22). -/
def State.readAcc (w : Width) (s : State) : BitVec w.bits := s.readReg w .r0

/-- Write the accumulator. -/
def State.writeAcc (w : Width) (v : BitVec w.bits) (s : State) : State := s.writeReg w .r0 v

/-- Read a segment register. -/
def State.seg (s : State) (r : SegReg) : Word := s.segs.get r

/-- Write a segment register. -/
def State.setSeg (r : SegReg) (v : Word) (s : State) : State := { s with segs := s.segs.set r v }

/-- Replace the flags. -/
def State.setFlags (f : Flags) (s : State) : State := { s with flags := f }

/-- Record a bus event. -/
def State.emit (e : BusEvent) (s : State) : State := { s with busEvents := e :: s.busEvents }

/-- The LOCK output is asserted until the instruction ends (R90, R291); once asserted it stays so. -/
def State.assertLock (s : State) : State :=
  if s.lockOutput then s else { s.emit .lockAsserted with lockOutput := true }

/-- Interrupts are inhibited at the next boundary, where the part does so (R364, `INT_SHADOW`). -/
def State.setShadow (s : State) : State := { s with intShadow := Config.intShadow }

/-! ## Memory (spec/20_memory.md R60 to R67) -/

/-- `PA(S, off) = (S * 16 + off) mod 2^20` (R61). -/
def physAddr (seg off : Word) : PhysAddr := BitVec.ofNat 20 (seg.toNat * 16 + off.toNat)

/-- The byte at an address. -/
def Memory.read : List Host.Cell → Nat → Byte
  | [], _ => unlistedByte
  | c :: m, a => if c.1 = a then c.2 else Memory.read m a

/-- Store a byte, keeping the canonical form. -/
def Memory.write : List Host.Cell → Nat → Byte → List Host.Cell
  | [], a, v => if v = unlistedByte then [] else [(a, v)]
  | c :: m, a, v =>
    if a < c.1 then (if v = unlistedByte then c :: m else (a, v) :: c :: m)
    else if a = c.1 then (if v = unlistedByte then m else (a, v) :: m)
    else c :: Memory.write m a v

/-- The region holds the address. -/
def Region.contains (r : Region) (a : Nat) : Bool := decide (r.base ≤ a) && decide (a < r.base + r.size)

/-- What a memory map says of an address (R73 (c)). -/
def MemMap.kindAt : List Region → Nat → MemKind
  | [], _ => .ram
  | r :: m, a => if r.contains a then r.kind else MemMap.kindAt m a

/-- What lies behind a physical address (R73 (c)). -/
def State.kindAt (a : Nat) (s : State) : MemKind := MemMap.kindAt s.memMap a

/-- What memory holds at an address, and where there is no memory the byte given (R73 (c)). -/
def State.readOr (bus : Byte) (a : Nat) (s : State) : Byte :=
  match s.kindAt a with
  | .ram | .rom => Memory.read s.mem a
  | .bus => bus

/-- `MemRead(a, 1)`: where there is no memory, whatever the bus gives (R352). -/
def State.readByte (a : Nat) (s : State) : Byte := s.readOr (Config.busByte s.draws a) a

/-- The read of one byte of an instruction (R60): the fetch sees what `MemRead` sees, but that what the
bus gives it is a value of its own (log entry 35). -/
def State.fetchByte (a : Nat) (s : State) : Byte := s.readOr (Config.busFetch s.draws a) a

/-- Memory after `MemWrite(a, 1, v)`: only RAM is changed (R73 (c)). -/
def State.memAfter (a : Nat) (v : Byte) (s : State) : List Host.Cell :=
  match s.kindAt a with
  | .ram => Memory.write s.mem a v
  | .rom | .bus => s.mem

/-- Add an address to the set of written addresses. -/
def WrittenSet.insert : List Nat → Nat → List Nat
  | [], a => [a]
  | b :: l, a => if a < b then a :: b :: l else if a = b then b :: l else b :: WrittenSet.insert l a

/-- `MemRead(PA(S, off), 1)` (R64). -/
def State.read8 (seg off : Word) (s : State) : Byte := s.readByte (physAddr seg off).toNat

/-- `MemWrite(PA(S, off), 1, v)` (R65); the address joins the set of R400. -/
def State.write8 (seg off : Word) (v : Byte) (s : State) : State :=
  { s with
    mem := s.memAfter (physAddr seg off).toNat v
    written := WrittenSet.insert s.written (physAddr seg off).toNat }

/-- `Read16(S, off)`: little-endian, the second offset wraps in the segment (R66). -/
def State.read16 (seg off : Word) (s : State) : Word :=
  wordOf (s.read8 seg off) (s.read8 seg (off + 1#16))

/-- `Write16(S, off, v)` (R67). -/
def State.write16 (seg off : Word) (v : Word) (s : State) : State :=
  (s.write8 seg off (loByte v)).write8 seg (off + 1#16) (hiByte v)

/-- `ReadW(S, off)` (R10). -/
def State.readMem (w : Width) (seg off : Word) (s : State) : BitVec w.bits :=
  match w with
  | .byte => s.read8 seg off
  | .word => s.read16 seg off

/-- `WriteW(S, off, v)` (R10). -/
def State.writeMem (w : Width) (seg off : Word) (v : BitVec w.bits) (s : State) : State :=
  match w with
  | .byte => s.write8 seg off v
  | .word => s.write16 seg off v

/-! ## The stack (R70 to R72) -/

/-- The first half of `push16`: SP goes down by two (R70). -/
def State.decSp (s : State) : State := s.setReg16 .sp (s.regs.sp - 2#16)

/-- `push16(v)` (R70). -/
def State.push16 (v : Word) (s : State) : State :=
  s.decSp.write16 s.segs.ss (s.regs.sp - 2#16) v

/-- The word that `pop16()` returns (R71). -/
def State.top16 (s : State) : Word := s.read16 s.segs.ss s.regs.sp

/-- The state that `pop16()` leaves (R71). -/
def State.drop16 (s : State) : State := s.setReg16 .sp (s.regs.sp + 2#16)

/-! ## Free values (spec/00_scope.md R6) -/

/-- The next word of the stream of undefined values. -/
def State.drawn (s : State) : Word := Config.freeWord s.draws

/-- The state after one draw. -/
def State.nextDraw (s : State) : State := { s with draws := s.draws + 1 }

/-- The flags of `u` become undefined: one draw (R6, R36). -/
def State.undefineFlags (u : FlagSet) (s : State) : State :=
  s.nextDraw.setFlags (s.flags.undefine u s.drawn)

/-- A general register becomes undefined: one draw (R6, R358). -/
def State.undefineReg (r : Reg16) (s : State) : State := s.nextDraw.setReg16 r s.drawn

/-- What the flag register reads as now: its unused bits are drawn (R35, D4). -/
def State.flagsImage (s : State) : Word := s.flags.toWord (Config.flagsUnused s.draws)

/-! ## Ports (R75) -/

/-- The byte the environment answers to a read of a port: its script first, else the oracle. -/
def State.portAnswer (port : Word) (s : State) : Byte :=
  match s.portScript with
  | v :: _ => v
  | [] => Config.portOracle s.draws port

/-- The state after one byte has been read from a port. -/
def State.afterPortRead (s : State) : State :=
  match s.portScript with
  | _ :: rest => { s with portScript := rest }
  | [] => s.nextDraw

/-- The value of `PortRead(p, n)`: a word takes its low byte from port p and its high byte from port
p + 1 (R75). -/
def State.portValue (w : Width) (port : Word) (s : State) : BitVec w.bits :=
  match w with
  | .byte => s.portAnswer port
  | .word => wordOf (s.portAnswer port) (s.afterPortRead.portAnswer (port + 1#16))

/-- The state after `PortRead(p, n)`: the answers are consumed. -/
def State.afterPort (w : Width) (s : State) : State :=
  match w with
  | .byte => s.afterPortRead
  | .word => s.afterPortRead.afterPortRead

/-- A value of a width as the word a bus event shows. -/
def asWord (w : Width) (v : BitVec w.bits) : Word := v.zeroExtend 16

/-! ## Transfers of control (spec/45_control_transfer.md R300, R301; R400) -/

/-- A taken transfer within the segment: IP changes and the prefetch queue is emptied. -/
def State.jump (off : Word) (s : State) : State := { s with ip := off, written := [] }

/-- A taken transfer between segments. -/
def State.jumpFar (seg off : Word) (s : State) : State := (s.setSeg .cs seg).jump off

/-- A taken relative transfer: the displacement is added to the next instruction's offset (R301). -/
def State.jumpRel (disp : Word) (s : State) : State := s.jump (s.ip + disp)

/-- A conditional short transfer (R330). -/
def State.jumpIf (cond : Bool) (disp : Byte) (s : State) : State :=
  if cond then s.jumpRel (sext8 disp) else s

/-! ## Interrupts (spec/60_exceptions.md R356, R327) -/

/-- Interrupts become masked: IF and TF are cleared (R356). -/
def State.maskInterrupts (s : State) : State :=
  s.setFlags { s.flags with ifl := false, tf := false }

/-- The offset of the vector of a type in segment 0 (R73). -/
def vectorOffset (type : Byte) : Word := 4#16 * zext8 type

/-- `Interrupt(t)` with the return offset `ret`: the one sequence of every cause (R356). It pushes the
flags as they are, CS and the return offset, clears IF and TF, and goes where the vector points, in this
order. -/
def State.interrupt (type : Byte) (ret : Word) (s : State) : State :=
  let s1 := (s.nextDraw.push16 s.flagsImage).maskInterrupts
  let s2 := (s1.push16 s1.segs.cs).push16 ret
  let s3 := s2.jumpFar (s2.read16 0#16 (vectorOffset type + 2#16)) (s2.read16 0#16 (vectorOffset type))
  { s3 with halted := false, waiting := false }

/-- The return from an interrupt: IP, CS and the flags are popped (R327). -/
def State.interruptReturn (s : State) : State :=
  let off := s.top16
  let s1 := s.drop16
  let seg := s1.top16
  let s2 := s1.drop16
  let f := Flags.ofWord s2.top16
  (s2.drop16.jumpFar seg off).setFlags f

end Sys2Proof.Machine
end

