-- ==== Sys2Proof/Machine/Operands.lean ====
section
/-! DEFINITION. Operand forms (spec/20_memory.md R80 to R83; spec/40_data_transfer.md R151): effective
addresses, the segment of a memory operand, and reading and writing an `r/m` operand at a place that is
computed once. -/

namespace Sys2Proof.Machine

/-- The base part of an effective address (R80, R104). -/
def eaBase (s : State) : EaBase → Word
  | .bxSi => s.regs.bx + s.regs.si
  | .bxDi => s.regs.bx + s.regs.di
  | .bpSi => s.regs.bp + s.regs.si
  | .bpDi => s.regs.bp + s.regs.di
  | .si => s.regs.si
  | .di => s.regs.di
  | .bp => s.regs.bp
  | .bx => s.regs.bx

/-- The effective address of a memory operand, modulo 2^16 (R81). -/
def effAddr (m : Mem) (s : State) : Word :=
  match m with
  | .direct off => off
  | .plain base => eaBase s base
  | .disp8 base d => eaBase s base + sext8 d
  | .disp16 base d => eaBase s base + d

/-- The default segment of a base: SS where BP is in the form, else DS (R80, R82). -/
def baseSeg : EaBase → SegReg
  | .bpSi | .bpDi | .bp => .ss
  | .bxSi | .bxDi | .si | .di | .bx => .ds

/-- The default segment of a memory operand (R80, R82). -/
def defaultSeg : Mem → SegReg
  | .direct _ => .ds
  | .plain base | .disp8 base _ | .disp16 base _ => baseSeg base

/-- The segment value an access uses whose default segment register is `r`: a segment override
prefix replaces it (R83). -/
def State.dataSeg (r : SegReg) (s : State) : Word := s.seg (s.prefixes.seg.getD r)

/-- Where an operand lies: a register, or a segment value and an offset. -/
inductive Place where
  | reg (i : RegNum)
  | mem (seg off : Word)
deriving DecidableEq, Repr

/-- The place of a memory operand, from the registers the instruction finds (R151). -/
def memPlace (m : Mem) (s : State) : Place := .mem (s.dataSeg (defaultSeg m)) (effAddr m s)

/-- The place of an `r/m` operand (R151). -/
def place (rm : RM) (s : State) : Place :=
  match rm with
  | .reg i => .reg i
  | .mem m => memPlace m s

/-- Read an operand at a width. -/
def State.readAt (w : Width) (p : Place) (s : State) : BitVec w.bits :=
  match p with
  | .reg i => s.readReg w i
  | .mem seg off => s.readMem w seg off

/-- Write an operand at a width. -/
def State.writeAt (w : Width) (p : Place) (v : BitVec w.bits) (s : State) : State :=
  match p with
  | .reg i => s.writeReg w i v
  | .mem seg off => s.writeMem w seg off v

/-- The destination of a two-operand form (R103). -/
def dstPlace (d : Dir) (reg : RegNum) (p : Place) : Place :=
  match d with
  | .toRm => p
  | .toReg => .reg reg

/-- The source of a two-operand form (R103). -/
def srcPlace (d : Dir) (reg : RegNum) (p : Place) : Place :=
  match d with
  | .toRm => .reg reg
  | .toReg => p

/-- The offset word of a far pointer in memory, and its segment word two bytes higher (R63). -/
def State.readPointer (m : Mem) (s : State) : Word × Word :=
  let seg := s.dataSeg (defaultSeg m)
  let off := effAddr m s
  (s.read16 seg off, s.read16 seg (off + 2#16))

/-! ## Operations of two operands (spec/41_arithmetic.md R191) -/

/-- An operation: its result and the state with its flags set. -/
abbrev AluOp := (n : Nat) → BitVec n → BitVec n → State → BitVec n × State

/-- `dest <- op(dest, src)` with both operands at places of one width; both are read before anything is
written (R191). -/
def State.update (op : AluOp) (w : Width) (dst src : Place) (s : State) : State :=
  let r := op w.bits (s.readAt w dst) (s.readAt w src) s
  r.2.writeAt w dst r.1

/-- `dest <- op(dest, imm)`. -/
def State.updateImm (op : AluOp) (w : Width) (dst : Place) (v : BitVec w.bits) (s : State) : State :=
  let r := op w.bits (s.readAt w dst) v s
  r.2.writeAt w dst r.1

/-- `op(dest, src)` for its flags; the result is discarded (R190 (b), R230 (c)). -/
def State.compare (op : AluOp) (w : Width) (dst src : Place) (s : State) : State :=
  (op w.bits (s.readAt w dst) (s.readAt w src) s).2

/-- `op(dest, imm)` for its flags; the result is discarded. -/
def State.compareImm (op : AluOp) (w : Width) (dst : Place) (v : BitVec w.bits) (s : State) : State :=
  (op w.bits (s.readAt w dst) v s).2

/-- An operation of one operand: its result and the state with its flags set. -/
abbrev UnaryOp := (n : Nat) → BitVec n → State → BitVec n × State

/-- `dest <- op(dest)`: read once and written once at one place (R69, R151). -/
def State.modify (op : UnaryOp) (w : Width) (dst : Place) (s : State) : State :=
  let r := op w.bits (s.readAt w dst) s
  r.2.writeAt w dst r.1

/-- The ModRM form of an operation that stores. -/
def aluModRM (op : AluOp) (d : Dir) (w : Width) (reg : RegNum) (rm : RM) (s : State) : Res :=
  .next (s.update op w (dstPlace d reg (place rm s)) (srcPlace d reg (place rm s)))

/-- The accumulator form of an operation that stores. -/
def aluAccImm (op : AluOp) (imm : Imm) (s : State) : Res :=
  .next (s.updateImm op imm.width (.reg .r0) imm.value)

/-- The form of the group 80H to 83H of an operation that stores. -/
def aluGroup (op : AluOp) (g : GroupImm) (rm : RM) (s : State) : Res :=
  .next (s.updateImm op g.width (place rm s) g.value)

/-- The form of the opcodes 80H and 81H of an operation that stores. -/
def aluRmImm (op : AluOp) (imm : Imm) (rm : RM) (s : State) : Res :=
  .next (s.updateImm op imm.width (place rm s) imm.value)

/-- The ModRM form of a comparison. -/
def cmpModRM (op : AluOp) (d : Dir) (w : Width) (reg : RegNum) (rm : RM) (s : State) : Res :=
  .next (s.compare op w (dstPlace d reg (place rm s)) (srcPlace d reg (place rm s)))

/-- The accumulator form of a comparison. -/
def cmpAccImm (op : AluOp) (imm : Imm) (s : State) : Res :=
  .next (s.compareImm op imm.width (.reg .r0) imm.value)

/-- The form of the group 80H to 83H of a comparison. -/
def cmpGroup (op : AluOp) (g : GroupImm) (rm : RM) (s : State) : Res :=
  .next (s.compareImm op g.width (place rm s) g.value)

/-- The form of a comparison with an immediate of the instruction's width. -/
def cmpRmImm (op : AluOp) (imm : Imm) (rm : RM) (s : State) : Res :=
  .next (s.compareImm op imm.width (place rm s) imm.value)

end Sys2Proof.Machine
end

