-- ==== Sys2Proof/Machine/StringOps.lean ====
section
/-! DEFINITION. The string instructions and their repetition (spec/43_string.md R260 to R270). -/

namespace Sys2Proof.Machine

/-- How far a pointer moves after an element: by its size, downward when DF is set (R260). -/
def elementStep (w : Width) (df : Bool) : Word :=
  match w, df with
  | .byte, false => 1#16
  | .word, false => 2#16
  | .byte, true => 0xFFFF#16
  | .word, true => 0xFFFE#16

/-- SI or DI moves by one element (R260). -/
def State.advance (r : Reg16) (w : Width) (s : State) : State :=
  s.setReg16 r (s.reg16 r + elementStep w s.flags.df)

/-- The source element, at DS:SI or the override segment (R260, R83). -/
def State.sourceElement (w : Width) (s : State) : BitVec w.bits :=
  s.readMem w (s.dataSeg .ds) s.regs.si

/-- The destination element, at ES:DI, never overridden (R260). -/
def State.destElement (w : Width) (s : State) : BitVec w.bits := s.readMem w s.segs.es s.regs.di

/-- One element of MOVS (R266). -/
def State.movsElement (w : Width) (s : State) : State :=
  ((s.writeMem w s.segs.es s.regs.di (s.sourceElement w)).advance .si w).advance .di w

/-- One element of CMPS: source minus destination, for the flags (R267). The two reads may be of one
address, so that a draw sets what the bus gives at the second apart (log entry 35). -/
def State.cmpsElement (w : Width) (s : State) : State :=
  let f := s.flags.sub (s.sourceElement w) (s.nextDraw.destElement w) false
  ((s.nextDraw.setFlags f).advance .si w).advance .di w

/-- One element of STOS (R270). -/
def State.stosElement (w : Width) (s : State) : State :=
  (s.writeMem w s.segs.es s.regs.di (s.readAcc w)).advance .di w

/-- One element of LODS (R269). -/
def State.lodsElement (w : Width) (s : State) : State :=
  (s.writeAcc w (s.sourceElement w)).advance .si w

/-- One element of SCAS: accumulator minus destination, for the flags (R268). -/
def State.scasElement (w : Width) (s : State) : State :=
  (s.setFlags (s.flags.sub (s.readAcc w) (s.destElement w) false)).advance .di w

/-- One element of a string operation. -/
def State.element (op : StringOp) (w : Width) (s : State) : State :=
  match op with
  | .movs => s.movsElement w
  | .cmps => s.cmpsElement w
  | .stos => s.stosElement w
  | .lods => s.lodsElement w
  | .scas => s.scasElement w

/-- The comparison ends the repetition: REPE ends when ZF = 0, REPNE when ZF = 1; the other three
operations do not look at ZF (R261, R262, R264). -/
def endsRepeat (op : StringOp) (r : RepeatPrefix) (zf : Bool) : Bool :=
  match op, r with
  | .cmps, .repe | .scas, .repe => !zf
  | .cmps, .repne | .scas, .repne => zf
  | .movs, _ | .stos, _ | .lods, _ => false

/-- The prefixes hold a segment override or LOCK (R401). -/
def Prefixes.hasSegOrLock (p : Prefixes) : Bool := p.seg.isSome || p.lock

/-- An interrupt could be accepted while the instruction runs: IF, TF or a latched NMI (R401; log
entry 18). -/
def State.interruptible (s : State) : Bool := s.flags.ifl || s.flags.tf || s.nmiLatch

/-- One pass of the repeat loop (R261): CX is tested first; then one element, CX goes down by one, and
the loop ends or the instruction stands again at its first byte, to go on in the next step (R263). -/
def State.repeatPass (op : StringOp) (w : Width) (r : RepeatPrefix) (s : State) : State :=
  if s.regs.cx = 0#16 then s
  else
    let s1 := (s.element op w).setReg16 .cx (s.regs.cx - 1#16)
    if s1.regs.cx = 0#16 ∨ endsRepeat op r s1.flags.zf = true then s1
    else { s1 with
      ip := s.instrStart
      repeating := some { op := op, width := w, prefixes := s.prefixes, next := s.ip } }

/-- A string instruction: one element without a repeat prefix, which leaves CX alone (R265); one pass
of the loop with one (R261), refused where R401 refuses it. -/
def State.stringInstr (op : StringOp) (w : Width) (s : State) : Res :=
  match s.prefixes.rep with
  | none => .next (s.element op w)
  | some r =>
    if s.prefixes.hasSegOrLock && s.interruptible then .refused .interruptibleRepeatWithPrefix
    else .next (s.repeatPass op w r)

/-- MOVS (R266). -/
def execMovs (w : Width) (s : State) : Res := s.stringInstr .movs w

/-- CMPS (R267). -/
def execCmps (w : Width) (s : State) : Res := s.stringInstr .cmps w

/-- STOS (R270). -/
def execStos (w : Width) (s : State) : Res := s.stringInstr .stos w

/-- LODS (R269). -/
def execLods (w : Width) (s : State) : Res := s.stringInstr .lods w

/-- SCAS (R268). -/
def execScas (w : Width) (s : State) : Res := s.stringInstr .scas w

end Sys2Proof.Machine
end

