-- ==== Sys2Proof/Machine/Cycle.lean ====
section
/-! DEFINITION. One step of the machine: the pins are sampled, a reset or an interrupt is taken, or one
instruction is fetched and run with its prefixes (spec/10_state.md R26; spec/60_exceptions.md R353 to
R364; spec/70_reset_and_hazards.md R390, R400). The meanings of the instructions are the parameter
`exec`, which Machine/Dispatch.lean gives. -/

namespace Sys2Proof.Machine

/-! ## Inputs (R353; log entry 9) -/

/-- The environment drives the pins for this step; a rising edge of NMI is latched (R353). -/
def State.samplePins (s : State) : State :=
  match s.pinSchedule with
  | [] => s
  | p :: rest =>
    { s with pins := p, pinSchedule := rest, nmiLatch := s.nmiLatch || (p.nmi && !s.pins.nmi) }

/-- The reset event (R390): the processor goes to its reset state; memory and the environment keep
theirs (R50; log entry 27). -/
def State.resetEvent (s : State) : State :=
  { State.reset with
    mem := s.mem
    memMap := s.memMap
    pins := s.pins
    pinSchedule := s.pinSchedule
    portScript := s.portScript
    busEvents := s.busEvents
    draws := s.draws }

/-! ## Accepting an interrupt (R355, R357) -/

/-- The type that INTR requests, where IF allows it (R353, R354). -/
def State.maskedIntr (s : State) : Option Byte := if s.flags.ifl then s.pins.intr else none

/-- The latched NMI is taken (R353). -/
def State.takeNmi (s : State) : State := { s with nmiLatch := false }

/-- The pending trap is taken. -/
def State.takeTrap (s : State) : State := { s with trapPending := false }

/-- A repeat in progress ends here; the handler's return fetches it again (R263). -/
def State.dropRepeat (s : State) : State := { s with repeating := none, lockOutput := false }

/-- The interrupt shadow ends (R364). -/
def State.clearShadow (s : State) : State := { s with intShadow := false }

/-- The request recognised first, and the state with that request taken: NMI, then INTR, then the
single-step trap (R357). -/
def State.recognise (s : State) : Option (Byte × State) :=
  if s.nmiLatch then some (2#8, s.takeNmi)
  else match s.maskedIntr with
    | some type => some (type, s)
    | none => if s.trapPending then some (1#8, s.takeTrap) else none

/-- The offset that an accepted interrupt pushes: that of the WAIT while the processor waits, so that
the handler's return runs it again (R288, R355 (c)); else the offset in IP, which is the next instruction's,
or the repeated one's between two of its iterations (R355 (a), (b), (d)). -/
def State.returnOffset (s : State) : Word := if s.waiting then s.instrStart else s.ip

/-- Accept an interrupt between instructions, between two iterations of a repeat, in WAIT or in HLT
(R355). A repeat with a second prefix would resume wrongly (R401). -/
def State.accept (type : Byte) (s : State) : Res :=
  if s.repeating.any (fun r => r.prefixes.hasSegOrLock) then .refused .interruptibleRepeatWithPrefix
  else .next (s.dropRepeat.interrupt type s.returnOffset)

/-! ## Fetching (R25, R27, R400) -/

/-- The physical addresses of the `n` bytes at CS:IP, each offset wrapped in the segment (R27). -/
def State.fetchAddrs (n : Nat) (s : State) : List Nat :=
  (List.range n).map fun k => (physAddr s.segs.cs (s.ip + BitVec.ofNat 16 k)).toNat

/-- The `n` bytes at CS:IP (R27). -/
def State.fetchBytes (n : Nat) (s : State) : List Byte :=
  (s.fetchAddrs n).map fun a => s.fetchByte a

/-- A byte of the instruction was written since the last taken transfer of control (R400). -/
def State.runsWrittenCode (length : Nat) (s : State) : Bool :=
  (s.fetchAddrs length).any fun a => s.written.contains a

/-! ## Running an instruction -/

/-- The state in which an instruction runs: IP is already past its `length` bytes (R26). One draw sets
what the bus gives it apart from what it gave before (log entry 35). -/
def State.begin (length : Nat) (s : State) : State :=
  { s with
    ip := s.ip + BitVec.ofNat 16 length
    instrStart := s.ip
    draws := s.draws + 1 }

/-- The state in which a repeated string instruction goes on with its next iteration (R263). -/
def State.resume (r : Repeating) (s : State) : State :=
  { s with
    ip := r.next
    instrStart := s.ip
    prefixes := r.prefixes
    lockOutput := r.prefixes.lock
    repeating := none
    draws := s.draws + 1 }

/-- Run rows one after another: the prefixes, then the instruction (R102). -/
def runRows (exec : Instr → State → Res) : List Instr → State → Res
  | [], s => .next s
  | i :: rest, s =>
    match exec i s with
    | .next s' => runRows exec rest s'
    | .fault f => .fault f
    | .refused r => .refused r

/-- What holds when an instruction, or one iteration of a repeat, has completed: its prefixes are
consumed, LOCK is released but between the iterations of a locked repeat (R291), and a single-step trap
is due where TF was set when it began (R362). A WAIT that goes on has not completed (log entry 14). -/
def State.complete (tf : Bool) (s : State) : State :=
  { s with
    prefixes := .none
    lockOutput := s.repeating.any (fun r => r.prefixes.lock)
    trapPending := s.trapPending || (tf && !s.waiting) }

/-- TEST is asserted in the wait state: the WAIT completes, and IP is already past it (R288). -/
def State.endWait (s : State) : State := State.complete s.flags.tf { s.clearShadow with waiting := false }

/-- `complete` on the answer of an instruction. -/
def completeRes (tf : Bool) : Res → Res
  | .next s => .next (s.complete tf)
  | .fault f => .fault f
  | .refused r => .refused r

/-- Fetch, decode and run the instruction at CS:IP (R26, R102, R131, R400). -/
def runFetched (exec : Instr → State → Res) (s : State) : Res :=
  match decode (s.fetchBytes maxLength) with
  | .error e => .refused (.undecodable e)
  | .ok d =>
    if s.runsWrittenCode d.length then .refused .selfModifiedCode
    else completeRes s.flags.tf (runRows exec (d.prefixes ++ [d.instr]) (s.begin d.length))

/-- What the processor does when it accepts nothing: the shadow ends (R364); a halted processor does
nothing (R292); a waiting one fetches nothing, completes its WAIT where TEST is asserted and else does
nothing (R288, R376); a repeat goes on; else the next instruction runs. -/
def runNext (exec : Instr → State → Res) (s : State) : Res :=
  if s.halted then .next s.clearShadow
  else if s.waiting then .next (if s.pins.test then s.endWait else s.clearShadow)
  else match s.repeating with
    | some r => completeRes s.flags.tf (exec (r.op.instr r.width) (s.clearShadow.resume r))
    | none => runFetched exec s.clearShadow

/-- One step on sampled pins: RESET first (R390); a WAIT whose TEST is asserted completes before an
interrupt is looked at (R288); then a recognised request is accepted, but at the boundary that the
shadow covers (R364). DESIGN CHOICE, unsafe: the boundary before the first instruction after RESET is an
acceptance point like any other, so that an NMI latched there comes first (log entry 36). -/
def cycleSampled (exec : Instr → State → Res) (s : State) : Res :=
  if s.pins.reset then .next s.resetEvent
  else if s.waiting && s.pins.test then runNext exec s
  else match s.recognise with
    | none => runNext exec s
    | some (type, s1) => if s.intShadow then runNext exec s else s1.accept type

/-- One step of the machine. -/
def cycle (exec : Instr → State → Res) (s : State) : Res := cycleSampled exec s.samplePins

/-! ## The host's way to place one instruction -/

/-- Bytes stored at CS:IP from outside the machine, the first at IP + `k`. -/
def State.placeBytes (s : State) : Nat → List Byte → State
  | _, [] => s
  | k, b :: rest =>
    placeBytes { s with
      mem := Memory.write s.mem (physAddr s.segs.cs (s.ip + BitVec.ofNat 16 k)).toNat b }
      (k + 1) rest

/-- The instruction stands at CS:IP and nothing keeps the next step from fetching it there: it was not
written by the program, it lies in RAM, and no halt, wait or repeat is in progress (log entry 26). -/
def State.placeInstruction (bs : List Byte) (s : State) : State :=
  { s.placeBytes 0 bs with
    halted := false
    waiting := false
    repeating := none
    memMap := s.memMap.filter fun r => !(s.fetchAddrs bs.length).any r.contains
    written := s.written.filter fun a => !(s.fetchAddrs bs.length).contains a }

end Sys2Proof.Machine
end

