-- ==== Sys2Proof/Machine/Arithmetic.lean ====
section
/-! DEFINITION. The arithmetic instructions (spec/41_arithmetic.md R192 to R211). -/

namespace Sys2Proof.Machine

/-! ## Addition and subtraction (R192, R193, R197, R198, R201) -/

/-- `ADD_w(a, b, 0)` (R192). -/
def aluAdd : AluOp := fun _ a b s => (addResult a b false, s.setFlags (s.flags.add a b false))

/-- `ADD_w(a, b, CF)`, CF as before the instruction (R193). -/
def aluAdc : AluOp := fun _ a b s =>
  (addResult a b s.flags.cf, s.setFlags (s.flags.add a b s.flags.cf))

/-- `SUB_w(a, b, 0)` (R197, R201). -/
def aluSub : AluOp := fun _ a b s => (subResult a b false, s.setFlags (s.flags.sub a b false))

/-- `SUB_w(a, b, CF)`, CF as before the instruction (R198). -/
def aluSbb : AluOp := fun _ a b s =>
  (subResult a b s.flags.cf, s.setFlags (s.flags.sub a b s.flags.cf))

/-- ADD, ModRM form (R192). -/
def execAddRm (d : Dir) (w : Width) (reg : RegNum) (rm : RM) (s : State) : Res :=
  aluModRM aluAdd d w reg rm s

/-- ADD, accumulator form (R192). -/
def execAddAcc (imm : Imm) (s : State) : Res := aluAccImm aluAdd imm s

/-- ADD, group form (R192). -/
def execAddImm (g : GroupImm) (rm : RM) (s : State) : Res := aluGroup aluAdd g rm s

/-- ADC, ModRM form (R193). -/
def execAdcRm (d : Dir) (w : Width) (reg : RegNum) (rm : RM) (s : State) : Res :=
  aluModRM aluAdc d w reg rm s

/-- ADC, accumulator form (R193). -/
def execAdcAcc (imm : Imm) (s : State) : Res := aluAccImm aluAdc imm s

/-- ADC, group form (R193). -/
def execAdcImm (g : GroupImm) (rm : RM) (s : State) : Res := aluGroup aluAdc g rm s

/-- SUB, ModRM form (R197). -/
def execSubRm (d : Dir) (w : Width) (reg : RegNum) (rm : RM) (s : State) : Res :=
  aluModRM aluSub d w reg rm s

/-- SUB, accumulator form (R197). -/
def execSubAcc (imm : Imm) (s : State) : Res := aluAccImm aluSub imm s

/-- SUB, group form (R197). -/
def execSubImm (g : GroupImm) (rm : RM) (s : State) : Res := aluGroup aluSub g rm s

/-- SBB, ModRM form (R198). -/
def execSbbRm (d : Dir) (w : Width) (reg : RegNum) (rm : RM) (s : State) : Res :=
  aluModRM aluSbb d w reg rm s

/-- SBB, accumulator form (R198). -/
def execSbbAcc (imm : Imm) (s : State) : Res := aluAccImm aluSbb imm s

/-- SBB, group form (R198). -/
def execSbbImm (g : GroupImm) (rm : RM) (s : State) : Res := aluGroup aluSbb g rm s

/-- CMP, ModRM form (R201). -/
def execCmpRm (d : Dir) (w : Width) (reg : RegNum) (rm : RM) (s : State) : Res :=
  cmpModRM aluSub d w reg rm s

/-- CMP, accumulator form (R201). -/
def execCmpAcc (imm : Imm) (s : State) : Res := cmpAccImm aluSub imm s

/-- CMP, group form (R201). -/
def execCmpImm (g : GroupImm) (rm : RM) (s : State) : Res := cmpGroup aluSub g rm s

/-! ## INC, DEC, NEG (R194, R199, R200) -/

/-- `ADD_w(a, 1, 0)` that keeps CF (R194, R44). -/
def opInc : UnaryOp := fun n a s =>
  (addResult a 1#n false, s.setFlags { s.flags.add a 1#n false with cf := s.flags.cf })

/-- `SUB_w(a, 1, 0)` that keeps CF (R199, R44). -/
def opDec : UnaryOp := fun n a s =>
  (subResult a 1#n false, s.setFlags { s.flags.sub a 1#n false with cf := s.flags.cf })

/-- `SUB_w(0, a, 0)` (R200). -/
def opNeg : UnaryOp := fun n a s =>
  (subResult 0#n a false, s.setFlags (s.flags.sub 0#n a false))

/-- INC of a 16-bit register, the short form (R194). -/
def execIncReg (r : Reg16) (s : State) : Res :=
  .next ((opInc 16 (s.reg16 r) s).2.setReg16 r (opInc 16 (s.reg16 r) s).1)

/-- INC of `r/m` (R194). -/
def execIncRm (w : Width) (rm : RM) (s : State) : Res := .next (s.modify opInc w (place rm s))

/-- DEC of a 16-bit register, the short form (R199). -/
def execDecReg (r : Reg16) (s : State) : Res :=
  .next ((opDec 16 (s.reg16 r) s).2.setReg16 r (opDec 16 (s.reg16 r) s).1)

/-- DEC of `r/m` (R199). -/
def execDecRm (w : Width) (rm : RM) (s : State) : Res := .next (s.modify opDec w (place rm s))

/-- NEG of `r/m` (R200). -/
def execNegRm (w : Width) (rm : RM) (s : State) : Res := .next (s.modify opNeg w (place rm s))

/-! ## Decimal adjustment (R195, R196, R202, R203) -/

/-- The low nibble of AL is above 9, or AF is set (R195, R196, R202, R203). -/
def State.needsAdjust (s : State) : Bool :=
  decide (9 < (s.reg8 .al).toNat % 16) || s.flags.af

/-- AL on entry is above 99H, or CF is set (R196, R203). -/
def State.needsHighAdjust (s : State) : Bool :=
  decide (0x99 < (s.reg8 .al).toNat) || s.flags.cf

/-- What AAA and AAS leave: AL cut to its low nibble, AF and CF set to `adj`, four flags undefined
(R195, R202). -/
def State.asciiAdjusted (al ah : Byte) (adj : Bool) (s : State) : State :=
  ((s.setReg16 .ax (wordOf (al &&& 0x0F#8) ah)).setFlags
    { s.flags with af := adj, cf := adj }).undefineFlags .asciiAdjust

/-- AAA (R195). -/
def execAaa (s : State) : Res :=
  let al := s.reg8 .al
  let ah := s.reg8 .ah
  .next (if s.needsAdjust then s.asciiAdjusted (al + 6#8) (ah + 1#8) true
    else s.asciiAdjusted al ah false)

/-- AAS (R202). -/
def execAas (s : State) : Res :=
  let al := s.reg8 .al
  let ah := s.reg8 .ah
  .next (if s.needsAdjust then s.asciiAdjusted (al - 6#8) (ah - 1#8) true
    else s.asciiAdjusted al ah false)

/-- What DAA and DAS leave: AL, AF and CF, the flags of AL, OF undefined (R196, R203). -/
def State.decimalAdjusted (al : Byte) (af cf : Bool) (s : State) : State :=
  ((s.setReg8 .al al).setFlags { s.flags.szp al with af := af, cf := cf }).undefineFlags .onlyOf

/-- DAA (R196); the formula is total (log entry 31). -/
def execDaa (s : State) : Res :=
  let low := if s.needsAdjust then s.reg8 .al + 0x06#8 else s.reg8 .al
  let al := if s.needsHighAdjust then low + 0x60#8 else low
  .next (s.decimalAdjusted al s.needsAdjust s.needsHighAdjust)

/-- DAS (R203); the formula is total (log entry 31). -/
def execDas (s : State) : Res :=
  let low := if s.needsAdjust then s.reg8 .al - 0x06#8 else s.reg8 .al
  let al := if s.needsHighAdjust then low - 0x60#8 else low
  .next (s.decimalAdjusted al s.needsAdjust s.needsHighAdjust)

/-- AAM: AL is split by ten into AH and AL (R206). -/
def execAam (s : State) : Res :=
  let t := (s.reg8 .al).toNat
  let al := BitVec.ofNat 8 (t % 10)
  .next (((s.setReg16 .ax (wordOf al (BitVec.ofNat 8 (t / 10)))).setFlags
    (s.flags.szp al)).undefineFlags .decimal)

/-- AAD: AH times ten plus AL (R209). -/
def execAad (s : State) : Res :=
  let al := BitVec.ofNat 8 ((s.reg8 .ah).toNat * 10 + (s.reg8 .al).toNat)
  .next (((s.setReg16 .ax (wordOf al 0#8)).setFlags (s.flags.szp al)).undefineFlags .decimal)

/-! ## Multiplication (R204, R205) -/

/-- The flags of a multiplication: CF and OF say that the upper half matters, four are undefined. -/
def State.afterMultiply (upper : Bool) (s : State) : State :=
  (s.setFlags { s.flags with cf := upper, ofl := upper }).undefineFlags .multiply

/-- The double-width product is stored: AX, or DX:AX. -/
def State.setProduct (w : Width) (p : BitVec 32) (s : State) : State :=
  match w with
  | .byte => s.setReg16 .ax (p.extractLsb' 0 16)
  | .word => (s.setReg16 .ax (p.extractLsb' 0 16)).setReg16 .dx (p.extractLsb' 16 16)

/-- MUL: unsigned; CF = OF = the upper half is not zero (R204). -/
def execMulRm (w : Width) (rm : RM) (s : State) : Res :=
  let p := (s.readAcc w).toNat * (s.readAt w (place rm s)).toNat
  .next ((s.setProduct w (BitVec.ofNat 32 p)).afterMultiply (decide (2 ^ w.bits ≤ p)))

/-- IMUL: signed; CF = OF = the upper half is not the sign extension of the lower (R205). -/
def execImulRm (w : Width) (rm : RM) (s : State) : Res :=
  let p := (s.readAcc w).toInt * (s.readAt w (place rm s)).toInt
  .next ((s.setProduct w (BitVec.ofInt 32 p)).afterMultiply
    (decide ((BitVec.ofInt w.bits p).toInt ≠ p)))

/-! ## Division (R207, R208, R358) -/

/-- The divide error: the flags and the quotient and remainder registers become undefined, then
interrupt 0 with the offset of the next instruction (R358). -/
def State.divideError (w : Width) (s : State) : State :=
  let s1 := (s.undefineFlags .status).undefineReg .ax
  match w with
  | .byte => s1.interrupt 0#8 s.ip
  | .word => (s1.undefineReg .dx).interrupt 0#8 s.ip

/-- The dividend: AX, or DX:AX. -/
def State.dividend (w : Width) (s : State) : BitVec 32 :=
  match w with
  | .byte => s.regs.ax.zeroExtend 32
  | .word => s.regs.dx ++ s.regs.ax

/-- The dividend read as a signed number of 16 or 32 bits. -/
def State.signedDividend (w : Width) (s : State) : Int :=
  match w with
  | .byte => s.regs.ax.toInt
  | .word => (s.regs.dx ++ s.regs.ax).toInt

/-- Quotient and remainder are stored: AL and AH, or AX and DX; the six status flags become
undefined. -/
def State.setQuotient (w : Width) (q r : BitVec w.bits) (s : State) : State :=
  match w with
  | .byte => (s.setReg16 .ax (wordOf q r)).undefineFlags .status
  | .word => ((s.setReg16 .ax q).setReg16 .dx r).undefineFlags .status

/-- DIV: unsigned (R207). -/
def execDivRm (w : Width) (rm : RM) (s : State) : Res :=
  let n := (s.dividend w).toNat
  let d := (s.readAt w (place rm s)).toNat
  if d = 0 ∨ 2 ^ w.bits ≤ n / d then .next (s.divideError w)
  else .next (s.setQuotient w (BitVec.ofNat w.bits (n / d)) (BitVec.ofNat w.bits (n % d)))

/-- A signed quotient does not fit; the most negative one is the part's choice (R208,
`IDIV_MIN_QUOTIENT_FAULTS`). -/
def quotientTooBig (w : Width) (q : Int) : Bool :=
  decide (q < -2 ^ (w.bits - 1)) || decide (2 ^ (w.bits - 1) ≤ q) ||
    (decide (q = -2 ^ (w.bits - 1)) && Config.idivMinQuotientFaults)

/-- IDIV: signed, the quotient truncated toward zero (R208). -/
def execIdivRm (w : Width) (rm : RM) (s : State) : Res :=
  let n := s.signedDividend w
  let d := (s.readAt w (place rm s)).toInt
  if d = 0 ∨ quotientTooBig w (n.tdiv d) = true then .next (s.divideError w)
  else .next (s.setQuotient w (BitVec.ofInt w.bits (n.tdiv d)) (BitVec.ofInt w.bits (n.tmod d)))

/-! ## Conversion (R210, R211) -/

/-- CBW: AX is AL sign-extended (R210). -/
def execCbw (s : State) : Res := .next (s.setReg16 .ax (sext8 (s.reg8 .al)))

/-- CWD: DX is filled with the sign of AX (R211). -/
def execCwd (s : State) : Res :=
  .next (s.setReg16 .dx (if s.regs.ax.msb then 0xFFFF#16 else 0x0000#16))

end Sys2Proof.Machine
end

