-- ==== Sys2Proof/Machine/ControlTransfer.lean ====
section
/-! DEFINITION. The program execution transfer instructions (spec/45_control_transfer.md R302 to
R348). IP is already the offset of the next instruction (R26). -/

namespace Sys2Proof.Machine

/-! ## CALL (R303 to R306) -/

/-- CALL Disp-16 (R303). -/
def execCallRel (disp : Word) (s : State) : Res := .next ((s.push16 s.ip).jumpRel disp)

/-- CALL r/m: the target is read before the push (R304). -/
def execCallRm (rm : RM) (s : State) : Res :=
  .next ((s.push16 s.ip).jump (s.readAt .word (place rm s)))

/-- CS is pushed, then IP, and control goes to `seg:off` (R302, R305). -/
def State.callFarTo (seg off : Word) (s : State) : State :=
  ((s.push16 s.segs.cs).push16 s.ip).jumpFar seg off

/-- CALL far, direct (R305). -/
def execCallFar (off seg : Word) (s : State) : Res := .next (s.callFarTo seg off)

/-- CALL far, indirect: both words are read before the pushes (R306). -/
def execCallFarMem (m : Mem) (s : State) : Res :=
  let p := s.readPointer m
  .next (s.callFarTo p.2 p.1)

/-! ## RET (R308 to R311) -/

/-- SP moves up past `n` bytes of parameters (R309, R311). -/
def State.release (n : Word) (s : State) : State := s.setReg16 .sp (s.regs.sp + n)

/-- IP is popped (R308). -/
def State.returnNear (s : State) : State := s.drop16.jump s.top16

/-- IP is popped, then CS (R310). -/
def State.returnFar (s : State) : State := s.drop16.drop16.jumpFar s.drop16.top16 s.top16

/-- RET within the segment (R308). -/
def execRet (s : State) : Res := .next s.returnNear

/-- RET data-16 within the segment (R309). -/
def execRetImm (data : Word) (s : State) : Res := .next (s.returnNear.release data)

/-- RET inter-segment (R310). -/
def execRetf (s : State) : Res := .next s.returnFar

/-- RET data-16 inter-segment (R311). -/
def execRetfImm (data : Word) (s : State) : Res := .next (s.returnFar.release data)

/-! ## JMP (R313 to R317) -/

/-- JMP Disp-16 (R313). -/
def execJmpRel16 (disp : Word) (s : State) : Res := .next (s.jumpRel disp)

/-- JMP Disp-8 (R314). -/
def execJmpRel8 (disp : Byte) (s : State) : Res := .next (s.jumpRel (sext8 disp))

/-- JMP r/m: the value is loaded, not added (R315). -/
def execJmpRm (rm : RM) (s : State) : Res := .next (s.jump (s.readAt .word (place rm s)))

/-- JMP far, direct (R316). -/
def execJmpFar (off seg : Word) (s : State) : Res := .next (s.jumpFar seg off)

/-- JMP far, indirect (R317). -/
def execJmpFarMem (m : Mem) (s : State) : Res :=
  let p := s.readPointer m
  .next (s.jumpFar p.2 p.1)

/-! ## Iteration control (R319 to R322) -/

/-- CX goes down by one, no flag changes, unlike with DEC (R136), and the jump is taken when CX is not zero
and the condition holds (R318). -/
def State.loopIf (cond : Bool) (disp : Byte) (s : State) : State :=
  (s.setReg16 .cx (s.regs.cx - 1#16)).jumpIf (decide (s.regs.cx - 1#16 ≠ 0#16) && cond) disp

/-- LOOP (R322). -/
def execLoop (disp : Byte) (s : State) : Res := .next (s.loopIf true disp)

/-- LOOPZ and LOOPE (R319). -/
def execLoope (disp : Byte) (s : State) : Res := .next (s.loopIf s.flags.zf disp)

/-- LOOPNZ and LOOPNE (R320). -/
def execLoopne (disp : Byte) (s : State) : Res := .next (s.loopIf (!s.flags.zf) disp)

/-- JCXZ (R321). -/
def execJcxz (disp : Byte) (s : State) : Res := .next (s.jumpIf (decide (s.regs.cx = 0#16)) disp)

/-! ## Interrupt instructions (R324 to R327) -/

/-- INT type (R324). -/
def execIntN (type : Byte) (s : State) : Res := .next (s.interrupt type s.ip)

/-- INT 3 (R325). -/
def execInt3 (s : State) : Res := .next (s.interrupt 3#8 s.ip)

/-- INTO: interrupt 4 when OF is set, else nothing (R326). -/
def execInto (s : State) : Res := .next (if s.flags.ofl then s.interrupt 4#8 s.ip else s)

/-- IRET (R327). -/
def execIret (s : State) : Res := .next s.interruptReturn

/-! ## Conditional jumps (R330 to R348) -/

/-- JO (R338). -/
def execJo (disp : Byte) (s : State) : Res := .next (s.jumpIf s.flags.ofl disp)

/-- JNO (R339). -/
def execJno (disp : Byte) (s : State) : Res := .next (s.jumpIf (!s.flags.ofl) disp)

/-- JB, JNAE and JC (R333, R334). -/
def execJb (disp : Byte) (s : State) : Res := .next (s.jumpIf s.flags.cf disp)

/-- JAE, JNB and JNC (R332, R335). -/
def execJae (disp : Byte) (s : State) : Res := .next (s.jumpIf (!s.flags.cf) disp)

/-- JE and JZ (R336). -/
def execJe (disp : Byte) (s : State) : Res := .next (s.jumpIf s.flags.zf disp)

/-- JNE and JNZ (R337). -/
def execJne (disp : Byte) (s : State) : Res := .next (s.jumpIf (!s.flags.zf) disp)

/-- JBE and JNA (R348). -/
def execJbe (disp : Byte) (s : State) : Res := .next (s.jumpIf (s.flags.cf || s.flags.zf) disp)

/-- JA and JNBE (R331). -/
def execJa (disp : Byte) (s : State) : Res := .next (s.jumpIf (!s.flags.cf && !s.flags.zf) disp)

/-- JS (R342). -/
def execJs (disp : Byte) (s : State) : Res := .next (s.jumpIf s.flags.sf disp)

/-- JNS (R343). -/
def execJns (disp : Byte) (s : State) : Res := .next (s.jumpIf (!s.flags.sf) disp)

/-- JP and JPE (R340). -/
def execJp (disp : Byte) (s : State) : Res := .next (s.jumpIf s.flags.pf disp)

/-- JNP and JPO (R341). -/
def execJnp (disp : Byte) (s : State) : Res := .next (s.jumpIf (!s.flags.pf) disp)

/-- JL and JNGE (R346). -/
def execJl (disp : Byte) (s : State) : Res := .next (s.jumpIf (s.flags.sf != s.flags.ofl) disp)

/-- JGE and JNL (R345). -/
def execJge (disp : Byte) (s : State) : Res := .next (s.jumpIf (s.flags.sf == s.flags.ofl) disp)

/-- JLE and JNG (R347). -/
def execJle (disp : Byte) (s : State) : Res :=
  .next (s.jumpIf (s.flags.sf != s.flags.ofl || s.flags.zf) disp)

/-- JG and JNLE (R344). -/
def execJg (disp : Byte) (s : State) : Res :=
  .next (s.jumpIf (!s.flags.zf && s.flags.sf == s.flags.ofl) disp)

end Sys2Proof.Machine
end

