-- ==== Sys2Proof/Machine/DataTransfer.lean ====
section
/-! DEFINITION. The data transfer instructions (spec/40_data_transfer.md R152 to R168). -/

namespace Sys2Proof.Machine

/-! ## MOV (R152, R153) -/

/-- `dest <- source` between places of one width. -/
def State.copy (w : Width) (dst src : Place) (s : State) : State := s.writeAt w dst (s.readAt w src)

/-- MOV between a register and `r/m` (R152). -/
def execMovRm (d : Dir) (w : Width) (reg : RegNum) (rm : RM) (s : State) : Res :=
  .next (s.copy w (dstPlace d reg (place rm s)) (srcPlace d reg (place rm s)))

/-- MOV of an immediate to a register (R152). -/
def execMovRegImm (reg : RegNum) (imm : Imm) (s : State) : Res :=
  .next (s.writeReg imm.width reg imm.value)

/-- MOV of an immediate to `r/m` (R152). -/
def execMovRmImm (imm : Imm) (rm : RM) (s : State) : Res :=
  .next (s.writeAt imm.width (place rm s) imm.value)

/-- MOV from a direct offset to the accumulator (R152, R107). -/
def execMovAccMoffs (w : Width) (addr : Word) (s : State) : Res :=
  .next (s.writeAcc w (s.readMem w (s.dataSeg .ds) addr))

/-- MOV from the accumulator to a direct offset (R152, R107). -/
def execMovMoffsAcc (w : Width) (addr : Word) (s : State) : Res :=
  .next (s.writeMem w (s.dataSeg .ds) addr (s.readAcc w))

/-- MOV from a segment register (R153). -/
def execMovRmSreg (sr : SegReg) (rm : RM) (s : State) : Res :=
  .next (s.writeAt .word (place rm s) (s.seg sr))

/-- A load of a segment register: of SS with the interrupt shadow (R153, R157, R364). CS is no
destination (R31). -/
def State.loadSeg (sr : SegReg) (v : Word) (s : State) : Res :=
  match sr with
  | .cs => .refused .codeSegmentDestination
  | .ss => .next (s.setSeg .ss v).setShadow
  | .es => .next (s.setSeg .es v)
  | .ds => .next (s.setSeg .ds v)

/-- MOV to a segment register (R153). -/
def execMovSregRm (sr : SegReg) (rm : RM) (s : State) : Res :=
  s.loadSeg sr (s.readAt .word (place rm s))

/-! ## PUSH and POP (R155, R157) -/

/-- PUSH of a 16-bit register: read after SP has gone down, so that PUSH SP stores the new SP (R155). -/
def State.pushReg16 (r : Reg16) (s : State) : State := s.push16 (s.decSp.reg16 r)

/-- PUSH of a 16-bit register, the short form (R155). -/
def execPushReg (r : Reg16) (s : State) : Res := .next (s.pushReg16 r)

/-- PUSH of `r/m`: memory is read before SP changes, a register as in the short form (R155, R133; log
entry 32). -/
def execPushRm (rm : RM) (s : State) : Res :=
  match rm with
  | .reg i => .next (s.pushReg16 i.reg16)
  | .mem m => .next (s.push16 (s.readAt .word (memPlace m s)))

/-- PUSH of a segment register (R155). -/
def execPushSreg (sr : SegReg) (s : State) : Res := .next (s.push16 (s.seg sr))

/-- POP of a 16-bit register: SP has gone up before the register is written (R157). -/
def execPopReg (r : Reg16) (s : State) : Res := .next (s.drop16.setReg16 r s.top16)

/-- POP of `r/m`: the operand's address is computed before the pop (R157). -/
def execPopRm (rm : RM) (s : State) : Res := .next (s.drop16.writeAt .word (place rm s) s.top16)

/-- POP of a segment register (R157). -/
def execPopSreg (sr : SegReg) (s : State) : Res := s.drop16.loadSeg sr s.top16

/-! ## XCHG (R158) -/

/-- XCHG of a register and `r/m`: both are read before either is written; a memory operand asserts the
LOCK output (R158, R90). -/
def execXchgRm (w : Width) (reg : RegNum) (rm : RM) (s : State) : Res :=
  let p := place rm s
  let a := s.readAt w p
  let b := s.readReg w reg
  let s1 := if rm.isMem then s.assertLock else s
  .next ((s1.writeAt w p b).writeReg w reg a)

/-- XCHG of AX and a 16-bit register, the short form (R158). -/
def execXchgAcc (r : Reg16) (s : State) : Res :=
  .next ((s.setReg16 .ax (s.reg16 r)).setReg16 r s.regs.ax)

/-! ## XLAT (R159) -/

/-- XLAT: AL is replaced by the byte at BX + AL (R159). -/
def execXlat (s : State) : Res :=
  .next (s.setReg8 .al (s.read8 (s.dataSeg .ds) (s.regs.bx + zext8 (s.reg8 .al))))

/-! ## IN and OUT (R160, R161) -/

/-- A port is read into the accumulator (R160, R75). -/
def State.input (w : Width) (port : Word) (s : State) : State :=
  ((s.afterPort w).emit (.portRead port w (asWord w (s.portValue w port)))).writeAcc w
    (s.portValue w port)

/-- The accumulator is written to a port (R161, R75). -/
def State.output (w : Width) (port : Word) (s : State) : State :=
  s.emit (.portWrite port w (asWord w (s.readAcc w)))

/-- IN from an immediate port address (R160). -/
def execInImm (w : Width) (port : Byte) (s : State) : Res := .next (s.input w (zext8 port))

/-- IN from the port in DX (R160). -/
def execInDx (w : Width) (s : State) : Res := .next (s.input w s.regs.dx)

/-- OUT to an immediate port address (R161). -/
def execOutImm (w : Width) (port : Byte) (s : State) : Res := .next (s.output w (zext8 port))

/-- OUT to the port in DX (R161). -/
def execOutDx (w : Width) (s : State) : Res := .next (s.output w s.regs.dx)

/-! ## LEA, LDS, LES (R162 to R164) -/

/-- LEA: the effective address itself (R162). -/
def execLea (r : Reg16) (m : Mem) (s : State) : Res := .next (s.setReg16 r (effAddr m s))

/-- LDS: both words of the pointer are read before a register is written (R163). -/
def execLds (r : Reg16) (m : Mem) (s : State) : Res :=
  let p := s.readPointer m
  .next ((s.setReg16 r p.1).setSeg .ds p.2)

/-- LES (R164). -/
def execLes (r : Reg16) (m : Mem) (s : State) : Res :=
  let p := s.readPointer m
  .next ((s.setReg16 r p.1).setSeg .es p.2)

/-! ## Flag transfer (R165 to R168) -/

/-- LAHF: the low byte of the flag register (R165). -/
def execLahf (s : State) : Res := .next (s.nextDraw.setReg8 .ah (loByte s.flagsImage))

/-- SAHF (R166). -/
def execSahf (s : State) : Res := .next (s.setFlags (s.flags.setLow (s.reg8 .ah)))

/-- PUSHF (R167). -/
def execPushf (s : State) : Res := .next (s.nextDraw.push16 s.flagsImage)

/-- POPF (R168). -/
def execPopf (s : State) : Res := .next (s.drop16.setFlags (Flags.ofWord s.top16))

end Sys2Proof.Machine
end

