-- ==== Sys2Proof/Machine/Logic.lean ====
section
/-! DEFINITION. The logical instructions (spec/42_bit_manipulation.md R231 to R235). -/

namespace Sys2Proof.Machine

/-- `LOGIC_w(v)` with AF undefined (R43). -/
def State.logicFlags {n : Nat} (v : BitVec n) (s : State) : State :=
  (s.setFlags (s.flags.logic v)).undefineFlags .onlyAf

/-- Bitwise AND (R232, R235). -/
def aluAnd : AluOp := fun _ a b s => (a &&& b, s.logicFlags (a &&& b))

/-- Bitwise OR (R233). -/
def aluOr : AluOp := fun _ a b s => (a ||| b, s.logicFlags (a ||| b))

/-- Bitwise exclusive OR (R234). -/
def aluXor : AluOp := fun _ a b s => (a ^^^ b, s.logicFlags (a ^^^ b))

/-- The one's complement; no flag changes (R231). -/
def opNot : UnaryOp := fun _ a s => (~~~a, s)

/-- AND, ModRM form (R232). -/
def execAndRm (d : Dir) (w : Width) (reg : RegNum) (rm : RM) (s : State) : Res :=
  aluModRM aluAnd d w reg rm s

/-- AND, accumulator form (R232). -/
def execAndAcc (imm : Imm) (s : State) : Res := aluAccImm aluAnd imm s

/-- AND, immediate form (R232). -/
def execAndImm (imm : Imm) (rm : RM) (s : State) : Res := aluRmImm aluAnd imm rm s

/-- OR, ModRM form (R233). -/
def execOrRm (d : Dir) (w : Width) (reg : RegNum) (rm : RM) (s : State) : Res :=
  aluModRM aluOr d w reg rm s

/-- OR, accumulator form (R233). -/
def execOrAcc (imm : Imm) (s : State) : Res := aluAccImm aluOr imm s

/-- OR, immediate form (R233). -/
def execOrImm (imm : Imm) (rm : RM) (s : State) : Res := aluRmImm aluOr imm rm s

/-- XOR, ModRM form (R234). -/
def execXorRm (d : Dir) (w : Width) (reg : RegNum) (rm : RM) (s : State) : Res :=
  aluModRM aluXor d w reg rm s

/-- XOR, accumulator form (R234). -/
def execXorAcc (imm : Imm) (s : State) : Res := aluAccImm aluXor imm s

/-- XOR, immediate form (R234). -/
def execXorImm (imm : Imm) (rm : RM) (s : State) : Res := aluRmImm aluXor imm rm s

/-- TEST, ModRM form: the AND of the operands, for its flags (R235). -/
def execTestRm (w : Width) (reg : RegNum) (rm : RM) (s : State) : Res :=
  cmpModRM aluAnd .toRm w reg rm s

/-- TEST, accumulator form (R235). -/
def execTestAcc (imm : Imm) (s : State) : Res := cmpAccImm aluAnd imm s

/-- TEST, immediate form (R235). -/
def execTestImm (imm : Imm) (rm : RM) (s : State) : Res := cmpRmImm aluAnd imm rm s

/-- NOT (R231). -/
def execNotRm (w : Width) (rm : RM) (s : State) : Res := .next (s.modify opNot w (place rm s))

end Sys2Proof.Machine
end

