-- ==== Sys2Proof/Machine/ProcessorControl.lean ====
section
/-! DEFINITION. The processor control instructions (spec/44_processor_control.md R281 to R292) and the
prefix rows of the opcode table (spec/30_encoding.md R102). -/

namespace Sys2Proof.Machine

/-- CLC (R281). -/
def execClc (s : State) : Res := .next (s.setFlags { s.flags with cf := false })

/-- CMC (R282). -/
def execCmc (s : State) : Res := .next (s.setFlags { s.flags with cf := !s.flags.cf })

/-- STC (R283). -/
def execStc (s : State) : Res := .next (s.setFlags { s.flags with cf := true })

/-- CLD (R284). -/
def execCld (s : State) : Res := .next (s.setFlags { s.flags with df := false })

/-- STD (R285). -/
def execStd (s : State) : Res := .next (s.setFlags { s.flags with df := true })

/-- CLI (R286). -/
def execCli (s : State) : Res := .next (s.setFlags { s.flags with ifl := false })

/-- STI, with the interrupt shadow (R287, R364). -/
def execSti (s : State) : Res := .next (s.setFlags { s.flags with ifl := true }).setShadow

/-- WAIT: with TEST asserted it completes; else the processor enters the wait state, with IP already
advanced (R288). `runNext` says what it does there. -/
def execWait (s : State) : Res :=
  if s.pins.test then .next { s with waiting := false }
  else .next { s with waiting := true }

/-- NOP (R289). -/
def execNop (s : State) : Res := .next s

/-- ESC: a memory operand is read as a word and discarded, which the bus shows; a register operand is
not accessed (R290, R93; log entry 23). -/
def execEsc (_code : BitVec 6) (rm : RM) (s : State) : Res :=
  match rm with
  | .reg _ => .next s
  | .mem m =>
    let seg := s.dataSeg (defaultSeg m)
    let off := effAddr m s
    .next (s.emit (.escRead (physAddr seg off) (s.read16 seg off)))

/-- HLT: IP already holds the offset of the next instruction (R292). -/
def execHlt (s : State) : Res := .next { s with halted := true }

/-! ## The prefix rows (R102; log entry 20) -/

/-- Record what a prefix says, for the instruction it stands before. -/
def State.setPrefixes (p : Prefixes) (s : State) : State := { s with prefixes := p }

/-- A segment override prefix (R83). -/
def execSegOverride (sr : SegReg) (s : State) : Res :=
  .next (s.setPrefixes { s.prefixes with seg := some sr })

/-- LOCK: the LOCK output is asserted for the instruction (R291, R90). -/
def execLock (s : State) : Res := .next (s.setPrefixes { s.prefixes with lock := true }).assertLock

/-- REPNE and REPNZ (R264). -/
def execRepne (s : State) : Res := .next (s.setPrefixes { s.prefixes with rep := some .repne })

/-- REP, REPE and REPZ (R261, R262). -/
def execRep (s : State) : Res := .next (s.setPrefixes { s.prefixes with rep := some .repe })

end Sys2Proof.Machine
end

