-- ==== Sys2Proof/Machine/Shift.lean ====
section
/-! DEFINITION. The shifts and rotates (spec/42_bit_manipulation.md R240 to R249): a count of
single-bit steps. -/

namespace Sys2Proof.Machine

/-- One single-bit step of an operand and the carry flag (R240). -/
abbrev ShiftStep := (n : Nat) → BitVec n → Bool → BitVec n × Bool

/-- OF after a count of 1, from the operand, the result and the new carry (R241 (d)). -/
abbrev ShiftOverflow := (n : Nat) → BitVec n → BitVec n → Bool → Bool

/-- A bit at the bottom of an operand. -/
def lowBit (n : Nat) (b : Bool) : BitVec n := BitVec.ofNat n b.toNat

/-- A bit at the top of an operand. -/
def highBit (n : Nat) (b : Bool) : BitVec n := lowBit n b <<< (n - 1)

/-- SHL: the top bit goes to CF, a zero enters below (R243). -/
def shlStep : ShiftStep := fun _ v _ => (v <<< 1, v.msb)

/-- SHR: the bottom bit goes to CF, a zero enters above (R244). -/
def shrStep : ShiftStep := fun _ v _ => (v >>> 1, v.getLsbD 0)

/-- SAR: the bottom bit goes to CF, the top bit stays (R245). -/
def sarStep : ShiftStep := fun n v _ => (v >>> 1 ||| highBit n v.msb, v.getLsbD 0)

/-- ROL: the top bit goes to CF and to the bottom (R246). -/
def rolStep : ShiftStep := fun n v _ => (v <<< 1 ||| lowBit n v.msb, v.msb)

/-- RCL: the top bit goes to CF, the old CF to the bottom (R247). -/
def rclStep : ShiftStep := fun n v c => (v <<< 1 ||| lowBit n c, v.msb)

/-- ROR: the bottom bit goes to CF and to the top (R248). -/
def rorStep : ShiftStep := fun n v _ => (v >>> 1 ||| highBit n (v.getLsbD 0), v.getLsbD 0)

/-- RCR: the bottom bit goes to CF, the old CF to the top (R249). -/
def rcrStep : ShiftStep := fun n v c => (v >>> 1 ||| highBit n c, v.getLsbD 0)

/-- OF of a movement to the left: the top bit of the result differs from CF (R243, R246, R247). -/
def leftOverflow : ShiftOverflow := fun _ _ r c => r.msb ^^ c

/-- OF of SHR: the top bit of the operand (R244). -/
def shrOverflow : ShiftOverflow := fun _ v _ _ => v.msb

/-- OF of SAR: clear (R245). -/
def sarOverflow : ShiftOverflow := fun _ _ _ _ => false

/-- OF of a rotation to the right: the two top bits of the result differ (R248, R249). -/
def rightOverflow : ShiftOverflow := fun n _ r _ => r.msb ^^ r.getLsbD (n - 2)

/-- The step repeated (R240). -/
def shiftSteps (step : ShiftStep) (n : Nat) : Nat → BitVec n → Bool → BitVec n × Bool
  | 0, v, c => (v, c)
  | k + 1, v, c => shiftSteps step n k (step n v c).1 (step n v c).2

/-- The count: 1, or the whole of CL (R240). -/
def State.shiftCount (cnt : ShiftCount) (s : State) : Nat :=
  match cnt with
  | .one => 1
  | .cl => (s.reg8 .cl).toNat

/-- A shift: a count of 0 changes nothing; SF, ZF and PF come from the result, AF is undefined, OF is
defined for a count of 1 only (R240, R241). -/
def State.shift (step : ShiftStep) (ovf : ShiftOverflow) (cnt : ShiftCount) (w : Width) (p : Place)
    (s : State) : State :=
  let k := s.shiftCount cnt
  let v := s.readAt w p
  let r := shiftSteps step w.bits k v s.flags.cf
  let f := { s.flags.szp r.1 with cf := r.2, ofl := ovf w.bits v r.1 r.2 }
  if k = 0 then s
  else if k = 1 then ((s.setFlags f).undefineFlags .onlyAf).writeAt w p r.1
  else ((s.setFlags f).undefineFlags .afOf).writeAt w p r.1

/-- A rotation: a count of 0 changes nothing; of the flags only CF and OF change, OF is defined for a
count of 1 only (R240, R241). -/
def State.rotate (step : ShiftStep) (ovf : ShiftOverflow) (cnt : ShiftCount) (w : Width) (p : Place)
    (s : State) : State :=
  let k := s.shiftCount cnt
  let v := s.readAt w p
  let r := shiftSteps step w.bits k v s.flags.cf
  let f := { s.flags with cf := r.2, ofl := ovf w.bits v r.1 r.2 }
  if k = 0 then s
  else if k = 1 then (s.setFlags f).writeAt w p r.1
  else ((s.setFlags f).undefineFlags .onlyOf).writeAt w p r.1

/-- ROL (R246). -/
def execRol (cnt : ShiftCount) (w : Width) (rm : RM) (s : State) : Res :=
  .next (s.rotate rolStep leftOverflow cnt w (place rm s))

/-- ROR (R248). -/
def execRor (cnt : ShiftCount) (w : Width) (rm : RM) (s : State) : Res :=
  .next (s.rotate rorStep rightOverflow cnt w (place rm s))

/-- RCL (R247). -/
def execRcl (cnt : ShiftCount) (w : Width) (rm : RM) (s : State) : Res :=
  .next (s.rotate rclStep leftOverflow cnt w (place rm s))

/-- RCR (R249). -/
def execRcr (cnt : ShiftCount) (w : Width) (rm : RM) (s : State) : Res :=
  .next (s.rotate rcrStep rightOverflow cnt w (place rm s))

/-- SHL, also called SAL (R243). -/
def execShl (cnt : ShiftCount) (w : Width) (rm : RM) (s : State) : Res :=
  .next (s.shift shlStep leftOverflow cnt w (place rm s))

/-- SHR (R244). -/
def execShr (cnt : ShiftCount) (w : Width) (rm : RM) (s : State) : Res :=
  .next (s.shift shrStep shrOverflow cnt w (place rm s))

/-- SAR (R245). -/
def execSar (cnt : ShiftCount) (w : Width) (rm : RM) (s : State) : Res :=
  .next (s.shift sarStep sarOverflow cnt w (place rm s))

end Sys2Proof.Machine
end

