-- ==== Sys2Proof/Machine/Dispatch.lean ====
section
/-! DEFINITION. The meaning of every instruction: one arm per constructor of `Instr`, in the order of
spec/opcode_table.json. -/

namespace Sys2Proof.Machine

def exec (i : Instr) (s : State) : Host.Outcome State Fault Refusal :=
  match i with
  | .addRm d w reg rm => Sys2Proof.Machine.execAddRm d w reg rm s
  | .addAcc imm => Sys2Proof.Machine.execAddAcc imm s
  | .orRm d w reg rm => Sys2Proof.Machine.execOrRm d w reg rm s
  | .orAcc imm => Sys2Proof.Machine.execOrAcc imm s
  | .adcRm d w reg rm => Sys2Proof.Machine.execAdcRm d w reg rm s
  | .adcAcc imm => Sys2Proof.Machine.execAdcAcc imm s
  | .sbbRm d w reg rm => Sys2Proof.Machine.execSbbRm d w reg rm s
  | .sbbAcc imm => Sys2Proof.Machine.execSbbAcc imm s
  | .andRm d w reg rm => Sys2Proof.Machine.execAndRm d w reg rm s
  | .andAcc imm => Sys2Proof.Machine.execAndAcc imm s
  | .subRm d w reg rm => Sys2Proof.Machine.execSubRm d w reg rm s
  | .subAcc imm => Sys2Proof.Machine.execSubAcc imm s
  | .xorRm d w reg rm => Sys2Proof.Machine.execXorRm d w reg rm s
  | .xorAcc imm => Sys2Proof.Machine.execXorAcc imm s
  | .cmpRm d w reg rm => Sys2Proof.Machine.execCmpRm d w reg rm s
  | .cmpAcc imm => Sys2Proof.Machine.execCmpAcc imm s
  | .pushSreg sr => Sys2Proof.Machine.execPushSreg sr s
  | .popSreg sr => Sys2Proof.Machine.execPopSreg sr s
  | .segOverride sr => Sys2Proof.Machine.execSegOverride sr s
  | .daa => Sys2Proof.Machine.execDaa s
  | .das => Sys2Proof.Machine.execDas s
  | .aaa => Sys2Proof.Machine.execAaa s
  | .aas => Sys2Proof.Machine.execAas s
  | .incReg r => Sys2Proof.Machine.execIncReg r s
  | .decReg r => Sys2Proof.Machine.execDecReg r s
  | .pushReg r => Sys2Proof.Machine.execPushReg r s
  | .popReg r => Sys2Proof.Machine.execPopReg r s
  | .jo disp => Sys2Proof.Machine.execJo disp s
  | .jno disp => Sys2Proof.Machine.execJno disp s
  | .jb disp => Sys2Proof.Machine.execJb disp s
  | .jae disp => Sys2Proof.Machine.execJae disp s
  | .je disp => Sys2Proof.Machine.execJe disp s
  | .jne disp => Sys2Proof.Machine.execJne disp s
  | .jbe disp => Sys2Proof.Machine.execJbe disp s
  | .ja disp => Sys2Proof.Machine.execJa disp s
  | .js disp => Sys2Proof.Machine.execJs disp s
  | .jns disp => Sys2Proof.Machine.execJns disp s
  | .jp disp => Sys2Proof.Machine.execJp disp s
  | .jnp disp => Sys2Proof.Machine.execJnp disp s
  | .jl disp => Sys2Proof.Machine.execJl disp s
  | .jge disp => Sys2Proof.Machine.execJge disp s
  | .jle disp => Sys2Proof.Machine.execJle disp s
  | .jg disp => Sys2Proof.Machine.execJg disp s
  | .addImm g rm => Sys2Proof.Machine.execAddImm g rm s
  | .orImm imm rm => Sys2Proof.Machine.execOrImm imm rm s
  | .adcImm g rm => Sys2Proof.Machine.execAdcImm g rm s
  | .sbbImm g rm => Sys2Proof.Machine.execSbbImm g rm s
  | .andImm imm rm => Sys2Proof.Machine.execAndImm imm rm s
  | .subImm g rm => Sys2Proof.Machine.execSubImm g rm s
  | .xorImm imm rm => Sys2Proof.Machine.execXorImm imm rm s
  | .cmpImm g rm => Sys2Proof.Machine.execCmpImm g rm s
  | .testRm w reg rm => Sys2Proof.Machine.execTestRm w reg rm s
  | .xchgRm w reg rm => Sys2Proof.Machine.execXchgRm w reg rm s
  | .movRm d w reg rm => Sys2Proof.Machine.execMovRm d w reg rm s
  | .movRmSreg sr rm => Sys2Proof.Machine.execMovRmSreg sr rm s
  | .lea r m => Sys2Proof.Machine.execLea r m s
  | .movSregRm sr rm => Sys2Proof.Machine.execMovSregRm sr rm s
  | .popRm rm => Sys2Proof.Machine.execPopRm rm s
  | .nop => Sys2Proof.Machine.execNop s
  | .xchgAcc r => Sys2Proof.Machine.execXchgAcc r s
  | .cbw => Sys2Proof.Machine.execCbw s
  | .cwd => Sys2Proof.Machine.execCwd s
  | .callFar off seg => Sys2Proof.Machine.execCallFar off seg s
  | .wait => Sys2Proof.Machine.execWait s
  | .pushf => Sys2Proof.Machine.execPushf s
  | .popf => Sys2Proof.Machine.execPopf s
  | .sahf => Sys2Proof.Machine.execSahf s
  | .lahf => Sys2Proof.Machine.execLahf s
  | .movAccMoffs w addr => Sys2Proof.Machine.execMovAccMoffs w addr s
  | .movMoffsAcc w addr => Sys2Proof.Machine.execMovMoffsAcc w addr s
  | .movs w => Sys2Proof.Machine.execMovs w s
  | .cmps w => Sys2Proof.Machine.execCmps w s
  | .testAcc imm => Sys2Proof.Machine.execTestAcc imm s
  | .stos w => Sys2Proof.Machine.execStos w s
  | .lods w => Sys2Proof.Machine.execLods w s
  | .scas w => Sys2Proof.Machine.execScas w s
  | .movRegImm reg imm => Sys2Proof.Machine.execMovRegImm reg imm s
  | .retImm data => Sys2Proof.Machine.execRetImm data s
  | .ret => Sys2Proof.Machine.execRet s
  | .les r m => Sys2Proof.Machine.execLes r m s
  | .lds r m => Sys2Proof.Machine.execLds r m s
  | .movRmImm imm rm => Sys2Proof.Machine.execMovRmImm imm rm s
  | .retfImm data => Sys2Proof.Machine.execRetfImm data s
  | .retf => Sys2Proof.Machine.execRetf s
  | .int3 => Sys2Proof.Machine.execInt3 s
  | .intN type => Sys2Proof.Machine.execIntN type s
  | .into => Sys2Proof.Machine.execInto s
  | .iret => Sys2Proof.Machine.execIret s
  | .rol cnt w rm => Sys2Proof.Machine.execRol cnt w rm s
  | .ror cnt w rm => Sys2Proof.Machine.execRor cnt w rm s
  | .rcl cnt w rm => Sys2Proof.Machine.execRcl cnt w rm s
  | .rcr cnt w rm => Sys2Proof.Machine.execRcr cnt w rm s
  | .shl cnt w rm => Sys2Proof.Machine.execShl cnt w rm s
  | .shr cnt w rm => Sys2Proof.Machine.execShr cnt w rm s
  | .sar cnt w rm => Sys2Proof.Machine.execSar cnt w rm s
  | .aam => Sys2Proof.Machine.execAam s
  | .aad => Sys2Proof.Machine.execAad s
  | .xlat => Sys2Proof.Machine.execXlat s
  | .esc code rm => Sys2Proof.Machine.execEsc code rm s
  | .loopne disp => Sys2Proof.Machine.execLoopne disp s
  | .loope disp => Sys2Proof.Machine.execLoope disp s
  | .loop disp => Sys2Proof.Machine.execLoop disp s
  | .jcxz disp => Sys2Proof.Machine.execJcxz disp s
  | .inImm w port => Sys2Proof.Machine.execInImm w port s
  | .outImm w port => Sys2Proof.Machine.execOutImm w port s
  | .callRel disp => Sys2Proof.Machine.execCallRel disp s
  | .jmpRel16 disp => Sys2Proof.Machine.execJmpRel16 disp s
  | .jmpFar off seg => Sys2Proof.Machine.execJmpFar off seg s
  | .jmpRel8 disp => Sys2Proof.Machine.execJmpRel8 disp s
  | .inDx w => Sys2Proof.Machine.execInDx w s
  | .outDx w => Sys2Proof.Machine.execOutDx w s
  | .lock => Sys2Proof.Machine.execLock s
  | .repne => Sys2Proof.Machine.execRepne s
  | .rep => Sys2Proof.Machine.execRep s
  | .hlt => Sys2Proof.Machine.execHlt s
  | .cmc => Sys2Proof.Machine.execCmc s
  | .testImm imm rm => Sys2Proof.Machine.execTestImm imm rm s
  | .notRm w rm => Sys2Proof.Machine.execNotRm w rm s
  | .negRm w rm => Sys2Proof.Machine.execNegRm w rm s
  | .mulRm w rm => Sys2Proof.Machine.execMulRm w rm s
  | .imulRm w rm => Sys2Proof.Machine.execImulRm w rm s
  | .divRm w rm => Sys2Proof.Machine.execDivRm w rm s
  | .idivRm w rm => Sys2Proof.Machine.execIdivRm w rm s
  | .clc => Sys2Proof.Machine.execClc s
  | .stc => Sys2Proof.Machine.execStc s
  | .cli => Sys2Proof.Machine.execCli s
  | .sti => Sys2Proof.Machine.execSti s
  | .cld => Sys2Proof.Machine.execCld s
  | .std => Sys2Proof.Machine.execStd s
  | .incRm w rm => Sys2Proof.Machine.execIncRm w rm s
  | .decRm w rm => Sys2Proof.Machine.execDecRm w rm s
  | .callRm rm => Sys2Proof.Machine.execCallRm rm s
  | .callFarMem m => Sys2Proof.Machine.execCallFarMem m s
  | .jmpRm rm => Sys2Proof.Machine.execJmpRm rm s
  | .jmpFarMem m => Sys2Proof.Machine.execJmpFarMem m s
  | .pushRm rm => Sys2Proof.Machine.execPushRm rm s

end Sys2Proof.Machine
end

