-- ==== Sys2Proof/Machine/Step.lean ====
section
/-! DEFINITION. The step of the machine, and the host's way to place one instruction where the next
step fetches it. -/

namespace Sys2Proof.Machine

/-- One step: `cycle` with the meanings of Machine/Dispatch.lean. -/
def step (s : State) : Host.Outcome State Fault Refusal := cycle exec s

/-- The state with the instruction of a word of the opcode table stored at CS:IP, zeros after it (log
entries 25, 26). -/
def State.withFetchWord (s : State) (nbits w : Nat) : State :=
  s.placeInstruction (tableBytes nbits w)

end Sys2Proof.Machine
end

