-- ==== Sys2Proof/Safety.lean ====
section
/-! DEFINITION. What holds of a state between steps, and the vocabulary the statements use: what an
instruction leaves unchanged, and what reads as before. -/

namespace Sys2Proof.Machine

/-! ## The invariant of the machine -/

/-- What holds between steps: memory and the set of R400 keep their canonical forms; no prefix is
pending (R39 (g)); LOCK is asserted only between the iterations of a locked repeat (R39 (e), R291); the
processor is not both halted and waiting (R376); a repeat in progress has its repeat prefix, in a
processor that neither halts nor waits, and with a second prefix only where nothing can interrupt it
(R401). -/
structure Inv (s : State) : Prop where
  memory : Memory.wf s.mem
  written : WrittenSet.wf s.written
  prefixes : s.prefixes = Prefixes.none
  lockOutput : s.lockOutput = s.repeating.any (fun r => r.prefixes.lock)
  oneIdle : ¬(s.halted = true ∧ s.waiting = true)
  repeating : ∀ r, s.repeating = some r →
    r.prefixes.rep ≠ none ∧ s.halted = false ∧ s.waiting = false ∧
      (r.prefixes.hasSegOrLock = true → s.flags.ifl = false ∧ s.flags.tf = false)

/-- Nothing asks for the processor's attention, now or at the next sampling: no pin is scheduled to
change, RESET is not asserted, and no request is pending that the processor would accept (R353 to
R357). -/
structure Quiet (s : State) : Prop where
  schedule : s.pinSchedule = []
  reset : s.pins.reset = false
  nmi : s.nmiLatch = false
  intr : s.pins.intr = none ∨ s.flags.ifl = false
  trap : s.trapPending = false

/-! ## Reading one byte of memory -/

/-- The byte that memory holds at a physical address: what a read of RAM or ROM gives. -/
def State.byteAt (s : State) (a : Nat) : Byte := Memory.read s.mem a

/-- The physical addresses of an operand of a width at `seg:off`; the second offset wraps in the
segment (R66). -/
def operandBytes (w : Width) (seg off : Word) : List Nat :=
  match w with
  | .byte => [(physAddr seg off).toNat]
  | .word => [(physAddr seg off).toNat, (physAddr seg (off + 1#16)).toNat]

/-- The physical addresses of `n` words below `sp` in the segment `ss`: where `n` pushes store. -/
def stackBytes (ss sp : Word) : Nat → List Nat
  | 0 => []
  | n + 1 => operandBytes .word ss (sp - 2#16) ++ stackBytes ss (sp - 2#16) n

/-- The addresses a store to a place covers: none for a register. -/
def Place.bytes (p : Place) (w : Width) : List Nat :=
  match p with
  | .reg _ => []
  | .mem seg off => operandBytes w seg off

/-- A word read byte by byte: the low byte at `off` (R63, R66). -/
def State.wordAt (s : State) (seg off : Word) : Nat :=
  (s.readByte (physAddr seg off).toNat).toNat +
    256 * (s.readByte (physAddr seg (off + 1#16)).toNat).toNat

/-- The listed addresses are RAM (R73 (c)). -/
def AllRam (addrs : List Nat) (s : State) : Prop := ∀ a ∈ addrs, s.kindAt a = .ram

/-- `v` was stored to a place of a width, byte by byte: a register holds it, and so does each byte of
memory that is RAM, the low byte at the lower offset (R63, R66, R73 (c)). -/
def Stored (w : Width) (p : Place) (v : BitVec w.bits) (s t : State) : Prop :=
  match p with
  | .reg i => t.readReg w i = v
  | .mem seg off =>
    (s.kindAt (physAddr seg off).toNat = .ram →
      t.byteAt (physAddr seg off).toNat = v.extractLsb' 0 8) ∧
    (w = .word → s.kindAt (physAddr seg (off + 1#16)).toNat = .ram →
      t.byteAt (physAddr seg (off + 1#16)).toNat = v.extractLsb' 8 8)

/-! ## Frames -/

/-- The state that no register, flag, memory or IP shows is unchanged. -/
structure SameHidden (s t : State) : Prop where
  memMap : t.memMap = s.memMap
  halted : t.halted = s.halted
  waiting : t.waiting = s.waiting
  intShadow : t.intShadow = s.intShadow
  trapPending : t.trapPending = s.trapPending
  nmiLatch : t.nmiLatch = s.nmiLatch
  lockOutput : t.lockOutput = s.lockOutput
  prefixes : t.prefixes = s.prefixes
  instrStart : t.instrStart = s.instrStart
  repeating : t.repeating = s.repeating
  pins : t.pins = s.pins
  pinSchedule : t.pinSchedule = s.pinSchedule
  portScript : t.portScript = s.portScript
  busEvents : t.busEvents = s.busEvents

/-- Memory is as before outside the listed addresses, and at all of them that are not RAM (R73 (c)). -/
def KeepsMemory (addrs : List Nat) (s t : State) : Prop :=
  ∀ a, a ∉ addrs ∨ s.kindAt a ≠ .ram → t.byteAt a = s.byteAt a

/-- Memory is as before outside the listed addresses, and exactly those join the set of R400. -/
structure StoresOnly (addrs : List Nat) (s t : State) : Prop where
  memory : KeepsMemory addrs s t
  written : ∀ a, a ∈ t.written ↔ a ∈ s.written ∨ a ∈ addrs

/-- The 16-bit registers outside the list are unchanged. -/
def KeepsRegs (changed : List Reg16) (s t : State) : Prop :=
  ∀ r, r ∉ changed → t.reg16 r = s.reg16 r

/-- The three control flags are unchanged (R36, last column). -/
def KeepsControlFlags (s t : State) : Prop :=
  t.flags.tf = s.flags.tf ∧ t.flags.ifl = s.flags.ifl ∧ t.flags.df = s.flags.df

/-- The registers but for the one a place of a width names: a byte register leaves the other half of
its word (R23). -/
def KeepsRegsBut (w : Width) (p : Place) (s t : State) : Prop :=
  match p, w with
  | .mem _ _, _ => t.regs = s.regs
  | .reg i, .word => ∀ r, r ≠ i.reg16 → t.reg16 r = s.reg16 r
  | .reg i, .byte =>
    (∀ r : Reg8, r ≠ i.reg8 → t.reg8 r = s.reg8 r) ∧
      ∀ r : Reg16, r ≠ wordReg i.reg8 → t.reg16 r = s.reg16 r

/-- The instruction changed nothing but its destination, the status flags and the count of draws: the
destination is an operand at a place. -/
structure WritesOnly (w : Width) (p : Place) (s t : State) : Prop where
  regs : KeepsRegsBut w p s t
  segs : t.segs = s.segs
  ip : t.ip = s.ip
  control : KeepsControlFlags s t
  stores : StoresOnly (p.bytes w) s t
  hidden : SameHidden s t

/-- The instruction changed nothing but the 16-bit registers listed, the status flags and the count of
draws; it stored nothing. -/
structure RegsOnly (changed : List Reg16) (s t : State) : Prop where
  regs : KeepsRegs changed s t
  segs : t.segs = s.segs
  ip : t.ip = s.ip
  control : KeepsControlFlags s t
  stores : StoresOnly [] s t
  hidden : SameHidden s t

/-- A transfer of control that changed nothing but IP and CS, the registers listed, and the memory
listed; a taken one empties the set of R400. -/
structure TransferOnly (changed : List Reg16) (addrs : List Nat) (s t : State) : Prop where
  regs : KeepsRegs changed s t
  es : t.segs.es = s.segs.es
  ss : t.segs.ss = s.segs.ss
  ds : t.segs.ds = s.segs.ds
  flags : t.flags = s.flags
  memory : KeepsMemory addrs s t
  hidden : SameHidden s t

/-! ## Flags, as the spec's formulas give them -/

/-- How many of the low eight bits are ones. -/
def onesInLowByte {n : Nat} (v : BitVec n) : Nat := (List.range 8).countP fun i => v.getLsbD i

/-- SF, ZF and PF show a result (R40). -/
structure ShowsResult {n : Nat} (v : BitVec n) (f : Flags) : Prop where
  sf : f.sf = v.msb
  zf : f.zf = true ↔ v = 0#n
  pf : f.pf = true ↔ onesInLowByte v % 2 = 0

/-- A number that two's complement of `n` bits does not hold: signed overflow (R34). -/
def Overflows (n : Nat) (x : Int) : Prop := x < -2 ^ (n - 1) ∨ 2 ^ (n - 1) ≤ x

/-- The six flags of `a + b + c` (R41): CF is unsigned overflow, OF signed overflow. -/
structure SumFlags {n : Nat} (a b : BitVec n) (c : Nat) (f : Flags) : Prop where
  cf : f.cf = true ↔ 2 ^ n ≤ a.toNat + b.toNat + c
  af : f.af = true ↔ 16 ≤ a.toNat % 16 + b.toNat % 16 + c
  ofl : f.ofl = true ↔ Overflows n (a.toInt + b.toInt + c)
  result : ShowsResult (BitVec.ofNat n (a.toNat + b.toNat + c)) f

/-- The six flags of `a - b - c` (R42): CF is the borrow, OF signed overflow. -/
structure DifferenceFlags {n : Nat} (a b : BitVec n) (c : Nat) (f : Flags) : Prop where
  cf : f.cf = true ↔ a.toNat < b.toNat + c
  af : f.af = true ↔ a.toNat % 16 < b.toNat % 16 + c
  ofl : f.ofl = true ↔ Overflows n (a.toInt - b.toInt - c)
  result : ShowsResult (BitVec.ofInt n ((a.toNat : Int) - b.toNat - c)) f

/-- The flags of a logical result but for AF, which is undefined (R43). -/
structure LogicFlags {n : Nat} (v : BitVec n) (f : Flags) : Prop where
  cf : f.cf = false
  ofl : f.ofl = false
  result : ShowsResult v f

/-! ## Results at a destination -/

/-- The destination holds `a + b + c` modulo its width, the flags are those of the sum, and nothing else
changed. -/
structure Sums (w : Width) (p : Place) (a b : BitVec w.bits) (c : Nat) (s t : State) : Prop where
  value : Stored w p (BitVec.ofNat w.bits (a.toNat + b.toNat + c)) s t
  flags : SumFlags a b c t.flags
  frame : WritesOnly w p s t

/-- The destination holds `a - b - c` modulo its width, the flags are those of the difference, and
nothing else changed. -/
structure Differs (w : Width) (p : Place) (a b : BitVec w.bits) (c : Nat) (s t : State) : Prop where
  value : Stored w p (BitVec.ofInt w.bits ((a.toNat : Int) - b.toNat - c)) s t
  flags : DifferenceFlags a b c t.flags
  frame : WritesOnly w p s t

/-- The flags are those of `a - b`, and nothing else changed: neither operand is written. -/
structure Compares {n : Nat} (a b : BitVec n) (s t : State) : Prop where
  flags : DifferenceFlags a b 0 t.flags
  frame : RegsOnly [] s t

/-- Each bit of the result at the destination is the operation on the bits of the operands, the flags are
those of a logical result, and nothing else changed. -/
structure Combines (f : Bool → Bool → Bool) (w : Width) (p : Place) (a b : BitVec w.bits)
    (s t : State) : Prop where
  result : ∃ r : BitVec w.bits, (∀ k < w.bits, r.getLsbD k = f (a.getLsbD k) (b.getLsbD k)) ∧
    Stored w p r s t ∧ LogicFlags r t.flags
  frame : WritesOnly w p s t

/-- The flags are those of `a AND b`, and nothing else changed: neither operand is written. -/
structure Tests {n : Nat} (a b : BitVec n) (s t : State) : Prop where
  flags : LogicFlags (a &&& b) t.flags
  frame : RegsOnly [] s t

/-- An operand is copied to a destination, and nothing else changed, the flags among it. -/
structure Copies (w : Width) (p : Place) (v : BitVec w.bits) (s t : State) : Prop where
  value : Stored w p v s t
  flags : t.flags = s.flags
  frame : WritesOnly w p s t

/-! ## Transfers and interrupts -/

/-- A relative transfer that is taken where `cond` holds: the displacement is signed and the sum is
modulo 2^16 (R301); nothing else changes. -/
structure Branches (cond : Prop) (disp : Int) (changed : List Reg16) (s t : State) : Prop where
  taken : cond → (t.ip.toNat : Int) = ((s.ip.toNat : Int) + disp) % 65536 ∧ t.written = []
  notTaken : ¬cond → t.ip = s.ip ∧ t.written = s.written
  cs : t.segs.cs = s.segs.cs
  frame : TransferOnly changed [] s t

/-- The interrupt sequence (R356) with the flags `f` and the return offset `ret`: FLAGS, CS and the
offset stand on the stack, IF and TF are clear, control is where the vector says, and nothing changed
but the registers listed and the six bytes of stack; no request, pin or event but HLT's and WAIT's
state. -/
structure Entered (type : Byte) (ret : Word) (f : Flags) (changed : List Reg16) (s t : State) :
    Prop where
  sp : (t.regs.sp.toNat : Int) = ((s.regs.sp.toNat : Int) - 6) % 65536
  savedIp : Stored .word (.mem s.segs.ss t.regs.sp) ret s t
  savedCs : Stored .word (.mem s.segs.ss (t.regs.sp + 2#16)) s.segs.cs s t
  savedFlags : ∃ image : Word, Flags.ofWord image = f ∧
    Stored .word (.mem s.segs.ss (t.regs.sp + 4#16)) image s t
  flags : t.flags = { f with ifl := false, tf := false }
  vectorIp : t.ip.toNat = t.wordAt 0#16 (4#16 * zext8 type)
  vectorCs : t.segs.cs.toNat = t.wordAt 0#16 (4#16 * zext8 type + 2#16)
  running : t.halted = false ∧ t.waiting = false
  written : t.written = []
  regs : KeepsRegs (.sp :: changed) s t
  es : t.segs.es = s.segs.es
  ss : t.segs.ss = s.segs.ss
  ds : t.segs.ds = s.segs.ds
  memory : KeepsMemory (stackBytes s.segs.ss s.regs.sp 3) s t
  hidden : SameHidden s { t with halted := s.halted, waiting := s.waiting }

/-- How far a string pointer moves: by the element's size in bytes, downward when DF is set (R260). -/
def pointerStep (w : Width) (df : Bool) : Int :=
  if df then -((w.bits / 8 : Nat) : Int) else ((w.bits / 8 : Nat) : Int)

/-- A pointer moved by a number of bytes, within the segment. -/
def Moved (before after : Word) (by_ : Int) : Prop :=
  (after.toNat : Int) = ((before.toNat : Int) + by_) % 65536

/-! ## Running the instruction at CS:IP -/

/-- The step runs the instruction that stands at CS:IP, if its bytes decode and none was written: the
rows run one after another, with IP past them, the shadow ended, the offset of the first byte kept and one
draw made; then the prefixes are consumed, LOCK is released but in a locked repeat, and a trap is due
where TF was set and the instruction is no WAIT that goes on (R26, R102, R291, R362, R364). -/
def RunsInstruction (s : State) : Prop :=
  ∀ d : Decoded, decode (s.fetchBytes maxLength) = .ok d → s.runsWrittenCode d.length = false →
    let s0 := { s with
      ip := s.ip + BitVec.ofNat 16 d.length, instrStart := s.ip, intShadow := false,
      draws := s.draws + 1 }
    (d.prefixes = [] → ∀ t, exec d.instr s0 = .next t →
      step s = .next { t with
        prefixes := Prefixes.none
        lockOutput := t.repeating.any (fun r => r.prefixes.lock)
        trapPending := t.trapPending || (s.flags.tf && !t.waiting) }) ∧
    (∀ u t, runRows exec d.prefixes s0 = .next u → exec d.instr u = .next t →
      step s = .next { t with
        prefixes := Prefixes.none
        lockOutput := t.repeating.any (fun r => r.prefixes.lock)
        trapPending := t.trapPending || (s.flags.tf && !t.waiting) })

/-! ## Instructions grouped by what they may write -/

/-- The instructions that can take a transfer of control (R400): calls, returns, jumps, loops, the
software interrupts and IRET, and DIV and IDIV by the divide error. -/
def isTransfer : Instr → Bool
  | .callRel _ | .callRm _ | .callFar _ _ | .callFarMem _ => true
  | .ret | .retImm _ | .retf | .retfImm _ => true
  | .jmpRel16 _ | .jmpRel8 _ | .jmpRm _ | .jmpFar _ _ | .jmpFarMem _ => true
  | .loop _ | .loope _ | .loopne _ | .jcxz _ => true
  | .jo _ | .jno _ | .jb _ | .jae _ | .je _ | .jne _ | .jbe _ | .ja _ => true
  | .js _ | .jns _ | .jp _ | .jnp _ | .jl _ | .jge _ | .jle _ | .jg _ => true
  | .int3 | .intN _ | .into | .iret => true
  | .divRm _ _ | .idivRm _ _ => true
  | _ => false

/-- The instructions that write CS (R31): far CALL, far JMP, far RET, the software interrupts, IRET, and
DIV and IDIV by the divide error. -/
def writesCs : Instr → Bool
  | .callFar _ _ | .callFarMem _ | .jmpFar _ _ | .jmpFarMem _ | .retf | .retfImm _ => true
  | .int3 | .intN _ | .into | .iret => true
  | .divRm _ _ | .idivRm _ _ => true
  | _ => false

/-- The instructions that can run an interrupt sequence, which clears IF and TF (R356). -/
def canInterrupt : Instr → Bool
  | .int3 | .intN _ | .into | .divRm _ _ | .idivRm _ _ => true
  | _ => false

end Sys2Proof.Machine
end

