-- ==== Sys2Proof/Certificates/Slice0/Obligations.lean ====
section
/-! DEFINITION. The statements about the 8086 that the provers prove. OBLIGATIONS.json lists them. -/

open Sys2Proof Sys2Proof.Machine

/-! ## Encoding (spec/30_encoding.md) -/

/-- The decoder reads back every row the encoder writes, with every operand at every value, and leaves
the bytes after it (R101 to R121). -/
def Obligations.DecodeEncode : Prop :=
  ∀ (i : Instr) (rest : List Byte), i.wellFormed = true →
    decodeRow (encode i ++ rest) = .ok (i, rest)

/-- What the decoder reads is well formed, and is spelt by exactly the bytes it consumed: no bit of a
row is ignored (R104, R131). -/
def Obligations.EncodeDecode : Prop :=
  ∀ (bs rest : List Byte) (i : Instr), decodeRow bs = .ok (i, rest) →
    i.wellFormed = true ∧ bs = encode i ++ rest

/-- An instruction is read whole with its prefixes, in any order, at most one of each kind, a repeat
prefix only before a string instruction and LOCK only before a memory operand (R102, R108).
The model's reading of "a memory operand" (`Instr.hasMemOperand`) is log entry 21; that an override may
stand before any instruction, and that prefixes are rows, is log entry 20. -/
def Obligations.DecodeWithPrefixes : Prop :=
  ∀ (ps : List Instr) (i : Instr) (rest : List Byte),
    (∀ p ∈ ps, p.isPrefix = true) → ps.Pairwise (fun a b => samePrefixKind a b = false) →
    i.isPrefix = false → i.wellFormed = true →
    (ps.any Instr.isRepeatPrefix = true → i.isString = true) →
    (.lock ∈ ps → i.hasMemOperand = true) →
    decode (encodeWith ps i ++ rest) = .ok ⟨ps, i, (encodeWith ps i).length⟩

/-- What the decoder refuses: a second prefix of one kind, a repeat prefix before another instruction,
LOCK without a memory operand (R102), and the encodings with no documented meaning (R131).
The model's reading of "a memory operand" (`Instr.hasMemOperand`): log entry 21. -/
def Obligations.RefusedEncodings : Prop :=
  (∀ (ps : List Instr) (p : Instr) (rest : List Byte), (∀ q ∈ ps, q.isPrefix = true) →
    ps.Pairwise (fun a b => samePrefixKind a b = false) → p.isPrefix = true →
    ps.any (samePrefixKind p) = true →
    decode (ps.flatMap encode ++ encode p ++ rest) = .error .duplicatePrefix) ∧
  (∀ (i : Instr) (rest : List Byte), i.wellFormed = true → i.isPrefix = false →
    (i.isString = false →
      decode (0xF2#8 :: encode i ++ rest) = .error .repeatBeforeNonString ∧
      decode (0xF3#8 :: encode i ++ rest) = .error .repeatBeforeNonString) ∧
    (i.hasMemOperand = false →
      decode (0xF0#8 :: encode i ++ rest) = .error .lockWithoutMemory)) ∧
  (∀ (b : Byte) (rest : List Byte),
    (b.toNat ∈ [0x0F, 0xC0, 0xC1, 0xC8, 0xC9, 0xD6, 0xF1] ∨ b.toNat / 16 = 6) →
    decodeRow (b :: rest) = .error .unassigned) ∧
  (∀ (b m : Byte) (rest : List Byte), 4 ≤ rest.length →
    let sel := m.toNat / 8 % 8
    (b = 0x82#8 ∨ b = 0x83#8) ∧ (sel = 1 ∨ sel = 4 ∨ sel = 6) ∨
      (b = 0x8C#8 ∨ b = 0x8E#8) ∧ 4 ≤ sel ∨ b = 0x8E#8 ∧ sel = 1 ∨
      (b = 0x8F#8 ∨ b = 0xC6#8 ∨ b = 0xC7#8) ∧ 1 ≤ sel ∨
      (0xD0 ≤ b.toNat ∧ b.toNat ≤ 0xD3) ∧ sel = 6 ∨
      (b = 0xF6#8 ∨ b = 0xF7#8) ∧ sel = 1 ∨ b = 0xFE#8 ∧ 2 ≤ sel ∨ b = 0xFF#8 ∧ sel = 7 ∨
      (b = 0xD4#8 ∨ b = 0xD5#8) ∧ m ≠ 0x0A#8 ∨
      (b = 0x8D#8 ∨ b = 0xC4#8 ∨ b = 0xC5#8) ∧ 0xC0 ≤ m.toNat ∨
      b = 0xFF#8 ∧ (sel = 3 ∨ sel = 5) ∧ 0xC0 ≤ m.toNat →
    decodeRow (b :: m :: rest) = .error .unassigned)

/-- A few words written out from the encoding tables decode to what they stand for (R111 to R121). -/
def Obligations.SampleWords : Prop :=
  decodeRow [0x8A#8, 0x48#8, 0x10#8] =
      .ok (.movRm .toReg .byte .r1 (.mem (.disp8 .bxSi 0x10#8)), []) ∧
    decodeRow [0x83#8, 0xC3#8, 0xFF#8] = .ok (.addImm (.ewSigned 0xFF#8) (.reg .r3), []) ∧
    decodeRow [0x9A#8, 0x10#8, 0x00#8, 0x00#8, 0x50#8] = .ok (.callFar 0x0010#16 0x5000#16, []) ∧
    decodeRow [0xD3#8, 0xEB#8] = .ok (.shr .cl .word (.reg .r3), []) ∧
    decodeRow [0xC4#8, 0x3E#8, 0x00#8, 0x04#8] = .ok (.les .di (.direct 0x0400#16), []) ∧
    decodeRow [0xD9#8, 0xC0#8] = .ok (.esc 8#6 (.reg .r0), []) ∧
    decode [0xF3#8, 0xA4#8] = .ok ⟨[.rep], .movs .byte, 2⟩

/-! ## The step -/

/-- A step runs the decoded instruction: where nothing asks for attention, the processor neither halts nor
waits, no repeat is in progress and no fetched byte was written, the rows at CS:IP run, with IP past them, the shadow ended and the offset of
the first byte kept; then the prefixes are consumed, LOCK is released but in a locked repeat, and a trap
is due where TF was set (R26, R102, R362, R364).
The model's form: prefix rows run inside one step (log entry 20), a WAIT that goes on sets no trap (log
entry 14), one draw is made (log entry 35). -/
def Obligations.StepRunsDecoded : Prop :=
  ∀ s : State, Quiet s → s.halted = false → s.waiting = false → s.repeating = none →
    RunsInstruction s

/-- A halted processor that nothing wakes does nothing, nor does a waiting one whose TEST is not asserted
(R288, R292, R376); bytes that spell no instruction and bytes that were written since the last taken
transfer are refused (R131, R400).
The model's form: the idle steps (log entries 15 and 16) and the set that stands for the prefetch queue (log
entry 19). -/
def Obligations.StepIdlesOrRefuses : Prop :=
  ∀ s : State, Quiet s →
    (s.halted = true ∨ (s.waiting = true ∧ s.pins.test = false) → s.intShadow = false →
      step s = .next s) ∧
    (s.halted = false → s.waiting = false → s.repeating = none →
      (∀ e, decode (s.fetchBytes maxLength) = .error e → step s = .refused (.undecodable e)) ∧
      (∀ d k, decode (s.fetchBytes maxLength) = .ok d → k < d.length →
        (physAddr s.segs.cs (s.ip + BitVec.ofNat 16 k)).toNat ∈ s.written →
        step s = .refused .selfModifiedCode))

/-- What an acceptance point does (R353 to R357, R364): NMI first, then INTR where IF is set, then the
trap; each with the offset IP holds, or that of the WAIT while the processor waits (R288, R355 (c)),
consuming that request alone. Between two iterations of a repeat, where IP holds the offset of the first
prefix, the repeat is dropped and LOCK released (R263, R355 (b)); a repeat with a second prefix is refused
(R401). Under the shadow nothing is accepted: a halted or waiting processor stays so, a running one runs its
next instruction, whatever is requested.
The model's form: an acceptance is a step of its own (log entry 11); a trap outlives another acceptance
(log entry 12); a pending trap ends the halt as NMI and INTR do (log entry 13); the boundary before the first
instruction after RESET is an acceptance point (log entry 36). -/
def Obligations.AcceptsInOrder : Prop :=
  ∀ s : State, s.pinSchedule = [] → s.pins.reset = false →
    (s.waiting = true → s.pins.test = false) → Memory.wf s.mem →
    let second := ∃ r, s.repeating = some r ∧ (r.prefixes.seg ≠ none ∨ r.prefixes.lock = true)
    let ret := if s.waiting = true then s.instrStart else s.ip
    let accepts := fun (type : Byte) (taken : State) =>
      (¬second → ∃ t, step s = .next t ∧
        Entered type ret s.flags [] { taken with repeating := none, lockOutput := false } t) ∧
      (second → step s = .refused .interruptibleRepeatWithPrefix)
    (s.intShadow = false →
      (s.nmiLatch = true → accepts 2#8 { s with nmiLatch := false }) ∧
      (∀ type, s.nmiLatch = false → s.flags.ifl = true → s.pins.intr = some type →
        accepts type s) ∧
      (s.nmiLatch = false → (s.flags.ifl = false ∨ s.pins.intr = none) → s.trapPending = true →
        accepts 1#8 { s with trapPending := false })) ∧
    (s.intShadow = true →
      (s.halted = true ∨ s.waiting = true → step s = .next { s with intShadow := false }) ∧
      (s.halted = false → s.waiting = false → s.repeating = none → RunsInstruction s))

/-- RESET abandons what is in progress and leaves the state of the spec's table, which is also the state
after power-on, with memory as it was (R390, R50); the general registers, to which the table gives no
value, are left out. A rising edge of NMI is latched, whatever the instruction does (R353).
The model's form: RESET is sampled at the start of a step (log entry 27). -/
def Obligations.ResetAndNmiEdge : Prop :=
  let asTable := fun t : State =>
    t.segs = ⟨0x0000#16, 0xFFFF#16, 0x0000#16, 0x0000#16⟩ ∧ t.ip = 0x0000#16 ∧
      (physAddr t.segs.cs t.ip).toNat = 0xFFFF0 ∧
      t.flags = ⟨false, false, false, false, false, false, false, false, false⟩ ∧
      t.halted = false ∧ t.waiting = false ∧ t.intShadow = false ∧ t.lockOutput = false ∧
      t.nmiLatch = false ∧ t.repeating = none ∧ t.prefixes = Prefixes.none ∧ t.written = []
  asTable State.reset ∧
  (∀ (s : State) (p : Pins) (rest : List Pins), s.pinSchedule = p :: rest → p.reset = true →
    ∃ t, step s = .next t ∧ asTable t ∧ KeepsMemory [] s t) ∧
  (∀ (s : State) (p : Pins) (rest : List Pins), s.pinSchedule = p :: rest → p.nmi = true →
    s.pins.nmi = false → s.samplePins.nmiLatch = true ∧ s.samplePins.pins = p ∧
      s.samplePins.pinSchedule = rest)

/-- After a quiet step a trap is pending exactly where TF was set when the instruction began and it
completed; no instruction raises or drops one itself (R362).
The model's form: a WAIT that goes on sets no trap (log entry 14). -/
def Obligations.TrapFollowsTf : Prop :=
  ∀ s t : State, Quiet s → s.halted = false → step s = .next t →
    t.trapPending = (s.flags.tf && !t.waiting)

/-! ## Invariants and rules of the whole machine -/

/-- The invariant holds at reset.
The model's form: the canonical memory (log entry 2). -/
def Obligations.InvAtReset : Prop := Inv State.reset

/-- Every step keeps the invariant: the canonical forms of memory and of the set of R400, no prefix
pending between steps, LOCK asserted only inside a locked repeat, never both halted and waiting, a repeat
in progress well formed (R39, R291, R376, R400, R401).
The model's form: the canonical memory (log entry 2) and the set (log entry 19). -/
def Obligations.StepKeepsInv : Prop :=
  ∀ s t : State, Inv s → step s = .next t → Inv t

/-- Every instruction that some encoding spells completes, in every state, but a repeated string
instruction with a second prefix while an interrupt can be accepted (R352, R401): the machine has no
fault.
The model's reading of "can be accepted": log entry 18. -/
def Obligations.EveryInstructionCompletes : Prop :=
  ∀ (i : Instr) (s : State), i.wellFormed = true →
    (∃ t, exec i s = .next t) ∨
    (i.isString = true ∧ s.prefixes.rep ≠ none ∧
      (s.prefixes.seg ≠ none ∨ s.prefixes.lock = true) ∧
      (s.flags.ifl = true ∨ s.flags.tf = true ∨ s.nmiLatch = true) ∧
      exec i s = .refused .interruptibleRepeatWithPrefix)

/-- CS is written only by the far transfers, the software interrupts, IRET and the divide error (R31,
R37); SS only by MOV and POP; DS and ES by MOV, POP, LDS and LES. -/
def Obligations.SegmentWriters : Prop :=
  ∀ (i : Instr) (s t : State), exec i s = .next t →
    (writesCs i = false → t.segs.cs = s.segs.cs) ∧
    (t.segs.ss ≠ s.segs.ss → i = .popSreg .ss ∨ ∃ rm, i = .movSregRm .ss rm) ∧
    (t.segs.ds ≠ s.segs.ds →
      i = .popSreg .ds ∨ (∃ rm, i = .movSregRm .ds rm) ∨ ∃ r m, i = .lds r m) ∧
    (t.segs.es ≠ s.segs.es →
      i = .popSreg .es ∨ (∃ rm, i = .movSregRm .es rm) ∨ ∃ r m, i = .les r m)

/-- TF is set only by POPF and IRET, IF only by these and STI, and both are cleared besides only by an
interrupt entry and CLI; DF changes only by CLD, STD, POPF and IRET (R168, R280, R354, R362). -/
def Obligations.ControlFlagWriters : Prop :=
  ∀ (i : Instr) (s t : State), exec i s = .next t → i ≠ .popf → i ≠ .iret →
    (t.flags.tf = true → s.flags.tf = true) ∧
    (t.flags.ifl = true → s.flags.ifl = true ∨ i = .sti) ∧
    (canInterrupt i = false → t.flags.tf = s.flags.tf) ∧
    (canInterrupt i = false → i ≠ .cli → s.flags.ifl = true → t.flags.ifl = true) ∧
    (i ≠ .cld → i ≠ .std → t.flags.df = s.flags.df)

/-- Every byte an instruction changes is RAM, and it joins the set of R400, which an instruction that
takes no transfer of control only adds to; one that can take a transfer empties the set or leaves it and
memory as they were. A write to RAM reads back, a write to ROM or to where there is no memory changes no memory, and a read there gives what
the bus gives; no instruction changes the map (R73 (c)).
The model's form: the set stands for the prefetch queue (log entry 19), the map is a field of the state
(log entry 3), what the bus gives is free (log entry 35). -/
def Obligations.StoresAreRecorded : Prop :=
  (∀ (i : Instr) (s t : State), exec i s = .next t →
    t.memMap = s.memMap ∧
    (∀ a, t.byteAt a ≠ s.byteAt a → s.kindAt a = .ram) ∧
    (isTransfer i = false →
      (∀ a, t.byteAt a ≠ s.byteAt a → a ∈ t.written) ∧ ∀ a ∈ s.written, a ∈ t.written) ∧
    (isTransfer i = true → t.written = [] ∨ (t.written = s.written ∧ KeepsMemory [] s t))) ∧
  ∀ (s : State) (seg off : Word) (v : Byte), Memory.wf s.mem →
    let a := (physAddr seg off).toNat
    let t := s.write8 seg off v
    a ∈ t.written ∧ KeepsMemory [a] s t ∧
    (s.kindAt a = .ram → t.read8 seg off = v) ∧
    (s.kindAt a = .rom → t.mem = s.mem ∧ t.read8 seg off = s.read8 seg off) ∧
    (s.kindAt a = .bus → t.mem = s.mem ∧ s.read8 seg off = Config.busByte s.draws a)

/-! ## Helpers the spec defines -/

/-- `ADD_w` (R41) and `SZP_w` (R40): result and flags; signed and unsigned readings give the same
bits. -/
def Obligations.AddHelper : Prop :=
  ∀ (w : Width) (a b : BitVec w.bits) (c : Bool) (f : Flags),
    (addResult a b c).toNat = (a.toNat + b.toNat + c.toNat) % 2 ^ w.bits ∧
    addResult a b c = BitVec.ofInt w.bits (a.toInt + b.toInt + c.toNat) ∧
    ((f.add a b c).cf = true ↔ 2 ^ w.bits ≤ a.toNat + b.toNat + c.toNat) ∧
    ((f.add a b c).af = true ↔ 16 ≤ a.toNat % 16 + b.toNat % 16 + c.toNat) ∧
    ((f.add a b c).ofl = true ↔ a.msb = b.msb ∧ (addResult a b c).msb ≠ a.msb) ∧
    ((f.add a b c).ofl = true ↔ Overflows w.bits (a.toInt + b.toInt + c.toNat)) ∧
    ShowsResult (addResult a b c) (f.add a b c) ∧
    (f.add a b c).tf = f.tf ∧ (f.add a b c).ifl = f.ifl ∧ (f.add a b c).df = f.df

/-- `SUB_w` (R42): result and flags. -/
def Obligations.SubHelper : Prop :=
  ∀ (w : Width) (a b : BitVec w.bits) (c : Bool) (f : Flags),
    ((subResult a b c).toNat : Int) = ((a.toNat : Int) - b.toNat - c.toNat) % 2 ^ w.bits ∧
    ((f.sub a b c).cf = true ↔ a.toNat < b.toNat + c.toNat) ∧
    ((f.sub a b c).af = true ↔ a.toNat % 16 < b.toNat % 16 + c.toNat) ∧
    ((f.sub a b c).ofl = true ↔ a.msb ≠ b.msb ∧ (subResult a b c).msb ≠ a.msb) ∧
    ((f.sub a b c).ofl = true ↔ Overflows w.bits (a.toInt - b.toInt - c.toNat)) ∧
    ShowsResult (subResult a b c) (f.sub a b c) ∧
    (f.sub a b c).tf = f.tf ∧ (f.sub a b c).ifl = f.ifl ∧ (f.sub a b c).df = f.df

/-- `push16` and `pop16` (R70, R71): SP goes down before the store, the word stands at the new SP, low
byte first; a pop from RAM gives it back and SP goes up. -/
def Obligations.PushPop : Prop :=
  ∀ (s : State) (v : Word), Memory.wf s.mem →
    let t := s.push16 v
    t.regs.sp.toNat = (s.regs.sp.toNat + 65534) % 65536 ∧
    Stored .word (.mem s.segs.ss t.regs.sp) v s t ∧
    KeepsMemory (operandBytes .word s.segs.ss t.regs.sp) s t ∧ KeepsRegs [.sp] s t ∧
    (AllRam (operandBytes .word s.segs.ss t.regs.sp) s →
      t.wordAt s.segs.ss t.regs.sp = v.toNat ∧ t.top16 = v) ∧
    t.drop16.regs = s.regs ∧ s.top16.toNat = s.wordAt s.segs.ss s.regs.sp ∧
    s.drop16.regs.sp.toNat = (s.regs.sp.toNat + 2) % 65536

/-- Physical and effective addresses (R61, R66, R80, R81, R82): every base with its registers, without a
displacement, with a signed 8-bit one and with a 16-bit one, and the direct address; both sums wrap, a form
with BP addresses the stack segment, an override replaces the default segment (R83); the fetch reads at
CS:IP, each offset wrapped (R27); and the ModRM bytes that select each form, with the register form
(R104). -/
def Obligations.Addressing : Prop :=
  (∀ seg off : Word, (physAddr seg off).toNat = (seg.toNat * 16 + off.toNat) % 1048576) ∧
  (∀ s : State,
    (∀ addr : Word, effAddr (.direct addr) s = addr) ∧
    ∀ (b : EaBase) (d8 : Byte) (d16 : Word),
      let base : Nat := match b with
        | .bxSi => s.regs.bx.toNat + s.regs.si.toNat
        | .bxDi => s.regs.bx.toNat + s.regs.di.toNat
        | .bpSi => s.regs.bp.toNat + s.regs.si.toNat
        | .bpDi => s.regs.bp.toNat + s.regs.di.toNat
        | .si => s.regs.si.toNat
        | .di => s.regs.di.toNat
        | .bp => s.regs.bp.toNat
        | .bx => s.regs.bx.toNat
      (effAddr (.plain b) s).toNat = base % 65536 ∧
      ((effAddr (.disp8 b d8) s).toNat : Int) = ((base : Int) + d8.toInt) % 65536 ∧
      (effAddr (.disp16 b d16) s).toNat = (base + d16.toNat) % 65536) ∧
  (∀ (s : State) (m : Mem), s.prefixes.seg = none →
    memPlace m s = .mem (match m with
      | .direct _ => s.segs.ds
      | .plain b | .disp8 b _ | .disp16 b _ =>
        if b = .bp ∨ b = .bpSi ∨ b = .bpDi then s.segs.ss else s.segs.ds) (effAddr m s)) ∧
  (∀ (s : State) (m : Mem) (sr : SegReg), s.prefixes.seg = some sr →
    memPlace m s = .mem (s.seg sr) (effAddr m s)) ∧
  (∀ (s : State) (seg : Word), (s.read16 seg 0xFFFF#16).toNat =
    (s.readByte (physAddr seg 0xFFFF#16).toNat).toNat +
      256 * (s.readByte (physAddr seg 0#16).toNat).toNat) ∧
  (∀ (s : State) (n k : Nat), k < n →
    let a := (physAddr s.segs.cs (s.ip + BitVec.ofNat 16 k)).toNat
    s.kindAt a ≠ .bus → (s.fetchBytes n)[k]? = some (s.byteAt a)) ∧
  ∀ (reg rm : Fin 8) (lo hi : Byte) (rest : List Byte),
    let bases : Vector EaBase 8 := #v[.bxSi, .bxDi, .bpSi, .bpDi, .si, .di, .bp, .bx]
    let regs : Vector RegNum 8 := #v[.r0, .r1, .r2, .r3, .r4, .r5, .r6, .r7]
    let reads := fun (mod : Nat) (tail left : List Byte) (operand : RM) =>
      decodeRow (0x8B#8 :: BitVec.ofNat 8 (mod * 64 + reg.val * 8 + rm.val) :: tail) =
        .ok (.movRm .toReg .word regs[reg] operand, left)
    (rm.val ≠ 6 → reads 0 rest rest (.mem (.plain bases[rm]))) ∧
    (rm.val = 6 → reads 0 (lo :: hi :: rest) rest
      (.mem (.direct (BitVec.ofNat 16 (lo.toNat + 256 * hi.toNat))))) ∧
    reads 1 (lo :: rest) rest (.mem (.disp8 bases[rm] lo)) ∧
    reads 2 (lo :: hi :: rest) rest
      (.mem (.disp16 bases[rm] (BitVec.ofNat 16 (lo.toNat + 256 * hi.toNat)))) ∧
    reads 3 rest rest (.reg regs[rm])

/-! ## Arithmetic -/

/-- ADD and ADC in their three forms: sum, six flags, frame (R191 to R193). -/
def Obligations.AddAdc : Prop :=
  ∀ s : State, Memory.wf s.mem →
    (∀ (d : Dir) (w : Width) (reg : RegNum) (rm : RM),
      let dst := dstPlace d reg (place rm s)
      let src := srcPlace d reg (place rm s)
      (∃ t, exec (.addRm d w reg rm) s = .next t ∧
        Sums w dst (s.readAt w dst) (s.readAt w src) 0 s t) ∧
      ∃ t, exec (.adcRm d w reg rm) s = .next t ∧
        Sums w dst (s.readAt w dst) (s.readAt w src) s.flags.cf.toNat s t) ∧
    (∀ imm : Imm,
      (∃ t, exec (.addAcc imm) s = .next t ∧
        Sums imm.width (.reg .r0) (s.readAcc imm.width) imm.value 0 s t) ∧
      ∃ t, exec (.adcAcc imm) s = .next t ∧
        Sums imm.width (.reg .r0) (s.readAcc imm.width) imm.value s.flags.cf.toNat s t) ∧
    ∀ (g : GroupImm) (rm : RM),
      (∃ t, exec (.addImm g rm) s = .next t ∧
        Sums g.width (place rm s) (s.readAt g.width (place rm s)) g.value 0 s t) ∧
      ∃ t, exec (.adcImm g rm) s = .next t ∧
        Sums g.width (place rm s) (s.readAt g.width (place rm s)) g.value s.flags.cf.toNat s t

/-- SUB and SBB in their three forms: difference, six flags, frame (R191, R197, R198). -/
def Obligations.SubSbb : Prop :=
  ∀ s : State, Memory.wf s.mem →
    (∀ (d : Dir) (w : Width) (reg : RegNum) (rm : RM),
      let dst := dstPlace d reg (place rm s)
      let src := srcPlace d reg (place rm s)
      (∃ t, exec (.subRm d w reg rm) s = .next t ∧
        Differs w dst (s.readAt w dst) (s.readAt w src) 0 s t) ∧
      ∃ t, exec (.sbbRm d w reg rm) s = .next t ∧
        Differs w dst (s.readAt w dst) (s.readAt w src) s.flags.cf.toNat s t) ∧
    (∀ imm : Imm,
      (∃ t, exec (.subAcc imm) s = .next t ∧
        Differs imm.width (.reg .r0) (s.readAcc imm.width) imm.value 0 s t) ∧
      ∃ t, exec (.sbbAcc imm) s = .next t ∧
        Differs imm.width (.reg .r0) (s.readAcc imm.width) imm.value s.flags.cf.toNat s t) ∧
    ∀ (g : GroupImm) (rm : RM),
      (∃ t, exec (.subImm g rm) s = .next t ∧
        Differs g.width (place rm s) (s.readAt g.width (place rm s)) g.value 0 s t) ∧
      ∃ t, exec (.sbbImm g rm) s = .next t ∧
        Differs g.width (place rm s) (s.readAt g.width (place rm s)) g.value s.flags.cf.toNat s t

/-- CMP and TEST in their three forms: flags alone, nothing is written (R190, R201, R235). -/
def Obligations.CmpTest : Prop :=
  ∀ s : State,
    (∀ (d : Dir) (w : Width) (reg : RegNum) (rm : RM), ∃ t, exec (.cmpRm d w reg rm) s = .next t ∧
      Compares (s.readAt w (dstPlace d reg (place rm s)))
        (s.readAt w (srcPlace d reg (place rm s))) s t) ∧
    (∀ imm : Imm, ∃ t, exec (.cmpAcc imm) s = .next t ∧
      Compares (s.readAcc imm.width) imm.value s t) ∧
    (∀ (g : GroupImm) (rm : RM), ∃ t, exec (.cmpImm g rm) s = .next t ∧
      Compares (s.readAt g.width (place rm s)) g.value s t) ∧
    (∀ (w : Width) (reg : RegNum) (rm : RM), ∃ t, exec (.testRm w reg rm) s = .next t ∧
      Tests (s.readAt w (place rm s)) (s.readReg w reg) s t) ∧
    (∀ imm : Imm, ∃ t, exec (.testAcc imm) s = .next t ∧
      Tests (s.readAcc imm.width) imm.value s t) ∧
    ∀ (imm : Imm) (rm : RM), ∃ t, exec (.testImm imm rm) s = .next t ∧
      Tests (s.readAt imm.width (place rm s)) imm.value s t

/-- AND, OR and XOR in their three forms, bit by bit; AF is left open (R43, R232 to R234). -/
def Obligations.AndOrXor : Prop :=
  ∀ s : State, Memory.wf s.mem →
    (∀ (d : Dir) (w : Width) (reg : RegNum) (rm : RM),
      let dst := dstPlace d reg (place rm s)
      let a := s.readAt w dst
      let b := s.readAt w (srcPlace d reg (place rm s))
      (∃ t, exec (.andRm d w reg rm) s = .next t ∧ Combines (· && ·) w dst a b s t) ∧
      (∃ t, exec (.orRm d w reg rm) s = .next t ∧ Combines (· || ·) w dst a b s t) ∧
      ∃ t, exec (.xorRm d w reg rm) s = .next t ∧ Combines (· != ·) w dst a b s t) ∧
    (∀ imm : Imm,
      let a := s.readAcc imm.width
      (∃ t, exec (.andAcc imm) s = .next t ∧
        Combines (· && ·) imm.width (.reg .r0) a imm.value s t) ∧
      (∃ t, exec (.orAcc imm) s = .next t ∧
        Combines (· || ·) imm.width (.reg .r0) a imm.value s t) ∧
      ∃ t, exec (.xorAcc imm) s = .next t ∧
        Combines (· != ·) imm.width (.reg .r0) a imm.value s t) ∧
    ∀ (imm : Imm) (rm : RM),
      let a := s.readAt imm.width (place rm s)
      (∃ t, exec (.andImm imm rm) s = .next t ∧
        Combines (· && ·) imm.width (place rm s) a imm.value s t) ∧
      (∃ t, exec (.orImm imm rm) s = .next t ∧
        Combines (· || ·) imm.width (place rm s) a imm.value s t) ∧
      ∃ t, exec (.xorImm imm rm) s = .next t ∧
        Combines (· != ·) imm.width (place rm s) a imm.value s t

/-- INC and DEC in both forms: CF keeps its value, the other five flags are those of adding or
subtracting 1 (R44, R194, R199). -/
def Obligations.IncDec : Prop :=
  ∀ s : State, Memory.wf s.mem →
    (∀ (w : Width) (rm : RM),
      let a := s.readAt w (place rm s)
      (∃ t, exec (.incRm w rm) s = .next t ∧ t.flags.cf = s.flags.cf ∧
        ∃ f, Sums w (place rm s) a 1#_ 0 s { t with flags := f } ∧
          t.flags = { f with cf := s.flags.cf }) ∧
      ∃ t, exec (.decRm w rm) s = .next t ∧ t.flags.cf = s.flags.cf ∧
        ∃ f, Differs w (place rm s) a 1#_ 0 s { t with flags := f } ∧
          t.flags = { f with cf := s.flags.cf }) ∧
    ∀ r : Reg16,
      (∃ t, exec (.incReg r) s = .next t ∧ RegsOnly [r] s t ∧
        (t.reg16 r).toNat = ((s.reg16 r).toNat + 1) % 65536 ∧
        ∃ f, SumFlags (s.reg16 r) 1#16 0 f ∧ t.flags = { f with cf := s.flags.cf }) ∧
      ∃ t, exec (.decReg r) s = .next t ∧ RegsOnly [r] s t ∧
        (t.reg16 r).toNat = ((s.reg16 r).toNat + 65535) % 65536 ∧
        ∃ f, DifferenceFlags (s.reg16 r) 1#16 0 f ∧ t.flags = { f with cf := s.flags.cf }

/-- NEG subtracts from zero, with CF clear exactly for zero and OF set exactly for the most negative
number (R200); NOT complements every bit and changes no flag (R231). -/
def Obligations.NegNot : Prop :=
  ∀ (s : State) (w : Width) (rm : RM), Memory.wf s.mem →
    let a := s.readAt w (place rm s)
    (∃ t, exec (.negRm w rm) s = .next t ∧ Differs w (place rm s) 0#_ a 0 s t ∧
      (t.flags.cf = true ↔ a ≠ 0#_) ∧ (t.flags.ofl = true ↔ a.toInt = -2 ^ (w.bits - 1))) ∧
    ∃ t, exec (.notRm w rm) s = .next t ∧ WritesOnly w (place rm s) s t ∧ t.flags = s.flags ∧
      Stored w (place rm s) (BitVec.ofNat w.bits (2 ^ w.bits - 1 - a.toNat)) s t

/-- AAA and AAS: AL is cut to a decimal digit, AH and the carries say whether it was adjusted; the other
four status flags are left open (R195, R202). -/
def Obligations.AsciiAdjust : Prop :=
  ∀ s : State,
    let al := (s.reg8 .al).toNat
    let ah := (s.reg8 .ah).toNat
    let adj := 9 < al % 16 ∨ s.flags.af = true
    (∃ t, exec .aaa s = .next t ∧ RegsOnly [.ax] s t ∧
      (adj → (t.reg8 .al).toNat = (al + 6) % 16 ∧ (t.reg8 .ah).toNat = (ah + 1) % 256) ∧
      (¬adj → (t.reg8 .al).toNat = al % 16 ∧ (t.reg8 .ah).toNat = ah) ∧
      (t.flags.af = true ↔ adj) ∧ (t.flags.cf = true ↔ adj)) ∧
    ∃ t, exec .aas s = .next t ∧ RegsOnly [.ax] s t ∧
      (adj → (t.reg8 .al).toNat = (al + 10) % 16 ∧ (t.reg8 .ah).toNat = (ah + 255) % 256) ∧
      (¬adj → (t.reg8 .al).toNat = al % 16 ∧ (t.reg8 .ah).toNat = ah) ∧
      (t.flags.af = true ↔ adj) ∧ (t.flags.cf = true ↔ adj)

/-- DAA and DAS: the two tests on the entry values, the two corrections, and the flags of AL; OF is left
open, AH keeps its value (R196, R203).
On entry values that no decimal operation leaves, the same formula (log entry 31). -/
def Obligations.DecimalAdjust : Prop :=
  ∀ s : State,
    let al := (s.reg8 .al).toNat
    let low := if 9 < al % 16 ∨ s.flags.af = true then 6 else 0
    let high := if 0x99 < al ∨ s.flags.cf = true then 0x60 else 0
    (∃ t, exec .daa s = .next t ∧ RegsOnly [.ax] s t ∧ t.reg8 .ah = s.reg8 .ah ∧
      (t.reg8 .al).toNat = (al + low + high) % 256 ∧ ShowsResult (t.reg8 .al) t.flags ∧
      (t.flags.af = true ↔ low = 6) ∧ (t.flags.cf = true ↔ high = 0x60)) ∧
    ∃ t, exec .das s = .next t ∧ RegsOnly [.ax] s t ∧ t.reg8 .ah = s.reg8 .ah ∧
      (t.reg8 .al).toNat = (al + 512 - low - high) % 256 ∧ ShowsResult (t.reg8 .al) t.flags ∧
      (t.flags.af = true ↔ low = 6) ∧ (t.flags.cf = true ↔ high = 0x60)

/-- ADC then DAA adds, and SBB then DAS subtracts, two packed decimal numbers below 100 with the carry:
AL is the decimal result and CF the decimal carry or borrow (R196, R203, R215 (i)). -/
def Obligations.PackedDecimal : Prop :=
  ∀ (s : State) (x y : Nat), x < 100 → y < 100 →
    (s.reg8 .al).toNat = x / 10 * 16 + x % 10 →
    (∃ t u, exec (.adcAcc (.b (BitVec.ofNat 8 (y / 10 * 16 + y % 10)))) s = .next t ∧
      exec .daa t = .next u ∧
      (let sum := x + y + s.flags.cf.toNat
       (u.reg8 .al).toNat = sum % 100 / 10 * 16 + sum % 10 ∧ (u.flags.cf = true ↔ 100 ≤ sum))) ∧
    ∃ t u, exec (.sbbAcc (.b (BitVec.ofNat 8 (y / 10 * 16 + y % 10)))) s = .next t ∧
      exec .das t = .next u ∧
      (let diff := x + 100 - y - s.flags.cf.toNat
       (u.reg8 .al).toNat = diff % 100 / 10 * 16 + diff % 10 ∧
         (u.flags.cf = true ↔ x < y + s.flags.cf.toNat))

/-- AAM splits AL by ten, AAD joins AH and AL by ten; SF, ZF and PF show AL (R206, R209). CBW and CWD
extend the sign and change no flag (R210, R211). -/
def Obligations.AdjustAndExtend : Prop :=
  ∀ s : State,
    (∃ t, exec .aam s = .next t ∧ RegsOnly [.ax] s t ∧
      (t.reg8 .ah).toNat = (s.reg8 .al).toNat / 10 ∧
      (t.reg8 .al).toNat = (s.reg8 .al).toNat % 10 ∧ ShowsResult (t.reg8 .al) t.flags) ∧
    (∃ t, exec .aad s = .next t ∧ RegsOnly [.ax] s t ∧ t.reg8 .ah = 0#8 ∧
      (t.reg8 .al).toNat = ((s.reg8 .ah).toNat * 10 + (s.reg8 .al).toNat) % 256 ∧
      ShowsResult (t.reg8 .al) t.flags) ∧
    (∃ t, exec .cbw s = .next t ∧ RegsOnly [.ax] s t ∧ t.flags = s.flags ∧
      t.regs.ax.toInt = (s.reg8 .al).toInt) ∧
    ∃ t, exec .cwd s = .next t ∧ RegsOnly [.dx] s t ∧ t.flags = s.flags ∧
      (t.regs.dx ++ t.regs.ax).toInt = s.regs.ax.toInt

/-- MUL and IMUL: the exact product in double width; CF and OF say that the upper half matters; the other
four status flags are left open (R204, R205). -/
def Obligations.MulImul : Prop :=
  ∀ (s : State) (rm : RM),
    (∃ t, exec (.mulRm .byte rm) s = .next t ∧ RegsOnly [.ax] s t ∧
      t.regs.ax.toNat = (s.reg8 .al).toNat * (s.readAt .byte (place rm s)).toNat ∧
      (t.flags.cf = true ↔ t.reg8 .ah ≠ 0#8) ∧ t.flags.ofl = t.flags.cf) ∧
    (∃ t, exec (.mulRm .word rm) s = .next t ∧ RegsOnly [.ax, .dx] s t ∧
      t.regs.dx.toNat * 65536 + t.regs.ax.toNat =
        s.regs.ax.toNat * (s.readAt .word (place rm s)).toNat ∧
      (t.flags.cf = true ↔ t.regs.dx ≠ 0#16) ∧ t.flags.ofl = t.flags.cf) ∧
    (∃ t, exec (.imulRm .byte rm) s = .next t ∧ RegsOnly [.ax] s t ∧
      t.regs.ax.toInt = (s.reg8 .al).toInt * (s.readAt .byte (place rm s)).toInt ∧
      (t.flags.cf = true ↔ t.regs.ax ≠ (t.reg8 .al).signExtend 16) ∧ t.flags.ofl = t.flags.cf) ∧
    ∃ t, exec (.imulRm .word rm) s = .next t ∧ RegsOnly [.ax, .dx] s t ∧
      (t.regs.dx ++ t.regs.ax).toInt =
        s.regs.ax.toInt * (s.readAt .word (place rm s)).toInt ∧
      (t.flags.cf = true ↔ t.regs.dx ++ t.regs.ax ≠ t.regs.ax.signExtend 32) ∧
      t.flags.ofl = t.flags.cf

/-- DIV and IDIV with a divisor that is not zero and a quotient that fits, for IDIV inside the symmetric
range: dividend = quotient * divisor + remainder, the remainder smaller than the divisor, for IDIV with
the dividend's sign; the flags are left open (R207, R208, R215 (e)). -/
def Obligations.DivIdiv : Prop :=
  ∀ (s : State) (rm : RM),
    (let d := (s.readAt .byte (place rm s)).toNat
     s.regs.ax.toNat < 256 * d →
      ∃ t, exec (.divRm .byte rm) s = .next t ∧ RegsOnly [.ax] s t ∧
        s.regs.ax.toNat = (t.reg8 .al).toNat * d + (t.reg8 .ah).toNat ∧ (t.reg8 .ah).toNat < d) ∧
    (let d := (s.readAt .word (place rm s)).toNat
     s.regs.dx.toNat < d →
      ∃ t, exec (.divRm .word rm) s = .next t ∧ RegsOnly [.ax, .dx] s t ∧
        s.regs.dx.toNat * 65536 + s.regs.ax.toNat = t.regs.ax.toNat * d + t.regs.dx.toNat ∧
        t.regs.dx.toNat < d) ∧
    (let n := s.regs.ax.toInt
     let d := (s.readAt .byte (place rm s)).toInt
     d ≠ 0 → n.natAbs < 128 * d.natAbs →
      ∃ t, exec (.idivRm .byte rm) s = .next t ∧ RegsOnly [.ax] s t ∧
        n = (t.reg8 .al).toInt * d + (t.reg8 .ah).toInt ∧
        (t.reg8 .ah).toInt.natAbs < d.natAbs ∧
        ((t.reg8 .ah).toInt = 0 ∨ ((t.reg8 .ah).toInt < 0 ↔ n < 0))) ∧
    (let n := (s.regs.dx ++ s.regs.ax).toInt
     let d := (s.readAt .word (place rm s)).toInt
     d ≠ 0 → n.natAbs < 32768 * d.natAbs →
      ∃ t, exec (.idivRm .word rm) s = .next t ∧ RegsOnly [.ax, .dx] s t ∧
        n = t.regs.ax.toInt * d + t.regs.dx.toInt ∧
        t.regs.dx.toInt.natAbs < d.natAbs ∧
        (t.regs.dx.toInt = 0 ∨ (t.regs.dx.toInt < 0 ↔ n < 0)))

/-- The divide error: a divisor of zero or a quotient that does not fit takes interrupt 0 with the
offset of the next instruction; the status flags it saves and AX, with DX for a word, are left open; TF,
IF and DF are saved as they were (R207, R208, R358).
For the most negative quotient the open parameter decides (log entry 6). -/
def Obligations.DivideError : Prop :=
  ∀ (s : State) (w : Width) (rm : RM), Memory.wf s.mem →
    let regs : List Reg16 := match w with | .byte => [.ax] | .word => [.ax, .dx]
    let traps := fun t : State => ∃ f : Flags,
      (f.tf = s.flags.tf ∧ f.ifl = s.flags.ifl ∧ f.df = s.flags.df) ∧ Entered 0#8 s.ip f regs s t
    (let d := (s.readAt w (place rm s)).toNat
     d = 0 ∨ 2 ^ w.bits ≤ (s.dividend w).toNat / d →
      ∃ t, exec (.divRm w rm) s = .next t ∧ traps t) ∧
    (let d := (s.readAt w (place rm s)).toInt
     let q := (s.signedDividend w).tdiv d
     (d = 0 ∨ q < -2 ^ (w.bits - 1) ∨ 2 ^ (w.bits - 1) ≤ q →
      ∃ t, exec (.idivRm w rm) s = .next t ∧ traps t) ∧
     (d ≠ 0 → q = -2 ^ (w.bits - 1) →
      ∃ t, exec (.idivRm w rm) s = .next t ∧ (Config.idivMinQuotientFaults = true → traps t) ∧
        (Config.idivMinQuotientFaults = false → RegsOnly regs s t ∧ (t.readAcc w).toInt = q)))

/-! ## Shifts and rotates -/

/-- SHL, SHR and SAR by any count, the whole of CL counting; a count of zero changes nothing; else closed
forms of the result, CF the last bit moved out, OF for a count of 1; AF, and OF for other counts, are left
open (R240, R241, R243 to R245). -/
def Obligations.Shifts : Prop :=
  ∀ (s : State) (cnt : ShiftCount) (w : Width) (rm : RM), Memory.wf s.mem →
    let k := s.shiftCount cnt
    let p := place rm s
    let v := s.readAt w p
    (k = 0 → exec (.shl cnt w rm) s = .next s ∧ exec (.shr cnt w rm) s = .next s ∧
      exec (.sar cnt w rm) s = .next s) ∧
    (k ≠ 0 →
    (∃ (t : State) (r : BitVec w.bits), exec (.shl cnt w rm) s = .next t ∧ WritesOnly w p s t ∧
      r.toNat = v.toNat * 2 ^ k % 2 ^ w.bits ∧ Stored w p r s t ∧ ShowsResult r t.flags ∧
      (t.flags.cf = true ↔ v.toNat * 2 ^ k / 2 ^ w.bits % 2 = 1) ∧
      (k = 1 → (t.flags.ofl = true ↔ Overflows w.bits (2 * v.toInt)))) ∧
    (∃ (t : State) (r : BitVec w.bits), exec (.shr cnt w rm) s = .next t ∧ WritesOnly w p s t ∧
      r.toNat = v.toNat / 2 ^ k ∧ Stored w p r s t ∧ ShowsResult r t.flags ∧
      (t.flags.cf = true ↔ v.toNat / 2 ^ (k - 1) % 2 = 1) ∧
      (k = 1 → t.flags.ofl = v.msb)) ∧
    ∃ (t : State) (r : BitVec w.bits), exec (.sar cnt w rm) s = .next t ∧ WritesOnly w p s t ∧
      r.toInt = v.toInt / 2 ^ k ∧ Stored w p r s t ∧ ShowsResult r t.flags ∧
      (t.flags.cf = true ↔ v.toInt / 2 ^ (k - 1) % 2 = 1) ∧
      (k = 1 → t.flags.ofl = false))

/-- ROL and ROR by any count; a count of zero changes nothing; else the operand turns, CF is the bit that
crossed the end; of the flags only CF and OF change, OF is defined for a count of 1 (R241, R246, R248). -/
def Obligations.Rotates : Prop :=
  ∀ (s : State) (cnt : ShiftCount) (w : Width) (rm : RM), Memory.wf s.mem →
    let k := s.shiftCount cnt
    let p := place rm s
    let v := s.readAt w p
    let keeps := fun t : State => t.flags.sf = s.flags.sf ∧ t.flags.zf = s.flags.zf ∧
      t.flags.pf = s.flags.pf ∧ t.flags.af = s.flags.af
    (k = 0 → exec (.rol cnt w rm) s = .next s ∧ exec (.ror cnt w rm) s = .next s) ∧
    (k ≠ 0 →
    (∃ t, exec (.rol cnt w rm) s = .next t ∧ WritesOnly w p s t ∧ keeps t ∧
      Stored w p (v.rotateLeft k) s t ∧ t.flags.cf = (v.rotateLeft k).getLsbD 0 ∧
      (k = 1 → t.flags.ofl = ((v.rotateLeft k).msb ^^ t.flags.cf))) ∧
    ∃ t, exec (.ror cnt w rm) s = .next t ∧ WritesOnly w p s t ∧ keeps t ∧
      Stored w p (v.rotateRight k) s t ∧ t.flags.cf = (v.rotateRight k).msb ∧
      (k = 1 → t.flags.ofl = ((v.rotateRight k).msb ^^ (v.rotateRight k).getLsbD (w.bits - 2))))

/-- RCL and RCR by any count turn the ring of the operand and CF, one bit longer than the
operand; a count of zero changes nothing (R240, R247, R249). -/
def Obligations.RotatesThroughCarry : Prop :=
  ∀ (s : State) (cnt : ShiftCount) (w : Width) (rm : RM), Memory.wf s.mem →
    let k := s.shiftCount cnt
    let p := place rm s
    let v := s.readAt w p
    let keeps := fun t : State => t.flags.sf = s.flags.sf ∧ t.flags.zf = s.flags.zf ∧
      t.flags.pf = s.flags.pf ∧ t.flags.af = s.flags.af
    (k = 0 → exec (.rcl cnt w rm) s = .next s ∧ exec (.rcr cnt w rm) s = .next s) ∧
    (k ≠ 0 →
    (∃ (t : State) (r : BitVec w.bits), exec (.rcl cnt w rm) s = .next t ∧ WritesOnly w p s t ∧
      keeps t ∧ Stored w p r s t ∧
      BitVec.ofBool t.flags.cf ++ r = (BitVec.ofBool s.flags.cf ++ v).rotateLeft k ∧
      (k = 1 → t.flags.ofl = (r.msb ^^ t.flags.cf))) ∧
    ∃ (t : State) (r : BitVec w.bits), exec (.rcr cnt w rm) s = .next t ∧ WritesOnly w p s t ∧
      keeps t ∧ Stored w p r s t ∧
      BitVec.ofBool t.flags.cf ++ r = (BitVec.ofBool s.flags.cf ++ v).rotateRight k ∧
      (k = 1 → t.flags.ofl = (r.msb ^^ r.getLsbD (w.bits - 2))))

/-! ## Data transfer -/

/-- MOV in its five forms without a segment register: the destination holds the source, nothing else
changes (R152). -/
def Obligations.MovCopies : Prop :=
  ∀ s : State, Memory.wf s.mem →
    (∀ (d : Dir) (w : Width) (reg : RegNum) (rm : RM), ∃ t, exec (.movRm d w reg rm) s = .next t ∧
      Copies w (dstPlace d reg (place rm s)) (s.readAt w (srcPlace d reg (place rm s))) s t) ∧
    (∀ (reg : RegNum) (imm : Imm), ∃ t, exec (.movRegImm reg imm) s = .next t ∧
      Copies imm.width (.reg reg) imm.value s t) ∧
    (∀ (imm : Imm) (rm : RM), ∃ t, exec (.movRmImm imm rm) s = .next t ∧
      Copies imm.width (place rm s) imm.value s t) ∧
    ∀ (w : Width) (addr : Word),
      (∃ t, exec (.movAccMoffs w addr) s = .next t ∧
        Copies w (.reg .r0) (s.readMem w (s.dataSeg .ds) addr) s t) ∧
      ∃ t, exec (.movMoffsAcc w addr) s = .next t ∧
        Copies w (.mem (s.dataSeg .ds) addr) (s.readAcc w) s t

/-- MOV to and from segment registers and POP into them: CS may be read and not written; a load of SS
sets the interrupt shadow the part has (R31, R153, R157, R364).
The refusal of a CS destination is of a term that no encoding spells (log entry 24). -/
def Obligations.SegmentMoves : Prop :=
  ∀ s : State, Memory.wf s.mem →
    (∀ (sr : SegReg) (rm : RM), ∃ t, exec (.movRmSreg sr rm) s = .next t ∧
      Copies .word (place rm s) (s.seg sr) s t) ∧
    (∀ (sr : SegReg) (rm : RM), sr ≠ .cs → ∃ t, exec (.movSregRm sr rm) s = .next t ∧
      t.seg sr = s.readAt .word (place rm s) ∧ (∀ sr', sr' ≠ sr → t.seg sr' = s.seg sr') ∧
      t.intShadow = (if sr = .ss then Config.intShadow else s.intShadow) ∧
      t.regs = s.regs ∧ t.flags = s.flags ∧ t.ip = s.ip ∧ StoresOnly [] s t ∧
      SameHidden s { t with intShadow := s.intShadow }) ∧
    (∀ sr : SegReg, sr ≠ .cs → ∃ t, exec (.popSreg sr) s = .next t ∧
      (t.seg sr).toNat = s.wordAt s.segs.ss s.regs.sp ∧
      (∀ sr', sr' ≠ sr → t.seg sr' = s.seg sr') ∧
      t.regs.sp.toNat = (s.regs.sp.toNat + 2) % 65536 ∧ KeepsRegs [.sp] s t ∧
      t.intShadow = (if sr = .ss then Config.intShadow else s.intShadow) ∧
      t.flags = s.flags ∧ t.ip = s.ip ∧ StoresOnly [] s t ∧
      SameHidden s { t with intShadow := s.intShadow }) ∧
    (∀ rm, exec (.movSregRm .cs rm) s = .refused .codeSegmentDestination) ∧
    exec (.popSreg .cs) s = .refused .codeSegmentDestination

/-- PUSH in its three forms: SP goes down by two, the word stands at the new SP; PUSH SP stores the
decremented SP, in both its encodings; a memory operand is read before (R70, R133, R155).
The encoding of PUSH SP in the `r/m` form: log entry 32. -/
def Obligations.PushMovesSp : Prop :=
  ∀ s : State, Memory.wf s.mem →
    let sp := s.regs.sp - 2#16
    let pushes := fun (v : Word) (t : State) =>
      t.regs.sp = sp ∧ Stored .word (.mem s.segs.ss sp) v s t ∧ KeepsRegs [.sp] s t ∧ t.segs = s.segs ∧
        t.flags = s.flags ∧ t.ip = s.ip ∧ StoresOnly (stackBytes s.segs.ss s.regs.sp 1) s t ∧
        SameHidden s t
    (∀ r : Reg16, ∃ t, exec (.pushReg r) s = .next t ∧
      pushes (if r = .sp then sp else s.reg16 r) t) ∧
    (∀ i : RegNum, exec (.pushRm (.reg i)) s = exec (.pushReg i.reg16) s) ∧
    (∀ m : Mem, ∃ t, exec (.pushRm (.mem m)) s = .next t ∧
      pushes (s.readAt .word (memPlace m s)) t) ∧
    ∀ sr : SegReg, ∃ t, exec (.pushSreg sr) s = .next t ∧ pushes (s.seg sr) t

/-- POP into a register and into `r/m`: SP goes up by two before the destination is written, so POP SP
leaves the popped word; the address is the one before the pop (R71, R157). -/
def Obligations.PopMovesSp : Prop :=
  ∀ s : State, Memory.wf s.mem →
    let v := s.wordAt s.segs.ss s.regs.sp
    (∀ r : Reg16, ∃ t, exec (.popReg r) s = .next t ∧ (t.reg16 r).toNat = v ∧
      (r ≠ .sp → t.regs.sp = s.regs.sp + 2#16) ∧ RegsOnly [r, .sp] s t ∧ t.flags = s.flags) ∧
    (∀ i : RegNum, exec (.popRm (.reg i)) s = exec (.popReg i.reg16) s) ∧
    ∀ m : Mem, ∃ t, exec (.popRm (.mem m)) s = .next t ∧
      Stored .word (memPlace m s) (BitVec.ofNat 16 v) s t ∧
      t.regs = { s.regs with sp := s.regs.sp + 2#16 } ∧
      t.segs = s.segs ∧ t.flags = s.flags ∧ t.ip = s.ip ∧
      StoresOnly ((memPlace m s).bytes .word) s t ∧ SameHidden s t

/-- XCHG: each operand gets the other's old value, no flag changes; a memory operand asserts the LOCK
output (R90, R158). XCHG AX,AX does what NOP does (R136).
The bus event is the model's (log entry 22). -/
def Obligations.Xchg : Prop :=
  ∀ s : State, Memory.wf s.mem →
    (∀ (w : Width) (i j : RegNum), ∃ t, exec (.xchgRm w i (.reg j)) s = .next t ∧
      t.readReg w j = s.readReg w i ∧ t.readReg w i = s.readReg w j ∧ t.segs = s.segs ∧
      t.flags = s.flags ∧ t.ip = s.ip ∧ StoresOnly [] s t ∧ SameHidden s t ∧
      (∀ k, k ≠ i → k ≠ j → t.readReg w k = s.readReg w k) ∧
      (w = .byte → ∀ r, r ≠ wordReg i.reg8 → r ≠ wordReg j.reg8 → t.reg16 r = s.reg16 r)) ∧
    (∀ (w : Width) (i : RegNum) (m : Mem), ∃ t, exec (.xchgRm w i (.mem m)) s = .next t ∧
      Stored w (memPlace m s) (s.readReg w i) s t ∧ t.readReg w i = s.readAt w (memPlace m s) ∧
      KeepsRegsBut w (.reg i) s t ∧ t.segs = s.segs ∧ t.flags = s.flags ∧ t.ip = s.ip ∧
      StoresOnly ((memPlace m s).bytes w) s t ∧ t.lockOutput = true ∧
      SameHidden s { t with lockOutput := s.lockOutput, busEvents := s.busEvents }) ∧
    (∀ r : Reg16, ∃ t, exec (.xchgAcc r) s = .next t ∧ t.regs.ax = s.reg16 r ∧
      t.reg16 r = s.regs.ax ∧ RegsOnly [.ax, r] s t ∧ t.flags = s.flags) ∧
    exec (.xchgAcc .ax) s = exec .nop s ∧ exec (.xchgRm .word .r0 (.reg .r0)) s = exec .nop s

/-- XLAT, LEA, LDS and LES: the table byte at BX + AL; the effective address without a memory access; an
offset word and, two bytes higher, a segment word, read before either register is written (R159, R162 to
R164). -/
def Obligations.AddressTransfers : Prop :=
  ∀ s : State,
    (∃ t, exec .xlat s = .next t ∧ Copies .byte (.reg .r0)
      (s.readByte (physAddr (s.dataSeg .ds) (BitVec.ofNat 16
        (s.regs.bx.toNat + (s.reg8 .al).toNat))).toNat) s t) ∧
    ∀ (r : Reg16) (m : Mem),
      (∃ t, exec (.lea r m) s = .next t ∧ t.reg16 r = effAddr m s ∧ RegsOnly [r] s t ∧
        t.flags = s.flags) ∧
      (let seg := s.dataSeg (defaultSeg m)
       let off := effAddr m s
       (∃ t, exec (.lds r m) s = .next t ∧ (t.reg16 r).toNat = s.wordAt seg off ∧
          t.segs.ds.toNat = s.wordAt seg (off + 2#16) ∧ KeepsRegs [r] s t ∧
          t.segs = { s.segs with ds := t.segs.ds } ∧ t.flags = s.flags ∧ t.ip = s.ip ∧
          StoresOnly [] s t ∧ SameHidden s t) ∧
       ∃ t, exec (.les r m) s = .next t ∧ (t.reg16 r).toNat = s.wordAt seg off ∧
          t.segs.es.toNat = s.wordAt seg (off + 2#16) ∧ KeepsRegs [r] s t ∧
          t.segs = { s.segs with es := t.segs.es } ∧ t.flags = s.flags ∧ t.ip = s.ip ∧
          StoresOnly [] s t ∧ SameHidden s t)

/-- IN and OUT: the environment's answers, low byte from the port and high byte from the next modulo
2^16, go to the accumulator, whose other half keeps its value; a read and a write are bus events with the
accumulator's value and change nothing else (R75, R160, R161). The answers are the script's bytes, and
where it is empty the oracle's, whatever it gives.
The model's form: a script, then an oracle (log entry 10). -/
def Obligations.Ports : Prop :=
  ∀ s : State,
    let reads := fun (w : Width) (port : Word) (t : State) =>
      (w = .byte → t.reg8 .al = s.portAnswer port ∧ t.reg8 .ah = s.reg8 .ah ∧
        t.portScript = s.portScript.drop 1) ∧
      (w = .word → t.reg8 .al = s.portAnswer port ∧
        t.reg8 .ah = s.afterPortRead.portAnswer (port + 1#16) ∧
        t.portScript = s.portScript.drop 2) ∧
      t.busEvents = .portRead port w (asWord w (t.readAcc w)) :: s.busEvents ∧
        KeepsRegs [.ax] s t ∧ t.flags = s.flags ∧
        t.segs = s.segs ∧ t.ip = s.ip ∧ StoresOnly [] s t ∧
        SameHidden s { t with busEvents := s.busEvents, portScript := s.portScript } ∧
        (∀ (lo hi : Byte) (rest : List Byte), s.portScript = lo :: hi :: rest →
          (w = .byte → t.reg8 .al = lo ∧ t.portScript = hi :: rest) ∧
          (w = .word → t.regs.ax.toNat = lo.toNat + 256 * hi.toNat ∧ t.portScript = rest)) ∧
        (∀ v : Byte, s.portScript = [v] → t.reg8 .al = v ∧
          (w = .word → t.reg8 .ah = Config.portOracle s.draws (port + 1#16))) ∧
        (s.portScript = [] → t.reg8 .al = Config.portOracle s.draws port ∧
          (w = .word → t.reg8 .ah = Config.portOracle (s.draws + 1) (port + 1#16)))
    (∀ (w : Width) (p : Byte),
      (∃ t, exec (.inImm w p) s = .next t ∧ reads w (p.zeroExtend 16) t) ∧
      exec (.outImm w p) s = .next { s with
        busEvents := .portWrite (p.zeroExtend 16) w (asWord w (s.readAcc w)) :: s.busEvents }) ∧
    ∀ w : Width,
      (∃ t, exec (.inDx w) s = .next t ∧ reads w s.regs.dx t) ∧
      exec (.outDx w) s = .next { s with
        busEvents := .portWrite s.regs.dx w (asWord w (s.readAcc w)) :: s.busEvents }

/-- LAHF and SAHF move five flags between AH and FLAGS at their bit positions; PUSHF and POPF move all
nine; the unused positions are left open where they are read and discarded where they are written (R33,
R35, R165 to R168). -/
def Obligations.FlagTransfers : Prop :=
  ∀ s : State, Memory.wf s.mem →
    (∃ t, exec .lahf s = .next t ∧
      (t.reg8 .ah).getLsbD 7 = s.flags.sf ∧ (t.reg8 .ah).getLsbD 6 = s.flags.zf ∧
      (t.reg8 .ah).getLsbD 4 = s.flags.af ∧ (t.reg8 .ah).getLsbD 2 = s.flags.pf ∧
      (t.reg8 .ah).getLsbD 0 = s.flags.cf ∧ WritesOnly .byte (.reg .r4) s t ∧
      t.flags = s.flags) ∧
    (∃ t, exec .sahf s = .next t ∧ t.regs = s.regs ∧
      t.flags = { s.flags with
        sf := (s.reg8 .ah).getLsbD 7, zf := (s.reg8 .ah).getLsbD 6, af := (s.reg8 .ah).getLsbD 4,
        pf := (s.reg8 .ah).getLsbD 2, cf := (s.reg8 .ah).getLsbD 0 } ∧
      RegsOnly [] s t) ∧
    (∃ t, exec .pushf s = .next t ∧ t.regs.sp = s.regs.sp - 2#16 ∧
      (∃ image : Word, Flags.ofWord image = s.flags ∧
        Stored .word (.mem s.segs.ss t.regs.sp) image s t) ∧
      KeepsRegs [.sp] s t ∧ t.segs = s.segs ∧ t.flags = s.flags ∧ t.ip = s.ip ∧
      StoresOnly (stackBytes s.segs.ss s.regs.sp 1) s t ∧ SameHidden s t) ∧
    ∃ t, exec .popf s = .next t ∧ t.regs = { s.regs with sp := s.regs.sp + 2#16 } ∧
      (let v := BitVec.ofNat 16 (s.wordAt s.segs.ss s.regs.sp)
       t.flags = ⟨v.getLsbD 0, v.getLsbD 2, v.getLsbD 4, v.getLsbD 6, v.getLsbD 7, v.getLsbD 8,
         v.getLsbD 9, v.getLsbD 10, v.getLsbD 11⟩) ∧
      t.segs = s.segs ∧ t.ip = s.ip ∧ StoresOnly [] s t ∧ SameHidden s t

/-! ## Strings -/

/-- One element of MOVS, STOS and LODS without a repeat prefix: the element is copied, and the flags keep
their values; one element of CMPS and SCAS: the flags of source minus destination, of accumulator minus
destination. The pointers move by the element's size in the direction of DF, CX keeps its value (R260,
R265 to R270). CMPS reads its destination after its source, which where there is no memory is a draw of its
own (log entry 35). -/
def Obligations.StringElements : Prop :=
  ∀ (s : State) (w : Width), Memory.wf s.mem → s.prefixes.rep = none →
    let k := pointerStep w s.flags.df
    let source := s.readMem w (s.dataSeg .ds) s.regs.si
    let dest := s.readMem w s.segs.es s.regs.di
    (∃ t, exec (.movs w) s = .next t ∧ Stored w (.mem s.segs.es s.regs.di) source s t ∧
      Moved s.regs.si t.regs.si k ∧ Moved s.regs.di t.regs.di k ∧ KeepsRegs [.si, .di] s t ∧
      t.segs = s.segs ∧ t.flags = s.flags ∧ t.ip = s.ip ∧
      StoresOnly (operandBytes w s.segs.es s.regs.di) s t ∧ SameHidden s t) ∧
    (∃ t, exec (.stos w) s = .next t ∧ Stored w (.mem s.segs.es s.regs.di) (s.readAcc w) s t ∧
      Moved s.regs.di t.regs.di k ∧ KeepsRegs [.di] s t ∧ t.segs = s.segs ∧ t.flags = s.flags ∧
      t.ip = s.ip ∧ StoresOnly (operandBytes w s.segs.es s.regs.di) s t ∧ SameHidden s t) ∧
    (∃ t, exec (.lods w) s = .next t ∧ t.readAcc w = source ∧ Moved s.regs.si t.regs.si k ∧
      (w = .byte → t.reg8 .ah = s.reg8 .ah) ∧ RegsOnly [.ax, .si] s t ∧ t.flags = s.flags) ∧
    (∃ t, exec (.cmps w) s = .next t ∧
      DifferenceFlags source (s.nextDraw.readMem w s.segs.es s.regs.di) 0 t.flags ∧
      Moved s.regs.si t.regs.si k ∧ Moved s.regs.di t.regs.di k ∧ RegsOnly [.si, .di] s t) ∧
    ∃ t, exec (.scas w) s = .next t ∧ DifferenceFlags (s.readAcc w) dest 0 t.flags ∧
      Moved s.regs.di t.regs.di k ∧ RegsOnly [.di] s t

/-- One pass of a repeat: nothing with CX = 0; else the unprefixed element, CX one less, and the
instruction ends where CX is 0 or the comparison says so, and stands at its first byte otherwise (R261 to
R265).
The model's form: one iteration is one step (log entry 17). -/
def Obligations.RepeatPass : Prop :=
  ∀ (op : StringOp) (w : Width) (r : RepeatPrefix) (s : State), s.prefixes.rep = some r →
    ((s.prefixes.seg = none ∧ s.prefixes.lock = false) ∨
      (s.flags.ifl = false ∧ s.flags.tf = false ∧ s.nmiLatch = false)) →
    (s.regs.cx = 0#16 → exec (op.instr w) s = .next s) ∧
    (s.regs.cx ≠ 0#16 → ∃ u t,
      exec (op.instr w) { s with prefixes := { s.prefixes with rep := none } } = .next u ∧
      exec (op.instr w) s = .next t ∧
      t.regs.cx.toNat + 1 = s.regs.cx.toNat ∧ KeepsRegs [.cx] u t ∧ t.flags = u.flags ∧
      t.mem = u.mem ∧ t.segs = u.segs ∧ SameHidden s { t with repeating := s.repeating } ∧
      (let compares := op = .cmps ∨ op = .scas
       let ends := t.regs.cx = 0#16 ∨ compares ∧
         (r = .repe ∧ t.flags.zf = false ∨ r = .repne ∧ t.flags.zf = true)
       (ends → t.ip = s.ip ∧ t.repeating = s.repeating) ∧
       (¬ends → t.ip = s.instrStart ∧ t.repeating = some ⟨op, w, s.prefixes, s.ip⟩)))

/-- A repeated MOVS, STOS or LODS that nothing interrupts runs to its end in as many steps as CX counts:
CX is 0, the pointers have moved by that many elements, and IP is past the instruction; MOVS and STOS leave
AX, LODS leaves memory; and where every address is RAM or ROM, memory and the registers but CX are what as
many unprefixed elements one after another leave (R261).
The model's form: one iteration is one step (log entry 17). -/
def Obligations.RepeatRuns : Prop :=
  ∀ (s : State) (r : Repeating), Quiet s → s.halted = false → s.waiting = false →
    s.flags.tf = false → s.repeating = some r → r.prefixes.rep ≠ none →
    r.prefixes.seg = none → r.prefixes.lock = false → s.regs.cx ≠ 0#16 →
    (r.op = .movs ∨ r.op = .stos ∨ r.op = .lods) →
    ∃ t, core.run s.regs.cx.toNat s = .next t ∧ t.repeating = none ∧ t.ip = r.next ∧
      t.regs.cx = 0#16 ∧ t.segs = s.segs ∧ t.flags = s.flags ∧
      KeepsRegs [.ax, .cx, .si, .di] s t ∧
      (let k := pointerStep r.width s.flags.df * s.regs.cx.toNat
       (r.op ≠ .stos → Moved s.regs.si t.regs.si k) ∧
       (r.op ≠ .lods → Moved s.regs.di t.regs.di k)) ∧
      (r.op ≠ .lods → t.regs.ax = s.regs.ax) ∧ (r.op = .lods → KeepsMemory [] s t) ∧
      ((∀ a, s.kindAt a ≠ .bus) →
        ∃ u, runRows exec (List.replicate s.regs.cx.toNat (r.op.instr r.width))
            { s with prefixes := Prefixes.none } = .next u ∧
          t.mem = u.mem ∧ t.regs = { u.regs with cx := 0#16 })

/-! ## Processor control -/

/-- The seven flag instructions change their flag alone; STI also sets the interrupt shadow the part has
(R281 to R287). NOP changes nothing, HLT sets `halted` alone (R289, R292).
Whether the part has the shadow is open (log entry 7). -/
def Obligations.FlagInstructions : Prop :=
  ∀ s : State,
    (∃ t, exec .clc s = .next t ∧ t = { s with flags := t.flags } ∧
      t.flags = { s.flags with cf := false }) ∧
    (∃ t, exec .stc s = .next t ∧ t = { s with flags := t.flags } ∧
      t.flags = { s.flags with cf := true }) ∧
    (∃ t, exec .cmc s = .next t ∧ t = { s with flags := t.flags } ∧
      t.flags.cf ≠ s.flags.cf ∧ { t.flags with cf := s.flags.cf } = s.flags) ∧
    (∃ t, exec .cld s = .next t ∧ t = { s with flags := t.flags } ∧
      t.flags = { s.flags with df := false }) ∧
    (∃ t, exec .std s = .next t ∧ t = { s with flags := t.flags } ∧
      t.flags = { s.flags with df := true }) ∧
    (∃ t, exec .cli s = .next t ∧ t = { s with flags := t.flags } ∧
      t.flags = { s.flags with ifl := false }) ∧
    (∃ t, exec .sti s = .next t ∧
      t = { s with flags := t.flags, intShadow := Config.intShadow } ∧
      t.flags = { s.flags with ifl := true }) ∧
    exec .nop s = .next s ∧ exec .hlt s = .next { s with halted := true }

/-- WAIT completes where TEST is asserted; else the processor waits, with IP past the WAIT and the offset of
its first byte kept for an interrupt to push (R288). A waiting processor fetches nothing: without TEST a
quiet step changes nothing, and with TEST asserted a step completes the WAIT, whatever stands at CS:IP and
whatever is requested; a trap is then due where TF is set (R288, R362, R376).
The model's form: a step of the wait, and its end, are steps of their own (log entry 15); a WAIT that goes on
leaves no trap pending, TF set or not (log entry 14). -/
def Obligations.Wait : Prop :=
  (∀ s : State, s.pins.test = true → exec .wait s = .next { s with waiting := false }) ∧
  (∀ s : State, s.pins.test = false → exec .wait s = .next { s with waiting := true }) ∧
  (∀ s : State, Quiet s → s.halted = false → s.waiting = false → s.repeating = none →
    s.pins.test = false → decode (s.fetchBytes maxLength) = .ok ⟨[], .wait, 1⟩ →
    s.runsWrittenCode 1 = false →
    ∃ t, step s = .next t ∧ t.waiting = true ∧ t.ip = s.ip + 1#16 ∧ t.instrStart = s.ip ∧
      t.regs = s.regs ∧ t.segs = s.segs ∧ t.flags = s.flags ∧ t.mem = s.mem ∧
      t.trapPending = false) ∧
  (∀ s : State, Quiet s → s.halted = false → s.waiting = true → s.pins.test = false →
    step s = .next { s with intShadow := false }) ∧
  ∀ s : State, s.pinSchedule = [] → s.pins.reset = false → s.halted = false → s.waiting = true →
    s.pins.test = true →
    step s = .next { s with
      waiting := false
      intShadow := false
      prefixes := Prefixes.none
      lockOutput := s.repeating.any (fun r => r.prefixes.lock)
      trapPending := s.trapPending || s.flags.tf }

/-- ESC: a memory operand is read as a word, which the bus shows; a register operand is not accessed;
nothing else changes (R93, R290). The prefix rows record what they say for the instruction they stand
before, the other prefixes kept; LOCK asserts the LOCK output, which is a bus event where it was not
asserted (R83, R102, R291); nothing else changes.
The model's form: prefix rows are instructions (log entry 20), the bus events (log entry 22). -/
def Obligations.EscAndPrefixes : Prop :=
  ∀ s : State,
    (∀ (code : BitVec 6) (i : RegNum), exec (.esc code (.reg i)) s = .next s) ∧
    (∀ (code : BitVec 6) (m : Mem),
      ∃ (a : PhysAddr) (v : Word), exec (.esc code (.mem m)) s =
          .next { s with busEvents := .escRead a v :: s.busEvents } ∧
        a.toNat = ((s.dataSeg (defaultSeg m)).toNat * 16 + (effAddr m s).toNat) % 1048576 ∧
        v.toNat = s.wordAt (s.dataSeg (defaultSeg m)) (effAddr m s)) ∧
    (∀ sr : SegReg, ∃ t, exec (.segOverride sr) s = .next t ∧ (∀ r, t.dataSeg r = s.seg sr) ∧
      t = { s with prefixes := { s.prefixes with seg := some sr } }) ∧
    exec .lock s = .next { s with
      prefixes := { s.prefixes with lock := true }
      lockOutput := true
      busEvents := if s.lockOutput = true then s.busEvents else .lockAsserted :: s.busEvents } ∧
    exec .rep s = .next { s with prefixes := { s.prefixes with rep := some .repe } } ∧
    exec .repne s = .next { s with prefixes := { s.prefixes with rep := some .repne } }

/-! ## Transfers of control -/

/-- CALL in its four forms: the return address is pushed, IP alone for a near call, CS and then IP for a
far one; the target is read before the push (R301 to R306). -/
def Obligations.Calls : Prop :=
  ∀ s : State, Memory.wf s.mem →
    let near := fun (t : State) => t.regs.sp = s.regs.sp - 2#16 ∧ t.segs.cs = s.segs.cs ∧
      Stored .word (.mem s.segs.ss t.regs.sp) s.ip s t ∧ t.written = [] ∧
      TransferOnly [.sp] (stackBytes s.segs.ss s.regs.sp 1) s t
    let far := fun (t : State) => t.regs.sp = s.regs.sp - 4#16 ∧
      Stored .word (.mem s.segs.ss t.regs.sp) s.ip s t ∧
      Stored .word (.mem s.segs.ss (t.regs.sp + 2#16)) s.segs.cs s t ∧ t.written = [] ∧
      TransferOnly [.sp] (stackBytes s.segs.ss s.regs.sp 2) s t
    (∀ disp : Word, ∃ t, exec (.callRel disp) s = .next t ∧ near t ∧
      t.ip.toNat = (s.ip.toNat + disp.toNat) % 65536) ∧
    (∀ rm : RM, ∃ t, exec (.callRm rm) s = .next t ∧ near t ∧
      t.ip = s.readAt .word (place rm s)) ∧
    (∀ off seg : Word, ∃ t, exec (.callFar off seg) s = .next t ∧ far t ∧ t.ip = off ∧
      t.segs.cs = seg) ∧
    ∀ m : Mem, ∃ t, exec (.callFarMem m) s = .next t ∧ far t ∧
      t.ip.toNat = s.wordAt (s.dataSeg (defaultSeg m)) (effAddr m s) ∧
      t.segs.cs.toNat = s.wordAt (s.dataSeg (defaultSeg m)) (effAddr m s + 2#16)

/-- RET in its four forms: IP, and CS for a far return, are popped, then SP goes up by the immediate
(R307 to R311). -/
def Obligations.Returns : Prop :=
  ∀ s : State,
    let near := fun (n : Nat) (t : State) =>
      t.ip.toNat = s.wordAt s.segs.ss s.regs.sp ∧ t.segs.cs = s.segs.cs ∧
        t.regs.sp.toNat = (s.regs.sp.toNat + 2 + n) % 65536 ∧ t.written = [] ∧
        TransferOnly [.sp] [] s t
    let far := fun (n : Nat) (t : State) =>
      t.ip.toNat = s.wordAt s.segs.ss s.regs.sp ∧
        t.segs.cs.toNat = s.wordAt s.segs.ss (s.regs.sp + 2#16) ∧
        t.regs.sp.toNat = (s.regs.sp.toNat + 4 + n) % 65536 ∧ t.written = [] ∧
        TransferOnly [.sp] [] s t
    (∃ t, exec .ret s = .next t ∧ near 0 t) ∧ (∃ t, exec .retf s = .next t ∧ far 0 t) ∧
    ∀ data : Word, (∃ t, exec (.retImm data) s = .next t ∧ near data.toNat t) ∧
      ∃ t, exec (.retfImm data) s = .next t ∧ far data.toNat t

/-- A call and the return of its kind, with the stack in RAM: IP, CS, SP and every other register are as
before the call, in all four kinds of call (R302, R307, R310; R393 for the RAM). -/
def Obligations.CallThenReturn : Prop :=
  ∀ s : State, Memory.wf s.mem →
    let back := fun (u : State) => u.regs = s.regs ∧ u.segs = s.segs ∧ u.ip = s.ip ∧
      u.flags = s.flags
    (AllRam (stackBytes s.segs.ss s.regs.sp 1) s →
      (∀ disp : Word, ∃ t u, exec (.callRel disp) s = .next t ∧ exec .ret t = .next u ∧ back u) ∧
      ∀ rm : RM, ∃ t u, exec (.callRm rm) s = .next t ∧ exec .ret t = .next u ∧ back u) ∧
    (AllRam (stackBytes s.segs.ss s.regs.sp 2) s →
      (∀ off seg : Word, ∃ t u, exec (.callFar off seg) s = .next t ∧ exec .retf t = .next u ∧
        back u) ∧
      ∀ m : Mem, ∃ t u, exec (.callFarMem m) s = .next t ∧ exec .retf t = .next u ∧ back u)

/-- JMP in its five forms (R301, R312 to R317): displacements are added, register and memory operands are
loaded; nothing but IP and CS changes. -/
def Obligations.Jumps : Prop :=
  ∀ s : State,
    let only := fun (t : State) => t.written = [] ∧ TransferOnly [] [] s t
    (∀ disp : Word, ∃ t, exec (.jmpRel16 disp) s = .next t ∧ only t ∧ t.segs.cs = s.segs.cs ∧
      t.ip.toNat = (s.ip.toNat + disp.toNat) % 65536) ∧
    (∀ disp : Byte, ∃ t, exec (.jmpRel8 disp) s = .next t ∧ Branches True disp.toInt [] s t) ∧
    (∀ rm : RM, ∃ t, exec (.jmpRm rm) s = .next t ∧ only t ∧ t.segs.cs = s.segs.cs ∧
      t.ip = s.readAt .word (place rm s)) ∧
    (∀ off seg : Word, ∃ t, exec (.jmpFar off seg) s = .next t ∧ only t ∧ t.ip = off ∧
      t.segs.cs = seg) ∧
    ∀ m : Mem, ∃ t, exec (.jmpFarMem m) s = .next t ∧ only t ∧
      t.ip.toNat = s.wordAt (s.dataSeg (defaultSeg m)) (effAddr m s) ∧
      t.segs.cs.toNat = s.wordAt (s.dataSeg (defaultSeg m)) (effAddr m s + 2#16)

/-- LOOP, LOOPZ, LOOPNZ and JCXZ: CX goes down by one and is tested after it, no flag changes; JCXZ
tests CX and leaves it (R318 to R322). LOOP leaves the registers and IP that DEC CX and JNZ leave, run from
one state one after the other, but it keeps the flags, while DEC sets ZF from CX (R136). -/
def Obligations.Loops : Prop :=
  ∀ (s : State) (disp : Byte),
    let cx := (s.regs.cx.toNat + 65535) % 65536
    (∃ t, exec (.loop disp) s = .next t ∧ t.regs.cx.toNat = cx ∧
      Branches (cx ≠ 0) disp.toInt [.cx] s t) ∧
    (∃ t, exec (.loope disp) s = .next t ∧ t.regs.cx.toNat = cx ∧
      Branches (cx ≠ 0 ∧ s.flags.zf = true) disp.toInt [.cx] s t) ∧
    (∃ t, exec (.loopne disp) s = .next t ∧ t.regs.cx.toNat = cx ∧
      Branches (cx ≠ 0 ∧ s.flags.zf = false) disp.toInt [.cx] s t) ∧
    (∃ t, exec (.jcxz disp) s = .next t ∧ Branches (s.regs.cx.toNat = 0) disp.toInt [] s t) ∧
    ∃ t u v, exec (.loop disp) s = .next t ∧ exec (.decReg .cx) s = .next u ∧
      exec (.jne disp) u = .next v ∧ t.regs = v.regs ∧ t.ip = v.ip ∧ t.written = v.written ∧
      t.flags = s.flags ∧ v.flags = u.flags ∧ (u.flags.zf = true ↔ cx = 0)

/-- The sixteen conditional jumps: each with its condition of the table, and nothing but IP changes
(R330 to R348). -/
def Obligations.ConditionalJumps : Prop :=
  ∀ (s : State) (disp : Byte),
    let f := s.flags
    let jumps := fun (i : Instr) (cond : Prop) =>
      ∃ t, exec i s = .next t ∧ Branches cond disp.toInt [] s t
    jumps (.jo disp) (f.ofl = true) ∧ jumps (.jno disp) (f.ofl = false) ∧
    jumps (.jb disp) (f.cf = true) ∧ jumps (.jae disp) (f.cf = false) ∧
    jumps (.je disp) (f.zf = true) ∧ jumps (.jne disp) (f.zf = false) ∧
    jumps (.jbe disp) (f.cf = true ∨ f.zf = true) ∧
    jumps (.ja disp) (f.cf = false ∧ f.zf = false) ∧
    jumps (.js disp) (f.sf = true) ∧ jumps (.jns disp) (f.sf = false) ∧
    jumps (.jp disp) (f.pf = true) ∧ jumps (.jnp disp) (f.pf = false) ∧
    jumps (.jl disp) (f.sf ≠ f.ofl) ∧ jumps (.jge disp) (f.sf = f.ofl) ∧
    jumps (.jle disp) (f.sf ≠ f.ofl ∨ f.zf = true) ∧
    jumps (.jg disp) (f.zf = false ∧ f.sf = f.ofl)

/-- After CMP a, b the jumps compare a and b: above and below unsigned, greater and less signed (R330,
last column). -/
def Obligations.CompareThenJump : Prop :=
  ∀ (s : State) (d : Dir) (w : Width) (reg : RegNum) (rm : RM) (disp : Byte),
    let a := s.readAt w (dstPlace d reg (place rm s))
    let b := s.readAt w (srcPlace d reg (place rm s))
    ∃ t, exec (.cmpRm d w reg rm) s = .next t ∧
      (let jumps := fun (i : Instr) (cond : Prop) =>
        ∃ u, exec i t = .next u ∧ Branches cond disp.toInt [] t u
       jumps (.ja disp) (b.toNat < a.toNat) ∧ jumps (.jae disp) (b.toNat ≤ a.toNat) ∧
       jumps (.jb disp) (a.toNat < b.toNat) ∧ jumps (.jbe disp) (a.toNat ≤ b.toNat) ∧
       jumps (.je disp) (a = b) ∧ jumps (.jne disp) (a ≠ b) ∧
       jumps (.jg disp) (b.toInt < a.toInt) ∧ jumps (.jge disp) (b.toInt ≤ a.toInt) ∧
       jumps (.jl disp) (a.toInt < b.toInt) ∧ jumps (.jle disp) (a.toInt ≤ b.toInt))

/-- The interrupt sequence, for every type and return offset (R356); INT, INT 3 and INTO run it with
their type and the next instruction's offset, and INTO does nothing where OF is clear (R323 to R326). -/
def Obligations.SoftwareInterrupts : Prop :=
  ∀ s : State, Memory.wf s.mem →
    (∀ (type : Byte) (ret : Word), Entered type ret s.flags [] s (s.interrupt type ret)) ∧
    (∀ type : Byte, ∃ t, exec (.intN type) s = .next t ∧ Entered type s.ip s.flags [] s t) ∧
    (∃ t, exec .int3 s = .next t ∧ Entered 3#8 s.ip s.flags [] s t) ∧
    (s.flags.ofl = true → ∃ t, exec .into s = .next t ∧ Entered 4#8 s.ip s.flags [] s t) ∧
    (s.flags.ofl = false → exec .into s = .next s)

/-- IRET pops IP, CS and the nine flags, SP goes up by six (R327). -/
def Obligations.Iret : Prop :=
  ∀ s : State, ∃ t, exec .iret s = .next t ∧ t.ip.toNat = s.wordAt s.segs.ss s.regs.sp ∧
    t.segs.cs.toNat = s.wordAt s.segs.ss (s.regs.sp + 2#16) ∧
    t.flags = Flags.ofWord (BitVec.ofNat 16 (s.wordAt s.segs.ss (s.regs.sp + 4#16))) ∧
    t.regs.sp.toNat = (s.regs.sp.toNat + 6) % 65536 ∧ KeepsRegs [.sp] s t ∧
    t.segs = { s.segs with cs := t.segs.cs } ∧ KeepsMemory [] s t ∧ t.written = [] ∧
    SameHidden s t

/-- An interrupt and IRET, with the stack in RAM: whatever raised it, the return leaves every register,
segment register and flag as before and IP at the pushed offset; memory differs at most in the six bytes
below the stack (R327, R356, R360; R393 for the RAM). -/
def Obligations.IretUndoesInterrupt : Prop :=
  ∀ (s : State) (type : Byte) (ret : Word), Memory.wf s.mem →
    AllRam (stackBytes s.segs.ss s.regs.sp 3) s →
    ∃ t, exec .iret (s.interrupt type ret) = .next t ∧ t.regs = s.regs ∧ t.segs = s.segs ∧
      t.flags = s.flags ∧ t.ip = ret ∧ KeepsMemory (stackBytes s.segs.ss s.regs.sp 3) s t
end

