-- ==== Sys2Proof/Laws/State.lean ====
section
/-! SUPPORT. What each named update of the state does to each of its fields, so that no proof unfolds a
record update. -/

namespace Sys2Proof.Machine

variable (s : State)

/-! ## `setReg16` -/

@[simp] theorem State.setReg16_regs (r : Reg16) (v : Word) :
    (s.setReg16 r v).regs = s.regs.set r v := rfl
@[simp] theorem State.setReg16_segs (r : Reg16) (v : Word) : (s.setReg16 r v).segs = s.segs := rfl
@[simp] theorem State.setReg16_ip (r : Reg16) (v : Word) : (s.setReg16 r v).ip = s.ip := rfl
@[simp] theorem State.setReg16_flags (r : Reg16) (v : Word) :
    (s.setReg16 r v).flags = s.flags := rfl
@[simp] theorem State.setReg16_mem (r : Reg16) (v : Word) : (s.setReg16 r v).mem = s.mem := rfl
@[simp] theorem State.setReg16_memMap (r : Reg16) (v : Word) :
    (s.setReg16 r v).memMap = s.memMap := rfl
@[simp] theorem State.setReg16_halted (r : Reg16) (v : Word) :
    (s.setReg16 r v).halted = s.halted := rfl
@[simp] theorem State.setReg16_waiting (r : Reg16) (v : Word) :
    (s.setReg16 r v).waiting = s.waiting := rfl
@[simp] theorem State.setReg16_intShadow (r : Reg16) (v : Word) :
    (s.setReg16 r v).intShadow = s.intShadow := rfl
@[simp] theorem State.setReg16_trapPending (r : Reg16) (v : Word) :
    (s.setReg16 r v).trapPending = s.trapPending := rfl
@[simp] theorem State.setReg16_nmiLatch (r : Reg16) (v : Word) :
    (s.setReg16 r v).nmiLatch = s.nmiLatch := rfl
@[simp] theorem State.setReg16_lockOutput (r : Reg16) (v : Word) :
    (s.setReg16 r v).lockOutput = s.lockOutput := rfl
@[simp] theorem State.setReg16_prefixes (r : Reg16) (v : Word) :
    (s.setReg16 r v).prefixes = s.prefixes := rfl
@[simp] theorem State.setReg16_instrStart (r : Reg16) (v : Word) :
    (s.setReg16 r v).instrStart = s.instrStart := rfl
@[simp] theorem State.setReg16_repeating (r : Reg16) (v : Word) :
    (s.setReg16 r v).repeating = s.repeating := rfl
@[simp] theorem State.setReg16_written (r : Reg16) (v : Word) :
    (s.setReg16 r v).written = s.written := rfl
@[simp] theorem State.setReg16_pins (r : Reg16) (v : Word) : (s.setReg16 r v).pins = s.pins := rfl
@[simp] theorem State.setReg16_pinSchedule (r : Reg16) (v : Word) :
    (s.setReg16 r v).pinSchedule = s.pinSchedule := rfl
@[simp] theorem State.setReg16_portScript (r : Reg16) (v : Word) :
    (s.setReg16 r v).portScript = s.portScript := rfl
@[simp] theorem State.setReg16_busEvents (r : Reg16) (v : Word) :
    (s.setReg16 r v).busEvents = s.busEvents := rfl
@[simp] theorem State.setReg16_draws (r : Reg16) (v : Word) :
    (s.setReg16 r v).draws = s.draws := rfl

/-! ## `setSeg` -/

@[simp] theorem State.setSeg_regs (r : SegReg) (v : Word) : (s.setSeg r v).regs = s.regs := rfl
@[simp] theorem State.setSeg_segs (r : SegReg) (v : Word) :
    (s.setSeg r v).segs = s.segs.set r v := rfl
@[simp] theorem State.setSeg_ip (r : SegReg) (v : Word) : (s.setSeg r v).ip = s.ip := rfl
@[simp] theorem State.setSeg_flags (r : SegReg) (v : Word) : (s.setSeg r v).flags = s.flags := rfl
@[simp] theorem State.setSeg_mem (r : SegReg) (v : Word) : (s.setSeg r v).mem = s.mem := rfl
@[simp] theorem State.setSeg_memMap (r : SegReg) (v : Word) :
    (s.setSeg r v).memMap = s.memMap := rfl
@[simp] theorem State.setSeg_halted (r : SegReg) (v : Word) :
    (s.setSeg r v).halted = s.halted := rfl
@[simp] theorem State.setSeg_waiting (r : SegReg) (v : Word) :
    (s.setSeg r v).waiting = s.waiting := rfl
@[simp] theorem State.setSeg_intShadow (r : SegReg) (v : Word) :
    (s.setSeg r v).intShadow = s.intShadow := rfl
@[simp] theorem State.setSeg_trapPending (r : SegReg) (v : Word) :
    (s.setSeg r v).trapPending = s.trapPending := rfl
@[simp] theorem State.setSeg_nmiLatch (r : SegReg) (v : Word) :
    (s.setSeg r v).nmiLatch = s.nmiLatch := rfl
@[simp] theorem State.setSeg_lockOutput (r : SegReg) (v : Word) :
    (s.setSeg r v).lockOutput = s.lockOutput := rfl
@[simp] theorem State.setSeg_prefixes (r : SegReg) (v : Word) :
    (s.setSeg r v).prefixes = s.prefixes := rfl
@[simp] theorem State.setSeg_instrStart (r : SegReg) (v : Word) :
    (s.setSeg r v).instrStart = s.instrStart := rfl
@[simp] theorem State.setSeg_repeating (r : SegReg) (v : Word) :
    (s.setSeg r v).repeating = s.repeating := rfl
@[simp] theorem State.setSeg_written (r : SegReg) (v : Word) :
    (s.setSeg r v).written = s.written := rfl
@[simp] theorem State.setSeg_pins (r : SegReg) (v : Word) : (s.setSeg r v).pins = s.pins := rfl
@[simp] theorem State.setSeg_pinSchedule (r : SegReg) (v : Word) :
    (s.setSeg r v).pinSchedule = s.pinSchedule := rfl
@[simp] theorem State.setSeg_portScript (r : SegReg) (v : Word) :
    (s.setSeg r v).portScript = s.portScript := rfl
@[simp] theorem State.setSeg_busEvents (r : SegReg) (v : Word) :
    (s.setSeg r v).busEvents = s.busEvents := rfl
@[simp] theorem State.setSeg_draws (r : SegReg) (v : Word) : (s.setSeg r v).draws = s.draws := rfl

/-! ## `setFlags` -/

@[simp] theorem State.setFlags_regs (f : Flags) : (s.setFlags f).regs = s.regs := rfl
@[simp] theorem State.setFlags_segs (f : Flags) : (s.setFlags f).segs = s.segs := rfl
@[simp] theorem State.setFlags_ip (f : Flags) : (s.setFlags f).ip = s.ip := rfl
@[simp] theorem State.setFlags_flags (f : Flags) : (s.setFlags f).flags = f := rfl
@[simp] theorem State.setFlags_mem (f : Flags) : (s.setFlags f).mem = s.mem := rfl
@[simp] theorem State.setFlags_memMap (f : Flags) : (s.setFlags f).memMap = s.memMap := rfl
@[simp] theorem State.setFlags_halted (f : Flags) : (s.setFlags f).halted = s.halted := rfl
@[simp] theorem State.setFlags_waiting (f : Flags) : (s.setFlags f).waiting = s.waiting := rfl
@[simp] theorem State.setFlags_intShadow (f : Flags) : (s.setFlags f).intShadow = s.intShadow := rfl
@[simp] theorem State.setFlags_trapPending (f : Flags) :
    (s.setFlags f).trapPending = s.trapPending := rfl
@[simp] theorem State.setFlags_nmiLatch (f : Flags) : (s.setFlags f).nmiLatch = s.nmiLatch := rfl
@[simp] theorem State.setFlags_lockOutput (f : Flags) :
    (s.setFlags f).lockOutput = s.lockOutput := rfl
@[simp] theorem State.setFlags_prefixes (f : Flags) : (s.setFlags f).prefixes = s.prefixes := rfl
@[simp] theorem State.setFlags_instrStart (f : Flags) :
    (s.setFlags f).instrStart = s.instrStart := rfl
@[simp] theorem State.setFlags_repeating (f : Flags) : (s.setFlags f).repeating = s.repeating := rfl
@[simp] theorem State.setFlags_written (f : Flags) : (s.setFlags f).written = s.written := rfl
@[simp] theorem State.setFlags_pins (f : Flags) : (s.setFlags f).pins = s.pins := rfl
@[simp] theorem State.setFlags_pinSchedule (f : Flags) :
    (s.setFlags f).pinSchedule = s.pinSchedule := rfl
@[simp] theorem State.setFlags_portScript (f : Flags) :
    (s.setFlags f).portScript = s.portScript := rfl
@[simp] theorem State.setFlags_busEvents (f : Flags) : (s.setFlags f).busEvents = s.busEvents := rfl
@[simp] theorem State.setFlags_draws (f : Flags) : (s.setFlags f).draws = s.draws := rfl

/-! ## `emit` -/

@[simp] theorem State.emit_regs (e : BusEvent) : (s.emit e).regs = s.regs := rfl
@[simp] theorem State.emit_segs (e : BusEvent) : (s.emit e).segs = s.segs := rfl
@[simp] theorem State.emit_ip (e : BusEvent) : (s.emit e).ip = s.ip := rfl
@[simp] theorem State.emit_flags (e : BusEvent) : (s.emit e).flags = s.flags := rfl
@[simp] theorem State.emit_mem (e : BusEvent) : (s.emit e).mem = s.mem := rfl
@[simp] theorem State.emit_memMap (e : BusEvent) : (s.emit e).memMap = s.memMap := rfl
@[simp] theorem State.emit_halted (e : BusEvent) : (s.emit e).halted = s.halted := rfl
@[simp] theorem State.emit_waiting (e : BusEvent) : (s.emit e).waiting = s.waiting := rfl
@[simp] theorem State.emit_intShadow (e : BusEvent) : (s.emit e).intShadow = s.intShadow := rfl
@[simp] theorem State.emit_trapPending (e : BusEvent) :
    (s.emit e).trapPending = s.trapPending := rfl
@[simp] theorem State.emit_nmiLatch (e : BusEvent) : (s.emit e).nmiLatch = s.nmiLatch := rfl
@[simp] theorem State.emit_lockOutput (e : BusEvent) : (s.emit e).lockOutput = s.lockOutput := rfl
@[simp] theorem State.emit_prefixes (e : BusEvent) : (s.emit e).prefixes = s.prefixes := rfl
@[simp] theorem State.emit_instrStart (e : BusEvent) : (s.emit e).instrStart = s.instrStart := rfl
@[simp] theorem State.emit_repeating (e : BusEvent) : (s.emit e).repeating = s.repeating := rfl
@[simp] theorem State.emit_written (e : BusEvent) : (s.emit e).written = s.written := rfl
@[simp] theorem State.emit_pins (e : BusEvent) : (s.emit e).pins = s.pins := rfl
@[simp] theorem State.emit_pinSchedule (e : BusEvent) :
    (s.emit e).pinSchedule = s.pinSchedule := rfl
@[simp] theorem State.emit_portScript (e : BusEvent) : (s.emit e).portScript = s.portScript := rfl
@[simp] theorem State.emit_busEvents (e : BusEvent) : (s.emit e).busEvents = e :: s.busEvents := rfl
@[simp] theorem State.emit_draws (e : BusEvent) : (s.emit e).draws = s.draws := rfl

/-! ## `setShadow` -/

@[simp] theorem State.setShadow_regs : (s.setShadow).regs = s.regs := rfl
@[simp] theorem State.setShadow_segs : (s.setShadow).segs = s.segs := rfl
@[simp] theorem State.setShadow_ip : (s.setShadow).ip = s.ip := rfl
@[simp] theorem State.setShadow_flags : (s.setShadow).flags = s.flags := rfl
@[simp] theorem State.setShadow_mem : (s.setShadow).mem = s.mem := rfl
@[simp] theorem State.setShadow_memMap : (s.setShadow).memMap = s.memMap := rfl
@[simp] theorem State.setShadow_halted : (s.setShadow).halted = s.halted := rfl
@[simp] theorem State.setShadow_waiting : (s.setShadow).waiting = s.waiting := rfl
@[simp] theorem State.setShadow_intShadow : (s.setShadow).intShadow = Config.intShadow := rfl
@[simp] theorem State.setShadow_trapPending : (s.setShadow).trapPending = s.trapPending := rfl
@[simp] theorem State.setShadow_nmiLatch : (s.setShadow).nmiLatch = s.nmiLatch := rfl
@[simp] theorem State.setShadow_lockOutput : (s.setShadow).lockOutput = s.lockOutput := rfl
@[simp] theorem State.setShadow_prefixes : (s.setShadow).prefixes = s.prefixes := rfl
@[simp] theorem State.setShadow_instrStart : (s.setShadow).instrStart = s.instrStart := rfl
@[simp] theorem State.setShadow_repeating : (s.setShadow).repeating = s.repeating := rfl
@[simp] theorem State.setShadow_written : (s.setShadow).written = s.written := rfl
@[simp] theorem State.setShadow_pins : (s.setShadow).pins = s.pins := rfl
@[simp] theorem State.setShadow_pinSchedule : (s.setShadow).pinSchedule = s.pinSchedule := rfl
@[simp] theorem State.setShadow_portScript : (s.setShadow).portScript = s.portScript := rfl
@[simp] theorem State.setShadow_busEvents : (s.setShadow).busEvents = s.busEvents := rfl
@[simp] theorem State.setShadow_draws : (s.setShadow).draws = s.draws := rfl

/-! ## `setPrefixes` -/

@[simp] theorem State.setPrefixes_regs (p : Prefixes) : (s.setPrefixes p).regs = s.regs := rfl
@[simp] theorem State.setPrefixes_segs (p : Prefixes) : (s.setPrefixes p).segs = s.segs := rfl
@[simp] theorem State.setPrefixes_ip (p : Prefixes) : (s.setPrefixes p).ip = s.ip := rfl
@[simp] theorem State.setPrefixes_flags (p : Prefixes) : (s.setPrefixes p).flags = s.flags := rfl
@[simp] theorem State.setPrefixes_mem (p : Prefixes) : (s.setPrefixes p).mem = s.mem := rfl
@[simp] theorem State.setPrefixes_memMap (p : Prefixes) : (s.setPrefixes p).memMap = s.memMap := rfl
@[simp] theorem State.setPrefixes_halted (p : Prefixes) : (s.setPrefixes p).halted = s.halted := rfl
@[simp] theorem State.setPrefixes_waiting (p : Prefixes) :
    (s.setPrefixes p).waiting = s.waiting := rfl
@[simp] theorem State.setPrefixes_intShadow (p : Prefixes) :
    (s.setPrefixes p).intShadow = s.intShadow := rfl
@[simp] theorem State.setPrefixes_trapPending (p : Prefixes) :
    (s.setPrefixes p).trapPending = s.trapPending := rfl
@[simp] theorem State.setPrefixes_nmiLatch (p : Prefixes) :
    (s.setPrefixes p).nmiLatch = s.nmiLatch := rfl
@[simp] theorem State.setPrefixes_lockOutput (p : Prefixes) :
    (s.setPrefixes p).lockOutput = s.lockOutput := rfl
@[simp] theorem State.setPrefixes_prefixes (p : Prefixes) : (s.setPrefixes p).prefixes = p := rfl
@[simp] theorem State.setPrefixes_instrStart (p : Prefixes) :
    (s.setPrefixes p).instrStart = s.instrStart := rfl
@[simp] theorem State.setPrefixes_repeating (p : Prefixes) :
    (s.setPrefixes p).repeating = s.repeating := rfl
@[simp] theorem State.setPrefixes_written (p : Prefixes) :
    (s.setPrefixes p).written = s.written := rfl
@[simp] theorem State.setPrefixes_pins (p : Prefixes) : (s.setPrefixes p).pins = s.pins := rfl
@[simp] theorem State.setPrefixes_pinSchedule (p : Prefixes) :
    (s.setPrefixes p).pinSchedule = s.pinSchedule := rfl
@[simp] theorem State.setPrefixes_portScript (p : Prefixes) :
    (s.setPrefixes p).portScript = s.portScript := rfl
@[simp] theorem State.setPrefixes_busEvents (p : Prefixes) :
    (s.setPrefixes p).busEvents = s.busEvents := rfl
@[simp] theorem State.setPrefixes_draws (p : Prefixes) : (s.setPrefixes p).draws = s.draws := rfl

/-! ## `nextDraw` -/

@[simp] theorem State.nextDraw_regs : (s.nextDraw).regs = s.regs := rfl
@[simp] theorem State.nextDraw_segs : (s.nextDraw).segs = s.segs := rfl
@[simp] theorem State.nextDraw_ip : (s.nextDraw).ip = s.ip := rfl
@[simp] theorem State.nextDraw_flags : (s.nextDraw).flags = s.flags := rfl
@[simp] theorem State.nextDraw_mem : (s.nextDraw).mem = s.mem := rfl
@[simp] theorem State.nextDraw_memMap : (s.nextDraw).memMap = s.memMap := rfl
@[simp] theorem State.nextDraw_halted : (s.nextDraw).halted = s.halted := rfl
@[simp] theorem State.nextDraw_waiting : (s.nextDraw).waiting = s.waiting := rfl
@[simp] theorem State.nextDraw_intShadow : (s.nextDraw).intShadow = s.intShadow := rfl
@[simp] theorem State.nextDraw_trapPending : (s.nextDraw).trapPending = s.trapPending := rfl
@[simp] theorem State.nextDraw_nmiLatch : (s.nextDraw).nmiLatch = s.nmiLatch := rfl
@[simp] theorem State.nextDraw_lockOutput : (s.nextDraw).lockOutput = s.lockOutput := rfl
@[simp] theorem State.nextDraw_prefixes : (s.nextDraw).prefixes = s.prefixes := rfl
@[simp] theorem State.nextDraw_instrStart : (s.nextDraw).instrStart = s.instrStart := rfl
@[simp] theorem State.nextDraw_repeating : (s.nextDraw).repeating = s.repeating := rfl
@[simp] theorem State.nextDraw_written : (s.nextDraw).written = s.written := rfl
@[simp] theorem State.nextDraw_pins : (s.nextDraw).pins = s.pins := rfl
@[simp] theorem State.nextDraw_pinSchedule : (s.nextDraw).pinSchedule = s.pinSchedule := rfl
@[simp] theorem State.nextDraw_portScript : (s.nextDraw).portScript = s.portScript := rfl
@[simp] theorem State.nextDraw_busEvents : (s.nextDraw).busEvents = s.busEvents := rfl
@[simp] theorem State.nextDraw_draws : (s.nextDraw).draws = s.draws + 1 := rfl

/-! ## `write8` -/

@[simp] theorem State.write8_regs (seg off : Word) (v : Byte) :
    (s.write8 seg off v).regs = s.regs := rfl
@[simp] theorem State.write8_segs (seg off : Word) (v : Byte) :
    (s.write8 seg off v).segs = s.segs := rfl
@[simp] theorem State.write8_ip (seg off : Word) (v : Byte) : (s.write8 seg off v).ip = s.ip := rfl
@[simp] theorem State.write8_flags (seg off : Word) (v : Byte) :
    (s.write8 seg off v).flags = s.flags := rfl
@[simp] theorem State.write8_mem (seg off : Word) (v : Byte) :
    (s.write8 seg off v).mem = s.memAfter (physAddr seg off).toNat v := rfl
@[simp] theorem State.write8_memMap (seg off : Word) (v : Byte) :
    (s.write8 seg off v).memMap = s.memMap := rfl
@[simp] theorem State.write8_halted (seg off : Word) (v : Byte) :
    (s.write8 seg off v).halted = s.halted := rfl
@[simp] theorem State.write8_waiting (seg off : Word) (v : Byte) :
    (s.write8 seg off v).waiting = s.waiting := rfl
@[simp] theorem State.write8_intShadow (seg off : Word) (v : Byte) :
    (s.write8 seg off v).intShadow = s.intShadow := rfl
@[simp] theorem State.write8_trapPending (seg off : Word) (v : Byte) :
    (s.write8 seg off v).trapPending = s.trapPending := rfl
@[simp] theorem State.write8_nmiLatch (seg off : Word) (v : Byte) :
    (s.write8 seg off v).nmiLatch = s.nmiLatch := rfl
@[simp] theorem State.write8_lockOutput (seg off : Word) (v : Byte) :
    (s.write8 seg off v).lockOutput = s.lockOutput := rfl
@[simp] theorem State.write8_prefixes (seg off : Word) (v : Byte) :
    (s.write8 seg off v).prefixes = s.prefixes := rfl
@[simp] theorem State.write8_instrStart (seg off : Word) (v : Byte) :
    (s.write8 seg off v).instrStart = s.instrStart := rfl
@[simp] theorem State.write8_repeating (seg off : Word) (v : Byte) :
    (s.write8 seg off v).repeating = s.repeating := rfl
@[simp] theorem State.write8_written (seg off : Word) (v : Byte) :
    (s.write8 seg off v).written = WrittenSet.insert s.written (physAddr seg off).toNat := rfl
@[simp] theorem State.write8_pins (seg off : Word) (v : Byte) :
    (s.write8 seg off v).pins = s.pins := rfl
@[simp] theorem State.write8_pinSchedule (seg off : Word) (v : Byte) :
    (s.write8 seg off v).pinSchedule = s.pinSchedule := rfl
@[simp] theorem State.write8_portScript (seg off : Word) (v : Byte) :
    (s.write8 seg off v).portScript = s.portScript := rfl
@[simp] theorem State.write8_busEvents (seg off : Word) (v : Byte) :
    (s.write8 seg off v).busEvents = s.busEvents := rfl
@[simp] theorem State.write8_draws (seg off : Word) (v : Byte) :
    (s.write8 seg off v).draws = s.draws := rfl

/-! ## `write16` -/

@[simp] theorem State.write16_regs (seg off v : Word) : (s.write16 seg off v).regs = s.regs := rfl
@[simp] theorem State.write16_segs (seg off v : Word) : (s.write16 seg off v).segs = s.segs := rfl
@[simp] theorem State.write16_ip (seg off v : Word) : (s.write16 seg off v).ip = s.ip := rfl
@[simp] theorem State.write16_flags (seg off v : Word) :
    (s.write16 seg off v).flags = s.flags := rfl
@[simp] theorem State.write16_mem (seg off v : Word) :
    (s.write16 seg off v).mem = (s.write8 seg off (loByte v)).memAfter (physAddr seg (off + 1#16)).toNat (hiByte v) := rfl
@[simp] theorem State.write16_memMap (seg off v : Word) :
    (s.write16 seg off v).memMap = s.memMap := rfl
@[simp] theorem State.write16_halted (seg off v : Word) :
    (s.write16 seg off v).halted = s.halted := rfl
@[simp] theorem State.write16_waiting (seg off v : Word) :
    (s.write16 seg off v).waiting = s.waiting := rfl
@[simp] theorem State.write16_intShadow (seg off v : Word) :
    (s.write16 seg off v).intShadow = s.intShadow := rfl
@[simp] theorem State.write16_trapPending (seg off v : Word) :
    (s.write16 seg off v).trapPending = s.trapPending := rfl
@[simp] theorem State.write16_nmiLatch (seg off v : Word) :
    (s.write16 seg off v).nmiLatch = s.nmiLatch := rfl
@[simp] theorem State.write16_lockOutput (seg off v : Word) :
    (s.write16 seg off v).lockOutput = s.lockOutput := rfl
@[simp] theorem State.write16_prefixes (seg off v : Word) :
    (s.write16 seg off v).prefixes = s.prefixes := rfl
@[simp] theorem State.write16_instrStart (seg off v : Word) :
    (s.write16 seg off v).instrStart = s.instrStart := rfl
@[simp] theorem State.write16_repeating (seg off v : Word) :
    (s.write16 seg off v).repeating = s.repeating := rfl
@[simp] theorem State.write16_written (seg off v : Word) :
    (s.write16 seg off v).written = WrittenSet.insert (WrittenSet.insert s.written (physAddr seg off).toNat)
      (physAddr seg (off + 1#16)).toNat := rfl
@[simp] theorem State.write16_pins (seg off v : Word) : (s.write16 seg off v).pins = s.pins := rfl
@[simp] theorem State.write16_pinSchedule (seg off v : Word) :
    (s.write16 seg off v).pinSchedule = s.pinSchedule := rfl
@[simp] theorem State.write16_portScript (seg off v : Word) :
    (s.write16 seg off v).portScript = s.portScript := rfl
@[simp] theorem State.write16_busEvents (seg off v : Word) :
    (s.write16 seg off v).busEvents = s.busEvents := rfl
@[simp] theorem State.write16_draws (seg off v : Word) :
    (s.write16 seg off v).draws = s.draws := rfl

/-! ## `decSp` -/

@[simp] theorem State.decSp_regs : (s.decSp).regs = s.regs.set .sp (s.regs.sp - 2#16) := rfl
@[simp] theorem State.decSp_segs : (s.decSp).segs = s.segs := rfl
@[simp] theorem State.decSp_ip : (s.decSp).ip = s.ip := rfl
@[simp] theorem State.decSp_flags : (s.decSp).flags = s.flags := rfl
@[simp] theorem State.decSp_mem : (s.decSp).mem = s.mem := rfl
@[simp] theorem State.decSp_memMap : (s.decSp).memMap = s.memMap := rfl
@[simp] theorem State.decSp_halted : (s.decSp).halted = s.halted := rfl
@[simp] theorem State.decSp_waiting : (s.decSp).waiting = s.waiting := rfl
@[simp] theorem State.decSp_intShadow : (s.decSp).intShadow = s.intShadow := rfl
@[simp] theorem State.decSp_trapPending : (s.decSp).trapPending = s.trapPending := rfl
@[simp] theorem State.decSp_nmiLatch : (s.decSp).nmiLatch = s.nmiLatch := rfl
@[simp] theorem State.decSp_lockOutput : (s.decSp).lockOutput = s.lockOutput := rfl
@[simp] theorem State.decSp_prefixes : (s.decSp).prefixes = s.prefixes := rfl
@[simp] theorem State.decSp_instrStart : (s.decSp).instrStart = s.instrStart := rfl
@[simp] theorem State.decSp_repeating : (s.decSp).repeating = s.repeating := rfl
@[simp] theorem State.decSp_written : (s.decSp).written = s.written := rfl
@[simp] theorem State.decSp_pins : (s.decSp).pins = s.pins := rfl
@[simp] theorem State.decSp_pinSchedule : (s.decSp).pinSchedule = s.pinSchedule := rfl
@[simp] theorem State.decSp_portScript : (s.decSp).portScript = s.portScript := rfl
@[simp] theorem State.decSp_busEvents : (s.decSp).busEvents = s.busEvents := rfl
@[simp] theorem State.decSp_draws : (s.decSp).draws = s.draws := rfl

/-! ## `push16` -/

@[simp] theorem State.push16_regs (v : Word) :
    (s.push16 v).regs = s.regs.set .sp (s.regs.sp - 2#16) := rfl
@[simp] theorem State.push16_segs (v : Word) : (s.push16 v).segs = s.segs := rfl
@[simp] theorem State.push16_ip (v : Word) : (s.push16 v).ip = s.ip := rfl
@[simp] theorem State.push16_flags (v : Word) : (s.push16 v).flags = s.flags := rfl
@[simp] theorem State.push16_mem (v : Word) :
    (s.push16 v).mem = (s.write16 s.segs.ss (s.regs.sp - 2#16) v).mem := rfl
@[simp] theorem State.push16_memMap (v : Word) : (s.push16 v).memMap = s.memMap := rfl
@[simp] theorem State.push16_halted (v : Word) : (s.push16 v).halted = s.halted := rfl
@[simp] theorem State.push16_waiting (v : Word) : (s.push16 v).waiting = s.waiting := rfl
@[simp] theorem State.push16_intShadow (v : Word) : (s.push16 v).intShadow = s.intShadow := rfl
@[simp] theorem State.push16_trapPending (v : Word) :
    (s.push16 v).trapPending = s.trapPending := rfl
@[simp] theorem State.push16_nmiLatch (v : Word) : (s.push16 v).nmiLatch = s.nmiLatch := rfl
@[simp] theorem State.push16_lockOutput (v : Word) : (s.push16 v).lockOutput = s.lockOutput := rfl
@[simp] theorem State.push16_prefixes (v : Word) : (s.push16 v).prefixes = s.prefixes := rfl
@[simp] theorem State.push16_instrStart (v : Word) : (s.push16 v).instrStart = s.instrStart := rfl
@[simp] theorem State.push16_repeating (v : Word) : (s.push16 v).repeating = s.repeating := rfl
@[simp] theorem State.push16_written (v : Word) :
    (s.push16 v).written = (s.write16 s.segs.ss (s.regs.sp - 2#16) v).written := rfl
@[simp] theorem State.push16_pins (v : Word) : (s.push16 v).pins = s.pins := rfl
@[simp] theorem State.push16_pinSchedule (v : Word) :
    (s.push16 v).pinSchedule = s.pinSchedule := rfl
@[simp] theorem State.push16_portScript (v : Word) : (s.push16 v).portScript = s.portScript := rfl
@[simp] theorem State.push16_busEvents (v : Word) : (s.push16 v).busEvents = s.busEvents := rfl
@[simp] theorem State.push16_draws (v : Word) : (s.push16 v).draws = s.draws := rfl

/-! ## `drop16` -/

@[simp] theorem State.drop16_regs : (s.drop16).regs = s.regs.set .sp (s.regs.sp + 2#16) := rfl
@[simp] theorem State.drop16_segs : (s.drop16).segs = s.segs := rfl
@[simp] theorem State.drop16_ip : (s.drop16).ip = s.ip := rfl
@[simp] theorem State.drop16_flags : (s.drop16).flags = s.flags := rfl
@[simp] theorem State.drop16_mem : (s.drop16).mem = s.mem := rfl
@[simp] theorem State.drop16_memMap : (s.drop16).memMap = s.memMap := rfl
@[simp] theorem State.drop16_halted : (s.drop16).halted = s.halted := rfl
@[simp] theorem State.drop16_waiting : (s.drop16).waiting = s.waiting := rfl
@[simp] theorem State.drop16_intShadow : (s.drop16).intShadow = s.intShadow := rfl
@[simp] theorem State.drop16_trapPending : (s.drop16).trapPending = s.trapPending := rfl
@[simp] theorem State.drop16_nmiLatch : (s.drop16).nmiLatch = s.nmiLatch := rfl
@[simp] theorem State.drop16_lockOutput : (s.drop16).lockOutput = s.lockOutput := rfl
@[simp] theorem State.drop16_prefixes : (s.drop16).prefixes = s.prefixes := rfl
@[simp] theorem State.drop16_instrStart : (s.drop16).instrStart = s.instrStart := rfl
@[simp] theorem State.drop16_repeating : (s.drop16).repeating = s.repeating := rfl
@[simp] theorem State.drop16_written : (s.drop16).written = s.written := rfl
@[simp] theorem State.drop16_pins : (s.drop16).pins = s.pins := rfl
@[simp] theorem State.drop16_pinSchedule : (s.drop16).pinSchedule = s.pinSchedule := rfl
@[simp] theorem State.drop16_portScript : (s.drop16).portScript = s.portScript := rfl
@[simp] theorem State.drop16_busEvents : (s.drop16).busEvents = s.busEvents := rfl
@[simp] theorem State.drop16_draws : (s.drop16).draws = s.draws := rfl

/-! ## `undefineFlags` -/

@[simp] theorem State.undefineFlags_regs (u : FlagSet) : (s.undefineFlags u).regs = s.regs := rfl
@[simp] theorem State.undefineFlags_segs (u : FlagSet) : (s.undefineFlags u).segs = s.segs := rfl
@[simp] theorem State.undefineFlags_ip (u : FlagSet) : (s.undefineFlags u).ip = s.ip := rfl
@[simp] theorem State.undefineFlags_flags (u : FlagSet) :
    (s.undefineFlags u).flags = s.flags.undefine u s.drawn := rfl
@[simp] theorem State.undefineFlags_mem (u : FlagSet) : (s.undefineFlags u).mem = s.mem := rfl
@[simp] theorem State.undefineFlags_memMap (u : FlagSet) :
    (s.undefineFlags u).memMap = s.memMap := rfl
@[simp] theorem State.undefineFlags_halted (u : FlagSet) :
    (s.undefineFlags u).halted = s.halted := rfl
@[simp] theorem State.undefineFlags_waiting (u : FlagSet) :
    (s.undefineFlags u).waiting = s.waiting := rfl
@[simp] theorem State.undefineFlags_intShadow (u : FlagSet) :
    (s.undefineFlags u).intShadow = s.intShadow := rfl
@[simp] theorem State.undefineFlags_trapPending (u : FlagSet) :
    (s.undefineFlags u).trapPending = s.trapPending := rfl
@[simp] theorem State.undefineFlags_nmiLatch (u : FlagSet) :
    (s.undefineFlags u).nmiLatch = s.nmiLatch := rfl
@[simp] theorem State.undefineFlags_lockOutput (u : FlagSet) :
    (s.undefineFlags u).lockOutput = s.lockOutput := rfl
@[simp] theorem State.undefineFlags_prefixes (u : FlagSet) :
    (s.undefineFlags u).prefixes = s.prefixes := rfl
@[simp] theorem State.undefineFlags_instrStart (u : FlagSet) :
    (s.undefineFlags u).instrStart = s.instrStart := rfl
@[simp] theorem State.undefineFlags_repeating (u : FlagSet) :
    (s.undefineFlags u).repeating = s.repeating := rfl
@[simp] theorem State.undefineFlags_written (u : FlagSet) :
    (s.undefineFlags u).written = s.written := rfl
@[simp] theorem State.undefineFlags_pins (u : FlagSet) : (s.undefineFlags u).pins = s.pins := rfl
@[simp] theorem State.undefineFlags_pinSchedule (u : FlagSet) :
    (s.undefineFlags u).pinSchedule = s.pinSchedule := rfl
@[simp] theorem State.undefineFlags_portScript (u : FlagSet) :
    (s.undefineFlags u).portScript = s.portScript := rfl
@[simp] theorem State.undefineFlags_busEvents (u : FlagSet) :
    (s.undefineFlags u).busEvents = s.busEvents := rfl
@[simp] theorem State.undefineFlags_draws (u : FlagSet) :
    (s.undefineFlags u).draws = s.draws + 1 := rfl

/-! ## `undefineReg` -/

@[simp] theorem State.undefineReg_regs (r : Reg16) :
    (s.undefineReg r).regs = s.regs.set r s.drawn := rfl
@[simp] theorem State.undefineReg_segs (r : Reg16) : (s.undefineReg r).segs = s.segs := rfl
@[simp] theorem State.undefineReg_ip (r : Reg16) : (s.undefineReg r).ip = s.ip := rfl
@[simp] theorem State.undefineReg_flags (r : Reg16) : (s.undefineReg r).flags = s.flags := rfl
@[simp] theorem State.undefineReg_mem (r : Reg16) : (s.undefineReg r).mem = s.mem := rfl
@[simp] theorem State.undefineReg_memMap (r : Reg16) : (s.undefineReg r).memMap = s.memMap := rfl
@[simp] theorem State.undefineReg_halted (r : Reg16) : (s.undefineReg r).halted = s.halted := rfl
@[simp] theorem State.undefineReg_waiting (r : Reg16) : (s.undefineReg r).waiting = s.waiting := rfl
@[simp] theorem State.undefineReg_intShadow (r : Reg16) :
    (s.undefineReg r).intShadow = s.intShadow := rfl
@[simp] theorem State.undefineReg_trapPending (r : Reg16) :
    (s.undefineReg r).trapPending = s.trapPending := rfl
@[simp] theorem State.undefineReg_nmiLatch (r : Reg16) :
    (s.undefineReg r).nmiLatch = s.nmiLatch := rfl
@[simp] theorem State.undefineReg_lockOutput (r : Reg16) :
    (s.undefineReg r).lockOutput = s.lockOutput := rfl
@[simp] theorem State.undefineReg_prefixes (r : Reg16) :
    (s.undefineReg r).prefixes = s.prefixes := rfl
@[simp] theorem State.undefineReg_instrStart (r : Reg16) :
    (s.undefineReg r).instrStart = s.instrStart := rfl
@[simp] theorem State.undefineReg_repeating (r : Reg16) :
    (s.undefineReg r).repeating = s.repeating := rfl
@[simp] theorem State.undefineReg_written (r : Reg16) : (s.undefineReg r).written = s.written := rfl
@[simp] theorem State.undefineReg_pins (r : Reg16) : (s.undefineReg r).pins = s.pins := rfl
@[simp] theorem State.undefineReg_pinSchedule (r : Reg16) :
    (s.undefineReg r).pinSchedule = s.pinSchedule := rfl
@[simp] theorem State.undefineReg_portScript (r : Reg16) :
    (s.undefineReg r).portScript = s.portScript := rfl
@[simp] theorem State.undefineReg_busEvents (r : Reg16) :
    (s.undefineReg r).busEvents = s.busEvents := rfl
@[simp] theorem State.undefineReg_draws (r : Reg16) : (s.undefineReg r).draws = s.draws + 1 := rfl

/-! ## `jump` -/

@[simp] theorem State.jump_regs (off : Word) : (s.jump off).regs = s.regs := rfl
@[simp] theorem State.jump_segs (off : Word) : (s.jump off).segs = s.segs := rfl
@[simp] theorem State.jump_ip (off : Word) : (s.jump off).ip = off := rfl
@[simp] theorem State.jump_flags (off : Word) : (s.jump off).flags = s.flags := rfl
@[simp] theorem State.jump_mem (off : Word) : (s.jump off).mem = s.mem := rfl
@[simp] theorem State.jump_memMap (off : Word) : (s.jump off).memMap = s.memMap := rfl
@[simp] theorem State.jump_halted (off : Word) : (s.jump off).halted = s.halted := rfl
@[simp] theorem State.jump_waiting (off : Word) : (s.jump off).waiting = s.waiting := rfl
@[simp] theorem State.jump_intShadow (off : Word) : (s.jump off).intShadow = s.intShadow := rfl
@[simp] theorem State.jump_trapPending (off : Word) :
    (s.jump off).trapPending = s.trapPending := rfl
@[simp] theorem State.jump_nmiLatch (off : Word) : (s.jump off).nmiLatch = s.nmiLatch := rfl
@[simp] theorem State.jump_lockOutput (off : Word) : (s.jump off).lockOutput = s.lockOutput := rfl
@[simp] theorem State.jump_prefixes (off : Word) : (s.jump off).prefixes = s.prefixes := rfl
@[simp] theorem State.jump_instrStart (off : Word) : (s.jump off).instrStart = s.instrStart := rfl
@[simp] theorem State.jump_repeating (off : Word) : (s.jump off).repeating = s.repeating := rfl
@[simp] theorem State.jump_written (off : Word) : (s.jump off).written = [] := rfl
@[simp] theorem State.jump_pins (off : Word) : (s.jump off).pins = s.pins := rfl
@[simp] theorem State.jump_pinSchedule (off : Word) :
    (s.jump off).pinSchedule = s.pinSchedule := rfl
@[simp] theorem State.jump_portScript (off : Word) : (s.jump off).portScript = s.portScript := rfl
@[simp] theorem State.jump_busEvents (off : Word) : (s.jump off).busEvents = s.busEvents := rfl
@[simp] theorem State.jump_draws (off : Word) : (s.jump off).draws = s.draws := rfl

/-! ## `jumpFar` -/

@[simp] theorem State.jumpFar_regs (seg off : Word) : (s.jumpFar seg off).regs = s.regs := rfl
@[simp] theorem State.jumpFar_segs (seg off : Word) :
    (s.jumpFar seg off).segs = s.segs.set .cs seg := rfl
@[simp] theorem State.jumpFar_ip (seg off : Word) : (s.jumpFar seg off).ip = off := rfl
@[simp] theorem State.jumpFar_flags (seg off : Word) : (s.jumpFar seg off).flags = s.flags := rfl
@[simp] theorem State.jumpFar_mem (seg off : Word) : (s.jumpFar seg off).mem = s.mem := rfl
@[simp] theorem State.jumpFar_memMap (seg off : Word) : (s.jumpFar seg off).memMap = s.memMap := rfl
@[simp] theorem State.jumpFar_halted (seg off : Word) : (s.jumpFar seg off).halted = s.halted := rfl
@[simp] theorem State.jumpFar_waiting (seg off : Word) :
    (s.jumpFar seg off).waiting = s.waiting := rfl
@[simp] theorem State.jumpFar_intShadow (seg off : Word) :
    (s.jumpFar seg off).intShadow = s.intShadow := rfl
@[simp] theorem State.jumpFar_trapPending (seg off : Word) :
    (s.jumpFar seg off).trapPending = s.trapPending := rfl
@[simp] theorem State.jumpFar_nmiLatch (seg off : Word) :
    (s.jumpFar seg off).nmiLatch = s.nmiLatch := rfl
@[simp] theorem State.jumpFar_lockOutput (seg off : Word) :
    (s.jumpFar seg off).lockOutput = s.lockOutput := rfl
@[simp] theorem State.jumpFar_prefixes (seg off : Word) :
    (s.jumpFar seg off).prefixes = s.prefixes := rfl
@[simp] theorem State.jumpFar_instrStart (seg off : Word) :
    (s.jumpFar seg off).instrStart = s.instrStart := rfl
@[simp] theorem State.jumpFar_repeating (seg off : Word) :
    (s.jumpFar seg off).repeating = s.repeating := rfl
@[simp] theorem State.jumpFar_written (seg off : Word) : (s.jumpFar seg off).written = [] := rfl
@[simp] theorem State.jumpFar_pins (seg off : Word) : (s.jumpFar seg off).pins = s.pins := rfl
@[simp] theorem State.jumpFar_pinSchedule (seg off : Word) :
    (s.jumpFar seg off).pinSchedule = s.pinSchedule := rfl
@[simp] theorem State.jumpFar_portScript (seg off : Word) :
    (s.jumpFar seg off).portScript = s.portScript := rfl
@[simp] theorem State.jumpFar_busEvents (seg off : Word) :
    (s.jumpFar seg off).busEvents = s.busEvents := rfl
@[simp] theorem State.jumpFar_draws (seg off : Word) : (s.jumpFar seg off).draws = s.draws := rfl

/-! ## `jumpRel` -/

@[simp] theorem State.jumpRel_regs (disp : Word) : (s.jumpRel disp).regs = s.regs := rfl
@[simp] theorem State.jumpRel_segs (disp : Word) : (s.jumpRel disp).segs = s.segs := rfl
@[simp] theorem State.jumpRel_ip (disp : Word) : (s.jumpRel disp).ip = s.ip + disp := rfl
@[simp] theorem State.jumpRel_flags (disp : Word) : (s.jumpRel disp).flags = s.flags := rfl
@[simp] theorem State.jumpRel_mem (disp : Word) : (s.jumpRel disp).mem = s.mem := rfl
@[simp] theorem State.jumpRel_memMap (disp : Word) : (s.jumpRel disp).memMap = s.memMap := rfl
@[simp] theorem State.jumpRel_halted (disp : Word) : (s.jumpRel disp).halted = s.halted := rfl
@[simp] theorem State.jumpRel_waiting (disp : Word) : (s.jumpRel disp).waiting = s.waiting := rfl
@[simp] theorem State.jumpRel_intShadow (disp : Word) :
    (s.jumpRel disp).intShadow = s.intShadow := rfl
@[simp] theorem State.jumpRel_trapPending (disp : Word) :
    (s.jumpRel disp).trapPending = s.trapPending := rfl
@[simp] theorem State.jumpRel_nmiLatch (disp : Word) : (s.jumpRel disp).nmiLatch = s.nmiLatch := rfl
@[simp] theorem State.jumpRel_lockOutput (disp : Word) :
    (s.jumpRel disp).lockOutput = s.lockOutput := rfl
@[simp] theorem State.jumpRel_prefixes (disp : Word) : (s.jumpRel disp).prefixes = s.prefixes := rfl
@[simp] theorem State.jumpRel_instrStart (disp : Word) :
    (s.jumpRel disp).instrStart = s.instrStart := rfl
@[simp] theorem State.jumpRel_repeating (disp : Word) :
    (s.jumpRel disp).repeating = s.repeating := rfl
@[simp] theorem State.jumpRel_written (disp : Word) : (s.jumpRel disp).written = [] := rfl
@[simp] theorem State.jumpRel_pins (disp : Word) : (s.jumpRel disp).pins = s.pins := rfl
@[simp] theorem State.jumpRel_pinSchedule (disp : Word) :
    (s.jumpRel disp).pinSchedule = s.pinSchedule := rfl
@[simp] theorem State.jumpRel_portScript (disp : Word) :
    (s.jumpRel disp).portScript = s.portScript := rfl
@[simp] theorem State.jumpRel_busEvents (disp : Word) :
    (s.jumpRel disp).busEvents = s.busEvents := rfl
@[simp] theorem State.jumpRel_draws (disp : Word) : (s.jumpRel disp).draws = s.draws := rfl

/-! ## `maskInterrupts` -/

@[simp] theorem State.maskInterrupts_regs : (s.maskInterrupts).regs = s.regs := rfl
@[simp] theorem State.maskInterrupts_segs : (s.maskInterrupts).segs = s.segs := rfl
@[simp] theorem State.maskInterrupts_ip : (s.maskInterrupts).ip = s.ip := rfl
@[simp] theorem State.maskInterrupts_flags :
    (s.maskInterrupts).flags = { s.flags with ifl := false, tf := false } := rfl
@[simp] theorem State.maskInterrupts_mem : (s.maskInterrupts).mem = s.mem := rfl
@[simp] theorem State.maskInterrupts_memMap : (s.maskInterrupts).memMap = s.memMap := rfl
@[simp] theorem State.maskInterrupts_halted : (s.maskInterrupts).halted = s.halted := rfl
@[simp] theorem State.maskInterrupts_waiting : (s.maskInterrupts).waiting = s.waiting := rfl
@[simp] theorem State.maskInterrupts_intShadow : (s.maskInterrupts).intShadow = s.intShadow := rfl
@[simp] theorem State.maskInterrupts_trapPending :
    (s.maskInterrupts).trapPending = s.trapPending := rfl
@[simp] theorem State.maskInterrupts_nmiLatch : (s.maskInterrupts).nmiLatch = s.nmiLatch := rfl
@[simp] theorem State.maskInterrupts_lockOutput :
    (s.maskInterrupts).lockOutput = s.lockOutput := rfl
@[simp] theorem State.maskInterrupts_prefixes : (s.maskInterrupts).prefixes = s.prefixes := rfl
@[simp] theorem State.maskInterrupts_instrStart :
    (s.maskInterrupts).instrStart = s.instrStart := rfl
@[simp] theorem State.maskInterrupts_repeating : (s.maskInterrupts).repeating = s.repeating := rfl
@[simp] theorem State.maskInterrupts_written : (s.maskInterrupts).written = s.written := rfl
@[simp] theorem State.maskInterrupts_pins : (s.maskInterrupts).pins = s.pins := rfl
@[simp] theorem State.maskInterrupts_pinSchedule :
    (s.maskInterrupts).pinSchedule = s.pinSchedule := rfl
@[simp] theorem State.maskInterrupts_portScript :
    (s.maskInterrupts).portScript = s.portScript := rfl
@[simp] theorem State.maskInterrupts_busEvents : (s.maskInterrupts).busEvents = s.busEvents := rfl
@[simp] theorem State.maskInterrupts_draws : (s.maskInterrupts).draws = s.draws := rfl

/-! ## `takeNmi` -/

@[simp] theorem State.takeNmi_regs : (s.takeNmi).regs = s.regs := rfl
@[simp] theorem State.takeNmi_segs : (s.takeNmi).segs = s.segs := rfl
@[simp] theorem State.takeNmi_ip : (s.takeNmi).ip = s.ip := rfl
@[simp] theorem State.takeNmi_flags : (s.takeNmi).flags = s.flags := rfl
@[simp] theorem State.takeNmi_mem : (s.takeNmi).mem = s.mem := rfl
@[simp] theorem State.takeNmi_memMap : (s.takeNmi).memMap = s.memMap := rfl
@[simp] theorem State.takeNmi_halted : (s.takeNmi).halted = s.halted := rfl
@[simp] theorem State.takeNmi_waiting : (s.takeNmi).waiting = s.waiting := rfl
@[simp] theorem State.takeNmi_intShadow : (s.takeNmi).intShadow = s.intShadow := rfl
@[simp] theorem State.takeNmi_trapPending : (s.takeNmi).trapPending = s.trapPending := rfl
@[simp] theorem State.takeNmi_nmiLatch : (s.takeNmi).nmiLatch = false := rfl
@[simp] theorem State.takeNmi_lockOutput : (s.takeNmi).lockOutput = s.lockOutput := rfl
@[simp] theorem State.takeNmi_prefixes : (s.takeNmi).prefixes = s.prefixes := rfl
@[simp] theorem State.takeNmi_instrStart : (s.takeNmi).instrStart = s.instrStart := rfl
@[simp] theorem State.takeNmi_repeating : (s.takeNmi).repeating = s.repeating := rfl
@[simp] theorem State.takeNmi_written : (s.takeNmi).written = s.written := rfl
@[simp] theorem State.takeNmi_pins : (s.takeNmi).pins = s.pins := rfl
@[simp] theorem State.takeNmi_pinSchedule : (s.takeNmi).pinSchedule = s.pinSchedule := rfl
@[simp] theorem State.takeNmi_portScript : (s.takeNmi).portScript = s.portScript := rfl
@[simp] theorem State.takeNmi_busEvents : (s.takeNmi).busEvents = s.busEvents := rfl
@[simp] theorem State.takeNmi_draws : (s.takeNmi).draws = s.draws := rfl

/-! ## `takeTrap` -/

@[simp] theorem State.takeTrap_regs : (s.takeTrap).regs = s.regs := rfl
@[simp] theorem State.takeTrap_segs : (s.takeTrap).segs = s.segs := rfl
@[simp] theorem State.takeTrap_ip : (s.takeTrap).ip = s.ip := rfl
@[simp] theorem State.takeTrap_flags : (s.takeTrap).flags = s.flags := rfl
@[simp] theorem State.takeTrap_mem : (s.takeTrap).mem = s.mem := rfl
@[simp] theorem State.takeTrap_memMap : (s.takeTrap).memMap = s.memMap := rfl
@[simp] theorem State.takeTrap_halted : (s.takeTrap).halted = s.halted := rfl
@[simp] theorem State.takeTrap_waiting : (s.takeTrap).waiting = s.waiting := rfl
@[simp] theorem State.takeTrap_intShadow : (s.takeTrap).intShadow = s.intShadow := rfl
@[simp] theorem State.takeTrap_trapPending : (s.takeTrap).trapPending = false := rfl
@[simp] theorem State.takeTrap_nmiLatch : (s.takeTrap).nmiLatch = s.nmiLatch := rfl
@[simp] theorem State.takeTrap_lockOutput : (s.takeTrap).lockOutput = s.lockOutput := rfl
@[simp] theorem State.takeTrap_prefixes : (s.takeTrap).prefixes = s.prefixes := rfl
@[simp] theorem State.takeTrap_instrStart : (s.takeTrap).instrStart = s.instrStart := rfl
@[simp] theorem State.takeTrap_repeating : (s.takeTrap).repeating = s.repeating := rfl
@[simp] theorem State.takeTrap_written : (s.takeTrap).written = s.written := rfl
@[simp] theorem State.takeTrap_pins : (s.takeTrap).pins = s.pins := rfl
@[simp] theorem State.takeTrap_pinSchedule : (s.takeTrap).pinSchedule = s.pinSchedule := rfl
@[simp] theorem State.takeTrap_portScript : (s.takeTrap).portScript = s.portScript := rfl
@[simp] theorem State.takeTrap_busEvents : (s.takeTrap).busEvents = s.busEvents := rfl
@[simp] theorem State.takeTrap_draws : (s.takeTrap).draws = s.draws := rfl

/-! ## `dropRepeat` -/

@[simp] theorem State.dropRepeat_regs : (s.dropRepeat).regs = s.regs := rfl
@[simp] theorem State.dropRepeat_segs : (s.dropRepeat).segs = s.segs := rfl
@[simp] theorem State.dropRepeat_ip : (s.dropRepeat).ip = s.ip := rfl
@[simp] theorem State.dropRepeat_flags : (s.dropRepeat).flags = s.flags := rfl
@[simp] theorem State.dropRepeat_mem : (s.dropRepeat).mem = s.mem := rfl
@[simp] theorem State.dropRepeat_memMap : (s.dropRepeat).memMap = s.memMap := rfl
@[simp] theorem State.dropRepeat_halted : (s.dropRepeat).halted = s.halted := rfl
@[simp] theorem State.dropRepeat_waiting : (s.dropRepeat).waiting = s.waiting := rfl
@[simp] theorem State.dropRepeat_intShadow : (s.dropRepeat).intShadow = s.intShadow := rfl
@[simp] theorem State.dropRepeat_trapPending : (s.dropRepeat).trapPending = s.trapPending := rfl
@[simp] theorem State.dropRepeat_nmiLatch : (s.dropRepeat).nmiLatch = s.nmiLatch := rfl
@[simp] theorem State.dropRepeat_lockOutput : (s.dropRepeat).lockOutput = false := rfl
@[simp] theorem State.dropRepeat_prefixes : (s.dropRepeat).prefixes = s.prefixes := rfl
@[simp] theorem State.dropRepeat_instrStart : (s.dropRepeat).instrStart = s.instrStart := rfl
@[simp] theorem State.dropRepeat_repeating : (s.dropRepeat).repeating = none := rfl
@[simp] theorem State.dropRepeat_written : (s.dropRepeat).written = s.written := rfl
@[simp] theorem State.dropRepeat_pins : (s.dropRepeat).pins = s.pins := rfl
@[simp] theorem State.dropRepeat_pinSchedule : (s.dropRepeat).pinSchedule = s.pinSchedule := rfl
@[simp] theorem State.dropRepeat_portScript : (s.dropRepeat).portScript = s.portScript := rfl
@[simp] theorem State.dropRepeat_busEvents : (s.dropRepeat).busEvents = s.busEvents := rfl
@[simp] theorem State.dropRepeat_draws : (s.dropRepeat).draws = s.draws := rfl

/-! ## `clearShadow` -/

@[simp] theorem State.clearShadow_regs : (s.clearShadow).regs = s.regs := rfl
@[simp] theorem State.clearShadow_segs : (s.clearShadow).segs = s.segs := rfl
@[simp] theorem State.clearShadow_ip : (s.clearShadow).ip = s.ip := rfl
@[simp] theorem State.clearShadow_flags : (s.clearShadow).flags = s.flags := rfl
@[simp] theorem State.clearShadow_mem : (s.clearShadow).mem = s.mem := rfl
@[simp] theorem State.clearShadow_memMap : (s.clearShadow).memMap = s.memMap := rfl
@[simp] theorem State.clearShadow_halted : (s.clearShadow).halted = s.halted := rfl
@[simp] theorem State.clearShadow_waiting : (s.clearShadow).waiting = s.waiting := rfl
@[simp] theorem State.clearShadow_intShadow : (s.clearShadow).intShadow = false := rfl
@[simp] theorem State.clearShadow_trapPending : (s.clearShadow).trapPending = s.trapPending := rfl
@[simp] theorem State.clearShadow_nmiLatch : (s.clearShadow).nmiLatch = s.nmiLatch := rfl
@[simp] theorem State.clearShadow_lockOutput : (s.clearShadow).lockOutput = s.lockOutput := rfl
@[simp] theorem State.clearShadow_prefixes : (s.clearShadow).prefixes = s.prefixes := rfl
@[simp] theorem State.clearShadow_instrStart : (s.clearShadow).instrStart = s.instrStart := rfl
@[simp] theorem State.clearShadow_repeating : (s.clearShadow).repeating = s.repeating := rfl
@[simp] theorem State.clearShadow_written : (s.clearShadow).written = s.written := rfl
@[simp] theorem State.clearShadow_pins : (s.clearShadow).pins = s.pins := rfl
@[simp] theorem State.clearShadow_pinSchedule : (s.clearShadow).pinSchedule = s.pinSchedule := rfl
@[simp] theorem State.clearShadow_portScript : (s.clearShadow).portScript = s.portScript := rfl
@[simp] theorem State.clearShadow_busEvents : (s.clearShadow).busEvents = s.busEvents := rfl
@[simp] theorem State.clearShadow_draws : (s.clearShadow).draws = s.draws := rfl

/-! ## `begin` -/

@[simp] theorem State.begin_regs (n : Nat) : (s.begin n).regs = s.regs := rfl
@[simp] theorem State.begin_segs (n : Nat) : (s.begin n).segs = s.segs := rfl
@[simp] theorem State.begin_ip (n : Nat) : (s.begin n).ip = s.ip + BitVec.ofNat 16 n := rfl
@[simp] theorem State.begin_flags (n : Nat) : (s.begin n).flags = s.flags := rfl
@[simp] theorem State.begin_mem (n : Nat) : (s.begin n).mem = s.mem := rfl
@[simp] theorem State.begin_memMap (n : Nat) : (s.begin n).memMap = s.memMap := rfl
@[simp] theorem State.begin_halted (n : Nat) : (s.begin n).halted = s.halted := rfl
@[simp] theorem State.begin_waiting (n : Nat) : (s.begin n).waiting = s.waiting := rfl
@[simp] theorem State.begin_intShadow (n : Nat) : (s.begin n).intShadow = s.intShadow := rfl
@[simp] theorem State.begin_trapPending (n : Nat) : (s.begin n).trapPending = s.trapPending := rfl
@[simp] theorem State.begin_nmiLatch (n : Nat) : (s.begin n).nmiLatch = s.nmiLatch := rfl
@[simp] theorem State.begin_lockOutput (n : Nat) : (s.begin n).lockOutput = s.lockOutput := rfl
@[simp] theorem State.begin_prefixes (n : Nat) : (s.begin n).prefixes = s.prefixes := rfl
@[simp] theorem State.begin_instrStart (n : Nat) : (s.begin n).instrStart = s.ip := rfl
@[simp] theorem State.begin_repeating (n : Nat) : (s.begin n).repeating = s.repeating := rfl
@[simp] theorem State.begin_written (n : Nat) : (s.begin n).written = s.written := rfl
@[simp] theorem State.begin_pins (n : Nat) : (s.begin n).pins = s.pins := rfl
@[simp] theorem State.begin_pinSchedule (n : Nat) : (s.begin n).pinSchedule = s.pinSchedule := rfl
@[simp] theorem State.begin_portScript (n : Nat) : (s.begin n).portScript = s.portScript := rfl
@[simp] theorem State.begin_busEvents (n : Nat) : (s.begin n).busEvents = s.busEvents := rfl
@[simp] theorem State.begin_draws (n : Nat) : (s.begin n).draws = s.draws + 1 := rfl

/-! ## `resume` -/

@[simp] theorem State.resume_regs (r : Repeating) : (s.resume r).regs = s.regs := rfl
@[simp] theorem State.resume_segs (r : Repeating) : (s.resume r).segs = s.segs := rfl
@[simp] theorem State.resume_ip (r : Repeating) : (s.resume r).ip = r.next := rfl
@[simp] theorem State.resume_flags (r : Repeating) : (s.resume r).flags = s.flags := rfl
@[simp] theorem State.resume_mem (r : Repeating) : (s.resume r).mem = s.mem := rfl
@[simp] theorem State.resume_memMap (r : Repeating) : (s.resume r).memMap = s.memMap := rfl
@[simp] theorem State.resume_halted (r : Repeating) : (s.resume r).halted = s.halted := rfl
@[simp] theorem State.resume_waiting (r : Repeating) : (s.resume r).waiting = s.waiting := rfl
@[simp] theorem State.resume_intShadow (r : Repeating) : (s.resume r).intShadow = s.intShadow := rfl
@[simp] theorem State.resume_trapPending (r : Repeating) :
    (s.resume r).trapPending = s.trapPending := rfl
@[simp] theorem State.resume_nmiLatch (r : Repeating) : (s.resume r).nmiLatch = s.nmiLatch := rfl
@[simp] theorem State.resume_lockOutput (r : Repeating) :
    (s.resume r).lockOutput = r.prefixes.lock := rfl
@[simp] theorem State.resume_prefixes (r : Repeating) : (s.resume r).prefixes = r.prefixes := rfl
@[simp] theorem State.resume_instrStart (r : Repeating) : (s.resume r).instrStart = s.ip := rfl
@[simp] theorem State.resume_repeating (r : Repeating) : (s.resume r).repeating = none := rfl
@[simp] theorem State.resume_written (r : Repeating) : (s.resume r).written = s.written := rfl
@[simp] theorem State.resume_pins (r : Repeating) : (s.resume r).pins = s.pins := rfl
@[simp] theorem State.resume_pinSchedule (r : Repeating) :
    (s.resume r).pinSchedule = s.pinSchedule := rfl
@[simp] theorem State.resume_portScript (r : Repeating) :
    (s.resume r).portScript = s.portScript := rfl
@[simp] theorem State.resume_busEvents (r : Repeating) : (s.resume r).busEvents = s.busEvents := rfl
@[simp] theorem State.resume_draws (r : Repeating) : (s.resume r).draws = s.draws + 1 := rfl

/-! ## `complete` -/

@[simp] theorem State.complete_regs (tf : Bool) : (s.complete tf).regs = s.regs := rfl
@[simp] theorem State.complete_segs (tf : Bool) : (s.complete tf).segs = s.segs := rfl
@[simp] theorem State.complete_ip (tf : Bool) : (s.complete tf).ip = s.ip := rfl
@[simp] theorem State.complete_flags (tf : Bool) : (s.complete tf).flags = s.flags := rfl
@[simp] theorem State.complete_mem (tf : Bool) : (s.complete tf).mem = s.mem := rfl
@[simp] theorem State.complete_memMap (tf : Bool) : (s.complete tf).memMap = s.memMap := rfl
@[simp] theorem State.complete_halted (tf : Bool) : (s.complete tf).halted = s.halted := rfl
@[simp] theorem State.complete_waiting (tf : Bool) : (s.complete tf).waiting = s.waiting := rfl
@[simp] theorem State.complete_intShadow (tf : Bool) :
    (s.complete tf).intShadow = s.intShadow := rfl
@[simp] theorem State.complete_trapPending (tf : Bool) :
    (s.complete tf).trapPending = (s.trapPending || (tf && !s.waiting)) := rfl
@[simp] theorem State.complete_nmiLatch (tf : Bool) : (s.complete tf).nmiLatch = s.nmiLatch := rfl
@[simp] theorem State.complete_lockOutput (tf : Bool) :
    (s.complete tf).lockOutput = s.repeating.any (fun r => r.prefixes.lock) := rfl
@[simp] theorem State.complete_prefixes (tf : Bool) :
    (s.complete tf).prefixes = Prefixes.none := rfl
@[simp] theorem State.complete_instrStart (tf : Bool) :
    (s.complete tf).instrStart = s.instrStart := rfl
@[simp] theorem State.complete_repeating (tf : Bool) :
    (s.complete tf).repeating = s.repeating := rfl
@[simp] theorem State.complete_written (tf : Bool) : (s.complete tf).written = s.written := rfl
@[simp] theorem State.complete_pins (tf : Bool) : (s.complete tf).pins = s.pins := rfl
@[simp] theorem State.complete_pinSchedule (tf : Bool) :
    (s.complete tf).pinSchedule = s.pinSchedule := rfl
@[simp] theorem State.complete_portScript (tf : Bool) :
    (s.complete tf).portScript = s.portScript := rfl
@[simp] theorem State.complete_busEvents (tf : Bool) :
    (s.complete tf).busEvents = s.busEvents := rfl
@[simp] theorem State.complete_draws (tf : Bool) : (s.complete tf).draws = s.draws := rfl

/-! ## `endWait` -/

@[simp] theorem State.endWait_regs : (s.endWait).regs = s.regs := rfl
@[simp] theorem State.endWait_segs : (s.endWait).segs = s.segs := rfl
@[simp] theorem State.endWait_ip : (s.endWait).ip = s.ip := rfl
@[simp] theorem State.endWait_flags : (s.endWait).flags = s.flags := rfl
@[simp] theorem State.endWait_mem : (s.endWait).mem = s.mem := rfl
@[simp] theorem State.endWait_memMap : (s.endWait).memMap = s.memMap := rfl
@[simp] theorem State.endWait_halted : (s.endWait).halted = s.halted := rfl
@[simp] theorem State.endWait_waiting : (s.endWait).waiting = false := rfl
@[simp] theorem State.endWait_intShadow : (s.endWait).intShadow = false := rfl
@[simp] theorem State.endWait_trapPending :
    (s.endWait).trapPending = (s.trapPending || (s.flags.tf && !false)) := rfl
@[simp] theorem State.endWait_nmiLatch : (s.endWait).nmiLatch = s.nmiLatch := rfl
@[simp] theorem State.endWait_lockOutput :
    (s.endWait).lockOutput = s.repeating.any (fun r => r.prefixes.lock) := rfl
@[simp] theorem State.endWait_prefixes : (s.endWait).prefixes = Prefixes.none := rfl
@[simp] theorem State.endWait_instrStart : (s.endWait).instrStart = s.instrStart := rfl
@[simp] theorem State.endWait_repeating : (s.endWait).repeating = s.repeating := rfl
@[simp] theorem State.endWait_written : (s.endWait).written = s.written := rfl
@[simp] theorem State.endWait_pins : (s.endWait).pins = s.pins := rfl
@[simp] theorem State.endWait_pinSchedule : (s.endWait).pinSchedule = s.pinSchedule := rfl
@[simp] theorem State.endWait_portScript : (s.endWait).portScript = s.portScript := rfl
@[simp] theorem State.endWait_busEvents : (s.endWait).busEvents = s.busEvents := rfl
@[simp] theorem State.endWait_draws : (s.endWait).draws = s.draws := rfl

/-! ## `writeReg` -/

@[simp] theorem State.writeReg_segs (w : Width) (i : RegNum) (v : BitVec w.bits) :
    (s.writeReg w i v).segs = s.segs := by cases w <;> rfl
@[simp] theorem State.writeReg_ip (w : Width) (i : RegNum) (v : BitVec w.bits) :
    (s.writeReg w i v).ip = s.ip := by cases w <;> rfl
@[simp] theorem State.writeReg_flags (w : Width) (i : RegNum) (v : BitVec w.bits) :
    (s.writeReg w i v).flags = s.flags := by cases w <;> rfl
@[simp] theorem State.writeReg_mem (w : Width) (i : RegNum) (v : BitVec w.bits) :
    (s.writeReg w i v).mem = s.mem := by cases w <;> rfl
@[simp] theorem State.writeReg_memMap (w : Width) (i : RegNum) (v : BitVec w.bits) :
    (s.writeReg w i v).memMap = s.memMap := by cases w <;> rfl
@[simp] theorem State.writeReg_halted (w : Width) (i : RegNum) (v : BitVec w.bits) :
    (s.writeReg w i v).halted = s.halted := by cases w <;> rfl
@[simp] theorem State.writeReg_waiting (w : Width) (i : RegNum) (v : BitVec w.bits) :
    (s.writeReg w i v).waiting = s.waiting := by cases w <;> rfl
@[simp] theorem State.writeReg_intShadow (w : Width) (i : RegNum) (v : BitVec w.bits) :
    (s.writeReg w i v).intShadow = s.intShadow := by cases w <;> rfl
@[simp] theorem State.writeReg_trapPending (w : Width) (i : RegNum) (v : BitVec w.bits) :
    (s.writeReg w i v).trapPending = s.trapPending := by cases w <;> rfl
@[simp] theorem State.writeReg_nmiLatch (w : Width) (i : RegNum) (v : BitVec w.bits) :
    (s.writeReg w i v).nmiLatch = s.nmiLatch := by cases w <;> rfl
@[simp] theorem State.writeReg_lockOutput (w : Width) (i : RegNum) (v : BitVec w.bits) :
    (s.writeReg w i v).lockOutput = s.lockOutput := by cases w <;> rfl
@[simp] theorem State.writeReg_prefixes (w : Width) (i : RegNum) (v : BitVec w.bits) :
    (s.writeReg w i v).prefixes = s.prefixes := by cases w <;> rfl
@[simp] theorem State.writeReg_instrStart (w : Width) (i : RegNum) (v : BitVec w.bits) :
    (s.writeReg w i v).instrStart = s.instrStart := by cases w <;> rfl
@[simp] theorem State.writeReg_repeating (w : Width) (i : RegNum) (v : BitVec w.bits) :
    (s.writeReg w i v).repeating = s.repeating := by cases w <;> rfl
@[simp] theorem State.writeReg_written (w : Width) (i : RegNum) (v : BitVec w.bits) :
    (s.writeReg w i v).written = s.written := by cases w <;> rfl
@[simp] theorem State.writeReg_pins (w : Width) (i : RegNum) (v : BitVec w.bits) :
    (s.writeReg w i v).pins = s.pins := by cases w <;> rfl
@[simp] theorem State.writeReg_pinSchedule (w : Width) (i : RegNum) (v : BitVec w.bits) :
    (s.writeReg w i v).pinSchedule = s.pinSchedule := by cases w <;> rfl
@[simp] theorem State.writeReg_portScript (w : Width) (i : RegNum) (v : BitVec w.bits) :
    (s.writeReg w i v).portScript = s.portScript := by cases w <;> rfl
@[simp] theorem State.writeReg_busEvents (w : Width) (i : RegNum) (v : BitVec w.bits) :
    (s.writeReg w i v).busEvents = s.busEvents := by cases w <;> rfl
@[simp] theorem State.writeReg_draws (w : Width) (i : RegNum) (v : BitVec w.bits) :
    (s.writeReg w i v).draws = s.draws := by cases w <;> rfl

/-! ## `writeMem` -/

@[simp] theorem State.writeMem_regs (w : Width) (seg off : Word) (v : BitVec w.bits) :
    (s.writeMem w seg off v).regs = s.regs := by cases w <;> rfl
@[simp] theorem State.writeMem_segs (w : Width) (seg off : Word) (v : BitVec w.bits) :
    (s.writeMem w seg off v).segs = s.segs := by cases w <;> rfl
@[simp] theorem State.writeMem_ip (w : Width) (seg off : Word) (v : BitVec w.bits) :
    (s.writeMem w seg off v).ip = s.ip := by cases w <;> rfl
@[simp] theorem State.writeMem_flags (w : Width) (seg off : Word) (v : BitVec w.bits) :
    (s.writeMem w seg off v).flags = s.flags := by cases w <;> rfl
@[simp] theorem State.writeMem_memMap (w : Width) (seg off : Word) (v : BitVec w.bits) :
    (s.writeMem w seg off v).memMap = s.memMap := by cases w <;> rfl
@[simp] theorem State.writeMem_halted (w : Width) (seg off : Word) (v : BitVec w.bits) :
    (s.writeMem w seg off v).halted = s.halted := by cases w <;> rfl
@[simp] theorem State.writeMem_waiting (w : Width) (seg off : Word) (v : BitVec w.bits) :
    (s.writeMem w seg off v).waiting = s.waiting := by cases w <;> rfl
@[simp] theorem State.writeMem_intShadow (w : Width) (seg off : Word) (v : BitVec w.bits) :
    (s.writeMem w seg off v).intShadow = s.intShadow := by cases w <;> rfl
@[simp] theorem State.writeMem_trapPending (w : Width) (seg off : Word) (v : BitVec w.bits) :
    (s.writeMem w seg off v).trapPending = s.trapPending := by cases w <;> rfl
@[simp] theorem State.writeMem_nmiLatch (w : Width) (seg off : Word) (v : BitVec w.bits) :
    (s.writeMem w seg off v).nmiLatch = s.nmiLatch := by cases w <;> rfl
@[simp] theorem State.writeMem_lockOutput (w : Width) (seg off : Word) (v : BitVec w.bits) :
    (s.writeMem w seg off v).lockOutput = s.lockOutput := by cases w <;> rfl
@[simp] theorem State.writeMem_prefixes (w : Width) (seg off : Word) (v : BitVec w.bits) :
    (s.writeMem w seg off v).prefixes = s.prefixes := by cases w <;> rfl
@[simp] theorem State.writeMem_instrStart (w : Width) (seg off : Word) (v : BitVec w.bits) :
    (s.writeMem w seg off v).instrStart = s.instrStart := by cases w <;> rfl
@[simp] theorem State.writeMem_repeating (w : Width) (seg off : Word) (v : BitVec w.bits) :
    (s.writeMem w seg off v).repeating = s.repeating := by cases w <;> rfl
@[simp] theorem State.writeMem_pins (w : Width) (seg off : Word) (v : BitVec w.bits) :
    (s.writeMem w seg off v).pins = s.pins := by cases w <;> rfl
@[simp] theorem State.writeMem_pinSchedule (w : Width) (seg off : Word) (v : BitVec w.bits) :
    (s.writeMem w seg off v).pinSchedule = s.pinSchedule := by cases w <;> rfl
@[simp] theorem State.writeMem_portScript (w : Width) (seg off : Word) (v : BitVec w.bits) :
    (s.writeMem w seg off v).portScript = s.portScript := by cases w <;> rfl
@[simp] theorem State.writeMem_busEvents (w : Width) (seg off : Word) (v : BitVec w.bits) :
    (s.writeMem w seg off v).busEvents = s.busEvents := by cases w <;> rfl
@[simp] theorem State.writeMem_draws (w : Width) (seg off : Word) (v : BitVec w.bits) :
    (s.writeMem w seg off v).draws = s.draws := by cases w <;> rfl

/-! ## `writeAt` -/

@[simp] theorem State.writeAt_segs (w : Width) (p : Place) (v : BitVec w.bits) :
    (s.writeAt w p v).segs = s.segs := by cases p <;> simp [State.writeAt]
@[simp] theorem State.writeAt_ip (w : Width) (p : Place) (v : BitVec w.bits) :
    (s.writeAt w p v).ip = s.ip := by cases p <;> simp [State.writeAt]
@[simp] theorem State.writeAt_flags (w : Width) (p : Place) (v : BitVec w.bits) :
    (s.writeAt w p v).flags = s.flags := by cases p <;> simp [State.writeAt]
@[simp] theorem State.writeAt_memMap (w : Width) (p : Place) (v : BitVec w.bits) :
    (s.writeAt w p v).memMap = s.memMap := by cases p <;> simp [State.writeAt]
@[simp] theorem State.writeAt_halted (w : Width) (p : Place) (v : BitVec w.bits) :
    (s.writeAt w p v).halted = s.halted := by cases p <;> simp [State.writeAt]
@[simp] theorem State.writeAt_waiting (w : Width) (p : Place) (v : BitVec w.bits) :
    (s.writeAt w p v).waiting = s.waiting := by cases p <;> simp [State.writeAt]
@[simp] theorem State.writeAt_intShadow (w : Width) (p : Place) (v : BitVec w.bits) :
    (s.writeAt w p v).intShadow = s.intShadow := by cases p <;> simp [State.writeAt]
@[simp] theorem State.writeAt_trapPending (w : Width) (p : Place) (v : BitVec w.bits) :
    (s.writeAt w p v).trapPending = s.trapPending := by cases p <;> simp [State.writeAt]
@[simp] theorem State.writeAt_nmiLatch (w : Width) (p : Place) (v : BitVec w.bits) :
    (s.writeAt w p v).nmiLatch = s.nmiLatch := by cases p <;> simp [State.writeAt]
@[simp] theorem State.writeAt_lockOutput (w : Width) (p : Place) (v : BitVec w.bits) :
    (s.writeAt w p v).lockOutput = s.lockOutput := by cases p <;> simp [State.writeAt]
@[simp] theorem State.writeAt_prefixes (w : Width) (p : Place) (v : BitVec w.bits) :
    (s.writeAt w p v).prefixes = s.prefixes := by cases p <;> simp [State.writeAt]
@[simp] theorem State.writeAt_instrStart (w : Width) (p : Place) (v : BitVec w.bits) :
    (s.writeAt w p v).instrStart = s.instrStart := by cases p <;> simp [State.writeAt]
@[simp] theorem State.writeAt_repeating (w : Width) (p : Place) (v : BitVec w.bits) :
    (s.writeAt w p v).repeating = s.repeating := by cases p <;> simp [State.writeAt]
@[simp] theorem State.writeAt_pins (w : Width) (p : Place) (v : BitVec w.bits) :
    (s.writeAt w p v).pins = s.pins := by cases p <;> simp [State.writeAt]
@[simp] theorem State.writeAt_pinSchedule (w : Width) (p : Place) (v : BitVec w.bits) :
    (s.writeAt w p v).pinSchedule = s.pinSchedule := by cases p <;> simp [State.writeAt]
@[simp] theorem State.writeAt_portScript (w : Width) (p : Place) (v : BitVec w.bits) :
    (s.writeAt w p v).portScript = s.portScript := by cases p <;> simp [State.writeAt]
@[simp] theorem State.writeAt_busEvents (w : Width) (p : Place) (v : BitVec w.bits) :
    (s.writeAt w p v).busEvents = s.busEvents := by cases p <;> simp [State.writeAt]
@[simp] theorem State.writeAt_draws (w : Width) (p : Place) (v : BitVec w.bits) :
    (s.writeAt w p v).draws = s.draws := by cases p <;> simp [State.writeAt]

/-! ## `assertLock` -/

@[simp] theorem State.assertLock_regs : s.assertLock.regs = s.regs := by
  unfold State.assertLock; split <;> rfl
@[simp] theorem State.assertLock_segs : s.assertLock.segs = s.segs := by
  unfold State.assertLock; split <;> rfl
@[simp] theorem State.assertLock_ip : s.assertLock.ip = s.ip := by
  unfold State.assertLock; split <;> rfl
@[simp] theorem State.assertLock_flags : s.assertLock.flags = s.flags := by
  unfold State.assertLock; split <;> rfl
@[simp] theorem State.assertLock_mem : s.assertLock.mem = s.mem := by
  unfold State.assertLock; split <;> rfl
@[simp] theorem State.assertLock_memMap : s.assertLock.memMap = s.memMap := by
  unfold State.assertLock; split <;> rfl
@[simp] theorem State.assertLock_halted : s.assertLock.halted = s.halted := by
  unfold State.assertLock; split <;> rfl
@[simp] theorem State.assertLock_waiting : s.assertLock.waiting = s.waiting := by
  unfold State.assertLock; split <;> rfl
@[simp] theorem State.assertLock_intShadow : s.assertLock.intShadow = s.intShadow := by
  unfold State.assertLock; split <;> rfl
@[simp] theorem State.assertLock_trapPending : s.assertLock.trapPending = s.trapPending := by
  unfold State.assertLock; split <;> rfl
@[simp] theorem State.assertLock_nmiLatch : s.assertLock.nmiLatch = s.nmiLatch := by
  unfold State.assertLock; split <;> rfl
@[simp] theorem State.assertLock_prefixes : s.assertLock.prefixes = s.prefixes := by
  unfold State.assertLock; split <;> rfl
@[simp] theorem State.assertLock_instrStart : s.assertLock.instrStart = s.instrStart := by
  unfold State.assertLock; split <;> rfl
@[simp] theorem State.assertLock_repeating : s.assertLock.repeating = s.repeating := by
  unfold State.assertLock; split <;> rfl
@[simp] theorem State.assertLock_written : s.assertLock.written = s.written := by
  unfold State.assertLock; split <;> rfl
@[simp] theorem State.assertLock_pins : s.assertLock.pins = s.pins := by
  unfold State.assertLock; split <;> rfl
@[simp] theorem State.assertLock_pinSchedule : s.assertLock.pinSchedule = s.pinSchedule := by
  unfold State.assertLock; split <;> rfl
@[simp] theorem State.assertLock_portScript : s.assertLock.portScript = s.portScript := by
  unfold State.assertLock; split <;> rfl
@[simp] theorem State.assertLock_draws : s.assertLock.draws = s.draws := by
  unfold State.assertLock; split <;> rfl

@[simp] theorem State.assertLock_lockOutput : s.assertLock.lockOutput = true := by
  unfold State.assertLock; split <;> simp_all

@[simp] theorem State.assertLock_busEvents : s.assertLock.busEvents =
    if s.lockOutput then s.busEvents else .lockAsserted :: s.busEvents := by
  unfold State.assertLock; split <;> rfl

/-! ## `interrupt` and `interruptReturn` -/

@[simp] theorem State.interrupt_memMap (type : Byte) (ret : Word) :
    (s.interrupt type ret).memMap = s.memMap := rfl
@[simp] theorem State.interrupt_intShadow (type : Byte) (ret : Word) :
    (s.interrupt type ret).intShadow = s.intShadow := rfl
@[simp] theorem State.interrupt_trapPending (type : Byte) (ret : Word) :
    (s.interrupt type ret).trapPending = s.trapPending := rfl
@[simp] theorem State.interrupt_nmiLatch (type : Byte) (ret : Word) :
    (s.interrupt type ret).nmiLatch = s.nmiLatch := rfl
@[simp] theorem State.interrupt_lockOutput (type : Byte) (ret : Word) :
    (s.interrupt type ret).lockOutput = s.lockOutput := rfl
@[simp] theorem State.interrupt_prefixes (type : Byte) (ret : Word) :
    (s.interrupt type ret).prefixes = s.prefixes := rfl
@[simp] theorem State.interrupt_instrStart (type : Byte) (ret : Word) :
    (s.interrupt type ret).instrStart = s.instrStart := rfl
@[simp] theorem State.interrupt_repeating (type : Byte) (ret : Word) :
    (s.interrupt type ret).repeating = s.repeating := rfl
@[simp] theorem State.interrupt_pins (type : Byte) (ret : Word) :
    (s.interrupt type ret).pins = s.pins := rfl
@[simp] theorem State.interrupt_pinSchedule (type : Byte) (ret : Word) :
    (s.interrupt type ret).pinSchedule = s.pinSchedule := rfl
@[simp] theorem State.interrupt_portScript (type : Byte) (ret : Word) :
    (s.interrupt type ret).portScript = s.portScript := rfl
@[simp] theorem State.interrupt_busEvents (type : Byte) (ret : Word) :
    (s.interrupt type ret).busEvents = s.busEvents := rfl
@[simp] theorem State.interrupt_halted (type : Byte) (ret : Word) :
    (s.interrupt type ret).halted = false := rfl
@[simp] theorem State.interrupt_waiting (type : Byte) (ret : Word) :
    (s.interrupt type ret).waiting = false := rfl
@[simp] theorem State.interrupt_written (type : Byte) (ret : Word) :
    (s.interrupt type ret).written = [] := rfl
@[simp] theorem State.interrupt_draws (type : Byte) (ret : Word) :
    (s.interrupt type ret).draws = s.draws + 1 := rfl
@[simp] theorem State.interrupt_flags (type : Byte) (ret : Word) :
    (s.interrupt type ret).flags = { s.flags with ifl := false, tf := false } := rfl
@[simp] theorem State.interruptReturn_mem : s.interruptReturn.mem = s.mem := rfl
@[simp] theorem State.interruptReturn_memMap : s.interruptReturn.memMap = s.memMap := rfl
@[simp] theorem State.interruptReturn_halted : s.interruptReturn.halted = s.halted := rfl
@[simp] theorem State.interruptReturn_waiting : s.interruptReturn.waiting = s.waiting := rfl
@[simp] theorem State.interruptReturn_intShadow : s.interruptReturn.intShadow = s.intShadow := rfl
@[simp] theorem State.interruptReturn_trapPending : s.interruptReturn.trapPending = s.trapPending := rfl
@[simp] theorem State.interruptReturn_nmiLatch : s.interruptReturn.nmiLatch = s.nmiLatch := rfl
@[simp] theorem State.interruptReturn_lockOutput : s.interruptReturn.lockOutput = s.lockOutput := rfl
@[simp] theorem State.interruptReturn_prefixes : s.interruptReturn.prefixes = s.prefixes := rfl
@[simp] theorem State.interruptReturn_instrStart : s.interruptReturn.instrStart = s.instrStart := rfl
@[simp] theorem State.interruptReturn_repeating : s.interruptReturn.repeating = s.repeating := rfl
@[simp] theorem State.interruptReturn_pins : s.interruptReturn.pins = s.pins := rfl
@[simp] theorem State.interruptReturn_pinSchedule : s.interruptReturn.pinSchedule = s.pinSchedule := rfl
@[simp] theorem State.interruptReturn_portScript : s.interruptReturn.portScript = s.portScript := rfl
@[simp] theorem State.interruptReturn_busEvents : s.interruptReturn.busEvents = s.busEvents := rfl
@[simp] theorem State.interruptReturn_draws : s.interruptReturn.draws = s.draws := rfl
@[simp] theorem State.interruptReturn_written : s.interruptReturn.written = [] := rfl

end Sys2Proof.Machine
end

