-- ==== Sys2Proof/Laws/Memory.lean ====
section
/-! SUPPORT. Bytes and words; memory and the set of R400: read after write, and that every operation
keeps the canonical forms. -/

namespace Sys2Proof

/-! ## Bytes of a word -/

theorem wordOf_toNat (lo hi : Byte) : (wordOf lo hi).toNat = hi.toNat * 256 + lo.toNat := by
  have := lo.isLt
  simp only [wordOf, BitVec.toNat_append, Nat.shiftLeft_eq]
  rw [show hi.toNat * 2 ^ 8 ||| lo.toNat = 2 ^ 8 * hi.toNat + lo.toNat by
    rw [Nat.mul_comm, Nat.two_pow_add_eq_or_of_lt this]]
  omega

theorem loByte_toNat (v : Word) : (loByte v).toNat = v.toNat % 256 := by
  simp [loByte, BitVec.extractLsb'_toNat]

theorem hiByte_toNat (v : Word) : (hiByte v).toNat = v.toNat / 256 := by
  have := v.isLt
  simp only [hiByte, BitVec.extractLsb'_toNat, Nat.shiftRight_eq_div_pow]
  omega

@[simp] theorem loByte_wordOf (lo hi : Byte) : loByte (wordOf lo hi) = lo := by
  have := lo.isLt
  apply BitVec.eq_of_toNat_eq
  rw [loByte_toNat, wordOf_toNat]
  omega

@[simp] theorem hiByte_wordOf (lo hi : Byte) : hiByte (wordOf lo hi) = hi := by
  have := lo.isLt
  apply BitVec.eq_of_toNat_eq
  rw [hiByte_toNat, wordOf_toNat]
  omega

@[simp] theorem wordOf_loByte_hiByte (v : Word) : wordOf (loByte v) (hiByte v) = v := by
  apply BitVec.eq_of_toNat_eq
  rw [wordOf_toNat, hiByte_toNat, loByte_toNat]
  omega

end Sys2Proof

namespace Sys2Proof.Machine

/-! ## Physical addresses -/

theorem physAddr_toNat (seg off : Word) :
    (physAddr seg off).toNat = (seg.toNat * 16 + off.toNat) % 2 ^ 20 := by
  simp [physAddr]

theorem physAddr_lt (seg off : Word) : (physAddr seg off).toNat < memorySize :=
  (physAddr seg off).isLt

/-- Different offsets of one segment are different addresses. -/
theorem physAddr_inj {seg a b : Word} (h : (physAddr seg a).toNat = (physAddr seg b).toNat) :
    a = b := by
  rw [physAddr_toNat, physAddr_toNat] at h
  have := a.isLt
  have := b.isLt
  apply BitVec.eq_of_toNat_eq
  omega

theorem physAddr_succ_ne (seg off : Word) :
    (physAddr seg off).toNat ≠ (physAddr seg (off + 1#16)).toNat := fun h => by
  have := congrArg BitVec.toNat (physAddr_inj h)
  simp only [BitVec.toNat_add, BitVec.toNat_ofNat] at this
  have := off.isLt
  omega

/-! ## Memory -/

theorem Memory.read_write_other (m : List Host.Cell) {a b : Nat} (v : Byte) (h : b ≠ a) :
    Memory.read (Memory.write m a v) b = Memory.read m b := by
  have h' : ¬ a = b := fun e => h e.symm
  induction m with
  | nil => simp only [Memory.write]; split <;> simp [Memory.read, h']
  | cons c m ih =>
    simp only [Memory.write]
    split
    · split <;> simp [Memory.read, h']
    · split
      · next hc =>
        have hcb : ¬ c.1 = b := by omega
        split <;> simp [Memory.read, h', hcb]
      · simp [Memory.read, ih]

/-- An address below every listed one reads as unlisted. -/
theorem Memory.read_below {m : List Host.Cell} {a : Nat} (h : ∀ c ∈ m, a < c.1) :
    Memory.read m a = unlistedByte := by
  induction m with
  | nil => rfl
  | cons c m ih =>
    have hc := h c (by simp)
    have hca : ¬ c.1 = a := by omega
    simp [Memory.read, hca, ih fun c' hc' => h c' (by simp [hc'])]

theorem Memory.read_write_same {m : List Host.Cell} (hm : Memory.wf m) (a : Nat) (v : Byte) :
    Memory.read (Memory.write m a v) a = v := by
  induction m with
  | nil => simp only [Memory.write]; split <;> simp_all [Memory.read]
  | cons c m ih =>
    obtain ⟨hp, hall⟩ := hm
    obtain ⟨hc, hp⟩ := List.pairwise_cons.1 hp
    have hm' : Memory.wf m := ⟨hp, fun x hx => hall x (by simp [hx])⟩
    simp only [Memory.write]
    split
    · next hlt =>
      split
      · next hv =>
        rw [hv]
        refine Memory.read_below fun x hx => ?_
        rcases List.mem_cons.1 hx with rfl | hx
        · exact hlt
        · exact Nat.lt_trans hlt (hc x hx)
      · simp [Memory.read]
    · split
      · next he =>
        split
        · next hv =>
          rw [hv]
          exact Memory.read_below fun x hx => by rw [he]; exact hc x hx
        · simp [Memory.read]
      · next hne =>
        have : ¬ c.1 = a := fun e => hne e.symm
        simp [Memory.read, this, ih hm']

/-- Every entry after a write was there before, or is the one written. -/
theorem Memory.mem_write {m : List Host.Cell} {a : Nat} {v : Byte} {x : Host.Cell}
    (h : x ∈ Memory.write m a v) : x ∈ m ∨ (x = (a, v) ∧ v ≠ unlistedByte) := by
  induction m with
  | nil =>
    simp only [Memory.write] at h
    split at h <;> simp_all
  | cons c m ih =>
    simp only [Memory.write] at h
    split at h
    · split at h <;> simp_all
      grind
    · split at h
      · split at h <;> simp_all
        grind
      · rcases List.mem_cons.1 h with rfl | h
        · simp
        · rcases ih h with h | h
          · simp [h]
          · exact .inr h

theorem Memory.wf_write {m : List Host.Cell} (hm : Memory.wf m) {a : Nat} (ha : a < memorySize)
    (v : Byte) : Memory.wf (Memory.write m a v) := by
  refine ⟨?_, fun x hx => ?_⟩
  · obtain ⟨hp, -⟩ := hm
    induction m with
    | nil => simp only [Memory.write]; split <;> simp
    | cons c m ih =>
      obtain ⟨hc, hp'⟩ := List.pairwise_cons.1 hp
      simp only [Memory.write]
      split
      · next hlt =>
        split
        · exact hp
        · refine List.pairwise_cons.2 ⟨fun x hx => ?_, hp⟩
          rcases List.mem_cons.1 hx with rfl | hx
          · exact hlt
          · exact Nat.lt_trans hlt (hc x hx)
      · split
        · next he =>
          split
          · exact hp'
          · exact List.pairwise_cons.2 ⟨fun x hx => by rw [he]; exact hc x hx, hp'⟩
        · refine List.pairwise_cons.2 ⟨fun x hx => ?_, ih hp'⟩
          rcases Memory.mem_write hx with hx | ⟨rfl, -⟩
          · exact hc x hx
          · simp only; omega
  · rcases Memory.mem_write hx with hx | ⟨rfl, hv⟩
    · exact hm.2 x hx
    · exact ⟨ha, hv⟩

/-! ## The set of written addresses -/

@[simp] theorem WrittenSet.mem_insert {l : List Nat} {a b : Nat} :
    b ∈ WrittenSet.insert l a ↔ b ∈ l ∨ b = a := by
  induction l with
  | nil => simp [WrittenSet.insert]
  | cons c l ih =>
    simp only [WrittenSet.insert]
    split
    · simp only [List.mem_cons]; tauto
    · split
      · simp only [List.mem_cons]
        constructor
        · exact .inl
        · rintro (h | h)
          · exact h
          · exact .inl (h.trans ‹_›)
      · simp only [List.mem_cons, ih]; tauto

theorem WrittenSet.wf_insert {l : List Nat} (hl : WrittenSet.wf l) {a : Nat} (ha : a < memorySize) :
    WrittenSet.wf (WrittenSet.insert l a) := by
  refine ⟨?_, fun x hx => ?_⟩
  · obtain ⟨hp, -⟩ := hl
    induction l with
    | nil => simp [WrittenSet.insert]
    | cons c l ih =>
      obtain ⟨hc, hp'⟩ := List.pairwise_cons.1 hp
      simp only [WrittenSet.insert]
      split
      · refine List.pairwise_cons.2 ⟨fun x hx => ?_, hp⟩
        rcases List.mem_cons.1 hx with rfl | hx
        · assumption
        · exact Nat.lt_trans ‹_› (hc x hx)
      · split
        · exact hp
        · refine List.pairwise_cons.2 ⟨fun x hx => ?_, ih hp'⟩
          rcases WrittenSet.mem_insert.1 hx with hx | rfl
          · exact hc x hx
          · omega
  · rcases WrittenSet.mem_insert.1 hx with hx | rfl
    · exact hl.2 x hx
    · exact ha

/-! ## The state's memory -/

/-- The canonical forms of a state's memory and of its set of written addresses. -/
structure MemOk (s : State) : Prop where
  memory : Memory.wf s.mem
  written : WrittenSet.wf s.written

/-- States with one memory and one set keep the forms together. -/
theorem MemOk.of_eq {s t : State} (h : MemOk s) (hm : t.mem = s.mem) (hw : t.written = s.written) :
    MemOk t := ⟨hm ▸ h.memory, hw ▸ h.written⟩

/-- A taken transfer empties the set. -/
theorem MemOk.of_jump {s t : State} (h : MemOk s) (hm : t.mem = s.mem) (hw : t.written = []) :
    MemOk t := ⟨hm ▸ h.memory, hw ▸ ⟨List.Pairwise.nil, by simp⟩⟩

/-! ### What lies behind an address (R73 (c)) -/

/-- What lies behind an address depends on the map alone. -/
theorem kindAt_of_eq {s t : State} (h : t.memMap = s.memMap) (a : Nat) : t.kindAt a = s.kindAt a := by
  rw [State.kindAt, State.kindAt, h]

@[simp] theorem kindAt_write8 (s : State) (seg off : Word) (v : Byte) (a : Nat) :
    (s.write8 seg off v).kindAt a = s.kindAt a := rfl

@[simp] theorem kindAt_write16 (s : State) (seg off v : Word) (a : Nat) :
    (s.write16 seg off v).kindAt a = s.kindAt a := rfl

@[simp] theorem kindAt_writeMem (s : State) (w : Width) (seg off : Word) (v : BitVec w.bits) (a : Nat) :
    (s.writeMem w seg off v).kindAt a = s.kindAt a := kindAt_of_eq (by simp) a

@[simp] theorem kindAt_push16 (s : State) (v : Word) (a : Nat) :
    (s.push16 v).kindAt a = s.kindAt a := rfl

@[simp] theorem kindAt_interrupt (s : State) (type : Byte) (ret : Word) (a : Nat) :
    (s.interrupt type ret).kindAt a = s.kindAt a := rfl

/-- The empty map: every address is RAM. -/
theorem kindAt_reset (a : Nat) : State.reset.kindAt a = .ram := rfl

/-- A read of RAM gives what memory holds. -/
theorem readByte_ram {s : State} {a : Nat} (h : s.kindAt a = .ram) : s.readByte a = s.byteAt a := by
  simp [State.readByte, State.readOr, State.byteAt, h]

/-- A read of ROM gives what memory holds. -/
theorem readByte_rom {s : State} {a : Nat} (h : s.kindAt a = .rom) : s.readByte a = s.byteAt a := by
  simp [State.readByte, State.readOr, State.byteAt, h]

/-- A read where there is no memory gives what the bus gives. -/
theorem readByte_bus {s : State} {a : Nat} (h : s.kindAt a = .bus) :
    s.readByte a = Config.busByte s.draws a := by simp [State.readByte, State.readOr, h]

/-- A read depends on memory, the map and the count of draws alone. -/
theorem readByte_of_eq {s t : State} (hm : t.mem = s.mem) (hk : t.memMap = s.memMap)
    (hd : t.draws = s.draws) (a : Nat) : t.readByte a = s.readByte a := by
  rw [State.readByte, State.readByte, State.readOr, State.readOr, kindAt_of_eq hk, hm, hd]

/-- So does the fetch of a byte; from RAM and ROM it gives what memory holds. -/
theorem fetchByte_of_eq {s t : State} (hm : t.mem = s.mem) (hk : t.memMap = s.memMap)
    (hd : t.draws = s.draws) (a : Nat) : t.fetchByte a = s.fetchByte a := by
  rw [State.fetchByte, State.fetchByte, State.readOr, State.readOr, kindAt_of_eq hk, hm, hd]

theorem fetchByte_memory {s : State} {a : Nat} (h : s.kindAt a ≠ .bus) :
    s.fetchByte a = s.byteAt a := by
  unfold State.fetchByte State.readOr
  split
  · rfl
  · rfl
  · exact absurd ‹_› h

theorem memAfter_ram {s : State} {a : Nat} (h : s.kindAt a = .ram) (v : Byte) :
    s.memAfter a v = Memory.write s.mem a v := by simp [State.memAfter, h]

theorem memAfter_not_ram {s : State} {a : Nat} (h : s.kindAt a ≠ .ram) (v : Byte) :
    s.memAfter a v = s.mem := by
  unfold State.memAfter
  split
  · exact absurd ‹_› h
  · rfl
  · rfl

/-- What a write to one address can do: RAM takes the byte, all else leaves memory as it is. -/
theorem memAfter_cases (s : State) (a : Nat) (v : Byte) :
    (s.kindAt a = .ram ∧ s.memAfter a v = Memory.write s.mem a v) ∨
      (s.kindAt a ≠ .ram ∧ s.memAfter a v = s.mem) := by
  by_cases h : s.kindAt a = .ram
  · exact .inl ⟨h, memAfter_ram h v⟩
  · exact .inr ⟨h, memAfter_not_ram h v⟩

theorem Memory.wf_memAfter {s : State} (h : Memory.wf s.mem) {a : Nat} (ha : a < memorySize)
    (v : Byte) : Memory.wf (s.memAfter a v) := by
  rcases memAfter_cases s a v with ⟨-, e⟩ | ⟨-, e⟩ <;> rw [e]
  · exact Memory.wf_write h ha v
  · exact h

theorem MemOk.write8 {s : State} (h : MemOk s) (seg off : Word) (v : Byte) :
    MemOk (s.write8 seg off v) :=
  ⟨Memory.wf_memAfter h.memory (physAddr_lt _ _) _, WrittenSet.wf_insert h.written (physAddr_lt _ _)⟩

theorem MemOk.write16 {s : State} (h : MemOk s) (seg off v : Word) : MemOk (s.write16 seg off v) :=
  (h.write8 seg off _).write8 seg _ _

theorem MemOk.writeMem {s : State} (h : MemOk s) (w : Width) (seg off : Word) (v : BitVec w.bits) :
    MemOk (s.writeMem w seg off v) := by
  cases w
  · exact h.write8 seg off v
  · exact h.write16 seg off v

theorem MemOk.writeReg {s : State} (h : MemOk s) (w : Width) (i : RegNum) (v : BitVec w.bits) :
    MemOk (s.writeReg w i v) := h.of_eq (by simp) (by simp)

theorem MemOk.writeAt {s : State} (h : MemOk s) (w : Width) (p : Place) (v : BitVec w.bits) :
    MemOk (s.writeAt w p v) := by
  cases p
  · exact h.writeReg w _ v
  · exact h.writeMem w _ _ v

theorem MemOk.push16 {s : State} (h : MemOk s) (v : Word) : MemOk (s.push16 v) :=
  (h.of_eq (t := s.decSp) rfl rfl).write16 _ _ v

theorem MemOk.interrupt {s : State} (h : MemOk s) (type : Byte) (ret : Word) :
    MemOk (s.interrupt type ret) := by
  have h1 : MemOk (s.nextDraw.push16 s.flagsImage).maskInterrupts :=
    MemOk.of_eq ((h.of_eq (t := s.nextDraw) rfl rfl).push16 _) rfl rfl
  have h2 := (h1.push16 (s.nextDraw.push16 s.flagsImage).maskInterrupts.segs.cs).push16 ret
  exact h2.of_jump rfl rfl

/-! ## Reading back -/

theorem byteAt_write8_same {s : State} (h : Memory.wf s.mem) {seg off : Word}
    (hk : s.kindAt (physAddr seg off).toNat = .ram) (v : Byte) :
    (s.write8 seg off v).byteAt (physAddr seg off).toNat = v := by
  rw [State.byteAt, State.write8_mem, memAfter_ram hk, Memory.read_write_same h]

/-- A write changes no other byte, and none that is not RAM. -/
theorem byteAt_write8_other (s : State) {seg off : Word} (v : Byte) {a : Nat}
    (h : a ≠ (physAddr seg off).toNat ∨ s.kindAt a ≠ .ram) :
    (s.write8 seg off v).byteAt a = s.byteAt a := by
  rw [State.byteAt, State.write8_mem]
  rcases memAfter_cases s (physAddr seg off).toNat v with ⟨hk, e⟩ | ⟨-, e⟩ <;> rw [e]
  · exact Memory.read_write_other _ _ (h.elim id fun hn e => hn (e ▸ hk))
  · rfl

theorem byteAt_write16_lo {s : State} (h : Memory.wf s.mem) {seg off : Word}
    (hk : s.kindAt (physAddr seg off).toNat = .ram) (v : Word) :
    (s.write16 seg off v).byteAt (physAddr seg off).toNat = loByte v := by
  rw [State.write16, byteAt_write8_other _ _ (.inl (physAddr_succ_ne seg off)),
    byteAt_write8_same h hk]

theorem byteAt_write16_hi {s : State} (h : Memory.wf s.mem) {seg off : Word}
    (hk : s.kindAt (physAddr seg (off + 1#16)).toNat = .ram) (v : Word) :
    (s.write16 seg off v).byteAt (physAddr seg (off + 1#16)).toNat = hiByte v := by
  exact byteAt_write8_same (s := s.write8 seg off (loByte v))
    (Memory.wf_memAfter h (physAddr_lt _ _) _) hk _

theorem byteAt_writeMem_other (s : State) (w : Width) {seg off : Word} (v : BitVec w.bits) {a : Nat}
    (h : a ∉ operandBytes w seg off ∨ s.kindAt a ≠ .ram) :
    (s.writeMem w seg off v).byteAt a = s.byteAt a := by
  cases w with
  | byte => exact byteAt_write8_other _ _ (h.imp_left (by simp [operandBytes]))
  | word =>
    have h' : (a ≠ (physAddr seg off).toNat ∧ a ≠ (physAddr seg (off + 1#16)).toNat) ∨
        s.kindAt a ≠ .ram := h.imp_left (by simp [operandBytes])
    exact (byteAt_write8_other (s.write8 seg off (loByte v)) _ (h'.imp_left And.right)).trans
      (byteAt_write8_other s _ (h'.imp_left And.left))

theorem byteAt_write16_other (s : State) {seg off : Word} (v : Word) {a : Nat}
    (h : a ∉ operandBytes .word seg off ∨ s.kindAt a ≠ .ram) :
    (s.write16 seg off v).byteAt a = s.byteAt a :=
  byteAt_writeMem_other s .word v h

/-- What a store leaves at the place stored to. -/
theorem stored_writeMem {s : State} (h : Memory.wf s.mem) (w : Width) (seg off : Word)
    (v : BitVec w.bits) : Stored w (.mem seg off) v s (s.writeMem w seg off v) := by
  cases w with
  | byte =>
    exact ⟨fun hk => (byteAt_write8_same h hk v).trans (by simp [Width.bits]), fun e => by cases e⟩
  | word => exact ⟨fun hk => byteAt_write16_lo h hk v, fun _ hk => byteAt_write16_hi h hk v⟩

/-- A word stored to RAM reads back. -/
theorem read16_write16_same {s : State} (h : Memory.wf s.mem) {seg off : Word}
    (hk : AllRam (operandBytes .word seg off) s) (v : Word) :
    (s.write16 seg off v).read16 seg off = v := by
  have h1 := hk (physAddr seg off).toNat (by simp [operandBytes])
  have h2 := hk (physAddr seg (off + 1#16)).toNat (by simp [operandBytes])
  rw [State.read16, State.read8, State.read8, readByte_ram (by simpa using h1),
    readByte_ram (by simpa using h2), byteAt_write16_lo h h1, byteAt_write16_hi h h2,
    wordOf_loByte_hiByte]

/-- What is stored to RAM reads back. -/
theorem readMem_writeMem_same {s : State} (h : Memory.wf s.mem) (w : Width) {seg off : Word}
    (hk : AllRam (operandBytes w seg off) s) (v : BitVec w.bits) :
    (s.writeMem w seg off v).readMem w seg off = v := by
  cases w with
  | byte =>
    have h1 := hk (physAddr seg off).toNat (by simp [operandBytes])
    exact (readByte_ram (s := s.write8 seg off v) h1).trans (byteAt_write8_same h h1 v)
  | word => exact read16_write16_same h hk v

/-- A store to an operand changes the bytes of the operand and nothing else. -/
theorem storesOnly_writeMem (s : State) (w : Width) (seg off : Word) (v : BitVec w.bits) :
    StoresOnly (operandBytes w seg off) s (s.writeMem w seg off v) := by
  refine ⟨fun a ha => byteAt_writeMem_other s w v ha, fun a => ?_⟩
  cases w <;> simp [State.writeMem, State.write16, State.write8, operandBytes, or_assoc]

theorem storesOnly_writeAt (s : State) (w : Width) (p : Place) (v : BitVec w.bits) :
    StoresOnly (p.bytes w) s (s.writeAt w p v) := by
  cases p with
  | reg i =>
    exact ⟨fun a _ => by simp [State.byteAt, State.writeAt], fun a => by
      simp [State.writeAt, Place.bytes]⟩
  | mem seg off => exact storesOnly_writeMem s w seg off v

theorem StoresOnly.refl (s : State) : StoresOnly [] s s := ⟨fun _ _ => rfl, fun _ => by simp⟩

/-- A change that leaves memory, its map and the set alone, before a store. -/
theorem StoresOnly.of_eq {l : List Nat} {s s' t : State} (h : StoresOnly l s' t)
    (hm : s'.mem = s.mem) (hk : s'.memMap = s.memMap) (hw : s'.written = s.written) :
    StoresOnly l s t :=
  ⟨fun a ha => by
    rw [h.memory a (by rwa [kindAt_of_eq hk]), State.byteAt, State.byteAt, hm],
    fun a => by rw [h.written a, hw]⟩

end Sys2Proof.Machine
end

