-- ==== Sys2Proof/Laws/PerInstr.lean ====
section
/-! SUPPORT. The statements made for every instruction, one lemma per constructor. -/

namespace Sys2Proof.Laws

theorem length_bytesImm_le (imm : Imm) : (bytesImm imm).length ≤ 2 := by
  cases imm <;> simp [bytesImm, bytes16]

theorem length_encodeMem (n : Nat) (m : Mem) :
    1 ≤ (encodeMem n m).length ∧ (encodeMem n m).length ≤ 3 := by
  cases m <;> simp [encodeMem, bytes16]

theorem length_encodeRM (n : Nat) (rm : RM) :
    1 ≤ (encodeRM n rm).length ∧ (encodeRM n rm).length ≤ 3 := by
  cases rm with
  | reg i => simp [encodeRM]
  | mem m => exact length_encodeMem n m

/-- An opcode byte with a ModRM byte and its displacement is at most four bytes long. -/
theorem length_cons_encodeRM (b : Byte) (n : Nat) (rm : RM) :
    1 ≤ (b :: encodeRM n rm).length ∧ (b :: encodeRM n rm).length ≤ 6 := by
  have := length_encodeRM n rm
  simp only [List.length_cons]
  omega

theorem length_cons_encodeMem (b : Byte) (n : Nat) (m : Mem) :
    1 ≤ (b :: encodeMem n m).length ∧ (b :: encodeMem n m).length ≤ 6 := by
  have := length_encodeMem n m
  simp only [List.length_cons]
  omega

theorem length_encodeAluAcc (op : Nat) (imm : Imm) :
    1 ≤ (encodeAluAcc op imm).length ∧ (encodeAluAcc op imm).length ≤ 6 := by
  have := length_bytesImm_le imm
  simp only [encodeAluAcc, List.length_cons]
  omega

theorem length_encodeRmImm (opcode n : Nat) (imm : Imm) (rm : RM) :
    1 ≤ (encodeRmImm opcode n imm rm).length ∧ (encodeRmImm opcode n imm rm).length ≤ 6 := by
  have := length_bytesImm_le imm
  have := length_encodeRM n rm
  simp only [encodeRmImm, List.cons_append, List.length_cons, List.length_append]
  omega

theorem length_encodeGroup (n : Nat) (g : GroupImm) (rm : RM) :
    1 ≤ (encodeGroup n g rm).length ∧ (encodeGroup n g rm).length ≤ 6 := by
  have := length_encodeRM n rm
  cases g <;> simp [encodeGroup, bytes16] <;> omega

end Sys2Proof.Laws

namespace Sys2Proof.Laws.EncodeLength

/-- A row of the opcode table is one to six bytes long (spec/30_encoding.md R101). -/
def Statement (i : Instr) : Prop := 1 ≤ (encode i).length ∧ (encode i).length ≤ 6

/-- A row whose length is a number. -/
theorem of_length {i : Instr} (n : Nat) (h : (encode i).length = n)
    (hn : decide (1 ≤ n ∧ n ≤ 6) = true) : Statement i := by
  rw [Statement, h]
  exact of_decide_eq_true hn

theorem addRm (d : Dir) (w : Width) (reg : RegNum) (rm : RM) : Statement (.addRm d w reg rm) :=
  length_cons_encodeRM _ _ rm
theorem addAcc (imm : Imm) : Statement (.addAcc imm) := length_encodeAluAcc _ imm
theorem orRm (d : Dir) (w : Width) (reg : RegNum) (rm : RM) : Statement (.orRm d w reg rm) :=
  length_cons_encodeRM _ _ rm
theorem orAcc (imm : Imm) : Statement (.orAcc imm) := length_encodeAluAcc _ imm
theorem adcRm (d : Dir) (w : Width) (reg : RegNum) (rm : RM) : Statement (.adcRm d w reg rm) :=
  length_cons_encodeRM _ _ rm
theorem adcAcc (imm : Imm) : Statement (.adcAcc imm) := length_encodeAluAcc _ imm
theorem sbbRm (d : Dir) (w : Width) (reg : RegNum) (rm : RM) : Statement (.sbbRm d w reg rm) :=
  length_cons_encodeRM _ _ rm
theorem sbbAcc (imm : Imm) : Statement (.sbbAcc imm) := length_encodeAluAcc _ imm
theorem andRm (d : Dir) (w : Width) (reg : RegNum) (rm : RM) : Statement (.andRm d w reg rm) :=
  length_cons_encodeRM _ _ rm
theorem andAcc (imm : Imm) : Statement (.andAcc imm) := length_encodeAluAcc _ imm
theorem subRm (d : Dir) (w : Width) (reg : RegNum) (rm : RM) : Statement (.subRm d w reg rm) :=
  length_cons_encodeRM _ _ rm
theorem subAcc (imm : Imm) : Statement (.subAcc imm) := length_encodeAluAcc _ imm
theorem xorRm (d : Dir) (w : Width) (reg : RegNum) (rm : RM) : Statement (.xorRm d w reg rm) :=
  length_cons_encodeRM _ _ rm
theorem xorAcc (imm : Imm) : Statement (.xorAcc imm) := length_encodeAluAcc _ imm
theorem cmpRm (d : Dir) (w : Width) (reg : RegNum) (rm : RM) : Statement (.cmpRm d w reg rm) :=
  length_cons_encodeRM _ _ rm
theorem cmpAcc (imm : Imm) : Statement (.cmpAcc imm) := length_encodeAluAcc _ imm
theorem pushSreg (sr : SegReg) : Statement (.pushSreg sr) := of_length 1 rfl rfl
theorem popSreg (sr : SegReg) : Statement (.popSreg sr) := of_length 1 rfl rfl
theorem segOverride (sr : SegReg) : Statement (.segOverride sr) := of_length 1 rfl rfl
theorem daa : Statement (.daa) := of_length 1 rfl rfl
theorem das : Statement (.das) := of_length 1 rfl rfl
theorem aaa : Statement (.aaa) := of_length 1 rfl rfl
theorem aas : Statement (.aas) := of_length 1 rfl rfl
theorem incReg (r : Reg16) : Statement (.incReg r) := of_length 1 rfl rfl
theorem decReg (r : Reg16) : Statement (.decReg r) := of_length 1 rfl rfl
theorem pushReg (r : Reg16) : Statement (.pushReg r) := of_length 1 rfl rfl
theorem popReg (r : Reg16) : Statement (.popReg r) := of_length 1 rfl rfl
theorem jo (disp : Byte) : Statement (.jo disp) := of_length 2 rfl rfl
theorem jno (disp : Byte) : Statement (.jno disp) := of_length 2 rfl rfl
theorem jb (disp : Byte) : Statement (.jb disp) := of_length 2 rfl rfl
theorem jae (disp : Byte) : Statement (.jae disp) := of_length 2 rfl rfl
theorem je (disp : Byte) : Statement (.je disp) := of_length 2 rfl rfl
theorem jne (disp : Byte) : Statement (.jne disp) := of_length 2 rfl rfl
theorem jbe (disp : Byte) : Statement (.jbe disp) := of_length 2 rfl rfl
theorem ja (disp : Byte) : Statement (.ja disp) := of_length 2 rfl rfl
theorem js (disp : Byte) : Statement (.js disp) := of_length 2 rfl rfl
theorem jns (disp : Byte) : Statement (.jns disp) := of_length 2 rfl rfl
theorem jp (disp : Byte) : Statement (.jp disp) := of_length 2 rfl rfl
theorem jnp (disp : Byte) : Statement (.jnp disp) := of_length 2 rfl rfl
theorem jl (disp : Byte) : Statement (.jl disp) := of_length 2 rfl rfl
theorem jge (disp : Byte) : Statement (.jge disp) := of_length 2 rfl rfl
theorem jle (disp : Byte) : Statement (.jle disp) := of_length 2 rfl rfl
theorem jg (disp : Byte) : Statement (.jg disp) := of_length 2 rfl rfl
theorem addImm (g : GroupImm) (rm : RM) : Statement (.addImm g rm) := length_encodeGroup _ g rm
theorem orImm (imm : Imm) (rm : RM) : Statement (.orImm imm rm) := length_encodeRmImm _ _ imm rm
theorem adcImm (g : GroupImm) (rm : RM) : Statement (.adcImm g rm) := length_encodeGroup _ g rm
theorem sbbImm (g : GroupImm) (rm : RM) : Statement (.sbbImm g rm) := length_encodeGroup _ g rm
theorem andImm (imm : Imm) (rm : RM) : Statement (.andImm imm rm) := length_encodeRmImm _ _ imm rm
theorem subImm (g : GroupImm) (rm : RM) : Statement (.subImm g rm) := length_encodeGroup _ g rm
theorem xorImm (imm : Imm) (rm : RM) : Statement (.xorImm imm rm) := length_encodeRmImm _ _ imm rm
theorem cmpImm (g : GroupImm) (rm : RM) : Statement (.cmpImm g rm) := length_encodeGroup _ g rm
theorem testRm (w : Width) (reg : RegNum) (rm : RM) : Statement (.testRm w reg rm) :=
  length_cons_encodeRM _ _ rm
theorem xchgRm (w : Width) (reg : RegNum) (rm : RM) : Statement (.xchgRm w reg rm) :=
  length_cons_encodeRM _ _ rm
theorem movRm (d : Dir) (w : Width) (reg : RegNum) (rm : RM) : Statement (.movRm d w reg rm) :=
  length_cons_encodeRM _ _ rm
theorem movRmSreg (sr : SegReg) (rm : RM) : Statement (.movRmSreg sr rm) :=
  length_cons_encodeRM _ _ rm
theorem lea (r : Reg16) (m : Mem) : Statement (.lea r m) := length_cons_encodeMem _ _ m
theorem movSregRm (sr : SegReg) (rm : RM) : Statement (.movSregRm sr rm) :=
  length_cons_encodeRM _ _ rm
theorem popRm (rm : RM) : Statement (.popRm rm) := length_cons_encodeRM _ _ rm
theorem nop : Statement (.nop) := of_length 1 rfl rfl
theorem xchgAcc (r : Reg16) : Statement (.xchgAcc r) := of_length 1 rfl rfl
theorem cbw : Statement (.cbw) := of_length 1 rfl rfl
theorem cwd : Statement (.cwd) := of_length 1 rfl rfl
theorem callFar (off seg : Word) : Statement (.callFar off seg) := of_length 5 rfl rfl
theorem wait : Statement (.wait) := of_length 1 rfl rfl
theorem pushf : Statement (.pushf) := of_length 1 rfl rfl
theorem popf : Statement (.popf) := of_length 1 rfl rfl
theorem sahf : Statement (.sahf) := of_length 1 rfl rfl
theorem lahf : Statement (.lahf) := of_length 1 rfl rfl
theorem movAccMoffs (w : Width) (addr : Word) : Statement (.movAccMoffs w addr) :=
  of_length 3 rfl rfl
theorem movMoffsAcc (w : Width) (addr : Word) : Statement (.movMoffsAcc w addr) :=
  of_length 3 rfl rfl
theorem movs (w : Width) : Statement (.movs w) := of_length 1 rfl rfl
theorem cmps (w : Width) : Statement (.cmps w) := of_length 1 rfl rfl
theorem testAcc (imm : Imm) : Statement (.testAcc imm) :=
  by
  cases imm with
  | b v => exact of_length 2 rfl rfl
  | w v => exact of_length 3 rfl rfl
theorem stos (w : Width) : Statement (.stos w) := of_length 1 rfl rfl
theorem lods (w : Width) : Statement (.lods w) := of_length 1 rfl rfl
theorem scas (w : Width) : Statement (.scas w) := of_length 1 rfl rfl
theorem movRegImm (reg : RegNum) (imm : Imm) : Statement (.movRegImm reg imm) :=
  by
  cases imm with
  | b v => exact of_length 2 rfl rfl
  | w v => exact of_length 3 rfl rfl
theorem retImm (data : Word) : Statement (.retImm data) := of_length 3 rfl rfl
theorem ret : Statement (.ret) := of_length 1 rfl rfl
theorem les (r : Reg16) (m : Mem) : Statement (.les r m) := length_cons_encodeMem _ _ m
theorem lds (r : Reg16) (m : Mem) : Statement (.lds r m) := length_cons_encodeMem _ _ m
theorem movRmImm (imm : Imm) (rm : RM) : Statement (.movRmImm imm rm) :=
  length_encodeRmImm _ _ imm rm
theorem retfImm (data : Word) : Statement (.retfImm data) := of_length 3 rfl rfl
theorem retf : Statement (.retf) := of_length 1 rfl rfl
theorem int3 : Statement (.int3) := of_length 1 rfl rfl
theorem intN (type : Byte) : Statement (.intN type) := of_length 2 rfl rfl
theorem into : Statement (.into) := of_length 1 rfl rfl
theorem iret : Statement (.iret) := of_length 1 rfl rfl
theorem rol (cnt : ShiftCount) (w : Width) (rm : RM) : Statement (.rol cnt w rm) :=
  length_cons_encodeRM _ _ rm
theorem ror (cnt : ShiftCount) (w : Width) (rm : RM) : Statement (.ror cnt w rm) :=
  length_cons_encodeRM _ _ rm
theorem rcl (cnt : ShiftCount) (w : Width) (rm : RM) : Statement (.rcl cnt w rm) :=
  length_cons_encodeRM _ _ rm
theorem rcr (cnt : ShiftCount) (w : Width) (rm : RM) : Statement (.rcr cnt w rm) :=
  length_cons_encodeRM _ _ rm
theorem shl (cnt : ShiftCount) (w : Width) (rm : RM) : Statement (.shl cnt w rm) :=
  length_cons_encodeRM _ _ rm
theorem shr (cnt : ShiftCount) (w : Width) (rm : RM) : Statement (.shr cnt w rm) :=
  length_cons_encodeRM _ _ rm
theorem sar (cnt : ShiftCount) (w : Width) (rm : RM) : Statement (.sar cnt w rm) :=
  length_cons_encodeRM _ _ rm
theorem aam : Statement (.aam) := of_length 2 rfl rfl
theorem aad : Statement (.aad) := of_length 2 rfl rfl
theorem xlat : Statement (.xlat) := of_length 1 rfl rfl
theorem esc (code : BitVec 6) (rm : RM) : Statement (.esc code rm) := length_cons_encodeRM _ _ rm
theorem loopne (disp : Byte) : Statement (.loopne disp) := of_length 2 rfl rfl
theorem loope (disp : Byte) : Statement (.loope disp) := of_length 2 rfl rfl
theorem loop (disp : Byte) : Statement (.loop disp) := of_length 2 rfl rfl
theorem jcxz (disp : Byte) : Statement (.jcxz disp) := of_length 2 rfl rfl
theorem inImm (w : Width) (port : Byte) : Statement (.inImm w port) := of_length 2 rfl rfl
theorem outImm (w : Width) (port : Byte) : Statement (.outImm w port) := of_length 2 rfl rfl
theorem callRel (disp : Word) : Statement (.callRel disp) := of_length 3 rfl rfl
theorem jmpRel16 (disp : Word) : Statement (.jmpRel16 disp) := of_length 3 rfl rfl
theorem jmpFar (off seg : Word) : Statement (.jmpFar off seg) := of_length 5 rfl rfl
theorem jmpRel8 (disp : Byte) : Statement (.jmpRel8 disp) := of_length 2 rfl rfl
theorem inDx (w : Width) : Statement (.inDx w) := of_length 1 rfl rfl
theorem outDx (w : Width) : Statement (.outDx w) := of_length 1 rfl rfl
theorem lock : Statement (.lock) := of_length 1 rfl rfl
theorem repne : Statement (.repne) := of_length 1 rfl rfl
theorem rep : Statement (.rep) := of_length 1 rfl rfl
theorem hlt : Statement (.hlt) := of_length 1 rfl rfl
theorem cmc : Statement (.cmc) := of_length 1 rfl rfl
theorem testImm (imm : Imm) (rm : RM) : Statement (.testImm imm rm) := length_encodeRmImm _ _ imm rm
theorem notRm (w : Width) (rm : RM) : Statement (.notRm w rm) := length_cons_encodeRM _ _ rm
theorem negRm (w : Width) (rm : RM) : Statement (.negRm w rm) := length_cons_encodeRM _ _ rm
theorem mulRm (w : Width) (rm : RM) : Statement (.mulRm w rm) := length_cons_encodeRM _ _ rm
theorem imulRm (w : Width) (rm : RM) : Statement (.imulRm w rm) := length_cons_encodeRM _ _ rm
theorem divRm (w : Width) (rm : RM) : Statement (.divRm w rm) := length_cons_encodeRM _ _ rm
theorem idivRm (w : Width) (rm : RM) : Statement (.idivRm w rm) := length_cons_encodeRM _ _ rm
theorem clc : Statement (.clc) := of_length 1 rfl rfl
theorem stc : Statement (.stc) := of_length 1 rfl rfl
theorem cli : Statement (.cli) := of_length 1 rfl rfl
theorem sti : Statement (.sti) := of_length 1 rfl rfl
theorem cld : Statement (.cld) := of_length 1 rfl rfl
theorem std : Statement (.std) := of_length 1 rfl rfl
theorem incRm (w : Width) (rm : RM) : Statement (.incRm w rm) := length_cons_encodeRM _ _ rm
theorem decRm (w : Width) (rm : RM) : Statement (.decRm w rm) := length_cons_encodeRM _ _ rm
theorem callRm (rm : RM) : Statement (.callRm rm) := length_cons_encodeRM _ _ rm
theorem callFarMem (m : Mem) : Statement (.callFarMem m) := length_cons_encodeMem _ _ m
theorem jmpRm (rm : RM) : Statement (.jmpRm rm) := length_cons_encodeRM _ _ rm
theorem jmpFarMem (m : Mem) : Statement (.jmpFarMem m) := length_cons_encodeMem _ _ m
theorem pushRm (rm : RM) : Statement (.pushRm rm) := length_cons_encodeRM _ _ rm

end Sys2Proof.Laws.EncodeLength
end

