-- ==== Sys2Proof/Laws/Registers.lean ====
section
/-! SUPPORT. Registers: reading after writing, by name, by half and by number (spec/10_state.md R21 to
R23, R30). -/

namespace Sys2Proof.Machine

theorem Regs.get_set (g : Regs) (r r' : Reg16) (v : Word) :
    (g.set r v).get r' = if r' = r then v else g.get r' := by
  cases r <;> cases r' <;> rfl

@[simp] theorem Regs.get_set_same (g : Regs) (r : Reg16) (v : Word) : (g.set r v).get r = v := by
  cases r <;> rfl

theorem Regs.get_set_other (g : Regs) {r r' : Reg16} (v : Word) (h : r' ≠ r) :
    (g.set r v).get r' = g.get r' := by rw [Regs.get_set, if_neg h]

@[simp] theorem Regs.set_set (g : Regs) (r : Reg16) (v v' : Word) :
    (g.set r v).set r v' = g.set r v' := by cases r <;> rfl

@[simp] theorem Regs.set_get (g : Regs) (r : Reg16) : g.set r (g.get r) = g := by cases r <;> rfl

/-- Two register files with the same eight registers are one. -/
theorem Regs.ext_get {g h : Regs} (e : ∀ r, g.get r = h.get r) : g = h := by
  obtain ⟨a, b, c, d, e', f, i, j⟩ := g
  obtain ⟨a', b', c', d', e'', f', i', j'⟩ := h
  have := e .ax; have := e .bx; have := e .cx; have := e .dx
  have := e .sp; have := e .bp; have := e .si; have := e .di
  simp_all [Regs.get]

theorem Segs.get_set (g : Segs) (r r' : SegReg) (v : Word) :
    (g.set r v).get r' = if r' = r then v else g.get r' := by
  cases r <;> cases r' <;> rfl

@[simp] theorem Segs.get_set_same (g : Segs) (r : SegReg) (v : Word) : (g.set r v).get r = v := by
  cases r <;> rfl

/-! ## 16-bit registers of a state -/

theorem reg16_of_regs {s t : State} (h : t.regs = s.regs) (r : Reg16) : t.reg16 r = s.reg16 r := by
  rw [State.reg16, State.reg16, h]

theorem reg8_of_regs {s t : State} (h : t.regs = s.regs) (r : Reg8) : t.reg8 r = s.reg8 r := by
  rw [State.reg8, State.reg8, reg16_of_regs h]

@[simp] theorem reg16_setReg16_same (s : State) (r : Reg16) (v : Word) :
    (s.setReg16 r v).reg16 r = v := Regs.get_set_same _ _ _

theorem reg16_setReg16_other (s : State) {r r' : Reg16} (v : Word) (h : r' ≠ r) :
    (s.setReg16 r v).reg16 r' = s.reg16 r' := Regs.get_set_other _ _ h

theorem reg16_setReg16 (s : State) (r r' : Reg16) (v : Word) :
    (s.setReg16 r v).reg16 r' = if r' = r then v else s.reg16 r' := Regs.get_set _ _ _ _

/-! ## 8-bit registers -/

/-- Two 8-bit registers of one word that are both its high or both its low half are one. -/
theorem reg8_eq_of_half {a b : Reg8} (hw : wordReg a = wordReg b) (hh : isHighHalf a = isHighHalf b) :
    a = b := by
  cases a <;> cases b <;> simp_all [wordReg, isHighHalf]

@[simp] theorem reg8_setReg8_same (s : State) (r : Reg8) (v : Byte) : (s.setReg8 r v).reg8 r = v := by
  simp only [State.reg8, State.setReg8, reg16_setReg16_same]
  cases isHighHalf r <;> simp

theorem reg8_setReg8_other (s : State) {r r' : Reg8} (v : Byte) (h : r' ≠ r) :
    (s.setReg8 r v).reg8 r' = s.reg8 r' := by
  simp only [State.reg8, State.setReg8, reg16_setReg16]
  by_cases hw : wordReg r' = wordReg r
  · rw [if_pos hw, hw]
    have hh : isHighHalf r' ≠ isHighHalf r := fun e => h (reg8_eq_of_half hw e)
    cases hr : isHighHalf r <;> cases hr' : isHighHalf r' <;> simp_all
  · rw [if_neg hw]

/-- A write to a half leaves the words of the other registers. -/
theorem reg16_setReg8_other (s : State) {r : Reg8} {r' : Reg16} (v : Byte) (h : r' ≠ wordReg r) :
    (s.setReg8 r v).reg16 r' = s.reg16 r' := reg16_setReg16_other _ _ h

@[simp] theorem setReg8_ip (s : State) (r : Reg8) (v : Byte) : (s.setReg8 r v).ip = s.ip := rfl
@[simp] theorem setReg8_segs (s : State) (r : Reg8) (v : Byte) : (s.setReg8 r v).segs = s.segs := rfl
@[simp] theorem setReg8_flags (s : State) (r : Reg8) (v : Byte) :
    (s.setReg8 r v).flags = s.flags := rfl
@[simp] theorem setReg8_mem (s : State) (r : Reg8) (v : Byte) : (s.setReg8 r v).mem = s.mem := rfl
@[simp] theorem setReg8_written (s : State) (r : Reg8) (v : Byte) :
    (s.setReg8 r v).written = s.written := rfl

/-! ## Registers by number and width -/

@[simp] theorem readReg_writeReg_same (s : State) (w : Width) (i : RegNum) (v : BitVec w.bits) :
    (s.writeReg w i v).readReg w i = v := by
  cases w
  · exact reg8_setReg8_same s _ v
  · exact reg16_setReg16_same s _ v

/-- A write to a register by number changes that register and nothing else among the registers. -/
theorem keepsRegsBut_writeReg (s : State) (w : Width) (i : RegNum) (v : BitVec w.bits) :
    KeepsRegsBut w (.reg i) s (s.writeReg w i v) := by
  cases w
  · exact ⟨fun r h => reg8_setReg8_other s v h, fun r h => reg16_setReg8_other s v h⟩
  · exact fun r h => reg16_setReg16_other s v h

/-! ## Operands at places -/

/-- Reading a place again after it was written: registers and RAM keep what is stored. -/
theorem readAt_writeAt_same {s : State} (h : Memory.wf s.mem) (w : Width) {p : Place}
    (hk : AllRam (p.bytes w) s) (v : BitVec w.bits) : (s.writeAt w p v).readAt w p = v := by
  cases p
  · exact readReg_writeReg_same s w _ v
  · exact readMem_writeMem_same h w hk v

/-- What a write to a place leaves there. -/
theorem stored_writeAt {s : State} (h : Memory.wf s.mem) (w : Width) (p : Place) (v : BitVec w.bits) :
    Stored w p v s (s.writeAt w p v) := by
  cases p
  · exact readReg_writeReg_same s w _ v
  · exact stored_writeMem h w _ _ v

/-- A change that leaves the map alone, before a store. -/
theorem Stored.of_eq {w : Width} {p : Place} {v : BitVec w.bits} {s s' t : State}
    (h : Stored w p v s' t) (hk : s'.memMap = s.memMap) : Stored w p v s t := by
  cases p with
  | reg i => exact h
  | mem seg off =>
    exact ⟨fun hr => h.1 ((kindAt_of_eq hk _).trans hr),
      fun hw hr => h.2 hw ((kindAt_of_eq hk _).trans hr)⟩

theorem keepsRegsBut_writeAt (s : State) (w : Width) (p : Place) (v : BitVec w.bits) :
    KeepsRegsBut w p s (s.writeAt w p v) := by
  cases p with
  | reg i => exact keepsRegsBut_writeReg s w i v
  | mem seg off => cases w <;> rfl

/-- Reading a place depends on the registers, memory, its map and the count of draws alone. -/
theorem readAt_of_eq {s t : State} (hr : t.regs = s.regs) (hm : t.mem = s.mem)
    (hk : t.memMap = s.memMap) (hd : t.draws = s.draws) (w : Width) (p : Place) :
    t.readAt w p = s.readAt w p := by
  cases p <;> cases w <;>
    simp [State.readAt, State.readReg, State.readMem, State.read16, State.read8, State.reg8,
      State.reg16, readByte_of_eq hm hk hd, hr]

/-- A place depends on the registers, the segment registers and the prefixes alone. -/
theorem place_of_eq {s t : State} (hr : t.regs = s.regs) (hs : t.segs = s.segs)
    (hp : t.prefixes = s.prefixes) (rm : RM) : place rm t = place rm s := by
  cases rm with
  | reg i => rfl
  | mem m =>
    have hb : ∀ b, eaBase t b = eaBase s b := fun b => by cases b <;> simp [eaBase, hr]
    cases m <;> simp [place, memPlace, State.dataSeg, State.seg, effAddr, hb, hs, hp]

/-! ## Frames -/

theorem SameHidden.refl (s : State) : SameHidden s s :=
  ⟨rfl, rfl, rfl, rfl, rfl, rfl, rfl, rfl, rfl, rfl, rfl, rfl, rfl, rfl⟩

theorem sameHidden_writeAt {s s' : State} (h : SameHidden s s') (w : Width) (p : Place)
    (v : BitVec w.bits) : SameHidden s (s'.writeAt w p v) := by
  obtain ⟨h1, h2, h3, h4, h5, h6, h7, h8, h9, h10, h11, h12, h13, h14⟩ := h
  exact ⟨by simpa, by simpa, by simpa, by simpa, by simpa, by simpa, by simpa, by simpa, by simpa,
    by simpa, by simpa, by simpa, by simpa, by simpa⟩

/-- A change of status flags and draws alone, followed by a store to a place, is what `WritesOnly`
says. -/
theorem RegsOnly.writeAt {s s' : State} (h : RegsOnly [] s s') (hm : s'.mem = s.mem)
    (hw : s'.written = s.written) (w : Width) (p : Place) (v : BitVec w.bits) :
    WritesOnly w p s (s'.writeAt w p v) := by
  refine ⟨?_, by simpa using h.segs, by simpa using h.ip, by simpa [KeepsControlFlags] using h.control,
    (storesOnly_writeAt s' w p v).of_eq hm h.hidden.memMap hw, sameHidden_writeAt h.hidden w p v⟩
  have hk := keepsRegsBut_writeAt s' w p v
  have hr : s'.regs = s.regs := Regs.ext_get fun r => h.regs r (by simp)
  have h16 := reg16_of_regs hr
  have h8 := reg8_of_regs hr
  revert hk
  cases p with
  | mem seg off => exact fun hk => hk.trans hr
  | reg i =>
    cases w with
    | byte =>
      exact fun hk => ⟨fun r hr => (hk.1 r hr).trans (h8 r), fun r hr => (hk.2 r hr).trans (h16 r)⟩
    | word => exact fun hk r hr => (hk r hr).trans (h16 r)

/-- Replacing the flags, with the control flags kept, changes no register and stores nothing. -/
theorem regsOnly_setFlags (s : State) (f : Flags) (ht : f.tf = s.flags.tf) (hi : f.ifl = s.flags.ifl)
    (hd : f.df = s.flags.df) : RegsOnly [] s (s.setFlags f) :=
  ⟨fun _ _ => rfl, rfl, rfl, ⟨ht, hi, hd⟩, ⟨fun _ _ => rfl, fun _ => by simp⟩,
    ⟨rfl, rfl, rfl, rfl, rfl, rfl, rfl, rfl, rfl, rfl, rfl, rfl, rfl, rfl⟩⟩

end Sys2Proof.Machine
end

