-- ==== Sys2Proof/Laws/Step.lean ====
section
/-! SUPPORT. What one step can do, said once: the cases of `step`, of `runNext` and of `accept`. -/

namespace Sys2Proof.Machine

/-- A step that answers a next state took a reset, accepted an interrupt, or went on. -/
theorem step_cases {s t : State} (h : step s = .next t) :
    (s.samplePins.pins.reset = true ∧ t = s.samplePins.resetEvent) ∨
    (∃ type u, s.samplePins.recognise = some (type, u) ∧ s.samplePins.pins.reset = false ∧
      s.samplePins.intShadow = false ∧ u.accept type = .next t) ∨
    (s.samplePins.pins.reset = false ∧ runNext exec s.samplePins = .next t) := by
  unfold step cycle cycleSampled at h
  split at h
  · exact .inl ⟨‹_›, by simpa using h.symm⟩
  · have hr : s.samplePins.pins.reset = false := Bool.eq_false_iff.2 ‹_›
    split at h
    · exact .inr (.inr ⟨hr, h⟩)
    · split at h
      · exact .inr (.inr ⟨hr, h⟩)
      · split at h
        · exact .inr (.inr ⟨hr, h⟩)
        · exact .inr (.inl ⟨_, _, ‹_›, hr, Bool.eq_false_iff.2 ‹_›, h⟩)

/-- An answer of `completeRes` comes from an answer. -/
theorem completeRes_next {tf : Bool} {r : Res} {t : State} (h : completeRes tf r = .next t) :
    ∃ u, r = .next u ∧ t = u.complete tf := by
  cases r with
  | next u => exact ⟨u, rfl, by simpa [completeRes] using h.symm⟩
  | fault f => cases h
  | refused r => cases h

/-- What a step does when it accepts nothing: the processor stays halted, waits on or ends its wait, a
repeat goes on, or the instruction at CS:IP is fetched and runs. -/
theorem runNext_cases {s t : State} (h : runNext exec s = .next t) :
    (s.halted = true ∧ t = s.clearShadow) ∨
    (s.halted = false ∧ s.waiting = true ∧ s.pins.test = true ∧ t = s.endWait) ∨
    (s.halted = false ∧ s.waiting = true ∧ s.pins.test = false ∧ t = s.clearShadow) ∨
    (∃ r u, s.halted = false ∧ s.waiting = false ∧ s.repeating = some r ∧
      exec (r.op.instr r.width) (s.clearShadow.resume r) = .next u ∧
      t = u.complete s.flags.tf) ∨
    (∃ d u, s.halted = false ∧ s.waiting = false ∧ s.repeating = none ∧
      decode (s.fetchBytes maxLength) = .ok d ∧
      s.runsWrittenCode d.length = false ∧
      runRows exec (d.prefixes ++ [d.instr]) (s.clearShadow.begin d.length) =
        .next u ∧
      t = u.complete s.flags.tf) := by
  unfold runNext at h
  split at h
  · exact .inl ⟨‹_›, by simpa using h.symm⟩
  · have hh : s.halted = false := Bool.eq_false_iff.2 ‹_›
    split at h
    · split at h
      · exact .inr (.inl ⟨hh, ‹_›, ‹_›, by simpa using h.symm⟩)
      · exact .inr (.inr (.inl ⟨hh, ‹_›, Bool.eq_false_iff.2 ‹_›, by simpa using h.symm⟩))
    · have hw : s.waiting = false := Bool.eq_false_iff.2 ‹_›
      split at h
      · obtain ⟨u, hu, rfl⟩ := completeRes_next h
        exact .inr (.inr (.inr (.inl ⟨_, u, hh, hw, ‹_›, hu, rfl⟩)))
      · unfold runFetched at h
        split at h
        · cases h
        · split at h
          · cases h
          · obtain ⟨u, hu, rfl⟩ := completeRes_next h
            exact .inr (.inr (.inr (.inr ⟨_, u, hh, hw, ‹_›, ‹_›, Bool.eq_false_iff.2 ‹_›, hu, rfl⟩)))

/-- A waiting processor that accepts nothing fetches nothing: whatever stands at CS:IP, only TEST ends
the wait (R288, R376). -/
theorem runNext_waiting {s : State} (hh : s.halted = false) (hw : s.waiting = true) :
    runNext exec s = .next (if s.pins.test then s.endWait else s.clearShadow) := by
  simp [runNext, hh, hw]

/-- The request recognised first (R357), and what taking it changes. -/
theorem recognise_cases {s u : State} {type : Byte} (h : s.recognise = some (type, u)) :
    (s.nmiLatch = true ∧ type = 2#8 ∧ u = s.takeNmi) ∨
    (s.nmiLatch = false ∧ s.flags.ifl = true ∧ s.pins.intr = some type ∧ u = s) ∨
    (s.nmiLatch = false ∧ s.maskedIntr = none ∧ s.trapPending = true ∧ type = 1#8 ∧
      u = s.takeTrap) := by
  unfold State.recognise at h
  split at h
  · simp only [Option.some.injEq, Prod.mk.injEq] at h
    exact .inl ⟨‹_›, h.1.symm, h.2.symm⟩
  · have hn : s.nmiLatch = false := Bool.eq_false_iff.2 ‹_›
    split at h
    · next hm =>
      simp only [Option.some.injEq, Prod.mk.injEq] at h
      obtain ⟨rfl, rfl⟩ := h
      unfold State.maskedIntr at hm
      split at hm
      · exact .inr (.inl ⟨hn, ‹_›, hm, rfl⟩)
      · cases hm
    · split at h
      · simp only [Option.some.injEq, Prod.mk.injEq] at h
        exact .inr (.inr ⟨hn, ‹_›, ‹_›, h.1.symm, h.2.symm⟩)
      · cases h

/-- An accepted interrupt is `interrupt` with the return offset (R355, R356). -/
theorem accept_next {s t : State} {type : Byte} (h : s.accept type = .next t) :
    s.repeating.any (fun r => r.prefixes.hasSegOrLock) = false ∧
      t = s.dropRepeat.interrupt type s.returnOffset := by
  unfold State.accept at h
  split at h
  · cases h
  · exact ⟨Bool.eq_false_iff.2 ‹_›, by simpa using h.symm⟩

/-- In a quiet state a step looks at no pin and takes no interrupt: it goes on. -/
theorem step_of_quiet {s : State} (h : Quiet s) : step s = runNext exec s := by
  have hp : s.samplePins = s := by simp [State.samplePins, h.schedule]
  have hi : s.maskedIntr = none := by
    rcases h.intr with hi | hi <;> simp [State.maskedIntr, hi]
  have hr : s.recognise = none := by simp [State.recognise, h.nmi, hi, h.trap]
  simp [step, cycle, cycleSampled, hp, h.reset, hr]

/-- Running rows one after another, split at any place. -/
theorem runRows_append (rows rest : List Instr) (s : State) :
    runRows exec (rows ++ rest) s =
      match runRows exec rows s with
      | .next s' => runRows exec rest s'
      | .fault f => .fault f
      | .refused r => .refused r := by
  induction rows generalizing s with
  | nil => rfl
  | cons i rows ih =>
    simp only [List.cons_append, runRows]
    cases exec i s <;> simp [ih]

@[simp] theorem runRows_single (i : Instr) (s : State) : runRows exec [i] s = exec i s := by
  simp only [runRows]
  cases exec i s <;> rfl

end Sys2Proof.Machine
end

