-- ==== Sys2Proof/Machine/Names.lean ====
section
/-! DEFINITION. The mnemonics of the source and of common assemblers for each instruction
(spec/30_encoding.md R136). -/

namespace Sys2Proof

/-- The mnemonics that assemble to the instruction, each as R136 writes it: the synonyms are names of one
instruction, none is an instruction of its own, and a string instruction has its name without a width and
the name of its width. A segment override has the spelling of spec/95_test_vectors.md (`ES: MOVSB`). -/
def Instr.names : Instr → List String
  -- 00H to 3FH (R111)
  | .addRm _ _ _ _ => ["ADD"]
  | .addAcc _ => ["ADD"]
  | .orRm _ _ _ _ => ["OR"]
  | .orAcc _ => ["OR"]
  | .adcRm _ _ _ _ => ["ADC"]
  | .adcAcc _ => ["ADC"]
  | .sbbRm _ _ _ _ => ["SBB"]
  | .sbbAcc _ => ["SBB"]
  | .andRm _ _ _ _ => ["AND"]
  | .andAcc _ => ["AND"]
  | .subRm _ _ _ _ => ["SUB"]
  | .subAcc _ => ["SUB"]
  | .xorRm _ _ _ _ => ["XOR"]
  | .xorAcc _ => ["XOR"]
  | .cmpRm _ _ _ _ => ["CMP"]
  | .cmpAcc _ => ["CMP"]
  | .pushSreg _ => ["PUSH"]
  | .popSreg _ => ["POP"]
  | .segOverride .es => ["ES:"]
  | .segOverride .cs => ["CS:"]
  | .segOverride .ss => ["SS:"]
  | .segOverride .ds => ["DS:"]
  | .daa => ["DAA"]
  | .das => ["DAS"]
  | .aaa => ["AAA"]
  | .aas => ["AAS"]
  -- 40H to 5FH (R112)
  | .incReg _ => ["INC"]
  | .decReg _ => ["DEC"]
  | .pushReg _ => ["PUSH"]
  | .popReg _ => ["POP"]
  -- 70H to 7FH (R113)
  | .jo _ => ["JO"]
  | .jno _ => ["JNO"]
  | .jb _ => ["JB", "JNAE", "JC"]
  | .jae _ => ["JAE", "JNB", "JNC"]
  | .je _ => ["JE", "JZ"]
  | .jne _ => ["JNE", "JNZ"]
  | .jbe _ => ["JBE", "JNA"]
  | .ja _ => ["JA", "JNBE"]
  | .js _ => ["JS"]
  | .jns _ => ["JNS"]
  | .jp _ => ["JP", "JPE"]
  | .jnp _ => ["JNP", "JPO"]
  | .jl _ => ["JL", "JNGE"]
  | .jge _ => ["JGE", "JNL"]
  | .jle _ => ["JLE", "JNG"]
  | .jg _ => ["JG", "JNLE"]
  -- 80H to 8FH (R114)
  | .addImm _ _ => ["ADD"]
  | .orImm _ _ => ["OR"]
  | .adcImm _ _ => ["ADC"]
  | .sbbImm _ _ => ["SBB"]
  | .andImm _ _ => ["AND"]
  | .subImm _ _ => ["SUB"]
  | .xorImm _ _ => ["XOR"]
  | .cmpImm _ _ => ["CMP"]
  | .testRm _ _ _ => ["TEST"]
  | .xchgRm _ _ _ => ["XCHG"]
  | .movRm _ _ _ _ => ["MOV"]
  | .movRmSreg _ _ => ["MOV"]
  | .lea _ _ => ["LEA"]
  | .movSregRm _ _ => ["MOV"]
  | .popRm _ => ["POP"]
  -- 90H to 9FH (R115)
  | .nop => ["NOP", "XCHG"]
  | .xchgAcc _ => ["XCHG"]
  | .cbw => ["CBW"]
  | .cwd => ["CWD"]
  | .callFar _ _ => ["CALL"]
  | .wait => ["WAIT", "FWAIT"]
  | .pushf => ["PUSHF"]
  | .popf => ["POPF"]
  | .sahf => ["SAHF"]
  | .lahf => ["LAHF"]
  -- A0H to AFH (R116)
  | .movAccMoffs _ _ => ["MOV"]
  | .movMoffsAcc _ _ => ["MOV"]
  | .movs .byte => ["MOVS", "MOVSB"]
  | .movs .word => ["MOVS", "MOVSW"]
  | .cmps .byte => ["CMPS", "CMPSB"]
  | .cmps .word => ["CMPS", "CMPSW"]
  | .testAcc _ => ["TEST"]
  | .stos .byte => ["STOS", "STOSB"]
  | .stos .word => ["STOS", "STOSW"]
  | .lods .byte => ["LODS", "LODSB"]
  | .lods .word => ["LODS", "LODSW"]
  | .scas .byte => ["SCAS", "SCASB"]
  | .scas .word => ["SCAS", "SCASW"]
  -- B0H to BFH (R117)
  | .movRegImm _ _ => ["MOV"]
  -- C0H to CFH (R118)
  | .retImm _ => ["RET", "RETN"]
  | .ret => ["RET", "RETN"]
  | .les _ _ => ["LES"]
  | .lds _ _ => ["LDS"]
  | .movRmImm _ _ => ["MOV"]
  | .retfImm _ => ["RET", "RETF"]
  | .retf => ["RET", "RETF"]
  | .int3 => ["INT 3"]
  | .intN _ => ["INT"]
  | .into => ["INTO"]
  | .iret => ["IRET"]
  -- D0H to DFH (R119)
  | .rol _ _ _ => ["ROL"]
  | .ror _ _ _ => ["ROR"]
  | .rcl _ _ _ => ["RCL"]
  | .rcr _ _ _ => ["RCR"]
  | .shl _ _ _ => ["SHL", "SAL"]
  | .shr _ _ _ => ["SHR"]
  | .sar _ _ _ => ["SAR"]
  | .aam => ["AAM"]
  | .aad => ["AAD"]
  | .xlat => ["XLAT", "XLATB"]
  | .esc _ _ => ["ESC"]
  -- E0H to EFH (R120)
  | .loopne _ => ["LOOPNZ", "LOOPNE"]
  | .loope _ => ["LOOPZ", "LOOPE"]
  | .loop _ => ["LOOP"]
  | .jcxz _ => ["JCXZ"]
  | .inImm _ _ => ["IN"]
  | .outImm _ _ => ["OUT"]
  | .callRel _ => ["CALL"]
  | .jmpRel16 _ => ["JMP"]
  | .jmpFar _ _ => ["JMP"]
  | .jmpRel8 _ => ["JMP"]
  | .inDx _ => ["IN"]
  | .outDx _ => ["OUT"]
  -- F0H to FFH (R121)
  | .lock => ["LOCK"]
  | .repne => ["REPNE", "REPNZ"]
  | .rep => ["REP", "REPE", "REPZ"]
  | .hlt => ["HLT"]
  | .cmc => ["CMC"]
  | .testImm _ _ => ["TEST"]
  | .notRm _ _ => ["NOT"]
  | .negRm _ _ => ["NEG"]
  | .mulRm _ _ => ["MUL"]
  | .imulRm _ _ => ["IMUL"]
  | .divRm _ _ => ["DIV"]
  | .idivRm _ _ => ["IDIV"]
  | .clc => ["CLC"]
  | .stc => ["STC"]
  | .cli => ["CLI"]
  | .sti => ["STI"]
  | .cld => ["CLD"]
  | .std => ["STD"]
  | .incRm _ _ => ["INC"]
  | .decRm _ _ => ["DEC"]
  | .callRm _ => ["CALL"]
  | .callFarMem _ => ["CALL"]
  | .jmpRm _ => ["JMP"]
  | .jmpFarMem _ => ["JMP"]
  | .pushRm _ => ["PUSH"]

end Sys2Proof
end

