-- ==== Sys2Proof/Tests/Slice0.lean ====
section
/-! SUPPORT. The model's own tests: the terms WellFormed refuses, every constructor's decoding from a
word written out from the spec's encoding tables, single steps from spec/95_test_vectors.md and the
examples of the instruction rules, and a witness for the hypotheses of each statement. -/

namespace Sys2Proof.Machine

/-- Bytes of data at `seg:off`. -/
def State.withData (s : State) (seg off : Word) : List Byte → State
  | [] => s
  | b :: rest =>
    withData { s with mem := Memory.write s.mem (physAddr seg off).toNat b } seg (off + 1#16) rest

end Sys2Proof.Machine

namespace Sys2Proof.Tests

open Sys2Proof.Machine

/-! ## WellFormed -/

/-- `[BP]` without a displacement has no encoding, wherever the operand stands (R80, R104). -/
theorem test_wf_plain_bp : (Instr.addRm .toReg .word .r0 (.mem (.plain .bp))).wellFormed = false ∧
    (Instr.movSregRm .ds (.mem (.plain .bp))).wellFormed = false ∧
    (Instr.lea .ax (.plain .bp)).wellFormed = false ∧
    (Instr.lea .ax (.disp8 .bp 0#8)).wellFormed = true := by decide

/-- CS is no destination of MOV (R31, R153). -/
theorem test_wf_mov_cs : (Instr.movSregRm .cs (.reg .r0)).wellFormed = false ∧
    (Instr.movRmSreg .cs (.reg .r0)).wellFormed = true := by decide

/-- CS is no destination of POP (R31, R157). -/
theorem test_wf_pop_cs : (Instr.popSreg .cs).wellFormed = false ∧
    (Instr.pushSreg .cs).wellFormed = true := by decide

/-- 90H is NOP, not XCHG AX,AX (R115). -/
theorem test_wf_xchg_ax : (Instr.xchgAcc .ax).wellFormed = false ∧
    (Instr.xchgAcc .cx).wellFormed = true := by decide

/-! ## Decoding: one word of each constructor (R111 to R121) -/

/-- The bytes decode to the row, with nothing left. -/
def reads (p : List Byte × Instr) : Bool :=
  match decodeRow p.1 with
  | .ok (i, rest) => decide (i = p.2) && rest.isEmpty
  | .error _ => false

theorem test_decode_00_alu : [
    ([0x00#8, 0xC8#8], Instr.addRm .toRm .byte .r1 (.reg .r0)),
    ([0x05#8, 0x34#8, 0x12#8], .addAcc (.w 0x1234#16)),
    ([0x0B#8, 0x07#8], .orRm .toReg .word .r0 (.mem (.plain .bx))),
    ([0x0D#8, 0x08#8, 0x00#8], .orAcc (.w 0x0008#16)),
    ([0x11#8, 0xD8#8], .adcRm .toRm .word .r3 (.reg .r0)),
    ([0x14#8, 0x0F#8], .adcAcc (.b 0x0F#8)),
    ([0x19#8, 0xD1#8], .sbbRm .toRm .word .r2 (.reg .r1)),
    ([0x1C#8, 0x01#8], .sbbAcc (.b 0x01#8)),
    ([0x22#8, 0x46#8, 0xFE#8], .andRm .toReg .byte .r0 (.mem (.disp8 .bp 0xFE#8))),
    ([0x25#8, 0x08#8, 0x00#8], .andAcc (.w 0x0008#16)),
    ([0x29#8, 0xD3#8], .subRm .toRm .word .r2 (.reg .r3)),
    ([0x2C#8, 0x01#8], .subAcc (.b 0x01#8)),
    ([0x31#8, 0x06#8, 0x00#8, 0x50#8], .xorRm .toRm .word .r0 (.mem (.direct 0x5000#16))),
    ([0x35#8, 0x18#8, 0x00#8], .xorAcc (.w 0x0018#16)),
    ([0x38#8, 0x80#8, 0x34#8, 0x12#8], .cmpRm .toRm .byte .r0 (.mem (.disp16 .bxSi 0x1234#16))),
    ([0x3D#8, 0x98#8, 0x10#8], .cmpAcc (.w 0x1098#16))].all reads = true := by decide

theorem test_decode_00_rest : [
    ([0x0E#8], Instr.pushSreg .cs), ([0x1F#8], .popSreg .ds), ([0x36#8], .segOverride .ss),
    ([0x27#8], .daa), ([0x2F#8], .das), ([0x37#8], .aaa), ([0x3F#8], .aas),
    ([0x43#8], .incReg .bx), ([0x48#8], .decReg .ax), ([0x54#8], .pushReg .sp),
    ([0x5F#8], .popReg .di)].all reads = true := by decide

theorem test_decode_70 : [
    ([0x70#8, 0x05#8], Instr.jo 0x05#8), ([0x71#8, 0x05#8], .jno 0x05#8),
    ([0x72#8, 0x05#8], .jb 0x05#8), ([0x73#8, 0x05#8], .jae 0x05#8),
    ([0x74#8, 0x05#8], .je 0x05#8), ([0x75#8, 0x05#8], .jne 0x05#8),
    ([0x76#8, 0x05#8], .jbe 0x05#8), ([0x77#8, 0x05#8], .ja 0x05#8),
    ([0x78#8, 0x05#8], .js 0x05#8), ([0x79#8, 0x05#8], .jns 0x05#8),
    ([0x7A#8, 0x05#8], .jp 0x05#8), ([0x7B#8, 0x05#8], .jnp 0x05#8),
    ([0x7C#8, 0x05#8], .jl 0x05#8), ([0x7D#8, 0x05#8], .jge 0x05#8),
    ([0x7E#8, 0x05#8], .jle 0x05#8), ([0x7F#8, 0x05#8], .jg 0x05#8)].all reads = true := by decide

theorem test_decode_80 : [
    ([0x83#8, 0xC3#8, 0xFF#8], Instr.addImm (.ewSigned 0xFF#8) (.reg .r3)),
    ([0x80#8, 0x0F#8, 0x40#8], .orImm (.b 0x40#8) (.mem (.plain .bx))),
    ([0x82#8, 0xD1#8, 0x01#8], .adcImm (.ebTwin 0x01#8) (.reg .r1)),
    ([0x81#8, 0xDA#8, 0x34#8, 0x12#8], .sbbImm (.ew 0x1234#16) (.reg .r2)),
    ([0x81#8, 0xE3#8, 0x0F#8, 0x00#8], .andImm (.w 0x000F#16) (.reg .r3)),
    ([0x80#8, 0x2C#8, 0x07#8], .subImm (.eb 0x07#8) (.mem (.plain .si))),
    ([0x80#8, 0xF1#8, 0x55#8], .xorImm (.b 0x55#8) (.reg .r1)),
    ([0x83#8, 0x7D#8, 0x02#8, 0x80#8], .cmpImm (.ewSigned 0x80#8) (.mem (.disp8 .di 0x02#8))),
    ([0x84#8, 0xE1#8], .testRm .byte .r4 (.reg .r1)),
    ([0x86#8, 0x07#8], .xchgRm .byte .r0 (.mem (.plain .bx))),
    ([0x8A#8, 0x48#8, 0x10#8], .movRm .toReg .byte .r1 (.mem (.disp8 .bxSi 0x10#8))),
    ([0x8C#8, 0xC8#8], .movRmSreg .cs (.reg .r0)),
    ([0x8D#8, 0x1B#8], .lea .bx (.plain .bpDi)),
    ([0x8E#8, 0xD8#8], .movSregRm .ds (.reg .r0)),
    ([0x8F#8, 0x07#8], .popRm (.mem (.plain .bx)))].all reads = true := by decide

theorem test_decode_90 : [
    ([0x90#8], Instr.nop), ([0x93#8], .xchgAcc .bx), ([0x98#8], .cbw), ([0x99#8], .cwd),
    ([0x9A#8, 0x78#8, 0x56#8, 0x34#8, 0x12#8], .callFar 0x5678#16 0x1234#16),
    ([0x9B#8], .wait), ([0x9C#8], .pushf), ([0x9D#8], .popf), ([0x9E#8], .sahf),
    ([0x9F#8], .lahf)].all reads = true := by decide

theorem test_decode_A0 : [
    ([0xA1#8, 0xFF#8, 0xFF#8], Instr.movAccMoffs .word 0xFFFF#16),
    ([0xA2#8, 0x10#8, 0x00#8], .movMoffsAcc .byte 0x0010#16),
    ([0xA4#8], .movs .byte), ([0xA7#8], .cmps .word), ([0xA8#8, 0x80#8], .testAcc (.b 0x80#8)),
    ([0xAA#8], .stos .byte), ([0xAD#8], .lods .word), ([0xAE#8], .scas .byte),
    ([0xB4#8, 0x77#8], .movRegImm .r4 (.b 0x77#8)),
    ([0xB9#8, 0x34#8, 0x12#8], .movRegImm .r1 (.w 0x1234#16))].all reads = true := by decide

theorem test_decode_C0 : [
    ([0xC2#8, 0x04#8, 0x00#8], Instr.retImm 0x0004#16), ([0xC3#8], .ret),
    ([0xC4#8, 0x3E#8, 0x00#8, 0x04#8], .les .di (.direct 0x0400#16)),
    ([0xC5#8, 0x37#8], .lds .si (.plain .bx)),
    ([0xC7#8, 0x06#8, 0x00#8, 0x02#8, 0x34#8, 0x12#8],
      .movRmImm (.w 0x1234#16) (.mem (.direct 0x0200#16))),
    ([0xCA#8, 0x02#8, 0x00#8], .retfImm 0x0002#16), ([0xCB#8], .retf), ([0xCC#8], .int3),
    ([0xCD#8, 0x08#8], .intN 0x08#8), ([0xCE#8], .into), ([0xCF#8], .iret)].all reads = true := by
  decide

theorem test_decode_D0 : [
    ([0xD0#8, 0xC0#8], Instr.rol .one .byte (.reg .r0)),
    ([0xD1#8, 0x0F#8], .ror .one .word (.mem (.plain .bx))),
    ([0xD2#8, 0xD3#8], .rcl .cl .byte (.reg .r3)), ([0xD3#8, 0xD8#8], .rcr .cl .word (.reg .r0)),
    ([0xD0#8, 0xE0#8], .shl .one .byte (.reg .r0)), ([0xD1#8, 0xEB#8], .shr .one .word (.reg .r3)),
    ([0xD2#8, 0xF8#8], .sar .cl .byte (.reg .r0)),
    ([0xD4#8, 0x0A#8], .aam), ([0xD5#8, 0x0A#8], .aad), ([0xD7#8], .xlat),
    ([0xD9#8, 0xC0#8], .esc 8#6 (.reg .r0)),
    ([0xDF#8, 0x3F#8], .esc 63#6 (.mem (.plain .bx)))].all reads = true := by decide

theorem test_decode_E0 : [
    ([0xE0#8, 0xFA#8], Instr.loopne 0xFA#8), ([0xE1#8, 0xFA#8], .loope 0xFA#8),
    ([0xE2#8, 0xF7#8], .loop 0xF7#8), ([0xE3#8, 0x06#8], .jcxz 0x06#8),
    ([0xE4#8, 0x60#8], .inImm .byte 0x60#8), ([0xE7#8, 0x43#8], .outImm .word 0x43#8),
    ([0xE8#8, 0xFD#8, 0x00#8], .callRel 0x00FD#16), ([0xE9#8, 0xFD#8, 0x01#8], .jmpRel16 0x01FD#16),
    ([0xEA#8, 0x00#8, 0x00#8, 0x00#8, 0xF0#8], .jmpFar 0x0000#16 0xF000#16),
    ([0xEB#8, 0x0E#8], .jmpRel8 0x0E#8), ([0xED#8], .inDx .word),
    ([0xEE#8], .outDx .byte)].all reads = true := by decide

theorem test_decode_F0 : [
    ([0xF0#8], Instr.lock), ([0xF2#8], .repne), ([0xF3#8], .rep), ([0xF4#8], .hlt), ([0xF5#8], .cmc),
    ([0xF6#8, 0xC4#8, 0x01#8], .testImm (.b 0x01#8) (.reg .r4)),
    ([0xF6#8, 0xD0#8], .notRm .byte (.reg .r0)), ([0xF7#8, 0xDB#8], .negRm .word (.reg .r3)),
    ([0xF6#8, 0xE3#8], .mulRm .byte (.reg .r3)), ([0xF7#8, 0xEB#8], .imulRm .word (.reg .r3)),
    ([0xF7#8, 0x37#8], .divRm .word (.mem (.plain .bx))), ([0xF6#8, 0xFB#8], .idivRm .byte (.reg .r3)),
    ([0xF8#8], .clc), ([0xF9#8], .stc), ([0xFA#8], .cli), ([0xFB#8], .sti), ([0xFC#8], .cld),
    ([0xFD#8], .std), ([0xFE#8, 0x06#8, 0x00#8, 0x50#8], .incRm .byte (.mem (.direct 0x5000#16))),
    ([0xFF#8, 0xC9#8], .decRm .word (.reg .r1)), ([0xFF#8, 0xD3#8], .callRm (.reg .r3)),
    ([0xFF#8, 0x1F#8], .callFarMem (.plain .bx)), ([0xFF#8, 0xE3#8], .jmpRm (.reg .r3)),
    ([0xFF#8, 0x2F#8], .jmpFarMem (.plain .bx)),
    ([0xFF#8, 0xF4#8], .pushRm (.reg .r4))].all reads = true := by decide

/-- The bytes decode to one instruction, whose mnemonics are these. -/
def named (p : List Byte × List String) : Bool :=
  match decodeRow p.1 with
  | .ok (i, _) => i.names == p.2
  | .error _ => false

/-- The synonyms of R136: each line of the rule names one encoding. -/
theorem test_synonyms : [
    ([0xD0#8, 0xE0#8], ["SHL", "SAL"]), ([0x74#8, 0#8], ["JE", "JZ"]), ([0x75#8, 0#8], ["JNE", "JNZ"]),
    ([0x72#8, 0#8], ["JB", "JNAE", "JC"]), ([0x73#8, 0#8], ["JAE", "JNB", "JNC"]),
    ([0x77#8, 0#8], ["JA", "JNBE"]), ([0x7A#8, 0#8], ["JP", "JPE"]), ([0x7B#8, 0#8], ["JNP", "JPO"]),
    ([0x7C#8, 0#8], ["JL", "JNGE"]), ([0x7D#8, 0#8], ["JGE", "JNL"]), ([0x7E#8, 0#8], ["JLE", "JNG"]),
    ([0x7F#8, 0#8], ["JG", "JNLE"]), ([0xE1#8, 0#8], ["LOOPZ", "LOOPE"]),
    ([0xE0#8, 0#8], ["LOOPNZ", "LOOPNE"]), ([0xF3#8], ["REP", "REPE", "REPZ"]),
    ([0xF2#8], ["REPNE", "REPNZ"]), ([0xA4#8], ["MOVS", "MOVSB"]), ([0xAF#8], ["SCAS", "SCASW"]),
    ([0x76#8, 0#8], ["JBE", "JNA"]), ([0x90#8], ["NOP", "XCHG"]), ([0xD7#8], ["XLAT", "XLATB"]),
    ([0xCB#8], ["RET", "RETF"]), ([0xC3#8], ["RET", "RETN"]), ([0x9B#8], ["WAIT", "FWAIT"]),
    ([0xCC#8], ["INT 3"])].all named = true := by decide

/-! ## Single steps (spec/95_test_vectors.md, part 2; the examples of the instruction rules) -/

/-- The start state of the vectors: CS = 1000H, DS = 2000H, SS = 3000H, ES = 4000H, IP = 0100H. -/
def start (r : Regs) : State :=
  { State.reset with segs := ⟨0x4000#16, 0x1000#16, 0x3000#16, 0x2000#16⟩, ip := 0x0100#16, regs := r }

/-- General registers, zero but for those named. -/
def gpr (ax bx cx dx sp si di bp : Word := 0#16) : Regs :=
  ⟨ax, cx, dx, bx, sp, bp, si, di⟩

/-- One step on the instruction's bytes at CS:IP, and what holds after it. -/
def stepOn (bs : List Byte) (s : State) (p : State → Bool) : Bool :=
  match step (s.placeInstruction bs) with
  | .next t => p t
  | _ => false

/-- The defined flags: CF, PF, AF, ZF, SF, OF. -/
def six (t : State) : List Bool :=
  [t.flags.cf, t.flags.pf, t.flags.af, t.flags.zf, t.flags.sf, t.flags.ofl]

theorem test_mov_load : stepOn [0x8A#8, 0x48#8, 0x10#8]
    ((start (gpr (bx := 0x1000#16) (si := 0x0020#16) (cx := 0xAA00#16))).withData 0x2000#16 0x1030#16 [0x5C#8])
    (fun t => t.regs.cx == 0xAA5C#16 && t.ip == 0x0103#16) = true := by decide

theorem test_mov_word_wraps : stepOn [0xA1#8, 0xFF#8, 0xFF#8]
    (((start (gpr)).withData 0x2000#16 0xFFFF#16 [0x34#8]).withData 0x2000#16 0x0000#16 [0x12#8])
    (fun t => t.regs.ax == 0x1234#16) = true := by decide

theorem test_mov_bp_uses_ss : stepOn [0x89#8, 0x56#8, 0x02#8]
    (start (gpr (bp := 0x00F0#16) (dx := 0xCAFE#16)))
    (fun t => t.byteAt 0x300F2 == 0xFE#8 && t.byteAt 0x300F3 == 0xCA#8 &&
      t.byteAt 0x200F2 == 0x00#8) = true := by decide

theorem test_mov_override : stepOn [0x26#8, 0x8B#8, 0x07#8]
    (((start (gpr (bx := 0x0010#16))).withData 0x4000#16 0x0010#16 [0x78#8, 0x56#8]).withData 0x2000#16 0x0010#16 [0xFF#8, 0xFF#8])
    (fun t => t.regs.ax == 0x5678#16 && t.ip == 0x0103#16 &&
      t.prefixes == Prefixes.none) = true := by decide

theorem test_mov_sreg : stepOn [0x8E#8, 0xD8#8]
    (start (gpr (ax := 0x5000#16)))
    (fun t => t.segs.ds == 0x5000#16) = true := by decide

theorem test_push_ax : stepOn [0x50#8]
    (start (gpr (ax := 0x1234#16) (sp := 0x0100#16)))
    (fun t => t.regs.sp == 0x00FE#16 && t.byteAt 0x300FE == 0x34#8 &&
      t.byteAt 0x300FF == 0x12#8) = true := by decide

theorem test_push_sp : stepOn [0x54#8]
    (start (gpr (sp := 0x0100#16)))
    (fun t => t.regs.sp == 0x00FE#16 && t.wordAt 0x3000#16 0x00FE#16 == 0x00FE) = true := by decide

theorem test_push_ds : stepOn [0x1E#8]
    (start (gpr (sp := 0x0100#16)))
    (fun t => t.regs.sp == 0x00FE#16 && t.wordAt 0x3000#16 0x00FE#16 == 0x2000) = true := by decide

theorem test_pop_sp : stepOn [0x5C#8]
    ((start (gpr (sp := 0x00FE#16))).withData 0x3000#16 0x00FE#16 [0x34#8, 0x12#8])
    (fun t => t.regs.sp == 0x1234#16) = true := by decide

theorem test_pop_es : stepOn [0x07#8]
    ((start (gpr (sp := 0x00FE#16))).withData 0x3000#16 0x00FE#16 [0x00#8, 0x60#8])
    (fun t => t.regs.sp == 0x0100#16 && t.segs.es == 0x6000#16) = true := by decide

theorem test_pop_mem : stepOn [0x8F#8, 0x07#8]
    ((start (gpr (sp := 0x00FE#16) (bx := 0x0400#16))).withData 0x3000#16 0x00FE#16 [0x22#8, 0x11#8])
    (fun t => t.wordAt 0x2000#16 0x0400#16 == 0x1122 && t.regs.sp == 0x0100#16) = true := by decide

theorem test_xchg_mem : stepOn [0x86#8, 0x07#8]
    ((start (gpr (ax := 0x00AA#16) (bx := 0x0400#16))).withData 0x2000#16 0x0400#16 [0x55#8])
    (fun t => t.regs.ax == 0x0055#16 && t.byteAt 0x20400 == 0xAA#8) = true := by decide

theorem test_xchg_short : stepOn [0x93#8]
    (start (gpr (ax := 0x1111#16) (bx := 0x2222#16)))
    (fun t => t.regs.ax == 0x2222#16 && t.regs.bx == 0x1111#16) = true := by decide

theorem test_xlat_wraps : stepOn [0xD7#8]
    ((start (gpr (bx := 0xFFFF#16) (ax := 0x0002#16))).withData 0x2000#16 0x0001#16 [0x7E#8])
    (fun t => t.regs.ax == 0x007E#16) = true := by decide

theorem test_lea : stepOn [0x8D#8, 0x5C#8, 0x10#8]
    (start (gpr (si := 0xFFF8#16)))
    (fun t => t.regs.bx == 0x0008#16) = true := by decide

theorem test_lds : stepOn [0xC5#8, 0x37#8]
    ((start (gpr (bx := 0x0400#16))).withData 0x2000#16 0x0400#16 [0x34#8, 0x12#8, 0x00#8, 0x50#8])
    (fun t => t.regs.si == 0x1234#16 && t.segs.ds == 0x5000#16) = true := by decide

theorem test_les : stepOn [0xC4#8, 0x3E#8, 0x00#8, 0x04#8]
    ((start (gpr)).withData 0x2000#16 0x0400#16 [0x78#8, 0x56#8, 0x00#8, 0x70#8])
    (fun t => t.regs.di == 0x5678#16 && t.segs.es == 0x7000#16) = true := by decide

theorem test_sahf : stepOn [0x9E#8]
    (start (gpr (ax := 0xD500#16)))
    (fun t => six t == [true, true, true, true, true, false]) = true := by decide

theorem test_popf : stepOn [0x9D#8]
    ((start (gpr (sp := 0x00FE#16))).withData 0x3000#16 0x00FE#16 [0xD5#8, 0x0A#8])
    (fun t => six t == [true, true, true, true, true, true] && t.flags.ifl && !t.flags.tf &&
      !t.flags.df) = true := by decide

theorem test_in : stepOn [0xE4#8, 0x60#8]
    ({ start (gpr (ax := 0xFF00#16)) with portScript := [0x1C#8] })
    (fun t => t.regs.ax == 0xFF1C#16 &&
      t.busEvents == [.portRead 0x0060#16 .byte 0x001C#16]) = true := by decide

theorem test_out : stepOn [0xE6#8, 0x43#8]
    (start (gpr (ax := 0x0036#16)))
    (fun t => t.busEvents == [.portWrite 0x0043#16 .byte 0x0036#16]) = true := by decide

theorem test_add_overflow : stepOn [0x01#8, 0xD8#8]
    (start (gpr (ax := 0x7FFF#16) (bx := 0x0001#16)))
    (fun t => t.regs.ax == 0x8000#16 &&
      six t == [false, true, true, false, true, true]) = true := by decide

theorem test_add_sign_extended : stepOn [0x83#8, 0xC3#8, 0xFF#8]
    (start (gpr (bx := 0x0001#16)))
    (fun t => t.regs.bx == 0x0000#16 &&
      six t == [true, true, true, true, false, false]) = true := by decide

theorem test_adc : stepOn [0x14#8, 0x0F#8]
    ({ start (gpr) with flags := { Flags.clear with cf := true } })
    (fun t => t.regs.ax == 0x0010#16 &&
      six t == [false, false, true, false, false, false]) = true := by decide

theorem test_inc_keeps_cf : stepOn [0x43#8]
    ({ start (gpr (bx := 0x7FFF#16)) with flags := { Flags.clear with cf := true } })
    (fun t => t.regs.bx == 0x8000#16 &&
      six t == [true, true, true, false, true, true]) = true := by decide

theorem test_inc_byte : stepOn [0xFE#8, 0x06#8, 0x00#8, 0x50#8]
    ((start (gpr)).withData 0x2000#16 0x5000#16 [0x0F#8])
    (fun t => t.byteAt 0x25000 == 0x10#8 &&
      six t == [false, false, true, false, false, false]) = true := by decide

theorem test_sub_borrow : stepOn [0x29#8, 0xD3#8]
    (start (gpr (dx := 0x0001#16)))
    (fun t => t.regs.bx == 0xFFFF#16 &&
      six t == [true, true, true, false, true, false]) = true := by decide

theorem test_sub_overflow : stepOn [0x2C#8, 0x01#8]
    (start (gpr (ax := 0x0080#16)))
    (fun t => t.regs.ax == 0x007F#16 &&
      six t == [false, false, true, false, false, true]) = true := by decide

theorem test_sbb : stepOn [0x19#8, 0xD1#8]
    ({ start (gpr (cx := 0x0005#16) (dx := 0x0003#16)) with flags := { Flags.clear with cf := true } })
    (fun t => t.regs.cx == 0x0001#16 &&
      six t == [false, false, false, false, false, false]) = true := by decide

theorem test_dec : stepOn [0x48#8]
    (start (gpr))
    (fun t => t.regs.ax == 0xFFFF#16 &&
      six t == [false, true, true, false, true, false]) = true := by decide

theorem test_neg : stepOn [0xF7#8, 0xDB#8]
    (start (gpr (bx := 0x0001#16)))
    (fun t => t.regs.bx == 0xFFFF#16 &&
      six t == [true, true, true, false, true, false]) = true := by decide

theorem test_cmp : stepOn [0x3D#8, 0x98#8, 0x10#8]
    (start (gpr (ax := 0x1098#16)))
    (fun t => t.regs.ax == 0x1098#16 &&
      six t == [false, true, false, true, false, false]) = true := by decide

theorem test_aaa : stepOn [0x37#8]
    (start (gpr (ax := 0x006A#16)))
    (fun t => t.regs.ax == 0x0100#16 && t.flags.af && t.flags.cf) = true := by decide

theorem test_aas : stepOn [0x3F#8]
    ({ start (gpr (ax := 0x00FC#16)) with flags := { Flags.clear with af := true } })
    (fun t => t.regs.ax == 0xFF06#16 && t.flags.af && t.flags.cf) = true := by decide

theorem test_daa : stepOn [0x27#8]
    (start (gpr (ax := 0x009C#16)))
    (fun t => t.regs.ax == 0x0002#16 && t.flags.cf && t.flags.af) = true := by decide

theorem test_das : stepOn [0x2F#8]
    ({ start (gpr (ax := 0x00D7#16)) with flags := { Flags.clear with cf := true } })
    (fun t => t.regs.ax == 0x0077#16 && t.flags.cf && !t.flags.af) = true := by decide

theorem test_mul : stepOn [0xF6#8, 0xE3#8]
    (start (gpr (ax := 0x00FF#16) (bx := 0x00FF#16)))
    (fun t => t.regs.ax == 0xFE01#16 && t.flags.cf && t.flags.ofl) = true := by decide

theorem test_imul : stepOn [0xF6#8, 0xEB#8]
    (start (gpr (ax := 0x00FF#16) (bx := 0x0002#16)))
    (fun t => t.regs.ax == 0xFFFE#16 && !t.flags.cf && !t.flags.ofl) = true := by decide

theorem test_aam : stepOn [0xD4#8, 0x0A#8]
    (start (gpr (ax := 0x0024#16)))
    (fun t => t.regs.ax == 0x0306#16) = true := by decide

theorem test_aad : stepOn [0xD5#8, 0x0A#8]
    (start (gpr (ax := 0x0508#16)))
    (fun t => t.regs.ax == 0x003A#16 && t.flags.pf && !t.flags.zf) = true := by decide

theorem test_div : stepOn [0xF6#8, 0xF3#8]
    (start (gpr (ax := 0x0064#16) (bx := 0x0007#16)))
    (fun t => t.regs.ax == 0x020E#16) = true := by decide

/-- The saved flags are open, so that no word of the stack can be evaluated here. -/
theorem test_div_overflows : stepOn [0xF6#8, 0xF3#8]
    { start (gpr (ax := 0x0400#16) (bx := 0x0002#16) (sp := 0x1000#16)) with
      flags := { Flags.clear with ifl := true } }
    (fun t => t.regs.sp == 0x0FFA#16 && t.regs.bx == 0x0002#16 && !t.flags.ifl && t.written == []) =
    true := by decide

theorem test_idiv : stepOn [0xF6#8, 0xFB#8]
    (start (gpr (ax := 0xFFF9#16) (bx := 0x0002#16)))
    (fun t => t.regs.ax == 0xFFFD#16) = true := by decide

theorem test_cbw : stepOn [0x98#8]
    (start (gpr (ax := 0x0080#16)))
    (fun t => t.regs.ax == 0xFF80#16) = true := by decide

theorem test_cwd : stepOn [0x99#8]
    (start (gpr (ax := 0x8000#16)))
    (fun t => t.regs.dx == 0xFFFF#16) = true := by decide

theorem test_not : stepOn [0xF6#8, 0xD0#8]
    (start (gpr (ax := 0x1155#16)))
    (fun t => t.regs.ax == 0x11AA#16) = true := by decide

theorem test_and : stepOn [0x25#8, 0x08#8, 0x00#8]
    (start (gpr (ax := 0x4567#16)))
    (fun t => t.regs.ax == 0x0000#16 && t.flags.zf && t.flags.pf && !t.flags.cf) = true := by decide

theorem test_or : stepOn [0x0D#8, 0x08#8, 0x00#8]
    (start (gpr (ax := 0x4567#16)))
    (fun t => t.regs.ax == 0x456F#16 && t.flags.pf) = true := by decide

theorem test_xor : stepOn [0x35#8, 0x18#8, 0x00#8]
    (start (gpr (ax := 0x4567#16)))
    (fun t => t.regs.ax == 0x457F#16 && !t.flags.pf) = true := by decide

theorem test_test : stepOn [0xA8#8, 0x80#8]
    (start (gpr (ax := 0x0093#16)))
    (fun t => t.regs.ax == 0x0093#16 && t.flags.sf && !t.flags.zf &&
      !t.flags.pf) = true := by decide

theorem test_shl : stepOn [0xD0#8, 0xE0#8]
    (start (gpr (ax := 0x0081#16)))
    (fun t => t.regs.ax == 0x0002#16 && t.flags.cf && t.flags.ofl &&
      !t.flags.pf) = true := by decide

theorem test_shr : stepOn [0xD1#8, 0xEB#8]
    (start (gpr (bx := 0x8001#16)))
    (fun t => t.regs.bx == 0x4000#16 && t.flags.cf && t.flags.ofl && t.flags.pf) = true := by decide

theorem test_sar_cl : stepOn [0xD2#8, 0xF8#8]
    (start (gpr (ax := 0x00F0#16) (cx := 0x0002#16)))
    (fun t => t.regs.ax == 0x00FC#16 && !t.flags.cf && t.flags.sf && t.flags.pf) = true := by decide

theorem test_rol : stepOn [0xD0#8, 0xC0#8]
    (start (gpr (ax := 0x0081#16)))
    (fun t => t.regs.ax == 0x0003#16 && t.flags.cf && t.flags.ofl) = true := by decide

theorem test_rcl : stepOn [0xD0#8, 0xD0#8]
    (start (gpr (ax := 0x0080#16)))
    (fun t => t.regs.ax == 0x0000#16 && t.flags.cf && t.flags.ofl &&
      !t.flags.zf) = true := by decide

theorem test_ror : stepOn [0xD0#8, 0xC8#8]
    (start (gpr (ax := 0x0001#16)))
    (fun t => t.regs.ax == 0x0080#16 && t.flags.cf && t.flags.ofl) = true := by decide

theorem test_rcr : stepOn [0xD0#8, 0xD8#8]
    ({ start (gpr) with flags := { Flags.clear with cf := true } })
    (fun t => t.regs.ax == 0x0080#16 && !t.flags.cf && t.flags.ofl) = true := by decide

theorem test_movsb : stepOn [0xA4#8]
    ((start (gpr (si := 0x0010#16) (di := 0x0020#16) (cx := 0x0007#16))).withData 0x2000#16 0x0010#16 [0x5A#8])
    (fun t => t.byteAt 0x40020 == 0x5A#8 && t.regs.si == 0x0011#16 && t.regs.di == 0x0021#16 &&
      t.regs.cx == 0x0007#16) = true := by decide

theorem test_cmpsb : stepOn [0xA6#8]
    (((start (gpr)).withData 0x2000#16 0x0000#16 [0x41#8]).withData 0x4000#16 0x0000#16 [0x42#8])
    (fun t => six t == [true, true, true, false, true, false] && t.regs.si == 0x0001#16 &&
      t.regs.di == 0x0001#16) = true := by decide

theorem test_scasb_down : stepOn [0xAE#8]
    ({ (start (gpr (ax := 0x0020#16) (di := 0x0005#16))).withData 0x4000#16 0x0005#16 [0x20#8] with flags := { Flags.clear with df := true } })
    (fun t => six t == [false, true, false, true, false, false] &&
      t.regs.di == 0x0004#16) = true := by decide

theorem test_lodsw : stepOn [0xAD#8]
    ((start (gpr (si := 0x0100#16))).withData 0x2000#16 0x0100#16 [0x34#8, 0x12#8])
    (fun t => t.regs.ax == 0x1234#16 && t.regs.si == 0x0102#16) = true := by decide

theorem test_stosb_down : stepOn [0xAA#8]
    ({ start (gpr (ax := 0x00FF#16)) with flags := { Flags.clear with df := true } })
    (fun t => t.byteAt 0x40000 == 0xFF#8 && t.regs.di == 0xFFFF#16) = true := by decide

theorem test_rep_one_pass : stepOn [0xF3#8, 0xA5#8]
    (start (gpr (cx := 0x0003#16) (si := 0x0100#16) (di := 0x0200#16)))
    (fun t => t.regs.cx == 0x0002#16 && t.regs.si == 0x0102#16 && t.ip == 0x0100#16 &&
      t.repeating.isSome) = true := by decide

theorem test_repne_ends : stepOn [0xF2#8, 0xAE#8]
    (start (gpr (cx := 0x0003#16)))
    (fun t => t.regs.cx == 0x0002#16 && t.flags.zf && t.ip == 0x0102#16 &&
      t.repeating.isNone) = true := by decide

theorem test_call : stepOn [0xE8#8, 0xFD#8, 0x00#8]
    (start (gpr (sp := 0x1000#16)))
    (fun t => t.wordAt 0x3000#16 0x0FFE#16 == 0x0103 && t.regs.sp == 0x0FFE#16 &&
      t.ip == 0x0200#16) = true := by decide

theorem test_call_far : stepOn [0x9A#8, 0x78#8, 0x56#8, 0x34#8, 0x12#8]
    (start (gpr (sp := 0x1000#16)))
    (fun t => t.wordAt 0x3000#16 0x0FFE#16 == 0x1000 && t.wordAt 0x3000#16 0x0FFC#16 == 0x0105 &&
      t.segs.cs == 0x1234#16 && t.ip == 0x5678#16) = true := by decide

theorem test_ret_imm : stepOn [0xC2#8, 0x04#8, 0x00#8]
    ((start (gpr (sp := 0x0FFA#16))).withData 0x3000#16 0x0FFA#16 [0x03#8, 0x01#8])
    (fun t => t.ip == 0x0103#16 && t.regs.sp == 0x1000#16) = true := by decide

theorem test_retf : stepOn [0xCB#8]
    ((start (gpr (sp := 0x0FFC#16))).withData 0x3000#16 0x0FFC#16 [0x05#8, 0x01#8, 0x00#8, 0x10#8])
    (fun t => t.ip == 0x0105#16 && t.segs.cs == 0x1000#16 &&
      t.regs.sp == 0x1000#16) = true := by decide

theorem test_jmp_short : stepOn [0xEB#8, 0x0E#8]
    (start (gpr))
    (fun t => t.ip == 0x0110#16) = true := by decide

theorem test_jmp_far_mem : stepOn [0xFF#8, 0x2F#8]
    ((start (gpr)).withData 0x2000#16 0x0000#16 [0x78#8, 0x56#8, 0x34#8, 0x12#8])
    (fun t => t.ip == 0x5678#16 && t.segs.cs == 0x1234#16) = true := by decide

theorem test_loop_taken : stepOn [0xE2#8, 0xF7#8]
    (start (gpr (cx := 0x0002#16)))
    (fun t => t.regs.cx == 0x0001#16 && t.ip == 0x00F9#16) = true := by decide

theorem test_loop_falls_through : stepOn [0xE2#8, 0xF7#8]
    (start (gpr (cx := 0x0001#16)))
    (fun t => t.regs.cx == 0x0000#16 && t.ip == 0x0102#16) = true := by decide

theorem test_jcxz : stepOn [0xE3#8, 0x06#8]
    (start (gpr))
    (fun t => t.ip == 0x0108#16) = true := by decide

theorem test_jg_not_taken : stepOn [0x7F#8, 0x10#8]
    ({ start (gpr) with flags := { Flags.clear with sf := true } })
    (fun t => t.ip == 0x0102#16) = true := by decide

theorem test_int8 : stepOn [0xCD#8, 0x08#8]
    { start (gpr (sp := 0x1000#16)) with flags := { Flags.clear with ifl := true, df := true } }
    (fun t => t.regs.sp == 0x0FFA#16 && !t.flags.ifl && t.flags.df && t.written == []) = true := by
  decide

theorem test_iret : stepOn [0xCF#8]
    ((start (gpr (sp := 0x0FFA#16))).withData 0x3000#16 0x0FFA#16 [0x02#8, 0x01#8, 0x00#8, 0x10#8, 0x00#8, 0x02#8])
    (fun t => t.ip == 0x0102#16 && t.segs.cs == 0x1000#16 && t.flags.ifl && !t.flags.cf &&
      t.regs.sp == 0x1000#16) = true := by decide

theorem test_esc : stepOn [0xD8#8, 0x07#8]
    ((start (gpr (bx := 0x0010#16))).withData 0x2000#16 0x0010#16 [0x34#8, 0x12#8])
    (fun t => t.busEvents == [.escRead 0x20010#20 0x1234#16]) = true := by decide

theorem test_hlt : stepOn [0xF4#8]
    (start (gpr))
    (fun t => t.halted && t.ip == 0x0101#16) = true := by decide

theorem test_wait_enters : stepOn [0x9B#8]
    (start (gpr))
    (fun t => t.waiting && t.ip == 0x0101#16 && t.instrStart == 0x0100#16) = true := by decide

/-- A processor that waits after a WAIT at 1000:0100, on a platform with no memory at all: nothing it
could fetch there is known (R73 (c), R288). -/
def waitingOnBus : State :=
  { start (gpr (sp := 0x1000#16)) with
    ip := 0x0101#16, instrStart := 0x0100#16, waiting := true, memMap := [⟨0, memorySize, .bus⟩] }

theorem test_wait_goes_on : step waitingOnBus = .next waitingOnBus := rfl

/-- TEST ends the wait at the next instruction, an NMI at the same time notwithstanding (R288). -/
theorem test_wait_ends : step { waitingOnBus with pins := { Pins.idle with test := true }, nmiLatch := true } =
    .next { waitingOnBus with
      pins := { Pins.idle with test := true }, nmiLatch := true, waiting := false } := rfl

/-- NMI in the wait state pushes the offset of the WAIT (R288). -/
theorem test_wait_nmi : step { waitingOnBus with nmiLatch := true } =
    .next (waitingOnBus.interrupt 2#8 0x0100#16) := rfl

theorem test_lock_xchg : stepOn [0xF0#8, 0x86#8, 0x07#8]
    (start (gpr (ax := 0x00AA#16)))
    (fun t => t.byteAt 0x20000 == 0xAA#8 && t.busEvents == [.lockAsserted] &&
      !t.lockOutput) = true := by decide

/-- The trap of R362: an instruction that began with TF = 1 leaves a trap pending. -/
theorem test_trap_pending : stepOn [0x90#8] { start (gpr) with flags := { Flags.clear with tf := true } }
    (fun t => t.trapPending && t.ip == 0x0101#16) = true := by decide

/-- A store to ROM changes nothing, and the first region that holds an address decides (R73 (c)). -/
theorem test_store_to_rom : stepOn [0xAA#8]
    { (start (gpr (ax := 0x00FF#16))).withData 0x4000#16 0x0000#16 [0x5A#8] with
      memMap := [⟨0x40000, 0x10, .rom⟩, ⟨0x40000, 0x100, .bus⟩] }
    (fun t => t.byteAt 0x40000 == 0x5A#8 && t.kindAt 0x4000F == .rom && t.kindAt 0x40010 == .bus &&
      t.kindAt 0x40100 == .ram && t.regs.di == 0x0001#16) = true := by decide

/-- A load from ROM gives what memory holds (R73 (c)). -/
theorem test_load_from_rom : stepOn [0xA0#8, 0x30#8, 0x10#8]
    { (start gpr).withData 0x2000#16 0x1030#16 [0x5C#8] with memMap := [⟨0x21030, 1, .rom⟩] }
    (fun t => t.regs.ax == 0x005C#16) = true := by decide

/-- Bits of a word of the opcode table: the first byte of a pair is its high half (log entry 25). -/
theorem test_table_word : decodeTableWord 8 0x43 = some (.incReg .bx) ∧
    decodeTableWord 16 0x01D8 = some (.addRm .toRm .word .r3 (.reg .r0)) ∧
    decodeTableWord 8 0xF1 = none := by decide

/-- `withFetchWord` at reset: the next step runs the instruction placed (log entry 26). -/
theorem test_with_fetch_word : (match step (State.reset.withFetchWord 8 0x43) with
    | .next t => t.regs.bx == 0x0001#16 && t.ip == 0x0001#16 && t.segs.cs == 0xFFFF#16
    | _ => false) = true := by decide

/-! ## Witnesses: a state and operands that meet the hypotheses of each statement -/

/-- The start state of the vectors with a stack. -/
def demo : State := start (gpr (sp := 0x1000#16))

/-- The demo state with code at CS:IP. -/
def code (bs : List Byte) : State := demo.placeInstruction bs

/-- The demo state with flags. -/
def flagged (f : Flags) : State := { demo with flags := f }

/-- A next state exists where the step answers one. -/
theorem next_of_step {s : State}
    (h : (match step s with | .next _ => true | _ => false) = true) : ∃ t, step s = .next t := by
  revert h
  cases step s <;> simp

theorem quiet_of {s : State} (h1 : s.pinSchedule = []) (h2 : s.pins = Pins.idle)
    (h3 : s.nmiLatch = false) (h4 : s.trapPending = false) : Quiet s :=
  ⟨h1, by rw [h2]; rfl, h3, .inl (by rw [h2]; rfl), h4⟩

/-- For every statement whose only hypothesis on the state is canonical memory (AddAdc, SubSbb,
AndOrXor, IncDec, NegNot, MovCopies, Calls, PushPop, Xchg and others). -/
theorem witness_memory : Memory.wf demo.mem ∧ Memory.wf (code [0xFF#8, 0x00#8, 0x01#8]).mem ∧
    Memory.wf [(0x00000, 0x01#8), (0xFFFFF, 0xFF#8)] := by decide

/-- The demo state on a platform with ROM at the top and a device in the middle (R73 (c)). -/
def mapped : State := { demo with memMap := [⟨0xF0000, 0x10000, .rom⟩, ⟨0xA0000, 0x20000, .bus⟩] }

theorem kindAt_mapped (a : Nat) : mapped.kindAt a =
    if 0xF0000 ≤ a ∧ a < 0x100000 then .rom else if 0xA0000 ≤ a ∧ a < 0xC0000 then .bus else .ram := by
  simp [State.kindAt, mapped, MemMap.kindAt, Region.contains]

/-- For the statements that ask for RAM under the stack, and for those that speak of each kind, at the
ends of the regions: a stack of one, two and three words. -/
theorem witness_map : (∀ n ∈ [1, 2, 3], AllRam (stackBytes mapped.segs.ss mapped.regs.sp n) mapped) ∧
    mapped.kindAt 0x9FFFF = .ram ∧ mapped.kindAt 0xA0000 = .bus ∧ mapped.kindAt 0xBFFFF = .bus ∧
    mapped.kindAt 0xC0000 = .ram ∧ mapped.kindAt 0xF0000 = .rom ∧ mapped.kindAt 0xFFFFF = .rom := by
  refine ⟨?_, ?_⟩
  · unfold AllRam
    decide
  · decide

theorem witness_DecodeEncode : (Instr.movRm .toReg .word .r7 (.mem (.disp8 .bp 0x80#8))).wellFormed =
    true ∧ (Instr.esc 63#6 (.mem (.direct 0xFFFF#16))).wellFormed = true := by decide

theorem witness_EncodeDecode :
    decodeRow [0x83#8, 0x7E#8, 0x80#8, 0xFF#8, 0x90#8] =
      .ok (.cmpImm (.ewSigned 0xFF#8) (.mem (.disp8 .bp 0x80#8)), [0x90#8]) := rfl

theorem witness_DecodeWithPrefixes :
    let ps : List Instr := [.lock, .rep, .segOverride .es]
    (∀ p ∈ ps, p.isPrefix = true) ∧ ps.Pairwise (fun a b => samePrefixKind a b = false) ∧
      (Instr.movs .byte).isPrefix = false ∧ (Instr.movs .byte).wellFormed = true ∧
      (ps.any Instr.isRepeatPrefix = true → (Instr.movs .byte).isString = true) ∧
      (.lock ∈ ps → (Instr.movs .byte).hasMemOperand = true) := by decide

theorem witness_RefusedEncodings_prefixes :
    let ps : List Instr := [.lock, .segOverride .es, .rep]
    (∀ q ∈ ps, q.isPrefix = true) ∧ ps.Pairwise (fun a b => samePrefixKind a b = false) ∧
      Instr.repne.isPrefix = true ∧ ps.any (samePrefixKind .repne) = true ∧
      Instr.nop.wellFormed = true ∧ Instr.nop.isPrefix = false ∧ Instr.nop.isString = false ∧
      Instr.nop.hasMemOperand = false := by decide

/-- Both ends of each range of selectors, each in its clause (R131). -/
theorem witness_RefusedEncodings_rows : [
    [0x0F#8], [0x60#8], [0x6F#8], [0xC0#8], [0xD6#8], [0xF1#8]].all (fun bs =>
      match decodeRow bs with | .error .unassigned => true | _ => false) = true ∧ [
    (0x82#8, 0xC8#8), (0x83#8, 0xF0#8), (0x8C#8, 0xE0#8), (0x8E#8, 0xF8#8), (0x8E#8, 0xC8#8),
    (0x8F#8, 0xC8#8), (0xC7#8, 0x38#8), (0xD0#8, 0xF0#8), (0xD3#8, 0x30#8), (0xF6#8, 0xC8#8),
    (0xFE#8, 0xD0#8), (0xFF#8, 0xF8#8), (0xD4#8, 0x09#8), (0xD5#8, 0x0B#8), (0x8D#8, 0xC0#8),
    (0xC5#8, 0xFF#8), (0xFF#8, 0xD8#8), (0xFF#8, 0xE8#8)].all (fun p =>
      match decodeRow [p.1, p.2, 0#8, 0#8, 0#8, 0#8] with
      | .error .unassigned => true
      | _ => false) = true := by decide

theorem witness_StepRunsDecoded :
    Quiet (code [0x90#8]) ∧ (code [0x90#8]).halted = false ∧ (code [0x90#8]).waiting = false ∧
      (code [0x90#8]).repeating = none ∧
      decode ((code [0x90#8]).fetchBytes maxLength) = .ok ⟨[], .nop, 1⟩ ∧
      (code [0x90#8]).runsWrittenCode 1 = false ∧ ∀ s, ∃ t, exec .nop s = .next t :=
  ⟨quiet_of rfl rfl rfl rfl, rfl, rfl, rfl, rfl, by decide, fun s => ⟨s, rfl⟩⟩

theorem witness_StepRunsDecoded_prefix :
    Quiet (code [0x26#8, 0xA4#8]) ∧
      decode ((code [0x26#8, 0xA4#8]).fetchBytes maxLength) =
        .ok ⟨[.segOverride .es], .movs .byte, 2⟩ ∧
      (code [0x26#8, 0xA4#8]).runsWrittenCode 2 = false ∧
      ∃ u t, runRows exec [.segOverride .es] demo = .next u ∧ exec (.movs .byte) u = .next t :=
  ⟨quiet_of rfl rfl rfl rfl, rfl, by decide, _, _, rfl, rfl⟩

theorem witness_StepIdlesOrRefuses :
    Quiet { demo with halted := true } ∧ demo.intShadow = false ∧ demo.waiting = false ∧
      Quiet waitingOnBus ∧ waitingOnBus.waiting = true ∧ waitingOnBus.pins.test = false ∧
      waitingOnBus.intShadow = false ∧
      decode ((code [0x0F#8]).fetchBytes maxLength) = .error .unassigned ∧
      decode ((code [0x04#8, 0x01#8]).fetchBytes maxLength) = .ok ⟨[], .addAcc (.b 0x01#8), 2⟩ ∧
      (physAddr demo.segs.cs (demo.ip + BitVec.ofNat 16 1)).toNat ∈ [0x10101] ∧
      (physAddr demo.segs.cs (demo.ip + BitVec.ofNat 16 0)).toNat ∈ [0x10100] :=
  ⟨quiet_of rfl rfl rfl rfl, rfl, rfl, quiet_of rfl rfl rfl rfl, rfl, rfl, rfl, rfl, rfl, by decide,
    by decide⟩

/-- One state for each clause of AcceptsInOrder, the lower requests present too; each also between two
iterations of a repeat, without and with a second prefix. -/
theorem witness_AcceptsInOrder :
    let pins : Pins := ⟨some 8#8, false, false, false⟩
    let nmi := { demo with nmiLatch := true, trapPending := true, pins := pins }
    let intr := { flagged { Flags.clear with ifl := true } with pins := pins, trapPending := true }
    let trap := { demo with trapPending := true, pins := pins }
    let waits := { waitingOnBus with nmiLatch := true, pins := pins }
    let plain : Repeating := ⟨.movs, .byte, ⟨none, some .repe, false⟩, 0x0102#16⟩
    let second : Repeating := ⟨.movs, .byte, ⟨some .es, some .repe, false⟩, 0x0103#16⟩
    let locked : Repeating := ⟨.movs, .byte, ⟨none, some .repe, true⟩, 0x0103#16⟩
    (∀ s ∈ [nmi, intr, trap, waits], s.pinSchedule = [] ∧ s.pins.reset = false ∧
      (s.waiting = true → s.pins.test = false) ∧ Memory.wf s.mem ∧ s.intShadow = false ∧
      s.repeating = none ∧ { s with repeating := some plain }.repeating = some plain ∧
      { s with repeating := some second }.repeating = some second) ∧
    nmi.nmiLatch = true ∧ (waits.nmiLatch = true ∧ waits.waiting = true) ∧
    (intr.nmiLatch = false ∧ intr.flags.ifl = true ∧ intr.pins.intr = some 8#8) ∧
    (trap.nmiLatch = false ∧ trap.flags.ifl = false ∧ trap.trapPending = true) ∧
    (plain.prefixes.seg = none ∧ plain.prefixes.lock = false) ∧
    second.prefixes.seg ≠ none ∧ locked.prefixes.lock = true := by decide

/-- Under the shadow: a halted processor, and a running one at a NOP with NMI, INTR and a trap pending. -/
theorem witness_AcceptsInOrder_shadow :
    let pins : Pins := ⟨some 8#8, false, false, false⟩
    let halted := { demo with intShadow := true, halted := true, nmiLatch := true }
    let waits := { waitingOnBus with intShadow := true, nmiLatch := true }
    let running := { code [0x90#8] with
      intShadow := true, nmiLatch := true, trapPending := true, pins := pins,
      flags := { Flags.clear with ifl := true } }
    (∀ s ∈ [halted, waits, running], s.pinSchedule = [] ∧ s.pins.reset = false ∧
      (s.waiting = true → s.pins.test = false) ∧ Memory.wf s.mem ∧ s.intShadow = true) ∧
    halted.halted = true ∧ waits.waiting = true ∧ running.halted = false ∧ running.waiting = false ∧
    running.repeating = none ∧
    decode (running.fetchBytes maxLength) = .ok ⟨[], .nop, 1⟩ ∧ running.runsWrittenCode 1 = false ∧
    ∃ t, exec .nop demo = .next t :=
  ⟨by decide, rfl, rfl, rfl, rfl, rfl, rfl, by decide, _, rfl⟩

theorem witness_ResetAndNmiEdge :
    let r : Pins := ⟨none, false, false, true⟩
    let n : Pins := ⟨none, true, false, false⟩
    ({ demo with pinSchedule := [r] }.pinSchedule = r :: [] ∧ r.reset = true) ∧
      ({ demo with pinSchedule := [n, r] }.pinSchedule = n :: [r] ∧ n.nmi = true ∧
        demo.pins.nmi = false) := by decide

theorem witness_TrapFollowsTf :
    let s := { code [0x90#8] with flags := { Flags.clear with tf := true } }
    Quiet s ∧ s.halted = false ∧ ∃ t, step s = .next t :=
  ⟨quiet_of rfl rfl rfl rfl, rfl, next_of_step (by decide)⟩

theorem witness_StepKeepsInv : Inv (code [0xF3#8, 0xA4#8]) ∧
    ∃ t, step (code [0xF3#8, 0xA4#8]) = .next t :=
  ⟨⟨by decide, by decide, rfl, rfl, by decide, fun r h => by cases h⟩, next_of_step (by decide)⟩

/-- The invariant holds between two iterations of a locked repeat too. -/
theorem witness_StepKeepsInv_repeat :
    Inv { demo with
      repeating := some ⟨.movs, .byte, ⟨none, some .repe, true⟩, 0x0103#16⟩, lockOutput := true } :=
  ⟨by decide, by decide, rfl, rfl, by decide, fun r h => by
    cases h
    decide⟩

theorem witness_EveryInstructionCompletes : (Instr.divRm .byte (.reg .r3)).wellFormed = true ∧
    exec (.movs .byte) { flagged { Flags.clear with ifl := true } with
      prefixes := ⟨some .es, some .repe, false⟩ } = .refused .interruptibleRepeatWithPrefix :=
  ⟨by decide, rfl⟩

theorem witness_SegmentWriters :
    let s := start (gpr (ax := 0x5000#16))
    (∃ t, exec (.movSregRm .ss (.reg .r0)) s = .next t ∧ t.segs.ss ≠ s.segs.ss) ∧
      (∃ t, exec (.movSregRm .ds (.reg .r0)) s = .next t ∧ t.segs.ds ≠ s.segs.ds) ∧
      (∃ t, exec (.les .di (.direct 0#16)) s = .next t ∧ t.segs.es ≠ s.segs.es) ∧
      writesCs (.callRel 0#16) = false :=
  ⟨⟨_, rfl, by decide⟩, ⟨_, rfl, by decide⟩, ⟨_, rfl, by decide⟩, rfl⟩

theorem witness_ControlFlagWriters :
    (∃ t, exec .sti demo = .next t ∧ t.flags.ifl = true) ∧ Instr.sti ≠ .popf ∧ Instr.sti ≠ .iret ∧
      canInterrupt .sti = false ∧ Instr.sti ≠ .cli ∧ Instr.sti ≠ .cld ∧ Instr.sti ≠ .std :=
  ⟨⟨_, rfl, rfl⟩, by decide⟩

theorem witness_StoresAreRecorded :
    (∃ t, exec (.stos .byte) (start (gpr (ax := 0x00FF#16))) = .next t ∧
      t.byteAt 0x40000 ≠ (start (gpr (ax := 0x00FF#16))).byteAt 0x40000) ∧
    isTransfer (.stos .byte) = false ∧
    (∃ t, exec (.callRel 0#16) demo = .next t ∧ t.byteAt 0x30FFF ≠ demo.byteAt 0x30FFF) ∧
    isTransfer (.callRel 0#16) = true ∧ Memory.wf mapped.mem ∧
    mapped.kindAt (physAddr 0x0000#16 0xFFFF#16).toNat = .ram ∧
    mapped.kindAt (physAddr 0xA000#16 0x0000#16).toNat = .bus ∧
    mapped.kindAt (physAddr 0xFFFF#16 0x000F#16).toNat = .rom :=
  ⟨⟨_, rfl, by decide⟩, rfl, ⟨_, rfl, by decide⟩, rfl, by decide, by decide, by decide, by decide⟩

theorem witness_Addressing : demo.prefixes.seg = none ∧
    { demo with prefixes := ⟨some .cs, none, false⟩ }.prefixes.seg = some .cs ∧
    mapped.kindAt (physAddr mapped.segs.cs (mapped.ip + BitVec.ofNat 16 8)).toNat ≠ .bus := by decide

/-- AAA, AAS, DAA, DAS: a low nibble on each side of 9, AF clear and set. -/
theorem witness_adjust :
    (start (gpr (ax := 0x0009#16))).needsAdjust = false ∧
      (start (gpr (ax := 0x000A#16))).needsAdjust = true ∧
      (flagged { Flags.clear with af := true }).needsAdjust = true ∧
      (start (gpr (ax := 0x0099#16))).needsHighAdjust = false ∧
      (start (gpr (ax := 0x009A#16))).needsHighAdjust = true := by decide

theorem witness_PackedDecimal :
    (99 < 100 ∧ ((start (gpr (ax := 0x0099#16))).reg8 .al).toNat = 99 / 10 * 16 + 99 % 10) ∧
      (demo.reg8 .al).toNat = 0 / 10 * 16 + 0 % 10 := by decide

/-- Dividends just inside the range of the quotient: 1FFH by 2, 1FFFFH by 2, -255 by 2, -65535 by 2. -/
theorem witness_DivIdiv :
    let s := fun ax dx => start (gpr (ax := ax) (dx := dx) (bx := 0x0002#16))
    (s 0x01FF#16 0#16).regs.ax.toNat <
        256 * ((s 0x01FF#16 0#16).readAt .byte (place (.reg .r3) demo)).toNat ∧
      (s 0xFFFF#16 1#16).regs.dx.toNat <
        ((s 0xFFFF#16 1#16).readAt .word (place (.reg .r3) demo)).toNat ∧
      ((s 0xFF01#16 0#16).readAt .byte (place (.reg .r3) demo)).toInt ≠ 0 ∧
      (s 0xFF01#16 0#16).regs.ax.toInt.natAbs <
        128 * ((s 0xFF01#16 0#16).readAt .byte (place (.reg .r3) demo)).toInt.natAbs ∧
      ((s 0x0001#16 0xFFFF#16).readAt .word (place (.reg .r3) demo)).toInt ≠ 0 ∧
      ((s 0x0001#16 0xFFFF#16).regs.dx ++ (s 0x0001#16 0xFFFF#16).regs.ax).toInt.natAbs <
        32768 * ((s 0x0001#16 0xFFFF#16).readAt .word (place (.reg .r3) demo)).toInt.natAbs := by
  decide

/-- The divide error: a divisor of zero, quotients 256, 128, -129, and the open case -128. -/
theorem witness_DivideError :
    let s := fun ax => start (gpr (ax := ax) (bx := 0x0002#16))
    (demo.readAt .byte (place (.reg .r3) demo)).toNat = 0 ∧
      2 ^ 8 ≤ ((s 0x0200#16).dividend .byte).toNat / 2 ∧
      (2 ^ 7 : Int) ≤ ((s 0x0100#16).signedDividend .byte).tdiv 2 ∧
      ((s 0xFEFE#16).signedDividend .byte).tdiv 2 < -2 ^ 7 ∧
      ((s 0xFF00#16).signedDividend .byte).tdiv 2 = -2 ^ 7 := by decide

/-- Shifts, Rotates, RotatesThroughCarry: counts 0, 1 and 255. -/
theorem witness_counts : demo.shiftCount .cl = 0 ∧ demo.shiftCount .one = 1 ∧
    (start (gpr (cx := 0x00FF#16))).shiftCount .cl = 255 := by decide

theorem witness_SegmentMoves : SegReg.ss ≠ .cs ∧ SegReg.es ≠ .cs ∧ SegReg.ds ≠ .ss := by decide

/-- PopMovesSp: a register other than SP; Xchg: a third register; LODS, IN: the byte width. -/
theorem witness_operands : Reg16.bx ≠ .sp ∧ RegNum.r2 ≠ .r0 ∧ RegNum.r2 ≠ .r1 ∧ Width.byte = .byte ∧
    Reg16.sp ≠ wordReg RegNum.r4.reg8 ∧ Reg16.sp ≠ wordReg RegNum.r7.reg8 := by
  decide

theorem witness_Ports : demo.portScript = [] ∧ { demo with portScript := [0x1C#8] }.portScript = [0x1C#8] ∧
    { demo with portScript := [0x1C#8, 0x00#8] }.portScript = 0x1C#8 :: 0x00#8 :: [] := by decide

theorem witness_StringElements : demo.prefixes.rep = none ∧ Memory.wf demo.mem := by decide

/-- RepeatPass: with a second prefix where nothing interrupts, and without one where IF is set; CX 0,
1 and 2. -/
theorem witness_RepeatPass :
    let locked := { demo with prefixes := ⟨some .es, some .repne, true⟩ }
    let open_ := { flagged { Flags.clear with ifl := true } with prefixes := ⟨none, some .repe, false⟩ }
    (locked.prefixes.rep = some .repne ∧ locked.flags.ifl = false ∧ locked.flags.tf = false ∧
      locked.nmiLatch = false) ∧
    (open_.prefixes.rep = some .repe ∧ open_.prefixes.seg = none ∧ open_.prefixes.lock = false) ∧
    demo.regs.cx = 0#16 ∧ (start (gpr (cx := 0x0001#16))).regs.cx ≠ 0#16 ∧
    (start (gpr (cx := 0x0002#16))).regs.cx ≠ 0#16 := by decide

theorem witness_RepeatRuns :
    let r : Repeating := ⟨.movs, .word, ⟨none, some .repe, false⟩, 0x0102#16⟩
    let s := { start (gpr (cx := 0xFFFF#16)) with repeating := some r }
    Quiet s ∧ s.halted = false ∧ s.waiting = false ∧ s.flags.tf = false ∧ s.repeating = some r ∧
      r.prefixes.rep ≠ none ∧ r.prefixes.seg = none ∧ r.prefixes.lock = false ∧ s.regs.cx ≠ 0#16 ∧
      (r.op = .movs ∨ r.op = .stos ∨ r.op = .lods) ∧
      (∀ a, { s with memMap := [⟨0xF0000, 0x10000, .rom⟩] }.kindAt a ≠ .bus) :=
  ⟨quiet_of rfl rfl rfl rfl, by decide, by decide, by decide, by decide, by decide, by decide, by decide,
    by decide, by decide, fun a => by
      simp only [State.kindAt, MemMap.kindAt]
      split <;> decide⟩

theorem witness_Wait :
    { demo with pins := { Pins.idle with test := true } }.pins.test = true ∧ demo.pins.test = false ∧
      Quiet (code [0x9B#8]) ∧ (code [0x9B#8]).halted = false ∧ (code [0x9B#8]).waiting = false ∧
      (code [0x9B#8]).repeating = none ∧
      decode ((code [0x9B#8]).fetchBytes maxLength) = .ok ⟨[], .wait, 1⟩ ∧
      (code [0x9B#8]).runsWrittenCode 1 = false ∧ (code [0x9B#8]).ip = 0x0100#16 :=
  ⟨rfl, rfl, quiet_of rfl rfl rfl rfl, rfl, rfl, rfl, rfl, by decide, rfl⟩

/-- In the wait state: without TEST, and with it while NMI is requested. -/
theorem witness_Wait_waiting :
    let ends := { waitingOnBus with pins := { Pins.idle with test := true }, nmiLatch := true }
    Quiet waitingOnBus ∧ waitingOnBus.halted = false ∧ waitingOnBus.waiting = true ∧
      waitingOnBus.pins.test = false ∧ ends.pinSchedule = [] ∧ ends.pins.reset = false ∧
      ends.halted = false ∧ ends.waiting = true ∧ ends.pins.test = true :=
  ⟨quiet_of rfl rfl rfl rfl, by decide⟩

theorem witness_EscAndPrefixes : demo.lockOutput = false ∧
    { demo with lockOutput := true }.lockOutput = true := by decide

theorem witness_SoftwareInterrupts : (flagged { Flags.clear with ofl := true }).flags.ofl = true ∧
    demo.flags.ofl = false ∧ Memory.wf demo.mem := by decide

end Sys2Proof.Tests
end

namespace Sys2Proof.Machine

/-! ## What an instruction can do to segment registers, control flags and the hidden state

`Ordinary s t` says what most instructions leave alone. `exec_effect` says once, for every instruction,
how a next state of `exec` can differ from that; the statements about the whole machine follow from its
cases. -/

/-- The canonical forms of memory, the segment registers, the control flags, halt, wait, a repeat in
progress, the map and a pending trap are as in `s`; general registers, IP, status flags and bytes of
memory may differ. -/
structure Ordinary (s t : State) : Prop where
  memOk : MemOk s → MemOk t
  segs : t.segs = s.segs
  control : KeepsControlFlags s t
  halted : t.halted = s.halted
  waiting : t.waiting = s.waiting
  repeating : t.repeating = s.repeating
  memMap : t.memMap = s.memMap
  trapPending : t.trapPending = s.trapPending

namespace Ordinary

theorem refl (s : State) : Ordinary s s := ⟨id, rfl, ⟨rfl, rfl, rfl⟩, rfl, rfl, rfl, rfl, rfl⟩

theorem trans {s u t : State} (h : Ordinary s u) (k : Ordinary u t) : Ordinary s t where
  memOk := k.memOk ∘ h.memOk
  segs := k.segs.trans h.segs
  control :=
    have ⟨ht, hi, hd⟩ := h.control
    have ⟨kt, ki, kd⟩ := k.control
    ⟨kt.trans ht, ki.trans hi, kd.trans hd⟩
  halted := k.halted.trans h.halted
  waiting := k.waiting.trans h.waiting
  repeating := k.repeating.trans h.repeating
  memMap := k.memMap.trans h.memMap
  trapPending := k.trapPending.trans h.trapPending

variable {s u : State}

/-- A change that leaves memory and the set of R400 alone too. -/
theorem of_eq {t : State} (h : Ordinary s u) (hm : t.mem = u.mem := by rfl)
    (hw : t.written = u.written := by rfl) (hs : t.segs = u.segs := by rfl)
    (hf : KeepsControlFlags u t := by exact ⟨rfl, rfl, rfl⟩) (hh : t.halted = u.halted := by rfl)
    (ha : t.waiting = u.waiting := by rfl) (hr : t.repeating = u.repeating := by rfl)
    (hk : t.memMap = u.memMap := by rfl) (hp : t.trapPending = u.trapPending := by rfl) :
    Ordinary s t :=
  h.trans ⟨fun m => m.of_eq hm hw, hs, hf, hh, ha, hr, hk, hp⟩

theorem setReg16 (h : Ordinary s u) (r : Reg16) (v : Word) : Ordinary s (u.setReg16 r v) := h.of_eq

theorem setReg8 (h : Ordinary s u) (r : Reg8) (v : Byte) : Ordinary s (u.setReg8 r v) := h.of_eq

theorem writeReg (h : Ordinary s u) (w : Width) (i : RegNum) (v : BitVec w.bits) :
    Ordinary s (u.writeReg w i v) := by
  cases w
  · exact h.setReg8 _ v
  · exact h.setReg16 _ v

theorem emit (h : Ordinary s u) (e : BusEvent) : Ordinary s (u.emit e) := h.of_eq

theorem assertLock (h : Ordinary s u) : Ordinary s u.assertLock := by
  unfold State.assertLock
  split
  · exact h
  · exact h.of_eq

theorem setShadow (h : Ordinary s u) : Ordinary s u.setShadow := h.of_eq

theorem setPrefixes (h : Ordinary s u) (p : Prefixes) : Ordinary s (u.setPrefixes p) := h.of_eq

theorem nextDraw (h : Ordinary s u) : Ordinary s u.nextDraw := h.of_eq

theorem undefineReg (h : Ordinary s u) (r : Reg16) : Ordinary s (u.undefineReg r) := h.of_eq

theorem drop16 (h : Ordinary s u) : Ordinary s u.drop16 := h.of_eq

theorem decSp (h : Ordinary s u) : Ordinary s u.decSp := h.of_eq

/-- New flags whose control flags are the old ones. -/
theorem setFlags (h : Ordinary s u) {f : Flags}
    (hf : f.tf = u.flags.tf ∧ f.ifl = u.flags.ifl ∧ f.df = u.flags.df := by
      exact ⟨rfl, rfl, rfl⟩) : Ordinary s (u.setFlags f) := h.of_eq (hf := hf)

/-- Undefined status flags. -/
theorem undefineFlags (h : Ordinary s u) {v : FlagSet}
    (hv : v.tf = false ∧ v.ifl = false ∧ v.df = false := by exact ⟨rfl, rfl, rfl⟩) :
    Ordinary s (u.undefineFlags v) :=
  h.of_eq (hf := by simp [KeepsControlFlags, Flags.undefine, hv])

theorem writeMem (h : Ordinary s u) (w : Width) (seg off : Word) (v : BitVec w.bits) :
    Ordinary s (u.writeMem w seg off v) := by
  refine h.trans ⟨fun m => m.writeMem w seg off v, ?_, ?_, ?_, ?_, ?_, ?_, ?_⟩ <;>
    simp [KeepsControlFlags]

theorem writeAt (h : Ordinary s u) (w : Width) (p : Place) (v : BitVec w.bits) :
    Ordinary s (u.writeAt w p v) := by
  cases p with
  | reg i => exact h.writeReg w i v
  | mem seg off => exact h.writeMem w seg off v

theorem push16 (h : Ordinary s u) (v : Word) : Ordinary s (u.push16 v) :=
  h.decSp.writeMem .word _ _ v

/-- A taken transfer within the segment. -/
theorem jump (h : Ordinary s u) (off : Word) : Ordinary s (u.jump off) :=
  h.trans ⟨fun m => m.of_jump rfl rfl, rfl, ⟨rfl, rfl, rfl⟩, rfl, rfl, rfl, rfl, rfl⟩

theorem jumpIf (h : Ordinary s u) (c : Bool) (disp : Byte) : Ordinary s (u.jumpIf c disp) := by
  cases c
  · exact h
  · exact h.jump _

theorem afterPortRead (h : Ordinary s u) : Ordinary s u.afterPortRead := by
  unfold State.afterPortRead
  split <;> exact h.of_eq

theorem afterPort (h : Ordinary s u) (w : Width) : Ordinary s (u.afterPort w) := by
  cases w
  · exact h.afterPortRead
  · exact h.afterPortRead.afterPortRead

theorem input (h : Ordinary s u) (w : Width) (port : Word) : Ordinary s (u.input w port) :=
  ((h.afterPort w).emit _).writeReg w .r0 _

/-- One element of a string operation. -/
theorem element (h : Ordinary s u) (op : StringOp) (w : Width) : Ordinary s (u.element op w) := by
  cases op with
  | movs => exact ((h.writeMem w _ _ _).setReg16 _ _).setReg16 _ _
  | cmps => exact ((h.nextDraw.setFlags).setReg16 _ _).setReg16 _ _
  | stos => exact (h.writeMem w _ _ _).setReg16 _ _
  | lods => exact (h.writeReg w _ _).setReg16 _ _
  | scas => exact h.setFlags.setReg16 _ _

end Ordinary

/-- What an operation of two operands does before it stores is an ordinary change: it sets status flags. -/
def StatusOp (op : AluOp) : Prop := ∀ n (a b : BitVec n) s, Ordinary s (op n a b s).2

theorem statusOp_add : StatusOp aluAdd := fun _ _ _ s => (Ordinary.refl s).setFlags
theorem statusOp_adc : StatusOp aluAdc := fun _ _ _ s => (Ordinary.refl s).setFlags
theorem statusOp_sub : StatusOp aluSub := fun _ _ _ s => (Ordinary.refl s).setFlags
theorem statusOp_sbb : StatusOp aluSbb := fun _ _ _ s => (Ordinary.refl s).setFlags
theorem statusOp_and : StatusOp aluAnd := fun _ _ _ s => (Ordinary.refl s).setFlags.undefineFlags
theorem statusOp_or : StatusOp aluOr := fun _ _ _ s => (Ordinary.refl s).setFlags.undefineFlags
theorem statusOp_xor : StatusOp aluXor := fun _ _ _ s => (Ordinary.refl s).setFlags.undefineFlags

theorem StatusOp.update {op : AluOp} (h : StatusOp op) (w : Width) (dst src : Place) (s : State) :
    Ordinary s (s.update op w dst src) := (h _ _ _ s).writeAt w dst _

theorem StatusOp.updateImm {op : AluOp} (h : StatusOp op) (w : Width) (dst : Place)
    (v : BitVec w.bits) (s : State) : Ordinary s (s.updateImm op w dst v) :=
  (h _ _ _ s).writeAt w dst _

theorem ordinary_shift (step : ShiftStep) (ovf : ShiftOverflow) (cnt : ShiftCount) (w : Width)
    (p : Place) (s : State) : Ordinary s (s.shift step ovf cnt w p) := by
  simp only [State.shift]
  split
  · exact .refl s
  · split <;> exact (Ordinary.refl s).setFlags.undefineFlags.writeAt w p _

theorem ordinary_rotate (step : ShiftStep) (ovf : ShiftOverflow) (cnt : ShiftCount) (w : Width)
    (p : Place) (s : State) : Ordinary s (s.rotate step ovf cnt w p) := by
  simp only [State.rotate]
  split
  · exact .refl s
  · split
    · exact (Ordinary.refl s).setFlags.writeAt w p _
    · exact (Ordinary.refl s).setFlags.undefineFlags.writeAt w p _

theorem ordinary_asciiAdjusted (s : State) (al ah : Byte) (adj : Bool) :
    Ordinary s (s.asciiAdjusted al ah adj) :=
  ((Ordinary.refl s).setReg16 _ _).setFlags.undefineFlags

theorem ordinary_decimalAdjusted (s : State) (al : Byte) (af cf : Bool) :
    Ordinary s (s.decimalAdjusted al af cf) :=
  ((Ordinary.refl s).setReg8 _ _).setFlags.undefineFlags

theorem ordinary_setProduct (s : State) (w : Width) (p : BitVec 32) :
    Ordinary s (s.setProduct w p) := by
  cases w
  · exact (Ordinary.refl s).setReg16 _ _
  · exact ((Ordinary.refl s).setReg16 _ _).setReg16 _ _

theorem ordinary_multiply (s : State) (w : Width) (p : BitVec 32) (upper : Bool) :
    Ordinary s ((s.setProduct w p).afterMultiply upper) :=
  (ordinary_setProduct s w p).setFlags.undefineFlags

theorem ordinary_setQuotient (s : State) (w : Width) (q r : BitVec w.bits) :
    Ordinary s (s.setQuotient w q r) := by
  cases w
  · exact ((Ordinary.refl s).setReg16 _ _).undefineFlags
  · exact (((Ordinary.refl s).setReg16 _ _).setReg16 _ _).undefineFlags

theorem ordinary_pushReg16 (s : State) (r : Reg16) : Ordinary s (s.pushReg16 r) :=
  (Ordinary.refl s).push16 _

theorem ordinary_callFarTo (s : State) (seg off : Word) :
    Ordinary (s.setSeg .cs seg) (s.callFarTo seg off) := by
  have h : Ordinary s ((s.push16 s.segs.cs).push16 s.ip) := ((Ordinary.refl s).push16 _).push16 _
  exact ⟨fun m => (h.memOk (m.of_eq rfl rfl)).of_jump rfl rfl, rfl, ⟨rfl, rfl, rfl⟩, rfl, rfl, rfl,
    rfl, rfl⟩

theorem ordinary_returnFar (s : State) :
    Ordinary (s.setSeg .cs s.drop16.top16) s.returnFar :=
  ((Ordinary.refl _).of_eq (t := s.drop16.drop16.setSeg .cs s.drop16.top16)).jump _

/-- A pass of the repeat loop ends the repetition, or leaves it in progress (R261, R263). -/
theorem repeatPass_cases (op : StringOp) (w : Width) (r : RepeatPrefix) (s : State) :
    Ordinary s (s.repeatPass op w r) ∨
      Ordinary { s with repeating := some ⟨op, w, s.prefixes, s.ip⟩ } (s.repeatPass op w r) := by
  have h : Ordinary s ((s.element op w).setReg16 .cx (s.regs.cx - 1#16)) :=
    ((Ordinary.refl s).element op w).setReg16 _ _
  simp only [State.repeatPass]
  split
  · exact .inl (.refl s)
  · split
    · exact .inl h
    · exact .inr ⟨fun m => (h.memOk (m.of_eq rfl rfl)).of_eq rfl rfl, h.segs, h.control, h.halted,
        h.waiting, rfl, h.memMap, h.trapPending⟩

/-- A state in which an interrupt handler of the code segment `cs` begins (R356). -/
def State.enterHandler (cs : Word) (s : State) : State :=
  { (s.setSeg .cs cs).maskInterrupts with halted := false, waiting := false }

theorem ordinary_interrupt (s : State) (type : Byte) (ret : Word) :
    Ordinary (s.enterHandler (s.interrupt type ret).segs.cs) (s.interrupt type ret) :=
  ⟨fun m => (m.of_eq (s := s.enterHandler _) (t := s) rfl rfl).interrupt type ret, rfl,
    ⟨rfl, rfl, rfl⟩, rfl, rfl, rfl, rfl, rfl⟩

theorem enterHandler_of_ordinary {s u : State} (h : Ordinary s u) (cs : Word) :
    Ordinary (s.enterHandler cs) (u.enterHandler cs) := by
  obtain ⟨-, -, hd⟩ := h.control
  exact ⟨fun m => (h.memOk (m.of_eq (t := s) rfl rfl)).of_eq rfl rfl,
    congrArg (Segs.set · .cs cs) h.segs, ⟨rfl, rfl, hd⟩, rfl, rfl, h.repeating, h.memMap,
    h.trapPending⟩

/-- The divide error is an interrupt after registers and flags became undefined (R358). -/
theorem ordinary_divideError (s : State) (w : Width) :
    Ordinary (s.enterHandler (s.divideError w).segs.cs) (s.divideError w) := by
  have h : Ordinary s ((s.undefineFlags .status).undefineReg .ax) :=
    (Ordinary.refl s).undefineFlags.undefineReg .ax
  cases w
  · exact (enterHandler_of_ordinary h _).trans (ordinary_interrupt _ _ _)
  · exact (enterHandler_of_ordinary (h.undefineReg .dx) _).trans (ordinary_interrupt _ _ _)

theorem ordinary_interruptReturn (s : State) :
    Ordinary ((s.setSeg .cs s.interruptReturn.segs.cs).setFlags s.interruptReturn.flags)
      s.interruptReturn :=
  ⟨fun m => (m.of_eq (t := s) rfl rfl).of_jump rfl rfl, rfl, ⟨rfl, rfl, rfl⟩, rfl, rfl, rfl, rfl, rfl⟩

/-- The instructions that load a segment register that is not CS (R153, R157, R163, R164). -/
inductive LoadsSeg : Instr → SegReg → Prop
  | pop {sr : SegReg} (h : sr ≠ .cs) : LoadsSeg (.popSreg sr) sr
  | mov {sr : SegReg} (rm : RM) (h : sr ≠ .cs) : LoadsSeg (.movSregRm sr rm) sr
  | lds (r : Reg16) (m : Mem) : LoadsSeg (.lds r m) .ds
  | les (r : Reg16) (m : Mem) : LoadsSeg (.les r m) .es

/-- The instructions that write a control flag themselves, and what they make of the flags `f`. -/
inductive SetsControl (f : Flags) : Instr → Flags → Prop
  | cli : SetsControl f .cli { f with ifl := false }
  | sti : SetsControl f .sti { f with ifl := true }
  | cld : SetsControl f .cld { f with df := false }
  | std : SetsControl f .std { f with df := true }
  | popf (g : Flags) : SetsControl f .popf g

/-- What an instruction that answers a next state did: an ordinary change, or one of the changes
`Ordinary` leaves out and then an ordinary one. -/
inductive Effect (i : Instr) (s t : State) : Prop
  | ordinary (h : Ordinary s t)
  | farTransfer (hi : writesCs i = true) (cs : Word) (h : Ordinary (s.setSeg .cs cs) t)
  | loadSeg (sr : SegReg) (hi : LoadsSeg i sr) (v : Word) (h : Ordinary (s.setSeg sr v) t)
  | setControl (f : Flags) (hi : SetsControl s.flags i f) (h : Ordinary (s.setFlags f) t)
  | interruptReturn (hi : i = .iret) (cs : Word) (f : Flags)
      (h : Ordinary ((s.setSeg .cs cs).setFlags f) t)
  | interrupt (hi : canInterrupt i = true) (cs : Word) (h : Ordinary (s.enterHandler cs) t)
  | halt (hi : i = .hlt) (h : Ordinary { s with halted := true } t)
  | wait (hi : i = .wait) (b : Bool) (h : Ordinary { s with waiting := b } t)
  | goesOn (r : Repeating) (hi : i.isString = true) (hp : r.prefixes = s.prefixes)
      (hr : s.prefixes.rep ≠ none)
      (hn : s.prefixes.hasSegOrLock = true → s.interruptible = false)
      (h : Ordinary { s with repeating := some r } t)

namespace Effect

variable {i : Instr} {s t u : State}

/-- An instruction whose one answer is an ordinary change. -/
theorem of_ordinary (h : (.next u : Res) = .next t) (hu : Ordinary s u) : Effect i s t := by
  cases h
  exact .ordinary hu

/-- The operations of two operands that store. -/
theorem of_update {op : AluOp} {w : Width} {dst src : Place} (ho : StatusOp op)
    (h : (.next (s.update op w dst src) : Res) = .next t) : Effect i s t :=
  of_ordinary h (ho.update w dst src s)

theorem of_updateImm {op : AluOp} {w : Width} {dst : Place} {v : BitVec w.bits} (ho : StatusOp op)
    (h : (.next (s.updateImm op w dst v) : Res) = .next t) : Effect i s t :=
  of_ordinary h (ho.updateImm w dst v s)

/-- The operations of two operands that only compare. -/
theorem of_compare {op : AluOp} {n : Nat} {a b : BitVec n} (ho : StatusOp op)
    (h : (.next (op n a b s).2 : Res) = .next t) : Effect i s t :=
  of_ordinary h (ho n a b s)

theorem of_jumpIf {c : Bool} {disp : Byte} (h : (.next (s.jumpIf c disp) : Res) = .next t) :
    Effect i s t := of_ordinary h ((Ordinary.refl s).jumpIf c disp)

theorem of_loopIf {c : Bool} {disp : Byte} (h : (.next (s.loopIf c disp) : Res) = .next t) :
    Effect i s t := of_ordinary h (((Ordinary.refl s).setReg16 _ _).jumpIf _ disp)

/-- An instruction whose one answer is an interrupt. -/
theorem of_interrupt {type : Byte} {ret : Word} (hi : canInterrupt i = true)
    (h : (.next (s.interrupt type ret) : Res) = .next t) : Effect i s t := by
  cases h
  exact .interrupt hi _ (ordinary_interrupt s type ret)

theorem of_divideError {w : Width} (hi : canInterrupt i = true)
    (h : (.next (s.divideError w) : Res) = .next t) : Effect i s t := by
  cases h
  exact .interrupt hi _ (ordinary_divideError s w)

/-- A load of a segment register by MOV or POP, after an ordinary change. -/
theorem of_loadSeg {sr : SegReg} {v : Word} (hu : Ordinary s u) (hi : sr ≠ .cs → LoadsSeg i sr)
    (h : u.loadSeg sr v = .next t) : Effect i s t := by
  have hload : ∀ r, Ordinary (s.setSeg r v) (u.setSeg r v) := fun r =>
    ⟨fun m => (hu.memOk (m.of_eq rfl rfl)).of_eq rfl rfl, congrArg (Segs.set · r v) hu.segs,
      hu.control, hu.halted, hu.waiting, hu.repeating, hu.memMap, hu.trapPending⟩
  cases sr with
  | cs => cases h
  | ss =>
    cases h
    exact .loadSeg .ss (hi (by decide)) v (hload .ss).setShadow
  | es =>
    cases h
    exact .loadSeg .es (hi (by decide)) v (hload .es)
  | ds =>
    cases h
    exact .loadSeg .ds (hi (by decide)) v (hload .ds)

/-- A string instruction: one element, one pass that ends the repetition, or one after which it goes
on (R261, R263, R401). -/
theorem of_stringInstr {op : StringOp} {w : Width} (hi : i.isString = true)
    (h : s.stringInstr op w = .next t) : Effect i s t := by
  unfold State.stringInstr at h
  split at h
  · exact of_ordinary h ((Ordinary.refl s).element op w)
  · next r hr =>
    split at h
    · cases h
    · next hn =>
      cases h
      rcases repeatPass_cases op w r s with hu | hu
      · exact .ordinary hu
      · exact .goesOn _ hi rfl (by simp [hr]) (fun hs => by simpa [hs] using hn) hu

end Effect

end Sys2Proof.Machine

namespace Sys2Proof.Machine

open Effect in
/-- What each instruction does beside an ordinary change, one case per constructor. -/
theorem exec_effect {i : Instr} {s t : State} (h : exec i s = .next t) : Effect i s t := by
  have rs : Ordinary s s := .refl s
  cases i with
  -- operations of two operands (R191)
  | addRm => exact of_update statusOp_add h
  | adcRm => exact of_update statusOp_adc h
  | subRm => exact of_update statusOp_sub h
  | sbbRm => exact of_update statusOp_sbb h
  | andRm => exact of_update statusOp_and h
  | orRm => exact of_update statusOp_or h
  | xorRm => exact of_update statusOp_xor h
  | addAcc | addImm => exact of_updateImm statusOp_add h
  | adcAcc | adcImm => exact of_updateImm statusOp_adc h
  | subAcc | subImm => exact of_updateImm statusOp_sub h
  | sbbAcc | sbbImm => exact of_updateImm statusOp_sbb h
  | andAcc | andImm => exact of_updateImm statusOp_and h
  | orAcc | orImm => exact of_updateImm statusOp_or h
  | xorAcc | xorImm => exact of_updateImm statusOp_xor h
  | cmpRm | cmpAcc | cmpImm => exact of_compare statusOp_sub h
  | testRm | testAcc | testImm => exact of_compare statusOp_and h
  -- arithmetic of one operand, decimal adjustment, multiplication, conversion
  | incRm | decRm | negRm => exact of_ordinary h (rs.setFlags.writeAt _ _ _)
  | incReg | decReg => exact of_ordinary h (rs.setFlags.setReg16 _ _)
  | notRm => exact of_ordinary h (rs.writeAt _ _ _)
  | daa | das => exact of_ordinary h (ordinary_decimalAdjusted s _ _ _)
  | aaa | aas =>
    refine of_ordinary h ?_
    split <;> exact ordinary_asciiAdjusted s _ _ _
  | aam | aad => exact of_ordinary h (rs.setReg16 _ _).setFlags.undefineFlags
  | mulRm | imulRm => exact of_ordinary h (ordinary_multiply s _ _ _)
  | cbw | cwd => exact of_ordinary h (rs.setReg16 _ _)
  | rol | ror | rcl | rcr => exact of_ordinary h (ordinary_rotate _ _ _ _ _ s)
  | shl | shr | sar => exact of_ordinary h (ordinary_shift _ _ _ _ _ s)
  -- division (R207, R208, R358)
  | divRm w | idivRm w =>
    simp only [exec, execDivRm, execIdivRm] at h
    split at h
    · exact of_divideError rfl h
    · exact of_ordinary h (ordinary_setQuotient s w _ _)
  -- data transfer
  | movRm | movRmImm | movRmSreg => exact of_ordinary h (rs.writeAt _ _ _)
  | movRegImm | movAccMoffs => exact of_ordinary h (rs.writeReg _ _ _)
  | movMoffsAcc => exact of_ordinary h (rs.writeMem _ _ _ _)
  | movSregRm sr rm => exact of_loadSeg rs (.mov rm) h
  | pushReg r => exact of_ordinary h (ordinary_pushReg16 s r)
  | pushRm rm =>
    cases rm with
    | reg i => exact of_ordinary h (ordinary_pushReg16 s i.reg16)
    | mem m => exact of_ordinary h (rs.push16 _)
  | pushSreg => exact of_ordinary h (rs.push16 _)
  | popReg => exact of_ordinary h (rs.drop16.setReg16 _ _)
  | popRm => exact of_ordinary h (rs.drop16.writeAt _ _ _)
  | popSreg => exact of_loadSeg rs.drop16 .pop h
  | xchgRm w reg rm =>
    refine of_ordinary h (Ordinary.writeReg (.writeAt ?_ w _ _) w reg _)
    split
    · exact rs.assertLock
    · exact rs
  | xchgAcc => exact of_ordinary h ((rs.setReg16 _ _).setReg16 _ _)
  | xlat => exact of_ordinary h (rs.setReg8 _ _)
  | inImm | inDx => exact of_ordinary h (rs.input _ _)
  | outImm | outDx => exact of_ordinary h (rs.emit _)
  | lea => exact of_ordinary h (rs.setReg16 _ _)
  | lds r m =>
    cases h
    exact .loadSeg .ds (.lds r m) _ (Ordinary.refl _).of_eq
  | les r m =>
    cases h
    exact .loadSeg .es (.les r m) _ (Ordinary.refl _).of_eq
  | lahf => exact of_ordinary h (rs.nextDraw.setReg8 _ _)
  | sahf => exact of_ordinary h rs.setFlags
  | pushf => exact of_ordinary h (rs.nextDraw.push16 _)
  | popf =>
    cases h
    exact .setControl _ (.popf _) (Ordinary.refl _).of_eq
  -- strings
  | movs | cmps | stos | lods | scas => exact of_stringInstr rfl h
  -- transfers of control
  | callRel | callRm => exact of_ordinary h ((rs.push16 _).jump _)
  | callFar | callFarMem =>
    cases h
    exact .farTransfer rfl _ (ordinary_callFarTo s _ _)
  | ret => exact of_ordinary h (rs.drop16.jump _)
  | retImm => exact of_ordinary h ((rs.drop16.jump _).setReg16 _ _)
  | retf =>
    cases h
    exact .farTransfer rfl _ (ordinary_returnFar s)
  | retfImm =>
    cases h
    exact .farTransfer rfl _ ((ordinary_returnFar s).setReg16 _ _)
  | jmpRel16 | jmpRel8 | jmpRm => exact of_ordinary h (rs.jump _)
  | jmpFar | jmpFarMem =>
    cases h
    exact .farTransfer rfl _ ((Ordinary.refl _).jump _)
  | loop | loope | loopne => exact of_loopIf h
  | jcxz | jo | jno | jb | jae | je | jne | jbe | ja | js | jns | jp | jnp | jl | jge | jle | jg =>
    exact of_jumpIf h
  | int3 | intN => exact of_interrupt rfl h
  | into =>
    simp only [exec, execInto] at h
    split at h
    · exact of_interrupt rfl h
    · exact of_ordinary h rs
  | iret =>
    cases h
    exact .interruptReturn rfl _ _ (ordinary_interruptReturn s)
  -- processor control and prefixes
  | clc | cmc | stc => exact of_ordinary h rs.setFlags
  | cli =>
    cases h
    exact .setControl _ .cli (.refl _)
  | sti =>
    cases h
    exact .setControl _ .sti (Ordinary.refl _).setShadow
  | cld =>
    cases h
    exact .setControl _ .cld (.refl _)
  | std =>
    cases h
    exact .setControl _ .std (.refl _)
  | hlt =>
    cases h
    exact .halt rfl (.refl _)
  | wait =>
    simp only [exec, execWait] at h
    split at h <;> cases h <;> exact .wait rfl _ (.refl _)
  | nop => exact of_ordinary h rs
  | esc code rm =>
    cases rm with
    | reg => exact of_ordinary h rs
    | mem => exact of_ordinary h (rs.emit _)
  | segOverride | rep | repne => exact of_ordinary h (rs.setPrefixes _)
  | lock => exact of_ordinary h (rs.setPrefixes _).assertLock

end Sys2Proof.Machine

namespace Sys2Proof.Machine

/-! ## Segment registers (R31, R37) -/

theorem writesCs_of_canInterrupt {i : Instr} (h : canInterrupt i = true) : writesCs i = true := by
  cases i with
  | int3 | intN | into | divRm | idivRm => rfl
  | _ => cases h

/-- An instruction leaves the segment registers, or loads CS by a far transfer or an interrupt, or loads
one of the others by MOV, POP, LDS or LES. -/
theorem exec_segs {i : Instr} {s t : State} (h : exec i s = .next t) :
    t.segs = s.segs ∨ (writesCs i = true ∧ ∃ v, t.segs = s.segs.set .cs v) ∨
      ∃ sr v, LoadsSeg i sr ∧ t.segs = s.segs.set sr v := by
  cases exec_effect h with
  | ordinary h | setControl _ _ h | halt _ h | wait _ _ h | goesOn _ _ _ _ _ h => exact .inl h.segs
  | farTransfer hi v h => exact .inr (.inl ⟨hi, v, h.segs⟩)
  | loadSeg sr hi v h => exact .inr (.inr ⟨sr, v, hi, h.segs⟩)
  | interruptReturn hi v f h => exact .inr (.inl ⟨by rw [hi]; rfl, v, h.segs⟩)
  | interrupt hi v h =>
    exact .inr (.inl ⟨writesCs_of_canInterrupt hi, v, h.segs⟩)

theorem LoadsSeg.ne_cs {i : Instr} {sr : SegReg} (h : LoadsSeg i sr) : sr ≠ .cs := by
  cases h with
  | pop hne | mov rm hne => exact hne
  | lds | les => decide

/-- CS changes only by an instruction of `writesCs`. -/
theorem exec_keeps_cs {i : Instr} {s t : State} (h : exec i s = .next t) (hi : writesCs i = false) :
    t.segs.cs = s.segs.cs := by
  rcases exec_segs h with e | ⟨hw, -⟩ | ⟨sr, v, hl, e⟩
  · rw [e]
  · simp [hw] at hi
  · have hcs : t.segs.get .cs = s.segs.get .cs := by rw [e, Segs.get_set, if_neg hl.ne_cs.symm]
    exact hcs

/-- A segment register that is not CS changes only by a load of it. -/
theorem loadsSeg_of_seg_ne {i : Instr} {s t : State} (h : exec i s = .next t) {sr : SegReg}
    (hsr : sr ≠ .cs) (hne : t.segs.get sr ≠ s.segs.get sr) : LoadsSeg i sr := by
  rcases exec_segs h with e | ⟨-, v, e⟩ | ⟨sr', v, hl, e⟩
  · exact absurd (by rw [e]) hne
  · rw [e, Segs.get_set, if_neg hsr] at hne
    exact absurd rfl hne
  · by_cases hsr' : sr = sr'
    · exact hsr' ▸ hl
    · rw [e, Segs.get_set, if_neg hsr'] at hne
      exact absurd rfl hne

/-- Settles O14, from the loads of segment registers that `exec_effect` tells apart. -/
theorem segmentWriters : Obligations.SegmentWriters := by
  intro i s t h
  refine ⟨exec_keeps_cs h, fun hne => ?_, fun hne => ?_, fun hne => ?_⟩
  · cases loadsSeg_of_seg_ne (sr := .ss) h (by decide) hne with
    | pop => exact .inl rfl
    | mov rm => exact .inr ⟨rm, rfl⟩
  · cases loadsSeg_of_seg_ne (sr := .ds) h (by decide) hne with
    | pop => exact .inl rfl
    | mov rm => exact .inr (.inl ⟨rm, rfl⟩)
    | lds r m => exact .inr (.inr ⟨r, m, rfl⟩)
  · cases loadsSeg_of_seg_ne (sr := .es) h (by decide) hne with
    | pop => exact .inl rfl
    | mov rm => exact .inr (.inl ⟨rm, rfl⟩)
    | les r m => exact .inr (.inr ⟨r, m, rfl⟩)

/-! ## Control flags (R36, R168, R280, R354) -/

/-- An instruction keeps the control flags, or sets them by name, or is IRET, or enters a handler with
IF and TF clear. -/
theorem exec_control {i : Instr} {s t : State} (h : exec i s = .next t) :
    KeepsControlFlags s t ∨
      (∃ f, SetsControl s.flags i f ∧ KeepsControlFlags (s.setFlags f) t) ∨ i = .iret ∨
      (canInterrupt i = true ∧ t.flags.tf = false ∧ t.flags.ifl = false ∧
        t.flags.df = s.flags.df) := by
  cases exec_effect h with
  | ordinary h | farTransfer _ _ h | loadSeg _ _ _ h | halt _ h | wait _ _ h
  | goesOn _ _ _ _ _ h => exact .inl h.control
  | setControl f hi h => exact .inr (.inl ⟨f, hi, h.control⟩)
  | interruptReturn hi => exact .inr (.inr (.inl hi))
  | interrupt hi v h => exact .inr (.inr (.inr ⟨hi, h.control⟩))

/-- Settles O15, from what `exec_control` says of the three control flags. -/
theorem controlFlagWriters : Obligations.ControlFlagWriters := by
  intro i s t h hpopf hiret
  rcases exec_control h with ⟨ht, hi, hd⟩ | ⟨f, hf, ht, hi, hd⟩ | rfl | ⟨hc, ht, hi, hd⟩
  · exact ⟨fun h => ht ▸ h, fun h => .inl (hi ▸ h), fun _ => ht, fun _ _ h => hi ▸ h, fun _ _ => hd⟩
  · cases hf with
    | popf => exact absurd rfl hpopf
    | cli | sti | cld | std => simp_all
  · exact absurd rfl hiret
  · simp_all

/-! ## The invariant -/

/-- A state in which an instruction begins: no halt, no wait and no repeat is in progress. -/
structure Fresh (s : State) : Prop where
  memOk : MemOk s
  halted : s.halted = false
  waiting : s.waiting = false
  repeating : s.repeating = none

/-- What of the invariant holds where an instruction ends, before its prefixes are consumed. -/
structure Ended (s : State) : Prop where
  memOk : MemOk s
  oneIdle : ¬(s.halted = true ∧ s.waiting = true)
  repeating : ∀ r, s.repeating = some r →
    r.prefixes.rep ≠ none ∧ s.halted = false ∧ s.waiting = false ∧
      (r.prefixes.hasSegOrLock = true → s.flags.ifl = false ∧ s.flags.tf = false)

theorem Ordinary.fresh {s t : State} (h : Ordinary s t) (hs : Fresh s) : Fresh t :=
  ⟨h.memOk hs.memOk, h.halted.trans hs.halted, h.waiting.trans hs.waiting,
    h.repeating.trans hs.repeating⟩

/-- With no repeat in progress and not both halted and waiting, the rest is the canonical forms. -/
theorem Ended.of_no_repeat {t : State} (hm : MemOk t) (hi : t.halted = false ∨ t.waiting = false)
    (hr : t.repeating = none) : Ended t :=
  ⟨hm, fun ⟨h, w⟩ => by rcases hi with e | e <;> simp_all, fun r e => by simp [hr] at e⟩

theorem Fresh.ended {s : State} (h : Fresh s) : Ended s := .of_no_repeat h.memOk (.inl h.halted) h.repeating

/-- Every instruction leaves a state that the invariant allows, the prefixes aside. -/
theorem Fresh.exec {i : Instr} {s t : State} (hs : Fresh s) (h : exec i s = .next t) : Ended t := by
  obtain ⟨hm, hh, hw, hr⟩ := hs
  cases exec_effect h with
  | ordinary h => exact (h.fresh ⟨hm, hh, hw, hr⟩).ended
  | farTransfer _ v h | loadSeg sr _ v h | setControl f _ h | interruptReturn _ v f h =>
    exact (h.fresh ⟨hm.of_eq rfl rfl, hh, hw, hr⟩).ended
  | interrupt _ v h => exact (h.fresh ⟨hm.of_eq rfl rfl, rfl, rfl, hr⟩).ended
  | halt _ h =>
    exact .of_no_repeat (h.memOk (hm.of_eq rfl rfl)) (.inr (h.waiting.trans hw)) (h.repeating.trans hr)
  | wait _ b h =>
    exact .of_no_repeat (h.memOk (hm.of_eq rfl rfl)) (.inl (h.halted.trans hh)) (h.repeating.trans hr)
  | goesOn r _ hp hrep hn h =>
    have hh' := h.halted.trans hh
    refine ⟨h.memOk (hm.of_eq rfl rfl), by simp [hh'], fun r' e => ?_⟩
    obtain rfl : r = r' := by simpa using h.repeating.symm.trans e
    refine ⟨hp ▸ hrep, hh', h.waiting.trans hw, fun hsl => ?_⟩
    obtain ⟨ht, hi, -⟩ := h.control
    have := hn (hp ▸ hsl)
    simp_all [State.interruptible]

theorem Ended.complete {s : State} (h : Ended s) (tf : Bool) : Inv (s.complete tf) :=
  ⟨h.memOk.memory, h.memOk.written, rfl, rfl, h.oneIdle, h.repeating⟩

theorem exec_prefix_ordinary {i : Instr} {s t : State} (hi : i.isPrefix = true)
    (h : exec i s = .next t) : Ordinary s t := by
  cases i with
  | segOverride | rep | repne =>
    cases h
    exact (Ordinary.refl s).setPrefixes _
  | lock =>
    cases h
    exact ((Ordinary.refl s).setPrefixes _).assertLock
  | _ => cases hi

/-- Prefix rows and the row they belong to, run one after another (R102). -/
theorem Fresh.runRows {i : Instr} {rows : List Instr} {s t : State} (hs : Fresh s)
    (hp : ∀ p ∈ rows, p.isPrefix = true) (h : runRows Machine.exec (rows ++ [i]) s = .next t) :
    Ended t := by
  induction rows generalizing s with
  | nil => exact hs.exec (by simpa using h)
  | cons p rows ih =>
    simp only [List.cons_append, Machine.runRows] at h
    split at h
    · next u hu =>
      have hpu := exec_prefix_ordinary (hp p (by simp)) hu
      exact ih (hpu.fresh hs) (fun q hq => hp q (by simp [hq])) h
    · cases h
    · cases h

/-- What the decoder puts before an instruction are rows of format F_PREFIX (R102). -/
theorem decodeFrom_prefixes {fuel total : Nat} {seen : List Instr} {bs : List Byte} {d : Decoded}
    (h : decodeFrom fuel seen total bs = .ok d) (hs : ∀ p ∈ seen, p.isPrefix = true) :
    ∀ p ∈ d.prefixes, p.isPrefix = true := by
  induction fuel generalizing seen bs with
  | zero =>
    unfold decodeFrom at h
    split at h
    · cases h
    · split at h
      · simp at h
      · split at h
        · cases h
        · cases h
          exact hs
  | succ fuel ih =>
    unfold decodeFrom at h
    split at h
    · cases h
    · split at h
      · split at h
        · cases h
        · refine ih h fun p hp => ?_
          rcases List.mem_append.1 hp with hp | hp
          · exact hs p hp
          · rwa [List.mem_singleton.1 hp]
      · split at h
        · cases h
        · cases h
          exact hs

theorem decode_prefixes {bs : List Byte} {d : Decoded} (h : decode bs = .ok d) :
    ∀ p ∈ d.prefixes, p.isPrefix = true := decodeFrom_prefixes h (by simp)

namespace Inv

variable {s : State}

theorem memOk (h : Inv s) : MemOk s := ⟨h.memory, h.written⟩

theorem samplePins (h : Inv s) : Inv s.samplePins := by
  unfold State.samplePins
  split
  · exact h
  · exact ⟨h.memory, h.written, h.prefixes, h.lockOutput, h.oneIdle, h.repeating⟩

theorem clearShadow (h : Inv s) : Inv s.clearShadow :=
  ⟨h.memory, h.written, h.prefixes, h.lockOutput, h.oneIdle, h.repeating⟩

theorem resetEvent (h : Inv s) : Inv s.resetEvent :=
  ⟨h.memory, ⟨.nil, by simp [State.resetEvent, State.reset]⟩, rfl, rfl, by
    simp [State.resetEvent, State.reset], fun _ e => by cases e⟩

/-- The invariant knows nothing of what a recognised request changes. -/
theorem recognise {u : State} {type : Byte} (h : Inv s) (hu : s.recognise = some (type, u)) :
    Inv u := by
  obtain ⟨hm, hw, hp, hl, ho, hr⟩ := h
  rcases recognise_cases hu with ⟨-, -, rfl⟩ | ⟨-, -, -, rfl⟩ | ⟨-, -, -, -, rfl⟩ <;>
    exact ⟨hm, hw, hp, hl, ho, hr⟩

/-- An accepted interrupt drops the repeat, releases LOCK and ends a halt or wait (R263, R355). -/
theorem accept {t : State} {type : Byte} (h : Inv s) (ht : s.accept type = .next t) : Inv t := by
  obtain ⟨-, rfl⟩ := accept_next ht
  obtain ⟨hm, hw⟩ := MemOk.interrupt (h.memOk.of_eq (t := s.dropRepeat) rfl rfl) type s.returnOffset
  exact ⟨hm, hw, h.prefixes, rfl, by simp, fun _ e => by cases e⟩

theorem endWait (h : Inv s) : Inv s.endWait := by
  refine ⟨h.memory, h.written, rfl, rfl, by simp, fun r e => ?_⟩
  obtain ⟨hrep, hh, -, hn⟩ := h.repeating r e
  exact ⟨hrep, hh, rfl, hn⟩

theorem runNext {t : State} (h : Inv s) (ht : runNext exec s = .next t) : Inv t := by
  rcases runNext_cases ht with ⟨-, rfl⟩ | ⟨-, -, -, rfl⟩ | ⟨-, -, -, rfl⟩ |
    ⟨r, u, hh, hw, -, hu, rfl⟩ | ⟨d, u, hh, hw, hr, hd, -, hu, rfl⟩
  · exact h.clearShadow
  · exact h.endWait
  · exact h.clearShadow
  · have hf : Fresh (s.clearShadow.resume r) := ⟨h.memOk.of_eq rfl rfl, hh, hw, rfl⟩
    exact (hf.exec hu).complete _
  · have hf : Fresh (s.clearShadow.begin d.length) := ⟨h.memOk.of_eq rfl rfl, hh, hw, hr⟩
    exact (hf.runRows (decode_prefixes hd) hu).complete _

end Inv

/-- Settles O12: a step resets, accepts an interrupt or goes on, and each keeps the invariant. -/
theorem stepKeepsInv : Obligations.StepKeepsInv := by
  intro s t h ht
  rcases step_cases ht with ⟨-, rfl⟩ | ⟨type, u, hu, -, -, ha⟩ | ⟨-, hn⟩
  · exact h.samplePins.resetEvent
  · exact (h.samplePins.recognise hu).accept ha
  · exact h.samplePins.runNext hn

/-- Settles O11: memory and the set list nothing at reset, and nothing is in progress. -/
theorem invAtReset : Obligations.InvAtReset :=
  ⟨⟨.nil, by simp [State.reset]⟩, ⟨.nil, by simp [State.reset]⟩, rfl, rfl, by simp [State.reset],
    fun _ e => by cases e⟩

/-! ## A step at a fetched instruction, and reset -/

/-- The rows at CS:IP run where they decode and none of their bytes was written (R26, R102, R400). -/
theorem runNext_decoded {s t : State} {d : Decoded} (hh : s.halted = false) (hw : s.waiting = false)
    (hr : s.repeating = none) (hd : decode (s.fetchBytes maxLength) = .ok d)
    (hc : s.runsWrittenCode d.length = false)
    (ht : runRows exec (d.prefixes ++ [d.instr]) (s.clearShadow.begin d.length) = .next t) :
    runNext exec s = .next (t.complete s.flags.tf) := by
  have hd' : decode (s.clearShadow.fetchBytes maxLength) = .ok d := hd
  have hc' : s.clearShadow.runsWrittenCode d.length = false := hc
  simp [runNext, runFetched, hh, hw, hr, hd', hc', ht, completeRes]

/-- Settles O6: a quiet step goes on, and what it fetches is what it runs. -/
theorem stepRunsDecoded : Obligations.StepRunsDecoded := by
  intro s hq hh hw hr d hd hc
  rw [step_of_quiet hq]
  refine ⟨fun hp t ht => ?_, fun u t hu ht => ?_⟩
  · refine runNext_decoded hh hw hr hd hc ?_
    rw [hp]
    exact (runRows_single _ _).trans ht
  · refine runNext_decoded hh hw hr hd hc ?_
    rw [runRows_append, show runRows exec d.prefixes (s.clearShadow.begin d.length) = _ from hu]
    simpa using ht

/-- The first fetch after a reset is at FFFF0H (R50). -/
theorem physAddr_reset : (physAddr 0xFFFF#16 0x0000#16).toNat = 0xFFFF0 := by decide

/-- A step with RESET asserted is the reset event (R390). -/
theorem step_of_reset {s : State} (h : s.samplePins.pins.reset = true) :
    step s = .next s.samplePins.resetEvent := by
  simp [step, cycle, cycleSampled, h]

/-- Settles O9: the reset event gives every field of the spec's table from `State.reset`, and a sampling
latches a rise of NMI. -/
theorem resetAndNmiEdge : Obligations.ResetAndNmiEdge := by
  refine ⟨?_, fun s p rest hs hp => ?_, fun s p rest hs hn hl => ?_⟩
  · exact ⟨rfl, rfl, physAddr_reset, rfl, rfl, rfl, rfl, rfl, rfl, rfl, rfl, rfl⟩
  · have hpins : s.samplePins.pins.reset = true := by simp [State.samplePins, hs, hp]
    have hmem : s.samplePins.mem = s.mem := by simp [State.samplePins, hs]
    refine ⟨_, step_of_reset hpins, ?_, fun a _ => congrArg (Memory.read · a) hmem⟩
    exact ⟨rfl, rfl, physAddr_reset, rfl, rfl, rfl, rfl, rfl, rfl, rfl, rfl, rfl⟩
  · simp [State.samplePins, hs, hn, hl]

end Sys2Proof.Machine

namespace Sys2Proof.Machine

/-! ## The flag helpers (R40 to R42) -/

/-- The parity of eight bits, as an exclusive or and as a count. -/
theorem evenParity_iff {n : Nat} (v : BitVec n) :
    evenParity v = true ↔ onesInLowByte v % 2 = 0 := by
  simp only [evenParity, onesInLowByte, List.range, List.range.loop, List.countP_cons, List.countP_nil]
  generalize v.getLsbD 0 = b0
  generalize v.getLsbD 1 = b1
  generalize v.getLsbD 2 = b2
  generalize v.getLsbD 3 = b3
  generalize v.getLsbD 4 = b4
  generalize v.getLsbD 5 = b5
  generalize v.getLsbD 6 = b6
  generalize v.getLsbD 7 = b7
  revert b0 b1 b2 b3 b4 b5 b6 b7
  decide

/-- `SZP_w` shows its value (R40). -/
theorem showsResult_szp {n : Nat} (f : Flags) (v : BitVec n) : ShowsResult v (f.szp v) where
  sf := rfl
  zf := by simp [Flags.szp, BitVec.toNat_eq]
  pf := evenParity_iff v

/-- SF, ZF and PF decide whether flags show a result. -/
theorem ShowsResult.of_eq {n : Nat} {v : BitVec n} {f g : Flags} (h : ShowsResult v f)
    (hs : g.sf = f.sf) (hz : g.zf = f.zf) (hp : g.pf = f.pf) : ShowsResult v g :=
  ⟨hs.trans h.sf, by rw [hz, h.zf], by rw [hp, h.pf]⟩

theorem showsResult_add {n : Nat} (f : Flags) (a b : BitVec n) (c : Bool) :
    ShowsResult (addResult a b c) (f.add a b c) := (showsResult_szp f _).of_eq rfl rfl rfl

theorem showsResult_sub {n : Nat} (f : Flags) (a b : BitVec n) (c : Bool) :
    ShowsResult (subResult a b c) (f.sub a b c) := (showsResult_szp f _).of_eq rfl rfl rfl

theorem addResult_toNat {n : Nat} (a b : BitVec n) (c : Bool) :
    (addResult a b c).toNat = (a.toNat + b.toNat + c.toNat) % 2 ^ n := by
  simp [addResult]

theorem subResult_toNat {n : Nat} (a b : BitVec n) (c : Bool) :
    ((subResult a b c).toNat : Int) = ((a.toNat : Int) - b.toNat - c.toNat) % 2 ^ n := by
  have : 0 ≤ ((a.toNat : Int) - b.toNat - c.toNat) % ((2 ^ n : Nat) : Int) :=
    Int.emod_nonneg _ (by positivity)
  rw [subResult, BitVec.toNat_ofInt, Int.toNat_of_nonneg this]
  norm_cast

/-- Signed operands give the same bits as unsigned ones (R41). -/
theorem addResult_eq_ofInt {n : Nat} (a b : BitVec n) (c : Bool) :
    addResult a b c = BitVec.ofInt n (a.toInt + b.toInt + c.toNat) := by
  rw [BitVec.ofInt_add, BitVec.ofInt_add, BitVec.ofInt_toInt, BitVec.ofInt_toInt, addResult,
    BitVec.ofNat_add, BitVec.ofNat_add, BitVec.ofNat_toNat, BitVec.ofNat_toNat]
  simp

/-- The sign rule of an addition is signed overflow (R41). -/
theorem sum_overflows_iff (w : Width) (a b : BitVec w.bits) (c : Bool) :
    (a.msb = b.msb ∧ (addResult a b c).msb ≠ a.msb) ↔
      Overflows w.bits (a.toInt + b.toInt + c.toNat) := by
  have hc : c.toNat ≤ 1 := Bool.toNat_le c
  have hr := addResult_toNat a b c
  have ha := a.isLt
  have hb := b.isLt
  simp only [BitVec.msb_eq_decide, BitVec.toInt_eq_toNat_cond, Overflows, ne_eq, decide_eq_decide]
  cases w <;> simp only [Width.bits] at * <;> omega

/-- The sign rule of a subtraction is signed overflow (R42). -/
theorem difference_overflows_iff (w : Width) (a b : BitVec w.bits) (c : Bool) :
    (a.msb ≠ b.msb ∧ (subResult a b c).msb ≠ a.msb) ↔
      Overflows w.bits (a.toInt - b.toInt - c.toNat) := by
  have hc : c.toNat ≤ 1 := Bool.toNat_le c
  have hr := subResult_toNat a b c
  have ha := a.isLt
  have hb := b.isLt
  simp only [BitVec.msb_eq_decide, BitVec.toInt_eq_toNat_cond, Overflows, ne_eq, decide_eq_decide]
  cases w <;> simp only [Width.bits] at * <;> omega

theorem add_ofl_iff (w : Width) (f : Flags) (a b : BitVec w.bits) (c : Bool) :
    (f.add a b c).ofl = true ↔ Overflows w.bits (a.toInt + b.toInt + c.toNat) := by
  rw [← sum_overflows_iff]
  exact decide_eq_true_iff

theorem sub_ofl_iff (w : Width) (f : Flags) (a b : BitVec w.bits) (c : Bool) :
    (f.sub a b c).ofl = true ↔ Overflows w.bits (a.toInt - b.toInt - c.toNat) := by
  rw [← difference_overflows_iff]
  exact decide_eq_true_iff

/-- The flags of `ADD_w` are those of the sum. -/
theorem sumFlags_add (w : Width) (f : Flags) (a b : BitVec w.bits) (c : Bool) :
    SumFlags a b c.toNat (f.add a b c) :=
  ⟨decide_eq_true_iff, decide_eq_true_iff, add_ofl_iff w f a b c, showsResult_add f a b c⟩

/-- The flags of `SUB_w` are those of the difference. -/
theorem differenceFlags_sub (w : Width) (f : Flags) (a b : BitVec w.bits) (c : Bool) :
    DifferenceFlags a b c.toNat (f.sub a b c) :=
  ⟨decide_eq_true_iff, decide_eq_true_iff, sub_ofl_iff w f a b c, showsResult_sub f a b c⟩

/-- Settles O17, from the flags of a sum and the sign rule for its overflow. -/
theorem addHelper : Obligations.AddHelper := by
  intro w a b c f
  obtain ⟨hcf, haf, hofl, hres⟩ := sumFlags_add w f a b c
  exact ⟨addResult_toNat a b c, addResult_eq_ofInt a b c, hcf, haf,
    hofl.trans (sum_overflows_iff w a b c).symm, hofl, hres, rfl, rfl, rfl⟩

/-- Settles O18, from the flags of a difference and the sign rule for its overflow. -/
theorem subHelper : Obligations.SubHelper := by
  intro w a b c f
  obtain ⟨hcf, haf, hofl, hres⟩ := differenceFlags_sub w f a b c
  exact ⟨subResult_toNat a b c, hcf, haf, hofl.trans (difference_overflows_iff w a b c).symm, hofl,
    hres, rfl, rfl, rfl⟩

end Sys2Proof.Machine

namespace Sys2Proof.Machine

/-! ## Frames of changes that follow one another -/

theorem SameHidden.trans {s u t : State} (h : SameHidden s u) (k : SameHidden u t) :
    SameHidden s t := by
  obtain ⟨h1, h2, h3, h4, h5, h6, h7, h8, h9, h10, h11, h12, h13, h14⟩ := h
  obtain ⟨k1, k2, k3, k4, k5, k6, k7, k8, k9, k10, k11, k12, k13, k14⟩ := k
  exact ⟨k1.trans h1, k2.trans h2, k3.trans h3, k4.trans h4, k5.trans h5, k6.trans h6, k7.trans h7,
    k8.trans h8, k9.trans h9, k10.trans h10, k11.trans h11, k12.trans h12, k13.trans h13,
    k14.trans h14⟩

theorem sameHidden_setFlags (s : State) (f : Flags) : SameHidden s (s.setFlags f) :=
  ⟨rfl, rfl, rfl, rfl, rfl, rfl, rfl, rfl, rfl, rfl, rfl, rfl, rfl, rfl⟩

theorem sameHidden_setReg16 (s : State) (r : Reg16) (v : Word) : SameHidden s (s.setReg16 r v) :=
  ⟨rfl, rfl, rfl, rfl, rfl, rfl, rfl, rfl, rfl, rfl, rfl, rfl, rfl, rfl⟩

theorem sameHidden_nextDraw (s : State) : SameHidden s s.nextDraw :=
  ⟨rfl, rfl, rfl, rfl, rfl, rfl, rfl, rfl, rfl, rfl, rfl, rfl, rfl, rfl⟩

theorem RegsOnly.undefineFlags {l : List Reg16} {s t : State} (h : RegsOnly l s t) {u : FlagSet}
    (ht : u.tf = false) (hi : u.ifl = false) (hd : u.df = false) :
    RegsOnly l s (t.undefineFlags u) where
  regs := h.regs
  segs := h.segs
  ip := h.ip
  control := by simpa [KeepsControlFlags, Flags.undefine, ht, hi, hd] using h.control
  stores := ⟨h.stores.memory, h.stores.written⟩
  hidden := h.hidden.trans ((sameHidden_nextDraw t).trans (sameHidden_setFlags _ _))

theorem RegsOnly.setReg16 {l : List Reg16} {s t : State} (h : RegsOnly l s t) (r : Reg16) (v : Word) :
    RegsOnly (r :: l) s (t.setReg16 r v) where
  regs r' hr' := by
    obtain ⟨hne, hl⟩ := List.ne_and_not_mem_of_not_mem_cons hr'
    exact (reg16_setReg16_other t v hne).trans (h.regs r' hl)
  segs := h.segs
  ip := h.ip
  control := h.control
  stores := ⟨h.stores.memory, h.stores.written⟩
  hidden := h.hidden.trans (sameHidden_setReg16 t r v)

/-- A store to a place keeps the flags that were set before it. -/
theorem setFlags_writeAt (s : State) (f : Flags) (w : Width) (p : Place) (v : BitVec w.bits) :
    (s.writeAt w p v).setFlags f = (s.setFlags f).writeAt w p v := by
  cases p <;> cases w <;> rfl

/-- A change of flags before a store does not show in what is stored. -/
theorem stored_setFlags_writeAt {s : State} (hm : Memory.wf s.mem) (f : Flags) (w : Width) (p : Place)
    (v : BitVec w.bits) : Stored w p v s ((s.setFlags f).writeAt w p v) :=
  (stored_writeAt (s := s.setFlags f) hm w p v).of_eq rfl

/-! ## AND, OR and XOR (R43, R232 to R234) -/

theorem regsOnly_logicFlags {n : Nat} (s : State) (v : BitVec n) : RegsOnly [] s (s.logicFlags v) :=
  (regsOnly_setFlags s (s.flags.logic v) rfl rfl rfl).undefineFlags rfl rfl rfl

theorem logicFlags_logicFlags {n : Nat} (s : State) (v : BitVec n) :
    LogicFlags v (s.logicFlags v).flags :=
  ⟨rfl, rfl, (showsResult_szp s.flags v).of_eq rfl rfl rfl⟩

/-- A logical operation that sets the flags of its result and stores it. -/
theorem combines_writeAt {s : State} (hm : Memory.wf s.mem) {f : Bool → Bool → Bool} {w : Width}
    (p : Place) {a b r : BitVec w.bits}
    (hr : ∀ k < w.bits, r.getLsbD k = f (a.getLsbD k) (b.getLsbD k)) :
    Combines f w p a b s ((s.logicFlags r).writeAt w p r) where
  result := ⟨r, hr, (stored_writeAt (s := s.logicFlags r) hm w p r).of_eq rfl, by
    simpa using logicFlags_logicFlags s r⟩
  frame := (regsOnly_logicFlags s r).writeAt rfl rfl w p r

section
variable {s : State} (hm : Memory.wf s.mem) (w : Width) (p : Place) (a b : BitVec w.bits)
include hm

theorem combines_and : Combines (· && ·) w p a b s
    ((aluAnd w.bits a b s).2.writeAt w p (aluAnd w.bits a b s).1) :=
  combines_writeAt hm p fun _ _ => BitVec.getLsbD_and

theorem combines_or : Combines (· || ·) w p a b s
    ((aluOr w.bits a b s).2.writeAt w p (aluOr w.bits a b s).1) :=
  combines_writeAt hm p fun _ _ => BitVec.getLsbD_or

theorem combines_xor : Combines (· != ·) w p a b s
    ((aluXor w.bits a b s).2.writeAt w p (aluXor w.bits a b s).1) :=
  combines_writeAt hm p fun _ _ => BitVec.getLsbD_xor

/-- The three operations at one place: each answers, and combines the operands there. -/
theorem logic_answers :
    (∃ t, (.next ((aluAnd w.bits a b s).2.writeAt w p (aluAnd w.bits a b s).1) : Res) = .next t ∧
      Combines (· && ·) w p a b s t) ∧
    (∃ t, (.next ((aluOr w.bits a b s).2.writeAt w p (aluOr w.bits a b s).1) : Res) = .next t ∧
      Combines (· || ·) w p a b s t) ∧
    ∃ t, (.next ((aluXor w.bits a b s).2.writeAt w p (aluXor w.bits a b s).1) : Res) = .next t ∧
      Combines (· != ·) w p a b s t :=
  ⟨⟨_, rfl, combines_and hm w p a b⟩, ⟨_, rfl, combines_or hm w p a b⟩,
    ⟨_, rfl, combines_xor hm w p a b⟩⟩

end

/-- Settles O24: each form reads its operands, combines them bit by bit and stores at the place it read
first. -/
theorem andOrXor : Obligations.AndOrXor := by
  intro s hm
  refine ⟨fun w _ _ _ => ?_, fun imm => ?_, fun imm _ => ?_⟩
  · exact logic_answers hm _ _ _ _
  · exact logic_answers hm imm.width (.reg .r0) (s.readAcc imm.width) imm.value
  · exact logic_answers hm imm.width _ _ imm.value

/-! ## Sums and differences at a destination, INC and DEC (R41, R42, R44, R194, R199) -/

/-- An addition that sets the flags of the sum and stores it. -/
theorem sums_writeAt {s : State} (hm : Memory.wf s.mem) (w : Width) (p : Place) (a b : BitVec w.bits)
    (c : Bool) : Sums w p a b c.toNat s
      ((s.setFlags (s.flags.add a b c)).writeAt w p (addResult a b c)) where
  value := stored_setFlags_writeAt hm _ w p _
  flags := by simpa using sumFlags_add w s.flags a b c
  frame := (regsOnly_setFlags s (s.flags.add a b c) rfl rfl rfl).writeAt rfl rfl w p _

/-- A subtraction that sets the flags of the difference and stores it. -/
theorem differs_writeAt {s : State} (hm : Memory.wf s.mem) (w : Width) (p : Place)
    (a b : BitVec w.bits) (c : Bool) : Differs w p a b c.toNat s
      ((s.setFlags (s.flags.sub a b c)).writeAt w p (subResult a b c)) where
  value := stored_setFlags_writeAt hm _ w p _
  flags := by simpa using differenceFlags_sub w s.flags a b c
  frame := (regsOnly_setFlags s (s.flags.sub a b c) rfl rfl rfl).writeAt rfl rfl w p _

/-- INC at a place, with the flags of the sum in place of those that keep CF. -/
theorem sums_inc {s : State} (hm : Memory.wf s.mem) (w : Width) (p : Place) :
    Sums w p (s.readAt w p) 1#_ 0 s
      ((s.modify opInc w p).setFlags (s.flags.add (s.readAt w p) 1#_ false)) := by
  simp only [State.modify, opInc, setFlags_writeAt]
  exact sums_writeAt hm w p _ _ false

/-- DEC at a place, with the flags of the difference in place of those that keep CF. -/
theorem differs_dec {s : State} (hm : Memory.wf s.mem) (w : Width) (p : Place) :
    Differs w p (s.readAt w p) 1#_ 0 s
      ((s.modify opDec w p).setFlags (s.flags.sub (s.readAt w p) 1#_ false)) := by
  simp only [State.modify, opDec, setFlags_writeAt]
  exact differs_writeAt hm w p _ _ false

theorem regsOnly_inc {n : Nat} (a : BitVec n) (s : State) : RegsOnly [] s (opInc n a s).2 :=
  regsOnly_setFlags s { s.flags.add a 1#n false with cf := s.flags.cf } rfl rfl rfl

theorem regsOnly_dec {n : Nat} (a : BitVec n) (s : State) : RegsOnly [] s (opDec n a s).2 :=
  regsOnly_setFlags s { s.flags.sub a 1#n false with cf := s.flags.cf } rfl rfl rfl

theorem flags_inc (s : State) (w : Width) (p : Place) : (s.modify opInc w p).flags =
    { s.flags.add (s.readAt w p) 1#_ false with cf := s.flags.cf } := by
  simp [State.modify, opInc]

theorem flags_dec (s : State) (w : Width) (p : Place) : (s.modify opDec w p).flags =
    { s.flags.sub (s.readAt w p) 1#_ false with cf := s.flags.cf } := by
  simp [State.modify, opDec]

/-- Settles O25: the flags but CF are those of the addition or subtraction of 1. -/
theorem incDec : Obligations.IncDec := by
  intro s hm
  refine ⟨fun w rm => ⟨?_, ?_⟩, fun r => ⟨?_, ?_⟩⟩
  · have hf := flags_inc s w (place rm s)
    exact ⟨_, rfl, by rw [hf], _, sums_inc hm w _, hf⟩
  · have hf := flags_dec s w (place rm s)
    exact ⟨_, rfl, by rw [hf], _, differs_dec hm w _, hf⟩
  · refine ⟨_, rfl, (regsOnly_inc _ s).setReg16 r _, ?_, _,
      sumFlags_add .word s.flags _ _ false, rfl⟩
    rw [reg16_setReg16_same]
    exact addResult_toNat _ _ false
  · refine ⟨_, rfl, (regsOnly_dec _ s).setReg16 r _, ?_, _,
      differenceFlags_sub .word s.flags _ _ false, rfl⟩
    have hd := subResult_toNat (s.reg16 r) 1#16 false
    rw [reg16_setReg16_same]
    simp only [opDec, BitVec.toNat_ofNat, Bool.toNat_false] at hd ⊢
    omega

end Sys2Proof.Machine

namespace Sys2Proof

/-! ## ModRM bytes (R104) -/

section
variable {mod reg rm : Nat}

theorem modrm_toNat (hm : mod < 4) (hr : reg < 8) (hx : rm < 8) :
    (modrm mod reg rm).toNat = 64 * mod + 8 * reg + rm := by
  simp only [modrm, byteOf, BitVec.toNat_ofNat]
  omega

theorem modrm_mod (hm : mod < 4) (hr : reg < 8) (hx : rm < 8) :
    ((modrm mod reg rm).extractLsb' 6 2).toNat = mod := by
  rw [BitVec.extractLsb'_toNat, modrm_toNat hm hr hx, Nat.shiftRight_eq_div_pow]
  omega

theorem modrm_reg (hm : mod < 4) (hr : reg < 8) (hx : rm < 8) :
    ((modrm mod reg rm).extractLsb' 3 3).toNat = reg := by
  rw [BitVec.extractLsb'_toNat, modrm_toNat hm hr hx, Nat.shiftRight_eq_div_pow]
  omega

theorem modrm_rm (hm : mod < 4) (hr : reg < 8) (hx : rm < 8) :
    ((modrm mod reg rm).extractLsb' 0 3).toNat = rm := by
  rw [BitVec.extractLsb'_toNat, modrm_toNat hm hr hx, Nat.shiftRight_eq_div_pow]
  omega

variable (hr : reg < 8) (hx : rm < 8) (rest : List Byte) (lo hi : Byte)
  (k : Nat → RM → List Byte → RowResult)
include hr

theorem takeModRM_direct : takeModRM (modrm 0 reg 6 :: lo :: hi :: rest) k =
    k reg (.mem (.direct (wordOf lo hi))) rest := by
  have h0 : 0 < 4 := by decide
  have h6 : 6 < 8 := by decide
  simp only [takeModRM, take8, take16, modrm_mod h0 hr h6, modrm_reg h0 hr h6,
    modrm_rm h0 hr h6, if_true]

include hx

theorem takeModRM_plain (h6 : rm ≠ 6) : takeModRM (modrm 0 reg rm :: rest) k =
    k reg (.mem (.plain (EaBase.ofNum rm))) rest := by
  have h0 : 0 < 4 := by decide
  simp only [takeModRM, take8, modrm_mod h0 hr hx, modrm_reg h0 hr hx,
    modrm_rm h0 hr hx, if_neg h6]

theorem takeModRM_disp8 : takeModRM (modrm 1 reg rm :: lo :: rest) k =
    k reg (.mem (.disp8 (EaBase.ofNum rm) lo)) rest := by
  have h1 : 1 < 4 := by decide
  simp only [takeModRM, take8, modrm_mod h1 hr hx, modrm_reg h1 hr hx, modrm_rm h1 hr hx]

theorem takeModRM_disp16 : takeModRM (modrm 2 reg rm :: lo :: hi :: rest) k =
    k reg (.mem (.disp16 (EaBase.ofNum rm) (wordOf lo hi))) rest := by
  have h2 : 2 < 4 := by decide
  simp only [takeModRM, take8, take16, modrm_mod h2 hr hx, modrm_reg h2 hr hx, modrm_rm h2 hr hx]

theorem takeModRM_reg : takeModRM (modrm 3 reg rm :: rest) k =
    k reg (.reg (RegNum.ofNum rm)) rest := by
  have h3 : 3 < 4 := by decide
  simp only [takeModRM, take8, modrm_mod h3 hr hx, modrm_reg h3 hr hx, modrm_rm h3 hr hx]

end

/-- 8BH is MOV of a word to a register, and what follows it is a ModRM byte (R114). -/
theorem decodeRow_8B (bs : List Byte) :
    decodeRow (0x8B#8 :: bs) = takeRegRM bs (.movRm .toReg .word) := rfl

theorem wordOf_eq_ofNat (lo hi : Byte) : wordOf lo hi = BitVec.ofNat 16 (lo.toNat + 256 * hi.toNat) := by
  apply BitVec.eq_of_toNat_eq
  have := lo.isLt
  have := hi.isLt
  rw [wordOf_toNat, BitVec.toNat_ofNat]
  omega

end Sys2Proof

namespace Sys2Proof.Machine

/-! ## Addresses (R61, R66, R80 to R83) -/

theorem sext8_toNat (d : Byte) : ((sext8 d).toNat : Int) = d.toInt % 65536 := by
  have h : 0 ≤ d.toInt % 65536 := Int.emod_nonneg _ (by decide)
  rw [sext8, BitVec.signExtend, BitVec.toNat_ofInt]
  exact Int.toNat_of_nonneg h

theorem read16_toNat (s : State) (seg off : Word) : (s.read16 seg off).toNat = s.wordAt seg off := by
  rw [State.read16, wordOf_toNat, Nat.add_comm, Nat.mul_comm]
  rfl

/-- The three effective addresses of a base, from the sum of its registers. -/
theorem effAddr_of_base {s : State} {b : EaBase} {n : Nat} (h : (eaBase s b).toNat = n % 65536)
    (d8 : Byte) (d16 : Word) :
    (effAddr (.plain b) s).toNat = n % 65536 ∧
      ((effAddr (.disp8 b d8) s).toNat : Int) = ((n : Int) + d8.toInt) % 65536 ∧
      (effAddr (.disp16 b d16) s).toNat = (n + d16.toNat) % 65536 := by
  have := sext8_toNat d8
  refine ⟨h, ?_, ?_⟩
  · simp only [effAddr, BitVec.toNat_add]
    omega
  · simp only [effAddr, BitVec.toNat_add]
    omega

/-- The default segment of a base is SS exactly where BP is in it (R82). -/
theorem seg_baseSeg (s : State) (b : EaBase) : s.seg (baseSeg b) =
    if b = .bp ∨ b = .bpSi ∨ b = .bpDi then s.segs.ss else s.segs.ds := by
  cases b <;> rfl

/-- The bytes at CS:IP that lie in RAM or ROM are fetched as memory holds them (R27). -/
theorem fetchBytes_getElem {s : State} {n k : Nat} (hk : k < n)
    (hm : s.kindAt (physAddr s.segs.cs (s.ip + BitVec.ofNat 16 k)).toNat ≠ .bus) :
    (s.fetchBytes n)[k]? =
      some (s.byteAt (physAddr s.segs.cs (s.ip + BitVec.ofNat 16 k)).toNat) := by
  simp [State.fetchBytes, State.fetchAddrs, hk, fetchByte_memory hm]

/-- Settles O20: each clause from the lemma about its definition, the ModRM bytes from `takeModRM`. -/
theorem addressing : Obligations.Addressing := by
  refine ⟨physAddr_toNat, fun s => ⟨fun _ => rfl, fun b d8 d16 => ?_⟩, fun s m hp => ?_,
    fun s m sr hp => ?_, fun s seg => ?_, fun s n k hk => fetchBytes_getElem hk,
    fun reg rm lo hi rest => ?_⟩
  · cases b with
    | bxSi | bxDi | bpSi | bpDi => exact effAddr_of_base (BitVec.toNat_add _ _) d8 d16
    | si | di | bp | bx => exact effAddr_of_base (Nat.mod_eq_of_lt (BitVec.isLt _)).symm d8 d16
  · cases m with
    | direct => simp [memPlace, State.dataSeg, hp, defaultSeg, State.seg, Segs.get]
    | plain | disp8 | disp16 =>
      simp only [memPlace, State.dataSeg, hp, defaultSeg, Option.getD_none, seg_baseSeg]
  · simp [memPlace, State.dataSeg, hp]
  · exact read16_toNat s seg 0xFFFF#16
  · have hbyte (mod : Nat) : BitVec.ofNat 8 (mod * 64 + reg.val * 8 + rm.val) =
        modrm mod reg rm := by rw [modrm, byteOf, Nat.mul_comm mod, Nat.mul_comm reg.val]
    have hreg : ∀ r : Fin 8, RegNum.ofNum r.val =
        (#v[.r0, .r1, .r2, .r3, .r4, .r5, .r6, .r7] : Vector RegNum 8)[r] := by decide
    have hbase : ∀ r : Fin 8, EaBase.ofNum r.val =
        (#v[.bxSi, .bxDi, .bpSi, .bpDi, .si, .di, .bp, .bx] : Vector EaBase 8)[r] := by decide
    simp only [hbyte, decodeRow_8B, takeRegRM, ← hreg, ← hbase, ← wordOf_eq_ofNat]
    refine ⟨fun h6 => ?_, fun h6 => ?_, ?_, ?_, ?_⟩
    · rw [takeModRM_plain reg.isLt rm.isLt _ _ h6]
    · rw [h6, takeModRM_direct reg.isLt]
    · rw [takeModRM_disp8 reg.isLt rm.isLt]
    · rw [takeModRM_disp16 reg.isLt rm.isLt]
    · rw [takeModRM_reg reg.isLt rm.isLt]

end Sys2Proof.Machine

namespace Sys2Proof.Machine

/-! ## Words pushed and popped (R70, R71) -/

theorem top16_toNat (s : State) : s.top16.toNat = s.wordAt s.segs.ss s.regs.sp :=
  read16_toNat s _ _

theorem top16_eq_ofNat (s : State) : BitVec.ofNat 16 (s.wordAt s.segs.ss s.regs.sp) = s.top16 := by
  rw [← top16_toNat, BitVec.ofNat_toNat, BitVec.setWidth_eq]

/-- A pushed word stands at the new SP. -/
theorem stored_push16 {s : State} (hm : Memory.wf s.mem) (v : Word) :
    Stored .word (.mem s.segs.ss (s.regs.sp - 2#16)) v s (s.push16 v) :=
  (stored_writeMem (s := s.decSp) hm .word _ _ v).of_eq rfl

theorem storesOnly_push16 (s : State) (v : Word) :
    StoresOnly (stackBytes s.segs.ss s.regs.sp 1) s (s.push16 v) :=
  (storesOnly_writeMem s.decSp .word s.segs.ss (s.regs.sp - 2#16) v).of_eq rfl rfl rfl

theorem sameHidden_push16 (s : State) (v : Word) : SameHidden s (s.push16 v) :=
  ⟨rfl, rfl, rfl, rfl, rfl, rfl, rfl, rfl, rfl, rfl, rfl, rfl, rfl, rfl⟩

/-- A change of SP alone among the registers. -/
theorem keepsRegs_sp {s t : State} {v : Word} (h : t.regs = s.regs.set .sp v) :
    KeepsRegs [.sp] s t := fun r hr => by
  rw [State.reg16, h]
  exact Regs.get_set_other _ _ (by simpa using hr)

/-! ## MOV and POP of segment registers (R153, R157, R364) -/

theorem RegsOnly.refl (s : State) : RegsOnly [] s s :=
  ⟨fun _ _ => rfl, rfl, rfl, ⟨rfl, rfl, rfl⟩, .refl s, .refl s⟩

/-- A store to a place, and nothing else. -/
theorem copies_writeAt {s : State} (hm : Memory.wf s.mem) (w : Width) (p : Place) (v : BitVec w.bits) :
    Copies w p v s (s.writeAt w p v) :=
  ⟨stored_writeAt hm w p v, by simp, (RegsOnly.refl s).writeAt rfl rfl w p v⟩

/-- The state with a segment register loaded: SS sets the shadow that the part has (R364). -/
def State.segLoaded (sr : SegReg) (v : Word) (s : State) : State :=
  { s.setSeg sr v with intShadow := if sr = .ss then Config.intShadow else s.intShadow }

theorem loadSeg_of_ne_cs (s : State) {sr : SegReg} (v : Word) (h : sr ≠ .cs) :
    s.loadSeg sr v = .next (s.segLoaded sr v) := by
  cases sr with
  | cs => exact absurd rfl h
  | es | ss | ds => rfl

theorem segLoaded_seg_same (s : State) (sr : SegReg) (v : Word) : (s.segLoaded sr v).seg sr = v :=
  Segs.get_set_same _ _ _

theorem segLoaded_seg_other (s : State) {sr sr' : SegReg} (v : Word) (h : sr' ≠ sr) :
    (s.segLoaded sr v).seg sr' = s.seg sr' := (Segs.get_set _ _ _ _).trans (if_neg h)

theorem segLoaded_storesOnly (s : State) (sr : SegReg) (v : Word) :
    StoresOnly [] s (s.segLoaded sr v) := ⟨fun _ _ => rfl, fun _ => by simp [State.segLoaded]⟩

theorem segLoaded_sameHidden (s : State) (sr : SegReg) (v : Word) :
    SameHidden s { s.segLoaded sr v with intShadow := s.intShadow } :=
  ⟨rfl, rfl, rfl, rfl, rfl, rfl, rfl, rfl, rfl, rfl, rfl, rfl, rfl, rfl⟩

/-- Settles O38: a load of a segment register that is not CS answers `segLoaded`. -/
theorem segmentMoves : Obligations.SegmentMoves := by
  intro s hm
  refine ⟨fun sr rm => ⟨_, rfl, copies_writeAt hm .word _ _⟩, fun sr rm hsr => ?_,
    fun sr hsr => ?_, fun rm => rfl, rfl⟩
  · exact ⟨_, loadSeg_of_ne_cs s _ hsr, segLoaded_seg_same s sr _,
      fun sr' h => segLoaded_seg_other s _ h, rfl, rfl, rfl, rfl, segLoaded_storesOnly s sr _,
      segLoaded_sameHidden s sr _⟩
  · refine ⟨_, loadSeg_of_ne_cs s.drop16 s.top16 hsr, ?_, fun sr' h => segLoaded_seg_other _ _ h, ?_,
      keepsRegs_sp rfl, rfl, rfl, rfl, ?_, ?_⟩
    · rw [segLoaded_seg_same, top16_toNat]
    · exact BitVec.toNat_add _ _
    · exact (segLoaded_storesOnly s.drop16 sr _).of_eq rfl rfl rfl
    · exact (sameHidden_setReg16 s .sp _).trans (segLoaded_sameHidden s.drop16 sr _)

/-! ## The flag register as a word (R33, R35, R165 to R168) -/

theorem getLsbD_bitWord {i : Nat} (hi : i < 16) (b : Bool) (k : Nat) :
    (bitWord i b).getLsbD k = (decide (k = i) && b) := by
  cases b
  · simp [bitWord]
  · simp only [bitWord, if_true, Bool.and_true, BitVec.getLsbD_shiftLeft, BitVec.getLsbD_one]
    by_cases hk : k = i
    · simp [hk, hi]
    · have : k < i ∨ k - i ≠ 0 := by omega
      rcases this with h | h <;> simp [h, hk]

/-- The nine flags are read back from their image, whatever the unused bits hold (R35). -/
theorem ofWord_toWord (f : Flags) (u : Word) : Flags.ofWord (f.toWord u) = f := by
  have hu (k : Nat) (hk : unusedMask.getLsbD k = false) : (u &&& unusedMask).getLsbD k = false := by
    rw [BitVec.getLsbD_and, hk, Bool.and_false]
  simp only [Flags.ofWord, Flags.toWord, BitVec.getLsbD_or, getLsbD_bitWord, Nat.reduceLT, hu 0 rfl,
    hu 2 rfl, hu 4 rfl, hu 6 rfl, hu 7 rfl, hu 8 rfl, hu 9 rfl, hu 10 rfl, hu 11 rfl]
  simp

theorem ofWord_flagsImage (s : State) : Flags.ofWord s.flagsImage = s.flags := ofWord_toWord _ _

theorem getLsbD_loByte (v : Word) {k : Nat} (hk : k < 8) : (loByte v).getLsbD k = v.getLsbD k := by
  simp [loByte, hk]

/-- The low byte of the image shows the five flags that LAHF moves (R165). -/
theorem loByte_flagsImage (s : State) :
    (loByte s.flagsImage).getLsbD 7 = s.flags.sf ∧ (loByte s.flagsImage).getLsbD 6 = s.flags.zf ∧
      (loByte s.flagsImage).getLsbD 4 = s.flags.af ∧ (loByte s.flagsImage).getLsbD 2 = s.flags.pf ∧
      (loByte s.flagsImage).getLsbD 0 = s.flags.cf := by
  rw [getLsbD_loByte _ (by decide), getLsbD_loByte _ (by decide), getLsbD_loByte _ (by decide),
    getLsbD_loByte _ (by decide), getLsbD_loByte _ (by decide)]
  have h := ofWord_flagsImage s
  exact ⟨congrArg Flags.sf h, congrArg Flags.zf h, congrArg Flags.af h, congrArg Flags.pf h,
    congrArg Flags.cf h⟩

theorem regsOnly_nextDraw (s : State) : RegsOnly [] s s.nextDraw :=
  ⟨fun _ _ => rfl, rfl, rfl, ⟨rfl, rfl, rfl⟩, (StoresOnly.refl _).of_eq rfl rfl rfl,
    sameHidden_nextDraw s⟩

theorem lahf_answers (s : State) :
    ∃ t, exec .lahf s = .next t ∧
      (t.reg8 .ah).getLsbD 7 = s.flags.sf ∧ (t.reg8 .ah).getLsbD 6 = s.flags.zf ∧
      (t.reg8 .ah).getLsbD 4 = s.flags.af ∧ (t.reg8 .ah).getLsbD 2 = s.flags.pf ∧
      (t.reg8 .ah).getLsbD 0 = s.flags.cf ∧ WritesOnly .byte (.reg .r4) s t ∧
      t.flags = s.flags := by
  obtain ⟨hs, hz, ha, hp, hc⟩ := loByte_flagsImage s
  refine ⟨_, rfl, ?_⟩
  rw [reg8_setReg8_same]
  exact ⟨hs, hz, ha, hp, hc, (regsOnly_nextDraw s).writeAt rfl rfl .byte (.reg .r4) _, rfl⟩

/-- Settles O44: the image of the flags reads back as the flags, at the bit positions of R33. -/
theorem flagTransfers : Obligations.FlagTransfers := by
  intro s hm
  refine ⟨lahf_answers s, ⟨_, rfl, rfl, rfl, ?_⟩, ⟨_, rfl, rfl, ?_, keepsRegs_sp rfl, rfl, rfl, rfl,
    ?_, ?_⟩, ⟨_, rfl, rfl, ?_, rfl, rfl, ?_, ?_⟩⟩
  · exact regsOnly_setFlags s (s.flags.setLow (s.reg8 .ah)) rfl rfl rfl
  · exact ⟨s.flagsImage, ofWord_flagsImage s,
      (stored_push16 (s := s.nextDraw) hm s.flagsImage).of_eq rfl⟩
  · exact (storesOnly_push16 s.nextDraw s.flagsImage).of_eq rfl rfl rfl
  · exact (sameHidden_nextDraw s).trans (sameHidden_push16 _ _)
  · rw [top16_eq_ofNat]
    rfl
  · exact (StoresOnly.refl _).of_eq rfl rfl rfl
  · exact (sameHidden_setReg16 s .sp _).trans (sameHidden_setFlags _ _)

end Sys2Proof.Machine

namespace Sys2Proof.Machine

/-! ## What an instruction stores (R73 (c), R400) -/

theorem StoresOnly.trans {l l' : List Nat} {s u t : State} (h : StoresOnly l s u)
    (k : StoresOnly l' u t) (hk : u.memMap = s.memMap) : StoresOnly (l ++ l') s t where
  memory a ha := by
    have hu : a ∉ l ∨ s.kindAt a ≠ .ram := ha.imp_left (by simp +contextual)
    have ht : a ∉ l' ∨ u.kindAt a ≠ .ram := by
      rw [kindAt_of_eq hk]
      exact ha.imp_left (by simp +contextual)
    exact (k.memory a ht).trans (h.memory a hu)
  written a := by rw [k.written, h.written, List.mem_append, or_assoc]

/-- Some bytes of RAM were stored to, and exactly their addresses joined the set of R400. -/
structure Records (s t : State) : Prop where
  memMap : t.memMap = s.memMap
  stores : ∃ l, StoresOnly l s t

namespace Records

variable {s u t : State}

theorem refl (s : State) : Records s s := ⟨rfl, [], .refl s⟩

theorem trans (h : Records s u) (k : Records u t) : Records s t := by
  obtain ⟨hm, l, hl⟩ := h
  obtain ⟨km, l', kl⟩ := k
  exact ⟨km.trans hm, l ++ l', hl.trans kl hm⟩

/-- A change that stores nothing. -/
theorem of_eq (h : Records s u) (hm : t.mem = u.mem := by rfl) (hk : t.memMap = u.memMap := by rfl)
    (hw : t.written = u.written := by rfl) : Records s t :=
  h.trans ⟨hk, [], fun a _ => congrArg (Memory.read · a) hm, fun a => by simp [hw]⟩

theorem writeAt (h : Records s u) (w : Width) (p : Place) (v : BitVec w.bits) :
    Records s (u.writeAt w p v) := h.trans ⟨by simp, _, storesOnly_writeAt u w p v⟩

theorem writeMem (h : Records s u) (w : Width) (seg off : Word) (v : BitVec w.bits) :
    Records s (u.writeMem w seg off v) := h.writeAt w (.mem seg off) v

theorem writeReg (h : Records s u) (w : Width) (i : RegNum) (v : BitVec w.bits) :
    Records s (u.writeReg w i v) := h.writeAt w (.reg i) v

theorem push16 (h : Records s u) (v : Word) : Records s (u.push16 v) :=
  h.trans ⟨rfl, _, storesOnly_push16 u v⟩

theorem assertLock (h : Records s u) : Records s u.assertLock :=
  h.of_eq (by simp) (by simp) (by simp)

theorem afterPortRead (h : Records s u) : Records s u.afterPortRead := by
  unfold State.afterPortRead
  split <;> exact h.of_eq

theorem input (h : Records s u) (w : Width) (port : Word) : Records s (u.input w port) := by
  have hp : Records s (u.afterPort w) := by
    cases w
    · exact h.afterPortRead
    · exact h.afterPortRead.afterPortRead
  exact (hp.of_eq (t := (u.afterPort w).emit _)).writeReg w .r0 _

theorem element (h : Records s u) (op : StringOp) (w : Width) : Records s (u.element op w) := by
  cases op with
  | movs | stos => exact (h.writeMem w _ _ _).of_eq
  | lods => exact (h.writeReg w _ _).of_eq
  | cmps | scas => exact h.of_eq

theorem repeatPass (h : Records s u) (op : StringOp) (w : Width) (r : RepeatPrefix) :
    Records s (u.repeatPass op w r) := by
  simp only [State.repeatPass]
  split
  · exact h
  · split <;> exact (h.element op w).of_eq

theorem stringInstr {op : StringOp} {w : Width} (h : s.stringInstr op w = .next t) :
    Records s t := by
  unfold State.stringInstr at h
  split at h
  · cases h
    exact (refl s).element op w
  · split at h
    · cases h
    · cases h
      exact (refl s).repeatPass op w _

theorem loadSeg {sr : SegReg} {v : Word} (hu : Records s u) (h : u.loadSeg sr v = .next t) :
    Records s t := by
  cases sr with
  | cs => cases h
  | es | ss | ds =>
    cases h
    exact hu.of_eq

/-- An operation with an immediate stores its result alone. -/
theorem updateImm {op : AluOp} {w : Width} {dst : Place} {v : BitVec w.bits}
    (h : Records s (op w.bits (s.readAt w dst) v s).2) : Records s (s.updateImm op w dst v) :=
  h.writeAt w dst _

theorem shift (step : ShiftStep) (ovf : ShiftOverflow) (cnt : ShiftCount) (w : Width) (p : Place)
    (s : State) : Records s (s.shift step ovf cnt w p) := by
  simp only [State.shift]
  split
  · exact refl s
  · split <;> exact (refl s).of_eq.writeAt w p _

theorem rotate (step : ShiftStep) (ovf : ShiftOverflow) (cnt : ShiftCount) (w : Width) (p : Place)
    (s : State) : Records s (s.rotate step ovf cnt w p) := by
  simp only [State.rotate]
  split
  · exact refl s
  · split <;> exact (refl s).of_eq.writeAt w p _

theorem setProduct (s : State) (w : Width) (p : BitVec 32) : Records s (s.setProduct w p) := by
  cases w <;> exact (refl s).of_eq

/-- Only RAM changes. -/
theorem ram_of_ne (h : Records s t) {a : Nat} (ha : t.byteAt a ≠ s.byteAt a) :
    s.kindAt a = .ram := by
  obtain ⟨-, l, hl⟩ := h
  by_contra hr
  exact ha (hl.memory a (.inr hr))

/-- Every byte that changes is in the set of R400 afterwards. -/
theorem written_of_ne (h : Records s t) {a : Nat} (ha : t.byteAt a ≠ s.byteAt a) :
    a ∈ t.written := by
  obtain ⟨-, l, hl⟩ := h
  by_contra hw
  exact ha (hl.memory a (.inl fun hm => hw ((hl.written a).2 (.inr hm))))

theorem written_mono (h : Records s t) {a : Nat} (ha : a ∈ s.written) : a ∈ t.written := by
  obtain ⟨-, l, hl⟩ := h
  exact (hl.written a).2 (.inl ha)

end Records

/-- What an instruction that takes no transfer of control stores it records. -/
theorem exec_records {i : Instr} {s t : State} (hi : isTransfer i = false)
    (h : exec i s = .next t) : Records s t := by
  have rs : Records s s := .refl s
  cases i with
  -- results stored at a place
  | addAcc | adcAcc | subAcc | sbbAcc | andAcc | orAcc | xorAcc | addImm | adcImm | subImm | sbbImm
  | andImm | orImm | xorImm =>
    cases h
    exact .updateImm rs.of_eq
  | addRm | adcRm | subRm | sbbRm | andRm | orRm | xorRm | incRm | decRm | negRm | notRm | movRm
  | movRmImm | movRmSreg | popRm =>
    cases h
    exact rs.of_eq.writeAt _ _ _
  | rol | ror | rcl | rcr =>
    cases h
    exact .rotate _ _ _ _ _ s
  | shl | shr | sar =>
    cases h
    exact .shift _ _ _ _ _ s
  | movMoffsAcc =>
    cases h
    exact rs.writeMem _ _ _ _
  | xchgRm w reg rm =>
    cases h
    refine Records.writeReg (.writeAt ?_ w _ _) w reg _
    split
    · exact rs.assertLock
    · exact rs
  -- words pushed
  | pushReg | pushSreg =>
    cases h
    exact rs.push16 _
  | pushRm rm =>
    cases rm <;> cases h <;> exact rs.push16 _
  | pushf =>
    cases h
    exact (rs.of_eq (t := s.nextDraw)).push16 _
  -- strings
  | movs | cmps | stos | lods | scas => exact .stringInstr h
  -- registers, flags and prefixes alone
  | movRegImm | movAccMoffs =>
    cases h
    exact rs.writeReg _ _ _
  | inImm | inDx =>
    cases h
    exact rs.input _ _
  | mulRm | imulRm =>
    cases h
    exact (Records.setProduct s _ _).of_eq
  | movSregRm => exact rs.loadSeg h
  | popSreg => exact (rs.of_eq (t := s.drop16)).loadSeg h
  | lock =>
    cases h
    exact (rs.of_eq (t := s.setPrefixes _)).assertLock
  | aaa | aas =>
    cases h
    split <;> exact rs.of_eq
  | wait =>
    simp only [exec, execWait] at h
    split at h <;> cases h <;> exact rs.of_eq
  | esc code rm => cases rm <;> cases h <;> exact rs.of_eq
  | cmpRm | cmpAcc | cmpImm | testRm | testAcc | testImm | incReg | decReg | daa | das | aam | aad
  | cbw | cwd | popReg | xchgAcc | xlat | outImm | outDx | lea | lds | les | lahf | sahf | popf
  | clc | cmc | stc | cli | sti | cld | std | hlt | nop | segOverride | rep | repne =>
    cases h
    exact rs.of_eq
  -- transfers of control
  | _ => cases hi

/-- What a transfer of control does to memory and to the set of R400: taken, it empties the set after
what it stored; not taken, it leaves both. -/
inductive TransferStores (s t : State) : Prop
  | taken {u : State} (h : Records s u) (hm : t.mem = u.mem) (hw : t.written = [])
  | notTaken (hm : t.mem = s.mem) (hw : t.written = s.written)

namespace TransferStores

variable {s t : State}

/-- A taken transfer that stores nothing. -/
theorem of_jump (hm : t.mem = s.mem := by rfl) (hw : t.written = [] := by rfl) :
    TransferStores s t := .taken (.refl s) hm hw

theorem jumpIf (s : State) (c : Bool) (disp : Byte) : TransferStores s (s.jumpIf c disp) := by
  cases c
  · exact .notTaken rfl rfl
  · exact .of_jump

theorem loopIf (s : State) (c : Bool) (disp : Byte) : TransferStores s (s.loopIf c disp) := by
  unfold State.loopIf State.jumpIf
  split
  · exact .of_jump
  · exact .notTaken rfl rfl

/-- An interrupt stores the flags, CS and the offset (R356). -/
theorem interrupt {u : State} (h : Records s u) (type : Byte) (ret : Word) :
    TransferStores s (u.interrupt type ret) :=
  .taken (((((h.of_eq (t := u.nextDraw)).push16 u.flagsImage).of_eq
    (t := (u.nextDraw.push16 u.flagsImage).maskInterrupts)).push16 _).push16 ret) rfl rfl

theorem divideError (s : State) (w : Width) : TransferStores s (s.divideError w) := by
  cases w <;> exact interrupt (Records.refl s).of_eq _ _

theorem setQuotient (s : State) (w : Width) (q r : BitVec w.bits) :
    TransferStores s (s.setQuotient w q r) := by
  cases w <;> exact .notTaken rfl rfl

end TransferStores

theorem exec_transferStores {i : Instr} {s t : State} (hi : isTransfer i = true)
    (h : exec i s = .next t) : TransferStores s t := by
  have rs : Records s s := .refl s
  cases i with
  | callRel | callRm =>
    cases h
    exact .taken (rs.push16 _) rfl rfl
  | callFar | callFarMem =>
    cases h
    exact .taken ((rs.push16 _).push16 _) rfl rfl
  | ret | retImm | retf | retfImm | jmpRel16 | jmpRel8 | jmpRm | jmpFar | jmpFarMem | iret =>
    cases h
    exact .of_jump
  | loop | loope | loopne =>
    cases h
    exact .loopIf s _ _
  | jcxz | jo | jno | jb | jae | je | jne | jbe | ja | js | jns | jp | jnp | jl | jge | jle | jg =>
    cases h
    exact .jumpIf s _ _
  | int3 | intN =>
    cases h
    exact .interrupt rs _ _
  | into =>
    cases h
    split
    · exact .interrupt rs _ _
    · exact .notTaken rfl rfl
  | divRm w | idivRm w =>
    simp only [exec, execDivRm, execIdivRm] at h
    split at h <;> cases h
    · exact .divideError s w
    · exact .setQuotient s w _ _
  | _ => cases hi

theorem exec_memMap {i : Instr} {s t : State} (h : exec i s = .next t) : t.memMap = s.memMap := by
  cases exec_effect h with
  | ordinary h | farTransfer _ _ h | loadSeg _ _ _ h | setControl _ _ h | interruptReturn _ _ _ h
  | interrupt _ _ h | halt _ h | wait _ _ h | goesOn _ _ _ _ _ h => exact h.memMap

/-- Only RAM changes, whatever the instruction (R73 (c)). -/
theorem exec_ram_of_ne {i : Instr} {s t : State} (h : exec i s = .next t) {a : Nat}
    (ha : t.byteAt a ≠ s.byteAt a) : s.kindAt a = .ram := by
  cases hi : isTransfer i with
  | false => exact (exec_records hi h).ram_of_ne ha
  | true =>
    cases exec_transferStores hi h with
    | taken hu hm _ => exact hu.ram_of_ne (by simpa [State.byteAt, hm] using ha)
    | notTaken hm _ => exact absurd (congrArg (Memory.read · a) hm) ha

/-- A byte written to RAM is read back from there. -/
theorem read8_write8_same {s : State} (hm : Memory.wf s.mem) {seg off : Word}
    (hk : s.kindAt (physAddr seg off).toNat = .ram) (v : Byte) :
    (s.write8 seg off v).read8 seg off = v :=
  (readByte_ram (s := s.write8 seg off v) hk).trans (byteAt_write8_same hm hk v)

/-- Settles O16: what is stored is recorded, or the transfer that stored it empties the set; a write is
followed by the kind of its address. -/
theorem storesAreRecorded : Obligations.StoresAreRecorded := by
  refine ⟨fun i s t h => ⟨exec_memMap h, fun a => exec_ram_of_ne h, fun hi => ?_, fun hi => ?_⟩,
    fun s seg off v hm => ?_⟩
  · have hr := exec_records hi h
    exact ⟨fun a => hr.written_of_ne, fun a => hr.written_mono⟩
  · cases exec_transferStores hi h with
    | taken _ _ hw => exact .inl hw
    | notTaken hm hw => exact .inr ⟨hw, fun a _ => congrArg (Memory.read · a) hm⟩
  · have hmem (hk : s.kindAt (physAddr seg off).toNat ≠ .ram) : (s.write8 seg off v).mem = s.mem :=
      memAfter_not_ram hk v
    refine ⟨by simp, fun a ha => byteAt_write8_other s v (by simpa using ha),
      fun hk => read8_write8_same hm hk v, fun hk => ?_, fun hk => ?_⟩
    · have hr := hmem (by simp [hk])
      exact ⟨hr, readByte_of_eq hr rfl rfl _⟩
    · exact ⟨hmem (by simp [hk]), readByte_bus hk⟩

end Sys2Proof.Machine

namespace Sys2Proof.Machine

/-! ## PUSH and POP (R70, R71, R155, R157) -/

/-- A pop after a push restores SP, and so every register. -/
theorem push16_drop16_regs (s : State) (v : Word) : (s.push16 v).drop16.regs = s.regs := by
  have hsp : s.regs.sp - 2#16 + 2#16 = s.regs.get .sp := BitVec.sub_add_cancel _ _
  calc (s.push16 v).drop16.regs
      = (s.regs.set .sp (s.regs.sp - 2#16)).set .sp (s.regs.sp - 2#16 + 2#16) := rfl
    _ = s.regs := by rw [Regs.set_set, hsp, Regs.set_get]

/-- The word pushed to RAM is the one on top. -/
theorem top16_push16 {s : State} (hm : Memory.wf s.mem) {v : Word}
    (hk : AllRam (operandBytes .word s.segs.ss (s.regs.sp - 2#16)) s) : (s.push16 v).top16 = v :=
  read16_write16_same (s := s.decSp) hm hk v

/-- Settles O19: a push is a store at the new SP, and what it stored to RAM is popped. -/
theorem pushPop : Obligations.PushPop := by
  intro s v hm
  refine ⟨?_, stored_push16 hm v, fun a ha => byteAt_write16_other s.decSp v ha, keepsRegs_sp rfl,
    fun hk => ?_, push16_drop16_regs s v, top16_toNat s, BitVec.toNat_add _ _⟩
  · have hsub : (s.push16 v).regs.sp.toNat = (65536 - 2 + s.regs.sp.toNat) % 65536 :=
      BitVec.toNat_sub _ _
    rw [hsub, Nat.add_comm]
  · have htop : (s.push16 v).top16 = v := top16_push16 hm hk
    exact ⟨(top16_toNat _).symm.trans (congrArg BitVec.toNat htop), htop⟩

/-- What PUSH reads of a register: SP as it has already gone down (R155). -/
theorem decSp_reg16 (s : State) (r : Reg16) :
    s.decSp.reg16 r = if r = .sp then s.regs.sp - 2#16 else s.reg16 r := reg16_setReg16 s .sp r _

/-- A push leaves what PUSH says of it, whatever the word. -/
theorem push16_pushes {s : State} (hm : Memory.wf s.mem) (v : Word) :
    (s.push16 v).regs.sp = s.regs.sp - 2#16 ∧
      Stored .word (.mem s.segs.ss (s.regs.sp - 2#16)) v s (s.push16 v) ∧
      KeepsRegs [.sp] s (s.push16 v) ∧ (s.push16 v).segs = s.segs ∧ (s.push16 v).flags = s.flags ∧
      (s.push16 v).ip = s.ip ∧ StoresOnly (stackBytes s.segs.ss s.regs.sp 1) s (s.push16 v) ∧
      SameHidden s (s.push16 v) :=
  ⟨rfl, stored_push16 hm v, keepsRegs_sp rfl, rfl, rfl, rfl, storesOnly_push16 s v,
    sameHidden_push16 s v⟩

/-- Settles O39: each form is `push16` of the word that the form reads. -/
theorem pushMovesSp : Obligations.PushMovesSp := by
  intro s hm
  refine ⟨fun r => ⟨_, rfl, ?_⟩, fun i => rfl, fun m => ⟨_, rfl, push16_pushes hm _⟩,
    fun sr => ⟨_, rfl, push16_pushes hm _⟩⟩
  rw [← decSp_reg16]
  exact push16_pushes hm _

/-- Settles O40: the popped word is stored after SP has gone up, at the place computed before. -/
theorem popMovesSp : Obligations.PopMovesSp := by
  intro s hm
  refine ⟨fun r => ⟨_, rfl, ?_, fun hr => ?_, ((RegsOnly.refl s).setReg16 .sp _).setReg16 r _, rfl⟩,
    fun i => rfl, fun m => ⟨_, rfl, ?_, rfl, rfl, rfl, rfl, ?_, ?_⟩⟩
  · rw [reg16_setReg16_same, top16_toNat]
  · exact reg16_setReg16_other s.drop16 s.top16 hr.symm
  · rw [top16_eq_ofNat]
    exact (stored_writeAt (s := s.drop16) hm .word _ _).of_eq rfl
  · exact (storesOnly_writeAt s.drop16 .word _ _).of_eq rfl rfl rfl
  · exact sameHidden_writeAt (sameHidden_setReg16 s .sp _) .word _ _

/-! ## XCHG (R90, R136, R158) -/

/-- Writing a register with what it holds changes nothing. -/
theorem setReg16_reg16_self (s : State) (r : Reg16) : s.setReg16 r (s.reg16 r) = s := by
  rw [State.setReg16, State.reg16, Regs.set_get]

theorem RegNum.reg8_inj {i k : RegNum} (h : k.reg8 = i.reg8) : k = i := by
  cases i <;> cases k <;> simp_all [RegNum.reg8]

theorem RegNum.reg16_inj {i k : RegNum} (h : k.reg16 = i.reg16) : k = i := by
  cases i <;> cases k <;> simp_all [RegNum.reg16]

theorem readReg_writeReg_other (s : State) (w : Width) {i k : RegNum} (v : BitVec w.bits)
    (h : k ≠ i) : (s.writeReg w i v).readReg w k = s.readReg w k := by
  cases w with
  | byte => exact reg8_setReg8_other s v fun e => h (RegNum.reg8_inj e)
  | word => exact reg16_setReg16_other s v fun e => h (RegNum.reg16_inj e)

theorem writeReg_storesOnly (s : State) (w : Width) (i : RegNum) (v : BitVec w.bits) :
    StoresOnly [] s (s.writeReg w i v) := storesOnly_writeAt s w (.reg i) v

theorem writeReg_sameHidden (s : State) (w : Width) (i : RegNum) (v : BitVec w.bits) :
    SameHidden s (s.writeReg w i v) := sameHidden_writeAt (.refl s) w (.reg i) v

/-- What XCHG of two registers leaves: each with the other's old value. -/
def State.exchangeRegs (w : Width) (i j : RegNum) (s : State) : State :=
  (s.writeReg w j (s.readReg w i)).writeReg w i (s.readReg w j)

theorem exec_xchgRm_reg (w : Width) (i j : RegNum) (s : State) :
    exec (.xchgRm w i (.reg j)) s = .next (s.exchangeRegs w i j) := rfl

/-- The operand written first keeps its new value, also where both are one register. -/
theorem exchangeRegs_readReg_rm (w : Width) (i j : RegNum) (s : State) :
    (s.exchangeRegs w i j).readReg w j = s.readReg w i := by
  by_cases hj : j = i
  · rw [hj, State.exchangeRegs, readReg_writeReg_same]
  · rw [State.exchangeRegs, readReg_writeReg_other _ _ _ hj, readReg_writeReg_same]

theorem exchangeRegs_readReg_other (w : Width) {i j k : RegNum} (s : State) (hi : k ≠ i)
    (hj : k ≠ j) : (s.exchangeRegs w i j).readReg w k = s.readReg w k := by
  rw [State.exchangeRegs, readReg_writeReg_other _ _ _ hi, readReg_writeReg_other _ _ _ hj]

/-- XCHG of two registers stores nothing. -/
theorem exchangeRegs_storesOnly (w : Width) (i j : RegNum) (s : State) :
    StoresOnly [] s (s.exchangeRegs w i j) :=
  (writeReg_storesOnly s w j _).trans (writeReg_storesOnly _ w i _) (by simp)

/-- What XCHG of a register and memory leaves: the LOCK output is asserted before both are written. -/
def State.exchangeMem (w : Width) (i : RegNum) (m : Mem) (s : State) : State :=
  (s.assertLock.writeAt w (memPlace m s) (s.readReg w i)).writeReg w i (s.readAt w (memPlace m s))

theorem exec_xchgRm_mem (w : Width) (i : RegNum) (m : Mem) (s : State) :
    exec (.xchgRm w i (.mem m)) s = .next (s.exchangeMem w i m) := rfl

/-- A change of a register after a store to memory does not show in what is stored. -/
theorem Stored.writeReg {w w' : Width} {seg off : Word} {v : BitVec w.bits} {s t : State}
    (h : Stored w (.mem seg off) v s t) (i : RegNum) (r : BitVec w'.bits) :
    Stored w (.mem seg off) v s (t.writeReg w' i r) := by
  simpa [Stored, State.byteAt] using h

theorem exchangeMem_stored {s : State} (hm : Memory.wf s.mem) (w : Width) (i : RegNum) (m : Mem) :
    Stored w (memPlace m s) (s.readReg w i) s (s.exchangeMem w i m) :=
  ((stored_writeAt (s := s.assertLock) (by simpa using hm) w (memPlace m s) _).of_eq
    (by simp)).writeReg i _

theorem KeepsRegsBut.of_regs {w : Width} {p : Place} {s u t : State} (h : KeepsRegsBut w p u t)
    (hr : u.regs = s.regs) : KeepsRegsBut w p s t := by
  cases p with
  | mem seg off => exact Eq.trans h hr
  | reg i =>
    cases w <;> simpa only [KeepsRegsBut, reg8_of_regs hr, reg16_of_regs hr] using h

theorem exchangeMem_keepsRegsBut (w : Width) (i : RegNum) (m : Mem) (s : State) :
    KeepsRegsBut w (.reg i) s (s.exchangeMem w i m) := by
  have hregs : (s.assertLock.writeAt w (memPlace m s) (s.readReg w i)).regs = s.regs := by
    simp [State.writeAt, memPlace]
  exact (keepsRegsBut_writeReg _ w i _).of_regs hregs

theorem exchangeMem_storesOnly (w : Width) (i : RegNum) (m : Mem) (s : State) :
    StoresOnly ((memPlace m s).bytes w) s (s.exchangeMem w i m) := by
  have hp := (storesOnly_writeAt s.assertLock w (memPlace m s) (s.readReg w i)).of_eq (s := s)
    (by simp) (by simp) (by simp)
  have hr := writeReg_storesOnly (s.assertLock.writeAt w (memPlace m s) (s.readReg w i)) w i
    (s.readAt w (memPlace m s))
  simpa [State.exchangeMem] using hp.trans hr (by simp)

/-- Only the LOCK output and its bus event change beside the operands (R90). -/
theorem exchangeMem_sameHidden (w : Width) (i : RegNum) (m : Mem) (s : State) :
    SameHidden s { s.exchangeMem w i m with
      lockOutput := s.lockOutput, busEvents := s.busEvents } := by
  constructor <;> simp [State.exchangeMem]

theorem RegsOnly.mono {l l' : List Reg16} {s t : State} (h : RegsOnly l s t) (hl : l ⊆ l') :
    RegsOnly l' s t :=
  { h with regs := fun r hr => h.regs r fun hm => hr (hl hm) }

/-- XCHG of AX with itself writes back what AX holds, twice (R136). -/
theorem exchange_ax_self (s : State) :
    (s.setReg16 .ax (s.reg16 .ax)).setReg16 .ax (s.reg16 .ax) = s := by
  rw [setReg16_reg16_self, setReg16_reg16_self]

/-- Settles O41: both operands are read before either is written. -/
theorem xchg : Obligations.Xchg := by
  intro s hm
  refine ⟨fun w i j => ⟨_, exec_xchgRm_reg w i j s, exchangeRegs_readReg_rm w i j s,
      readReg_writeReg_same _ w i _, by simp [State.exchangeRegs], by simp [State.exchangeRegs],
      by simp [State.exchangeRegs], exchangeRegs_storesOnly w i j s,
      (writeReg_sameHidden s w j _).trans (writeReg_sameHidden _ w i _),
      fun k => exchangeRegs_readReg_other w s, ?_⟩,
    fun w i m => ⟨_, exec_xchgRm_mem w i m s, exchangeMem_stored hm w i m,
      readReg_writeReg_same _ w i _, exchangeMem_keepsRegsBut w i m s, by simp [State.exchangeMem],
      by simp [State.exchangeMem], by simp [State.exchangeMem], exchangeMem_storesOnly w i m s,
      by simp [State.exchangeMem], exchangeMem_sameHidden w i m s⟩,
    fun r => ⟨_, rfl, ?_, reg16_setReg16_same _ _ _,
      (((RegsOnly.refl s).setReg16 .ax _).setReg16 r _).mono (by simp), rfl⟩,
    congrArg _ (exchange_ax_self s), congrArg _ (exchange_ax_self s)⟩
  · rintro rfl r hi hj
    exact (reg16_setReg8_other _ _ hi).trans (reg16_setReg8_other s _ hj)
  · by_cases hr : r = .ax
    · rw [hr]
      exact congrArg (State.reg16 · .ax) (exchange_ax_self s)
    · exact (reg16_setReg16_other _ _ (Ne.symm hr)).trans (reg16_setReg16_same s .ax _)

end Sys2Proof.Machine

namespace Sys2Proof.Machine

/-! ## IN and OUT (R75, R160, R161) -/

/-- A byte read from a port takes one byte of the script, or draws where it is empty. -/
theorem afterPortRead_eq (s : State) :
    ∃ d, s.afterPortRead = { s with portScript := s.portScript.drop 1, draws := d } := by
  unfold State.afterPortRead
  split <;> next h => exact ⟨_, by simp [h, State.nextDraw]; rfl⟩

theorem afterPort_eq (w : Width) (s : State) : ∃ d, s.afterPort w =
    { s with portScript := s.portScript.drop (w.bits / 8), draws := d } := by
  obtain ⟨d, hd⟩ := afterPortRead_eq s
  cases w with
  | byte => exact ⟨d, hd⟩
  | word =>
    obtain ⟨d', hd'⟩ := afterPortRead_eq s.afterPortRead
    exact ⟨d', hd'.trans (by simp [hd, Width.bits])⟩

theorem portAnswer_cons {s : State} {v : Byte} {rest : List Byte} (h : s.portScript = v :: rest)
    (port : Word) : s.portAnswer port = v := by simp [State.portAnswer, h]

theorem portAnswer_nil {s : State} (h : s.portScript = []) (port : Word) :
    s.portAnswer port = Config.portOracle s.draws port := by simp [State.portAnswer, h]

theorem afterPortRead_cons {s : State} {v : Byte} {rest : List Byte} (h : s.portScript = v :: rest) :
    s.afterPortRead = { s with portScript := rest } := by simp [State.afterPortRead, h]

theorem afterPortRead_nil {s : State} (h : s.portScript = []) : s.afterPortRead = s.nextDraw := by
  simp [State.afterPortRead, h]

section
variable (s : State) (w : Width) (port : Word)

/-- What IN changes is what the ports answered, the accumulator, the script and the bus events. -/
theorem input_eq : ∃ d, s.input w port =
    State.writeReg w .r0 (s.portValue w port) { s with
      portScript := s.portScript.drop (w.bits / 8)
      draws := d
      busEvents := .portRead port w (asWord w (s.portValue w port)) :: s.busEvents } := by
  obtain ⟨d, hd⟩ := afterPort_eq w s
  exact ⟨d, by rw [State.input, State.writeAcc, hd]; rfl⟩

theorem input_readAcc : (s.input w port).readAcc w = s.portValue w port :=
  readReg_writeReg_same _ w .r0 _

/-- AL takes the byte of the port itself, at either width. -/
theorem input_al : (s.input w port).reg8 .al = s.portAnswer port := by
  cases w with
  | byte => exact input_readAcc s .byte port
  | word => exact (congrArg loByte (input_readAcc s .word port)).trans (loByte_wordOf _ _)

theorem input_byte_ah : (s.input .byte port).reg8 .ah = s.reg8 .ah := by
  obtain ⟨d, hd⟩ := input_eq s .byte port
  rw [hd]
  exact reg8_setReg8_other _ _ (by decide)

theorem input_word_ah :
    (s.input .word port).reg8 .ah = s.afterPortRead.portAnswer (port + 1#16) :=
  (congrArg hiByte (input_readAcc s .word port)).trans (hiByte_wordOf _ _)

theorem input_portScript :
    (s.input w port).portScript = s.portScript.drop (w.bits / 8) := by
  obtain ⟨d, hd⟩ := input_eq s w port
  simp [hd]

theorem input_busEvents : (s.input w port).busEvents =
    .portRead port w (asWord w ((s.input w port).readAcc w)) :: s.busEvents := by
  obtain ⟨d, hd⟩ := input_eq s w port
  rw [input_readAcc, hd, State.writeReg_busEvents]

theorem input_keepsRegs : KeepsRegs [.ax] s (s.input w port) := by
  obtain ⟨d, hd⟩ := input_eq s w port
  intro r hr
  rw [hd]
  cases w with
  | byte => exact reg16_setReg8_other _ _ (List.ne_of_not_mem_cons hr)
  | word => exact reg16_setReg16_other _ _ (List.ne_of_not_mem_cons hr)

theorem input_frame : (s.input w port).flags = s.flags ∧ (s.input w port).segs = s.segs ∧
    (s.input w port).ip = s.ip := by
  obtain ⟨d, hd⟩ := input_eq s w port
  simp [hd]

theorem input_storesOnly : StoresOnly [] s (s.input w port) := by
  obtain ⟨d, hd⟩ := input_eq s w port
  rw [hd]
  exact (writeReg_storesOnly _ w .r0 _).of_eq rfl rfl rfl

theorem input_sameHidden : SameHidden s
    { s.input w port with busEvents := s.busEvents, portScript := s.portScript } := by
  obtain ⟨d, hd⟩ := input_eq s w port
  constructor <;> simp [hd]

end

section
variable {s : State} (port : Word)

/-- A word from a script of two bytes or more: the low byte first. -/
theorem input_word_of_script {lo hi : Byte} {rest : List Byte} (h : s.portScript = lo :: hi :: rest) :
    (s.input .word port).regs.ax.toNat = lo.toNat + 256 * hi.toNat := by
  have hax : (s.input .word port).regs.ax = wordOf lo hi := by
    rw [show (s.input .word port).regs.ax = s.portValue .word port from input_readAcc s .word port,
      State.portValue, portAnswer_cons h, afterPortRead_cons h,
      portAnswer_cons (s := { s with portScript := hi :: rest }) rfl]
  rw [hax, wordOf_toNat, Nat.add_comm, Nat.mul_comm]

/-- The script ends inside a word: the oracle answers its high byte. -/
theorem input_word_ah_of_last {v : Byte} (h : s.portScript = [v]) :
    (s.input .word port).reg8 .ah = Config.portOracle s.draws (port + 1#16) := by
  rw [input_word_ah, afterPortRead_cons h]
  exact portAnswer_nil rfl _

theorem input_word_ah_of_nil (h : s.portScript = []) :
    (s.input .word port).reg8 .ah = Config.portOracle (s.draws + 1) (port + 1#16) := by
  rw [input_word_ah, afterPortRead_nil h]
  exact portAnswer_nil (s := s.nextDraw) h _

end

/-- Settles O43: IN is `State.input` at each port, OUT a bus event. -/
theorem ports : Obligations.Ports := by
  intro s reads
  have hreads (w : Width) (port : Word) : reads w port (s.input w port) := by
    obtain ⟨hf, hs, hi⟩ := input_frame s w port
    have hal := input_al s w port
    have hscript := input_portScript s w port
    refine ⟨?_, ?_, input_busEvents s w port, input_keepsRegs s w port, hf, hs, hi,
      input_storesOnly s w port, input_sameHidden s w port, fun lo hi rest h => ⟨?_, ?_⟩,
      fun v h => ⟨hal.trans (portAnswer_cons h port), ?_⟩,
      fun h => ⟨hal.trans (portAnswer_nil h port), ?_⟩⟩
    · rintro rfl
      exact ⟨hal, input_byte_ah s port, hscript⟩
    · rintro rfl
      exact ⟨hal, input_word_ah s port, hscript⟩
    · rintro rfl
      exact ⟨hal.trans (portAnswer_cons h port), by simp [hscript, h, Width.bits]⟩
    · rintro rfl
      exact ⟨input_word_of_script port h, by simp [hscript, h, Width.bits]⟩
    · rintro rfl
      exact input_word_ah_of_last port h
    · rintro rfl
      exact input_word_ah_of_nil port h
  exact ⟨fun w p => ⟨⟨_, rfl, hreads w _⟩, rfl⟩, fun w => ⟨⟨_, rfl, hreads w _⟩, rfl⟩⟩

/-! ## ESC and the prefixes (R83, R90, R93, R102, R290, R291) -/

/-- LOCK asserts the LOCK output, which the bus shows where it was not asserted. -/
theorem assertLock_eq (s : State) : s.assertLock = { s with
    lockOutput := true
    busEvents := if s.lockOutput = true then s.busEvents else .lockAsserted :: s.busEvents } := by
  unfold State.assertLock
  split
  · next h => exact congrArg (fun locked => { s with lockOutput := locked }) h
  · rfl

/-- Settles O50: each row's answer, with the address and the word that ESC reads. -/
theorem escAndPrefixes : Obligations.EscAndPrefixes := by
  intro s
  refine ⟨fun _ _ => rfl, fun _ m => ⟨_, _, rfl, physAddr_toNat _ _, read16_toNat s _ _⟩,
    fun sr => ⟨_, rfl, fun _ => rfl, rfl⟩, ?_, rfl, rfl⟩
  exact congrArg Host.Outcome.next (assertLock_eq (s.setPrefixes _))

end Sys2Proof.Machine

namespace Sys2Proof

/-! ## Fields (R101, R103 to R106): number and byte, both ways -/

theorem RegNum.num_lt (i : RegNum) : i.num < 8 := by cases i <;> decide
theorem Reg16.num_lt (r : Reg16) : r.num < 8 := by cases r <;> decide
theorem SegReg.num_lt (sr : SegReg) : sr.num < 4 := by cases sr <;> decide
theorem EaBase.num_lt (b : EaBase) : b.num < 8 := by cases b <;> decide

theorem RegNum.ofNum_num (i : RegNum) : RegNum.ofNum i.num = i := by cases i <;> rfl
theorem Reg16.ofNum_num (r : Reg16) : Reg16.ofNum r.num = r := by cases r <;> rfl
theorem SegReg.ofNum_num (sr : SegReg) : SegReg.ofNum sr.num = sr := by cases sr <;> rfl
theorem EaBase.ofNum_num (b : EaBase) : EaBase.ofNum b.num = b := by cases b <;> rfl

theorem RegNum.num_ofNum {n : Nat} (h : n < 8) : (RegNum.ofNum n).num = n := by
  decide +revert
theorem Reg16.num_ofNum {n : Nat} (h : n < 8) : (Reg16.ofNum n).num = n := by
  decide +revert
theorem SegReg.num_ofNum {n : Nat} (h : n < 4) : (SegReg.ofNum n).num = n := by
  decide +revert
theorem EaBase.num_ofNum {n : Nat} (h : n < 8) : (EaBase.ofNum n).num = n := by
  decide +revert

/-- The only base with no encoding without a displacement is BP, which is number 6 (R104). -/
theorem wellFormed_plain_ofNum {n : Nat} (h : n < 8) (h6 : n ≠ 6) :
    (Mem.plain (EaBase.ofNum n)).wellFormed = true := by
  decide +revert
theorem SegReg.ofNum_ne_cs {n : Nat} (h : n < 4) (h1 : n ≠ 1) : (SegReg.ofNum n != .cs) = true := by
  decide +revert
theorem Reg16.ofNum_ne_ax {n : Nat} (h : n < 8) (h0 : n ≠ 0) : (Reg16.ofNum n != .ax) = true := by
  decide +revert

theorem take16_bytes16 (v : Word) (rest : List Byte) (k : Word → List Byte → RowResult) :
    take16 (bytes16 v ++ rest) k = k v rest := by
  simp [bytes16, take16]

/-- The bytes of an `r/m` operand and its `reg` field are read back (R104). -/
theorem takeModRM_encodeRM {n : Nat} {rm : RM} (hn : n < 8) (h : rm.wellFormed = true)
    (rest : List Byte) (k : Nat → RM → List Byte → RowResult) :
    takeModRM (encodeRM n rm ++ rest) k = k n rm rest := by
  cases rm with
  | reg i =>
    refine (takeModRM_reg hn i.num_lt rest k).trans ?_
    rw [i.ofNum_num]
  | mem m =>
    cases m with
    | direct off =>
      refine (takeModRM_direct hn rest _ _ k).trans ?_
      rw [wordOf_loByte_hiByte]
    | plain b =>
      have h6 : b.num ≠ 6 := by
        rintro hb
        cases b <;> cases hb
        cases h
      refine (takeModRM_plain hn b.num_lt rest k h6).trans ?_
      rw [b.ofNum_num]
    | disp8 b d =>
      refine (takeModRM_disp8 hn b.num_lt rest d k).trans ?_
      rw [b.ofNum_num]
    | disp16 b d =>
      refine (takeModRM_disp16 hn b.num_lt rest _ _ k).trans ?_
      rw [b.ofNum_num, wordOf_loByte_hiByte]

/-- A ModRM byte is its three fields. -/
theorem eq_modrm (b : Byte) :
    b = modrm (b.extractLsb' 6 2).toNat (b.extractLsb' 3 3).toNat (b.extractLsb' 0 3).toNat := by
  apply BitVec.eq_of_toNat_eq
  have := b.isLt
  rw [modrm_toNat (BitVec.isLt _) (BitVec.isLt _) (BitVec.isLt _)]
  simp only [BitVec.extractLsb'_toNat, Nat.shiftRight_eq_div_pow]
  omega

theorem bytes16_wordOf (lo hi : Byte) : bytes16 (wordOf lo hi) = [lo, hi] := by simp [bytes16]

/-- A list begins with a ModRM byte and its displacement, or it ends inside them (R104). -/
theorem takeModRM_cases (bs : List Byte) :
    (bs.length < 3 ∧ ∀ k, takeModRM bs k = .error .truncated) ∨
    ∃ n rm rest, n < 8 ∧ rm.wellFormed = true ∧ bs = encodeRM n rm ++ rest := by
  cases bs with
  | nil => exact .inl ⟨by simp, fun _ => rfl⟩
  | cons b bs =>
    have hb := eq_modrm b
    have hx : (b.extractLsb' 0 3).toNat < 8 := BitVec.isLt _
    have hn : (b.extractLsb' 3 3).toNat < 8 := BitVec.isLt _
    have hm : (b.extractLsb' 6 2).toNat < 4 := BitVec.isLt _
    generalize (b.extractLsb' 6 2).toNat = mod, (b.extractLsb' 3 3).toNat = n,
      (b.extractLsb' 0 3).toNat = x at hb hx hn hm
    subst hb
    match mod, bs with
    | 0, bs =>
      by_cases h6 : x = 6
      · subst h6
        match bs with
        | [] | [_] =>
          exact .inl ⟨by simp, fun k => by
            simp [takeModRM, take8, take16, modrm_mod hm hn hx, modrm_rm hm hn hx]⟩
        | lo :: hi :: rest =>
          exact .inr ⟨n, .mem (.direct (wordOf lo hi)), rest, hn, rfl, by
            rw [encodeRM, encodeMem, bytes16_wordOf]; rfl⟩
      · exact .inr ⟨n, .mem (.plain (EaBase.ofNum x)), bs, hn,
          wellFormed_plain_ofNum hx h6, by rw [encodeRM, encodeMem, EaBase.num_ofNum hx]; rfl⟩
    | 1, [] | 2, [] | 2, [_] =>
      exact .inl ⟨by simp, fun k => by simp [takeModRM, take8, take16, modrm_mod hm hn hx]⟩
    | 1, d :: rest =>
      exact .inr ⟨n, .mem (.disp8 (EaBase.ofNum x) d), rest, hn, rfl, by
        rw [encodeRM, encodeMem, EaBase.num_ofNum hx]; rfl⟩
    | 2, lo :: hi :: rest =>
      exact .inr ⟨n, .mem (.disp16 (EaBase.ofNum x) (wordOf lo hi)), rest, hn, rfl, by
        rw [encodeRM, encodeMem, EaBase.num_ofNum hx, bytes16_wordOf]; rfl⟩
    | 3, bs =>
      exact .inr ⟨n, .reg (RegNum.ofNum x), bs, hn, rfl, by
        rw [encodeRM, RegNum.num_ofNum hx]; rfl⟩

/-! ## What the decoder reads is spelt by its bytes (R104, R131)

`Spells` has one rule for each of the decoder's readers; each row of the table is then a list of rules,
and a leaf is left to check: that the instruction is well formed and its encoding is what was read. -/

/-- Where the result is an instruction, it is well formed, and the bytes read so far, `pre`, and
those still to read, `bs`, are its encoding followed by what is left. -/
def Spells (pre bs : List Byte) (r : RowResult) : Prop :=
  ∀ i rest, r = .ok (i, rest) → i.wellFormed = true ∧ pre ++ bs = encode i ++ rest

namespace Spells

variable {pre bs : List Byte}

theorem error (e : DecodeError) : Spells pre bs (.error e) := by
  intro _ _ h
  cases h

theorem ok {i : Instr} (hw : i.wellFormed = true) (he : encode i = pre) :
    Spells pre bs (.ok (i, bs)) := by
  rintro _ _ ⟨rfl, rfl⟩
  exact ⟨hw, by rw [he]⟩

theorem ite {c : Prop} [Decidable c] {r : RowResult} {e : DecodeError} (h : c → Spells pre bs r) :
    Spells pre bs (if c then r else .error e) := by
  split
  · exact h ‹c›
  · exact error e

theorem of_toNat {b : Byte} {n : Nat} {r : RowResult} (h : Spells [byteOf n] bs r)
    (hb : b.toNat = n) : Spells [b] bs r := by
  have : byteOf n = b := by rw [← hb, byteOf, BitVec.ofNat_toNat, BitVec.setWidth_eq]
  rwa [this] at h

theorem read {field rest : List Byte} {r : RowResult} (h : Spells (pre ++ field) rest r) :
    Spells pre (field ++ rest) r := by
  simpa only [Spells, List.append_assoc] using h

theorem take8 {k : Byte → List Byte → RowResult}
    (h : ∀ v rest, Spells (pre ++ [v]) rest (k v rest)) : Spells pre bs (take8 bs k) := by
  cases bs with
  | nil => exact error _
  | cons v rest => exact (h v rest).read

theorem take16 {k : Word → List Byte → RowResult}
    (h : ∀ v rest, Spells (pre ++ bytes16 v) rest (k v rest)) : Spells pre bs (take16 bs k) := by
  match bs with
  | [] | [_] => exact error _
  | lo :: hi :: rest =>
    have := (h (wordOf lo hi) rest).read
    rwa [bytes16_wordOf] at this

theorem takeImm {w : Width} {k : Imm → List Byte → RowResult}
    (h : ∀ imm rest, imm.width = w → Spells (pre ++ bytesImm imm) rest (k imm rest)) :
    Spells pre bs (takeImm w bs k) := by
  cases w with
  | byte => exact take8 fun v rest => h (.b v) rest rfl
  | word => exact take16 fun v rest => h (.w v) rest rfl

theorem modRM {k : Nat → RM → List Byte → RowResult}
    (h : ∀ n rm rest, n < 8 → rm.wellFormed = true →
      Spells (pre ++ encodeRM n rm) rest (k n rm rest)) :
    Spells pre bs (takeModRM bs k) := by
  obtain ⟨-, ht⟩ | ⟨n, rm, rest, hn, hrm, rfl⟩ := takeModRM_cases bs
  · rw [ht]
    exact error _
  · rw [takeModRM_encodeRM hn hrm]
    exact (h n rm rest hn hrm).read

theorem regRM {k : RegNum → RM → Instr} (hw : ∀ reg rm, (k reg rm).wellFormed = rm.wellFormed)
    (he : ∀ reg rm, encode (k reg rm) = pre ++ encodeRM reg.num rm) :
    Spells pre bs (takeRegRM bs k) :=
  modRM fun n rm _ hn hrm => ok ((hw _ rm).trans hrm) (by rw [he, RegNum.num_ofNum hn])

theorem mem {k : Reg16 → Mem → Instr} (hw : ∀ r m, (k r m).wellFormed = m.wellFormed)
    (he : ∀ r m, encode (k r m) = pre ++ encodeMem r.num m) : Spells pre bs (takeMem bs k) :=
  modRM fun n rm rest hn hrm => by
    cases rm with
    | reg i => exact error _
    | mem m => exact ok ((hw _ m).trans hrm) (by rw [he, Reg16.num_ofNum hn]; rfl)

theorem far {k : Word → Word → Instr} (hw : ∀ off seg, (k off seg).wellFormed = true)
    (he : ∀ off seg, encode (k off seg) = pre ++ bytes16 off ++ bytes16 seg) :
    Spells pre bs (takeFar bs k) :=
  take16 fun off _ => take16 fun seg _ => ok (hw off seg) (he off seg)

end Spells

/-! ### The rows, from 00H to FFH -/

theorem wellFormed_aluRm (op : Nat) (d : Dir) (w : Width) (reg : RegNum) (rm : RM) :
    (aluRm op d w reg rm).wellFormed = rm.wellFormed := by
  unfold aluRm
  split <;> rfl

theorem encode_aluRm {op : Nat} (h : op < 8) (d : Dir) (w : Width) (reg : RegNum) (rm : RM) :
    encode (aluRm op d w reg rm) = encodeAluRm op d w reg rm := by
  interval_cases op <;> rfl

theorem wellFormed_aluAcc (op : Nat) (imm : Imm) : (aluAcc op imm).wellFormed = true := by
  unfold aluAcc
  split <;> rfl

theorem encode_aluAcc {op : Nat} (h : op < 8) (imm : Imm) :
    encode (aluAcc op imm) = encodeAluAcc op imm := by
  interval_cases op <;> rfl

theorem row00_spells {op lo : Nat} (hop : op < 8) (hlo : lo < 8) (bs : List Byte) :
    Spells [byteOf (8 * op + lo)] bs (row00 op lo bs) := by
  have rm (d : Dir) (w : Width) : Spells [byteOf (8 * op + 2 * d.bit + w.bit)] bs
      (takeRegRM bs (aluRm op d w)) :=
    .regRM (wellFormed_aluRm op d w) (encode_aluRm hop d w)
  unfold row00
  split
  case h_1 => exact rm .toRm .byte
  case h_2 => exact rm .toRm .word
  case h_3 => exact rm .toReg .byte
  case h_4 => exact rm .toReg .word
  case h_5 => exact .take8 fun v _ => .ok (wellFormed_aluAcc _ _) (encode_aluAcc hop _)
  case h_6 => exact .take16 fun v _ => .ok (wellFormed_aluAcc _ _) (encode_aluAcc hop _)
  case h_7 => interval_cases op <;> exact .ok rfl rfl
  case h_8 =>
    obtain rfl : lo = 7 := by grind
    split
    case h_2 => exact .error _
    case h_8 =>
      obtain rfl : op = 7 := by grind
      exact .ok rfl rfl
    all_goals exact .ok rfl rfl

theorem row70_spells {c : Nat} (h : c < 16) (bs : List Byte) :
    Spells [byteOf (0x70 + c)] bs (row70 c bs) := by
  refine .take8 fun d rest => ?_
  interval_cases c <;> exact .ok rfl rfl

section
variable {pre bs : List Byte} {g : GroupImm} {n : Nat} {rm : RM} (hn : n < 8)
  (hrm : rm.wellFormed = true) (hg : encodeGroup n g rm = pre)
include hn hrm hg

theorem groupFull_spells {imm : Imm} (hi : encodeRmImm 0x80 n imm rm = pre) :
    Spells pre bs (groupFull g imm n rm bs) := by
  unfold groupFull
  split
  case h_1 | h_3 | h_4 | h_6 => exact .ok hrm hg
  case h_2 | h_5 | h_7 => exact .ok hrm hi
  case h_8 =>
    obtain rfl : n = 7 := by grind
    exact .ok hrm hg

theorem groupShort_spells : Spells pre bs (groupShort g n rm bs) := by
  unfold groupShort
  split
  case h_6 => exact .error _
  all_goals exact .ok hrm hg

end

theorem row80_spells {lo : Nat} (h : lo < 16) (bs : List Byte) :
    Spells [byteOf (0x80 + lo)] bs (row80 lo bs) := by
  unfold row80
  split
  case h_1 => exact .modRM fun n rm _ hn hrm => .take8 fun v _ => groupFull_spells hn hrm rfl rfl
  case h_2 => exact .modRM fun n rm _ hn hrm => .take16 fun v _ => groupFull_spells hn hrm rfl rfl
  case h_3 | h_4 =>
    exact .modRM fun n rm _ hn hrm => .take8 fun v _ => groupShort_spells hn hrm rfl
  case h_5 | h_6 | h_7 | h_8 | h_9 | h_10 | h_11 | h_12 =>
    exact .regRM (fun _ _ => rfl) fun _ _ => rfl
  case h_13 =>
    exact .modRM fun n rm _ _ hrm => .ite fun hn =>
      .ok hrm (by rw [encode, SegReg.num_ofNum hn]; rfl)
  case h_14 => exact .mem (fun _ _ => rfl) fun _ _ => rfl
  case h_15 =>
    exact .modRM fun n rm _ _ hrm => .ite fun ⟨hn, h1⟩ =>
      .ok (by rw [Instr.wellFormed, SegReg.ofNum_ne_cs hn h1, hrm]; rfl)
        (by rw [encode, SegReg.num_ofNum hn]; rfl)
  case h_16 =>
    obtain rfl : lo = 15 := by grind
    refine .modRM fun n rm _ _ hrm => .ite ?_
    rintro rfl
    exact .ok hrm rfl

theorem row90_spells {lo : Nat} (h : lo < 16) (bs : List Byte) :
    Spells [byteOf (0x90 + lo)] bs (row90 lo bs) := by
  unfold row90
  split
  case h_4 => exact .far (fun _ _ => rfl) fun _ _ => rfl
  case h_10 =>
    obtain ⟨h8, h0⟩ : lo < 8 ∧ lo ≠ 0 := by grind
    exact .ok (Reg16.ofNum_ne_ax h8 h0) (by rw [encode, Reg16.num_ofNum h8])
  all_goals exact .ok rfl rfl

theorem rowA0_spells {lo : Nat} (h : lo < 16) (bs : List Byte) :
    Spells [byteOf (0xA0 + lo)] bs (rowA0 lo bs) := by
  unfold rowA0
  split
  case h_1 | h_2 | h_3 | h_4 | h_10 => exact .take16 fun _ _ => .ok rfl rfl
  case h_9 => exact .take8 fun _ _ => .ok rfl rfl
  case h_16 =>
    obtain rfl : lo = 15 := by grind
    exact .ok rfl rfl
  all_goals exact .ok rfl rfl

theorem rowC0_spells (lo : Nat) (bs : List Byte) :
    Spells [byteOf (0xC0 + lo)] bs (rowC0 lo bs) := by
  unfold rowC0
  split
  case h_1 | h_7 => exact .take16 fun _ _ => .ok rfl rfl
  case h_3 | h_4 => exact .mem (fun _ _ => rfl) fun _ _ => rfl
  case h_5 =>
    refine .modRM fun n rm _ _ hrm => .take8 fun v _ => .ite ?_
    rintro rfl
    exact .ok hrm rfl
  case h_6 =>
    refine .modRM fun n rm _ _ hrm => .take16 fun v _ => .ite ?_
    rintro rfl
    exact .ok hrm rfl
  case h_10 => exact .take8 fun _ _ => .ok rfl rfl
  case h_13 => exact .error _
  all_goals exact .ok rfl rfl

theorem shiftGroup_spells (cnt : ShiftCount) (w : Width) (bs : List Byte) :
    Spells [byteOf (0xD0 + 2 * cnt.bit + w.bit)] bs (shiftGroup cnt w bs) := by
  refine .modRM fun n rm _ _ hrm => ?_
  split
  case h_8 => exact .error _
  all_goals exact .ok hrm rfl

theorem escRow_spells {x : Nat} (hx : x < 8) (bs : List Byte) :
    Spells [byteOf (0xD8 + x)] bs (escRow x bs) := by
  refine .modRM fun n rm _ hn hrm => .ok hrm ?_
  have hcode : (BitVec.ofNat 6 (8 * x + n)).toNat = 8 * x + n := by
    rw [BitVec.toNat_ofNat]
    omega
  have hdiv : (8 * x + n) / 8 = x := by omega
  have hmod : (8 * x + n) % 8 = n := by omega
  rw [encode, hcode, hdiv, hmod]
  rfl

theorem rowD0_spells {lo : Nat} (h : lo < 16) (bs : List Byte) :
    Spells [byteOf (0xD0 + lo)] bs (rowD0 lo bs) := by
  unfold rowD0
  split
  case h_1 => exact shiftGroup_spells .one .byte bs
  case h_2 => exact shiftGroup_spells .one .word bs
  case h_3 => exact shiftGroup_spells .cl .byte bs
  case h_4 => exact shiftGroup_spells .cl .word bs
  case h_5 | h_6 =>
    refine .take8 fun b _ => .ite ?_
    rintro rfl
    exact .ok rfl rfl
  case h_7 => exact .error _
  case h_8 => exact .ok rfl rfl
  case h_9 =>
    obtain ⟨x, rfl⟩ : ∃ x, lo = 8 + x := ⟨lo - 8, by grind⟩
    have := escRow_spells (x := x) (by omega) bs
    rwa [Nat.add_sub_cancel_left, ← Nat.add_assoc]

theorem rowE0_spells {lo : Nat} (h : lo < 16) (bs : List Byte) :
    Spells [byteOf (0xE0 + lo)] bs (rowE0 lo bs) := by
  unfold rowE0
  split
  case h_9 | h_10 => exact .take16 fun _ _ => .ok rfl rfl
  case h_11 => exact .far (fun _ _ => rfl) fun _ _ => rfl
  case h_13 | h_14 | h_15 => exact .ok rfl rfl
  case h_16 =>
    obtain rfl : lo = 15 := by grind
    exact .ok rfl rfl
  all_goals exact .take8 fun _ _ => .ok rfl rfl

theorem unaryGroup_spells (w : Width) (bs : List Byte) :
    Spells [byteOf (0xF6 + w.bit)] bs (unaryGroup w bs) := by
  refine .modRM fun n rm _ _ hrm => ?_
  split
  case h_1 =>
    refine .takeImm fun imm _ hw => .ok hrm ?_
    rw [encode, encodeRmImm, hw]
    rfl
  case h_8 => exact .error _
  all_goals exact .ok hrm rfl

theorem groupFF_spells (bs : List Byte) : Spells [0xFF#8] bs (groupFF bs) := by
  refine .modRM fun n rm _ _ hrm => ?_
  split
  case h_4 | h_6 =>
    cases rm with
    | reg i => exact .error _
    | mem m => exact .ok hrm rfl
  case h_8 => exact .error _
  all_goals exact .ok hrm rfl

theorem rowF0_spells {lo : Nat} (h : lo < 16) (bs : List Byte) :
    Spells [byteOf (0xF0 + lo)] bs (rowF0 lo bs) := by
  unfold rowF0
  split
  case h_2 => exact .error _
  case h_7 => exact unaryGroup_spells .byte bs
  case h_8 => exact unaryGroup_spells .word bs
  case h_15 =>
    refine .modRM fun n rm _ _ hrm => ?_
    split
    case h_3 => exact .error _
    all_goals exact .ok hrm rfl
  case h_16 =>
    obtain rfl : lo = 15 := by grind
    exact groupFF_spells bs
  all_goals exact .ok rfl rfl

/-- The rows of one byte that names a 16-bit register, from `base` on (R112). -/
theorem shortRow_spells {k : Reg16 → Instr} {base n : Nat} (hw : ∀ r, (k r).wellFormed = true)
    (he : ∀ r, encode (k r) = [byteOf (base + r.num)]) (hn : n < 8) (bs : List Byte) :
    Spells [byteOf (base + n)] bs (.ok (k (Reg16.ofNum n), bs)) :=
  .ok (hw _) (by rw [he, Reg16.num_ofNum hn])

/-- B0H to B7H (R117). -/
theorem movRegImm_byte_spells {n : Nat} (hn : n < 8) (bs : List Byte) :
    Spells [byteOf (0xB0 + n)] bs
      (take8 bs fun v rest => .ok (.movRegImm (RegNum.ofNum n) (.b v), rest)) :=
  .take8 fun _ _ => .ok rfl (by rw [encode, RegNum.num_ofNum hn]; rfl)

/-- B8H to BFH (R117). -/
theorem movRegImm_word_spells {n : Nat} (hn : n < 8) (bs : List Byte) :
    Spells [byteOf (0xB8 + n)] bs
      (take16 bs fun v rest => .ok (.movRegImm (RegNum.ofNum n) (.w v), rest)) :=
  .take16 fun _ _ => .ok rfl (by rw [encode, RegNum.num_ofNum hn]; rfl)

/-- The high half of the first byte chooses the row (R111 to R121). -/
theorem decodeRow_spells (bs : List Byte) : Spells [] bs (decodeRow bs) := by
  cases bs with
  | nil => exact .error _
  | cons b rest =>
    refine Spells.read (field := [b]) ?_
    have hb := b.isLt
    have hlo : b.toNat % 16 < 16 := by omega
    have h8 : b.toNat % 8 < 8 := by omega
    simp only [decodeRow]
    split
    case h_1 | h_2 | h_3 | h_4 =>
      exact (row00_spells (op := b.toNat / 8) (by omega) h8 rest).of_toNat (by omega)
    case h_5 | h_6 =>
      split
      · exact (shortRow_spells (fun _ => rfl) (fun _ => rfl) ‹_› rest).of_toNat (by omega)
      · exact (shortRow_spells (fun _ => rfl) (fun _ => rfl) (by omega) rest).of_toNat (by omega)
    case h_7 => exact .error _
    case h_8 => exact (row70_spells hlo rest).of_toNat (by omega)
    case h_9 => exact (row80_spells hlo rest).of_toNat (by omega)
    case h_10 => exact (row90_spells hlo rest).of_toNat (by omega)
    case h_11 => exact (rowA0_spells hlo rest).of_toNat (by omega)
    case h_12 =>
      split
      · exact (movRegImm_byte_spells ‹_› rest).of_toNat (by omega)
      · exact (movRegImm_word_spells (by omega) rest).of_toNat (by omega)
    case h_13 => exact (rowC0_spells _ rest).of_toNat (by omega)
    case h_14 => exact (rowD0_spells hlo rest).of_toNat (by omega)
    case h_15 => exact (rowE0_spells hlo rest).of_toNat (by omega)
    case h_16 => exact (rowF0_spells hlo rest).of_toNat (by grind)

/-- Settles O2, by the rules above for each row. -/
theorem encodeDecode : Obligations.EncodeDecode := fun bs rest i h => decodeRow_spells bs i rest h

/-! ## Opcodes whose ModRM byte selects the instruction (R114, R118, R121) -/

section
variable (bs : List Byte)

theorem decodeRow_80 : decodeRow (0x80#8 :: bs) =
    takeModRM bs fun n rm rest => take8 rest fun v rest => groupFull (.eb v) (.b v) n rm rest := rfl
theorem decodeRow_81 : decodeRow (0x81#8 :: bs) =
    takeModRM bs fun n rm rest =>
      take16 rest fun v rest => groupFull (.ew v) (.w v) n rm rest := rfl
theorem decodeRow_82 : decodeRow (0x82#8 :: bs) =
    takeModRM bs fun n rm rest => take8 rest fun v rest => groupShort (.ebTwin v) n rm rest := rfl
theorem decodeRow_83 : decodeRow (0x83#8 :: bs) =
    takeModRM bs fun n rm rest => take8 rest fun v rest => groupShort (.ewSigned v) n rm rest := rfl
theorem decodeRow_8C : decodeRow (0x8C#8 :: bs) = takeModRM bs fun n rm rest =>
    if n < 4 then .ok (.movRmSreg (SegReg.ofNum n) rm, rest) else .error .unassigned := rfl
theorem decodeRow_8E : decodeRow (0x8E#8 :: bs) = takeModRM bs fun n rm rest =>
    if n < 4 ∧ n ≠ 1 then .ok (.movSregRm (SegReg.ofNum n) rm, rest) else .error .unassigned := rfl
theorem decodeRow_8F : decodeRow (0x8F#8 :: bs) = takeModRM bs fun n rm rest =>
    if n = 0 then .ok (.popRm rm, rest) else .error .unassigned := rfl
theorem decodeRow_C6 : decodeRow (0xC6#8 :: bs) =
    takeModRM bs fun n rm rest => take8 rest fun v rest =>
      if n = 0 then .ok (.movRmImm (.b v) rm, rest) else .error .unassigned := rfl
theorem decodeRow_C7 : decodeRow (0xC7#8 :: bs) =
    takeModRM bs fun n rm rest => take16 rest fun v rest =>
      if n = 0 then .ok (.movRmImm (.w v) rm, rest) else .error .unassigned := rfl
theorem decodeRow_FE : decodeRow (0xFE#8 :: bs) = rowF0 14 bs := rfl
theorem decodeRow_FF : decodeRow (0xFF#8 :: bs) = groupFF bs := rfl

theorem decodeRow_F6 (w : Width) : decodeRow (byteOf (0xF6 + w.bit) :: bs) = unaryGroup w bs := by
  cases w <;> rfl

theorem decodeRow_D0 (cnt : ShiftCount) (w : Width) :
    decodeRow (byteOf (0xD0 + 2 * cnt.bit + w.bit) :: bs) = shiftGroup cnt w bs := by
  cases cnt <;> cases w <;> rfl

theorem decodeRow_D8 {x : Nat} (hx : x < 8) :
    decodeRow (byteOf (0xD8 + x) :: bs) = escRow x bs := by
  interval_cases x <;> rfl

end

/-! ## Reading back what the encoder writes -/

theorem take16_ok (k : Word → Instr) (v : Word) (rest : List Byte) :
    take16 (bytes16 v ++ rest) (fun v rest => .ok (k v, rest)) = .ok (k v, rest) :=
  take16_bytes16 v rest _

theorem takeFar_bytes16 (k : Word → Word → Instr) (off seg : Word) (rest : List Byte) :
    takeFar (bytes16 off ++ bytes16 seg ++ rest) k = .ok (k off seg, rest) := by
  rw [takeFar, List.append_assoc, take16_bytes16, take16_bytes16]

theorem groupFull_of_groupShort {g : GroupImm} {n : Nat} {i : Instr} {rm : RM} {rest : List Byte}
    (imm : Imm) (hs : groupShort g n rm rest = .ok (i, rest)) :
    groupFull g imm n rm rest = .ok (i, rest) := by
  rw [← hs]
  unfold groupShort at hs ⊢
  split at hs
  case h_6 => cases hs
  all_goals rfl

section
variable {rm : RM} (h : rm.wellFormed = true) (rest : List Byte)
include h

theorem takeRegRM_encodeRM (k : RegNum → RM → Instr) (reg : RegNum) :
    takeRegRM (encodeRM reg.num rm ++ rest) k = .ok (k reg rm, rest) := by
  rw [takeRegRM, takeModRM_encodeRM reg.num_lt h, reg.ofNum_num]

theorem decodeRow_encodeAluRm {op : Nat} (hop : op < 8) (d : Dir) (w : Width) (reg : RegNum) :
    decodeRow (encodeAluRm op d w reg rm ++ rest) = .ok (aluRm op d w reg rm, rest) := by
  have hrow : decodeRow (encodeAluRm op d w reg rm ++ rest) =
      takeRegRM (encodeRM reg.num rm ++ rest) (aluRm op d w) := by
    interval_cases op <;> cases d <;> cases w <;> rfl
  rw [hrow, takeRegRM_encodeRM h]

/-- The group 80H to 83H, where its last two opcodes have the instruction too (R114). -/
theorem decodeRow_encodeGroup {n : Nat} {g : GroupImm} {i : Instr} (hn : n < 8)
    (hs : groupShort g n rm rest = .ok (i, rest)) :
    decodeRow (encodeGroup n g rm ++ rest) = .ok (i, rest) := by
  have hfull (imm : Imm) := groupFull_of_groupShort imm hs
  cases g with
  | eb v =>
    rw [encodeGroup, List.append_assoc, List.cons_append, decodeRow_80, takeModRM_encodeRM hn h]
    exact hfull _
  | ew v =>
    rw [encodeGroup, List.append_assoc, List.cons_append, decodeRow_81, takeModRM_encodeRM hn h,
      take16_bytes16, hfull]
  | ebTwin v =>
    rw [encodeGroup, List.append_assoc, List.cons_append, decodeRow_82, takeModRM_encodeRM hn h]
    exact hs
  | ewSigned v =>
    rw [encodeGroup, List.append_assoc, List.cons_append, decodeRow_83, takeModRM_encodeRM hn h]
    exact hs

/-- The logical operations of the group 80H and 81H (R114). -/
theorem decodeRow_encodeRmImm_80 {n : Nat} {i : Instr} (imm : Imm) (hn : n < 8)
    (hs : ∀ g, groupFull g imm n rm rest = .ok (i, rest)) :
    decodeRow (encodeRmImm 0x80 n imm rm ++ rest) = .ok (i, rest) := by
  rw [encodeRmImm, List.append_assoc, List.cons_append]
  cases imm with
  | b v =>
    refine (decodeRow_80 _).trans ?_
    rw [takeModRM_encodeRM hn h]
    exact hs _
  | w v =>
    refine (decodeRow_81 _).trans ?_
    rw [takeModRM_encodeRM hn h]
    exact (take16_bytes16 _ _ _).trans (hs _)

end

theorem takeMem_encodeMem {m : Mem} (h : m.wellFormed = true) (k : Reg16 → Mem → Instr) (r : Reg16)
    (rest : List Byte) : takeMem (encodeMem r.num m ++ rest) k = .ok (k r m, rest) := by
  refine (takeModRM_encodeRM (rm := .mem m) r.num_lt h rest _).trans ?_
  simp only [r.ofNum_num]

theorem decodeRow_encodeAluAcc {op : Nat} (hop : op < 8) (imm : Imm) (rest : List Byte) :
    decodeRow (encodeAluAcc op imm ++ rest) = .ok (aluAcc op imm, rest) := by
  rw [encodeAluAcc]
  cases imm with
  | b v =>
    rw [Imm.width]
    interval_cases op <;> rfl
  | w v =>
    rw [Imm.width]
    have hrow : decodeRow (byteOf (8 * op + 4 + Width.word.bit) :: bytesImm (.w v) ++ rest) =
        take16 (bytes16 v ++ rest) fun v rest => .ok (aluAcc op (.w v), rest) := by
      interval_cases op <;> rfl
    rw [hrow, take16_bytes16]

theorem takeImm_bytesImm (imm : Imm) (rest : List Byte) (k : Imm → List Byte → RowResult) :
    takeImm imm.width (bytesImm imm ++ rest) k = k imm rest := by
  cases imm with
  | b v => rfl
  | w v => exact take16_bytes16 v rest fun v rest => k (.w v) rest

/-- Every row is read back: the row it is in reads its opcode, and its operands are read back by the
lemmas above (R111 to R121). -/
theorem decodeRow_encode {i : Instr} (h : i.wellFormed = true) (rest : List Byte) :
    decodeRow (encode i ++ rest) = .ok (i, rest) := by
  cases i with
  | addRm d w reg | orRm d w reg | adcRm d w reg | sbbRm d w reg
  | andRm d w reg | subRm d w reg | xorRm d w reg | cmpRm d w reg =>
    exact decodeRow_encodeAluRm h rest (by decide) d w reg
  | addAcc imm | orAcc imm | adcAcc imm | sbbAcc imm
  | andAcc imm | subAcc imm | xorAcc imm | cmpAcc imm =>
    exact decodeRow_encodeAluAcc (by decide) imm rest
  | pushSreg sr | segOverride sr => cases sr <;> rfl
  | popSreg sr =>
    cases sr with
    | cs => cases h
    | es | ss | ds => rfl
  | incReg r | decReg r | pushReg r | popReg r => cases r <;> rfl
  | xchgAcc r =>
    cases r with
    | ax => cases h
    | cx | dx | bx | sp | bp | si | di => rfl
  | movs w | cmps w | stos w | lods w | scas w | inImm w | outImm w | inDx w | outDx w =>
    cases w <;> rfl
  | retImm v => exact take16_ok .retImm v rest
  | retfImm v => exact take16_ok .retfImm v rest
  | callRel v => exact take16_ok .callRel v rest
  | jmpRel16 v => exact take16_ok .jmpRel16 v rest
  | movAccMoffs w a => cases w <;> exact take16_ok (.movAccMoffs _) a rest
  | movMoffsAcc w a => cases w <;> exact take16_ok (.movMoffsAcc _) a rest
  | callFar off seg => exact takeFar_bytes16 .callFar off seg rest
  | jmpFar off seg => exact takeFar_bytes16 .jmpFar off seg rest
  | testAcc imm =>
    cases imm with
    | b v =>
      rw [encode, Imm.width]
      rfl
    | w v =>
      rw [encode, Imm.width]
      exact take16_ok (fun v => .testAcc (.w v)) v rest
  | movRegImm reg imm =>
    cases imm with
    | b v =>
      rw [encode, Imm.width]
      cases reg <;> rfl
    | w v =>
      rw [encode, Imm.width]
      cases reg <;> exact take16_ok (fun v => .movRegImm _ (.w v)) v rest
  | testRm w reg => cases w <;> exact takeRegRM_encodeRM h rest (.testRm _) reg
  | xchgRm w reg => cases w <;> exact takeRegRM_encodeRM h rest (.xchgRm _) reg
  | movRm d w reg => cases d <;> cases w <;> exact takeRegRM_encodeRM h rest (.movRm _ _) reg
  | lea r m => exact takeMem_encodeMem h .lea r rest
  | les r m => exact takeMem_encodeMem h .les r rest
  | lds r m => exact takeMem_encodeMem h .lds r rest
  | addImm g | adcImm g | sbbImm g | subImm g | cmpImm g =>
    exact decodeRow_encodeGroup h rest (by decide) rfl
  | orImm imm | andImm imm | xorImm imm =>
    exact decodeRow_encodeRmImm_80 h rest imm (by decide) fun _ => rfl
  | rol cnt w | ror cnt w | rcl cnt w | rcr cnt w | shl cnt w | shr cnt w | sar cnt w =>
    exact (decodeRow_D0 _ cnt w).trans (takeModRM_encodeRM (by decide) h rest _)
  | notRm w | negRm w | mulRm w | imulRm w | divRm w | idivRm w =>
    exact (decodeRow_F6 _ w).trans (takeModRM_encodeRM (by decide) h rest _)
  | testImm imm rm =>
    rw [encode, encodeRmImm, List.append_assoc, List.cons_append, decodeRow_F6, unaryGroup,
      takeModRM_encodeRM (by decide) h]
    exact takeImm_bytesImm imm rest _
  | incRm w | decRm w =>
    cases w with
    | byte =>
      refine (decodeRow_FE _).trans ?_
      rw [rowF0]
      exact takeModRM_encodeRM (by decide) h rest _
    | word => exact (decodeRow_FF _).trans (takeModRM_encodeRM (by decide) h rest _)
  | callRm | jmpRm | pushRm =>
    exact (decodeRow_FF _).trans (takeModRM_encodeRM (by decide) h rest _)
  | callFarMem m | jmpFarMem m =>
    exact (decodeRow_FF _).trans (takeModRM_encodeRM (rm := .mem m) (by decide) h rest _)
  | esc code rm =>
    have hcode : BitVec.ofNat 6 (8 * (code.toNat / 8) + code.toNat % 8) = code := by
      rw [Nat.div_add_mod, BitVec.ofNat_toNat, BitVec.setWidth_eq]
    have := code.isLt
    rw [encode, List.cons_append, decodeRow_D8 _ (by omega), escRow,
      takeModRM_encodeRM (by omega) h, hcode]
  | movRmSreg sr rm =>
    have hsr := sr.num_lt
    rw [encode, List.cons_append, decodeRow_8C, takeModRM_encodeRM (by omega) h, if_pos hsr,
      sr.ofNum_num]
  | movSregRm sr rm =>
    have hsr := sr.num_lt
    obtain ⟨hcs, hrm⟩ : sr ≠ .cs ∧ rm.wellFormed = true := by simpa [Instr.wellFormed] using h
    have h1 : sr.num ≠ 1 := by
      rintro h1
      cases sr <;> cases h1
      exact hcs rfl
    rw [encode, List.cons_append, decodeRow_8E, takeModRM_encodeRM (by omega) hrm,
      if_pos ⟨hsr, h1⟩, sr.ofNum_num]
  | popRm rm =>
    rw [encode, List.cons_append, decodeRow_8F, takeModRM_encodeRM (by decide) h, if_pos rfl]
  | movRmImm imm rm =>
    rw [encode, encodeRmImm, List.append_assoc, List.cons_append]
    cases imm with
    | b v =>
      refine (decodeRow_C6 _).trans ?_
      rw [takeModRM_encodeRM (by decide) h]
      rfl
    | w v =>
      refine (decodeRow_C7 _).trans ?_
      rw [takeModRM_encodeRM (by decide) h]
      exact take16_bytes16 v rest _
  | _ => rfl

/-- Settles O1, by the rows' encodings, constructor by constructor. -/
theorem decodeEncode : Obligations.DecodeEncode := fun _ rest h => decodeRow_encode h rest

/-! ## Instructions with their prefixes (R101, R102) -/

theorem wellFormed_of_isPrefix {p : Instr} (hp : p.isPrefix = true) : p.wellFormed = true := by
  cases p with
  | segOverride | lock | repne | rep => rfl
  | _ => cases hp

/-- The three kinds of prefixes: segment override, LOCK, repeat (R102). -/
def prefixKind : Instr → Fin 3
  | .segOverride _ => 0
  | .lock => 1
  | _ => 2

theorem samePrefixKind_iff {p q : Instr} (hp : p.isPrefix = true) (hq : q.isPrefix = true) :
    samePrefixKind p q = true ↔ prefixKind p = prefixKind q := by
  cases p with
  | segOverride | lock | repne | rep =>
    cases q with
    | segOverride | lock | repne | rep => simp [samePrefixKind, prefixKind]
    | _ => cases hq
  | _ => cases hp

/-- Prefix rows of distinct kinds: what may stand before an instruction (R102). -/
structure DistinctPrefixes (ps : List Instr) : Prop where
  isPrefix : ∀ p ∈ ps, p.isPrefix = true
  distinct : ps.Pairwise fun a b => samePrefixKind a b = false

namespace DistinctPrefixes

variable {ps qs : List Instr} {p : Instr}

theorem length_le (h : DistinctPrefixes ps) : ps.length ≤ 3 := by
  have hnodup : (ps.map prefixKind).Nodup := by
    refine List.pairwise_map.2 (h.distinct.imp_of_mem fun {a b} ha hb hab he => ?_)
    rw [(samePrefixKind_iff (h.isPrefix a ha) (h.isPrefix b hb)).2 he] at hab
    cases hab
  simpa using hnodup.length_le_card

theorem not_seen (h : DistinctPrefixes (qs ++ p :: ps)) : qs.any (samePrefixKind p) = false := by
  refine List.any_eq_false.2 fun q hq hpq => ?_
  have hp := h.isPrefix p (by simp)
  have hq' := h.isPrefix q (by simp [hq])
  obtain ⟨-, -, hbefore⟩ := List.pairwise_append.1 h.distinct
  have hqp := hbefore q hq p (by simp)
  rw [(samePrefixKind_iff hq' hp).2 ((samePrefixKind_iff hp hq').1 hpq).symm] at hqp
  cases hqp

/-- Prefixes of kinds not yet seen are read one by one. -/
theorem decodeFrom_flatMap {fuel : Nat} (total : Nat) (bs : List Byte)
    (h : DistinctPrefixes (qs ++ ps)) (hfuel : ps.length ≤ fuel) :
    decodeFrom fuel qs total (ps.flatMap encode ++ bs) =
      decodeFrom (fuel - ps.length) (qs ++ ps) total bs := by
  induction ps generalizing fuel qs with
  | nil => simp
  | cons p ps ih =>
    have hp := h.isPrefix p (by simp)
    obtain ⟨fuel, rfl⟩ : ∃ n, fuel = n + 1 := Nat.exists_eq_add_one.2 (by simp at hfuel; omega)
    rw [List.flatMap_cons, List.append_assoc, decodeFrom,
      decodeRow_encode (wellFormed_of_isPrefix hp)]
    simp only [hp, h.not_seen, if_true, Bool.false_eq_true, if_false]
    rw [ih (by simpa using h) (by simpa using hfuel)]
    simp

theorem decode_flatMap (h : DistinctPrefixes ps) (bs : List Byte) :
    decode (ps.flatMap encode ++ bs) =
      decodeFrom (3 - ps.length) ps (ps.flatMap encode ++ bs).length bs :=
  decodeFrom_flatMap _ bs (qs := []) h h.length_le

end DistinctPrefixes

section
variable {i : Instr} (hi : i.isPrefix = false) (hw : i.wellFormed = true) {fuel total : Nat}
  {ps : List Instr} (rest : List Byte)
include hi hw

/-- The row that ends the prefixes is answered where they may stand before it (R102). -/
theorem decodeFrom_row (hc : checkPrefixes ps i = none) :
    decodeFrom fuel ps total (encode i ++ rest) = .ok ⟨ps, i, total - rest.length⟩ := by
  unfold decodeFrom
  simp [decodeRow_encode hw, hi, hc]

theorem decodeFrom_row_refused {e : DecodeError} (hc : checkPrefixes ps i = some e) :
    decodeFrom fuel ps total (encode i ++ rest) = .error e := by
  unfold decodeFrom
  simp [decodeRow_encode hw, hi, hc]

end

/-- A second row of one kind of prefixes is refused, however much fuel is left (R102). -/
theorem decodeFrom_duplicate {p : Instr} {ps : List Instr} (hp : p.isPrefix = true)
    (hd : ps.any (samePrefixKind p) = true) (fuel total : Nat) (rest : List Byte) :
    decodeFrom fuel ps total (encode p ++ rest) = .error .duplicatePrefix := by
  unfold decodeFrom
  simp only [decodeRow_encode (wellFormed_of_isPrefix hp), hp, hd, if_true]

theorem checkPrefixes_eq_none {ps : List Instr} {i : Instr}
    (hr : ps.any Instr.isRepeatPrefix = true → i.isString = true)
    (hl : .lock ∈ ps → i.hasMemOperand = true) : checkPrefixes ps i = none := by
  have hl' : ps.contains .lock = true → i.hasMemOperand = true := fun h => hl (by simpa using h)
  unfold checkPrefixes
  grind

/-- Settles O3: the prefixes are read one by one, and then the row they belong to. -/
theorem decodeWithPrefixes : Obligations.DecodeWithPrefixes := by
  intro ps i rest hp hd hi hw hr hl
  have hps : DistinctPrefixes ps := ⟨hp, hd⟩
  rw [encodeWith, List.append_assoc, hps.decode_flatMap,
    decodeFrom_row hi hw rest (checkPrefixes_eq_none hr hl)]
  simp [← Nat.add_assoc]

/-! ## What the decoder refuses (R102, R131) -/

theorem decode_duplicate {ps : List Instr} {p : Instr} (hps : DistinctPrefixes ps)
    (hp : p.isPrefix = true) (hd : ps.any (samePrefixKind p) = true) (rest : List Byte) :
    decode (ps.flatMap encode ++ encode p ++ rest) = .error .duplicatePrefix := by
  rw [List.append_assoc, hps.decode_flatMap, decodeFrom_duplicate hp hd]

/-- One of the prefixes before an instruction that it may not stand before. -/
theorem decode_checkPrefixes {p i : Instr} {e : DecodeError} (hp : p.isPrefix = true)
    (hi : i.isPrefix = false) (hw : i.wellFormed = true) (hc : checkPrefixes [p] i = some e)
    (rest : List Byte) : decode (encode p ++ encode i ++ rest) = .error e := by
  have hps : DistinctPrefixes [p] := ⟨by simpa using hp, by simp⟩
  have hdecode := hps.decode_flatMap (encode i ++ rest)
  rw [List.flatMap_singleton] at hdecode
  rw [List.append_assoc, hdecode, decodeFrom_row_refused hi hw rest hc]

/-- A first byte that begins no row of the table (R131). -/
theorem decodeRow_unassigned {b : Byte} (rest : List Byte)
    (h : b.toNat ∈ [0x0F, 0xC0, 0xC1, 0xC8, 0xC9, 0xD6, 0xF1] ∨ b.toNat / 16 = 6) :
    decodeRow (b :: rest) = .error .unassigned := by
  rcases h with h | h
  · simp only [List.mem_cons, List.not_mem_nil, or_false] at h
    rcases h with h | h | h | h | h | h | h <;> rw [decodeRow, h] <;> rfl
  · simp only [decodeRow, h]

theorem encodeRM_eq_cons (n : Nat) (rm : RM) :
    ∃ mod x disp, encodeRM n rm = modrm mod n x :: disp ∧ mod < 4 ∧ x < 8 ∧
      (mod = 3 → ∃ i, rm = .reg i) := by
  cases rm with
  | reg i => exact ⟨3, i.num, [], rfl, by decide, i.num_lt, fun _ => ⟨i, rfl⟩⟩
  | mem m =>
    cases m with
    | direct off => exact ⟨0, 6, bytes16 off, rfl, by decide, by decide, nofun⟩
    | plain base => exact ⟨0, base.num, [], rfl, by decide, base.num_lt, nofun⟩
    | disp8 base d => exact ⟨1, base.num, [d], rfl, by decide, base.num_lt, nofun⟩
    | disp16 base d => exact ⟨2, base.num, bytes16 d, rfl, by decide, base.num_lt, nofun⟩

/-- With four bytes after it, a ModRM byte is read with its displacement, and two bytes are left for
an immediate (R104). -/
theorem exists_encodeRM {m : Byte} {rest : List Byte} (hlen : 4 ≤ rest.length) :
    ∃ rm lo hi tail, rm.wellFormed = true ∧
      m :: rest = encodeRM (m.toNat / 8 % 8) rm ++ lo :: hi :: tail ∧
      (0xC0 ≤ m.toNat → ∃ i, rm = .reg i) := by
  obtain ⟨hshort, -⟩ | ⟨n, rm, tail, hn, hrm, he⟩ := takeModRM_cases (m :: rest)
  · rw [List.length_cons] at hshort
    omega
  obtain ⟨mod, x, disp, hm, hmod, hx, hreg⟩ := encodeRM_eq_cons n rm
  have hhead : m = modrm mod n x := by
    rw [hm] at he
    exact (List.cons.inj he).1
  have hnum := modrm_toNat hmod hn hx
  rw [← hhead] at hnum
  have hsel : m.toNat / 8 % 8 = n := by omega
  have hle := (Laws.length_encodeRM n rm).2
  have hlens := congrArg List.length he
  rw [List.length_cons, List.length_append] at hlens
  match tail with
  | [] | [_] =>
    simp only [List.length_cons, List.length_nil] at hlens
    omega
  | lo :: hi :: tail =>
    exact ⟨rm, lo, hi, tail, hrm, by rw [hsel, he], fun hc => hreg (by omega)⟩

section
variable {n : Nat} {rm : RM} {lo hi b : Byte} {bs tail : List Byte} (hn : n < 8)
  (hrm : rm.wellFormed = true) (hbs : bs = encodeRM n rm ++ lo :: hi :: tail)
include hn hrm hbs

theorem groupShort_refuses (hb : b = 0x82#8 ∨ b = 0x83#8) (h : n = 1 ∨ n = 4 ∨ n = 6) :
    decodeRow (b :: bs) = .error .unassigned := by
  subst hbs
  rcases hb with rfl | rfl
  · rw [decodeRow_82, takeModRM_encodeRM hn hrm]
    rcases h with rfl | rfl | rfl <;> rfl
  · rw [decodeRow_83, takeModRM_encodeRM hn hrm]
    rcases h with rfl | rfl | rfl <;> rfl

theorem movSreg_refuses (h : (b = 0x8C#8 ∨ b = 0x8E#8) ∧ 4 ≤ n ∨ b = 0x8E#8 ∧ n = 1) :
    decodeRow (b :: bs) = .error .unassigned := by
  subst hbs
  rcases h with ⟨rfl | rfl, h4⟩ | ⟨rfl, rfl⟩
  · rw [decodeRow_8C, takeModRM_encodeRM hn hrm, if_neg (by omega)]
  · rw [decodeRow_8E, takeModRM_encodeRM hn hrm, if_neg (by omega)]
  · rw [decodeRow_8E, takeModRM_encodeRM hn hrm, if_neg (by simp)]

theorem popRm_movRmImm_refuse (hb : b = 0x8F#8 ∨ b = 0xC6#8 ∨ b = 0xC7#8) (h : 1 ≤ n) :
    decodeRow (b :: bs) = .error .unassigned := by
  subst hbs
  have h0 : n ≠ 0 := by omega
  rcases hb with rfl | rfl | rfl
  · rw [decodeRow_8F, takeModRM_encodeRM hn hrm, if_neg h0]
  · rw [decodeRow_C6, takeModRM_encodeRM hn hrm]
    exact if_neg h0
  · rw [decodeRow_C7, takeModRM_encodeRM hn hrm]
    exact if_neg h0

theorem shiftGroup_refuses (hlo : 0xD0 ≤ b.toNat) (hhi : b.toNat ≤ 0xD3) (h : n = 6) :
    decodeRow (b :: bs) = .error .unassigned := by
  subst hbs h
  obtain ⟨cnt, w, rfl⟩ : ∃ cnt w, b = byteOf (0xD0 + 2 * ShiftCount.bit cnt + Width.bit w) := by
    obtain h | h | h | h : b.toNat = 0xD0 ∨ b.toNat = 0xD1 ∨ b.toNat = 0xD2 ∨ b.toNat = 0xD3 := by
      omega
    · exact ⟨.one, .byte, BitVec.eq_of_toNat_eq h⟩
    · exact ⟨.one, .word, BitVec.eq_of_toNat_eq h⟩
    · exact ⟨.cl, .byte, BitVec.eq_of_toNat_eq h⟩
    · exact ⟨.cl, .word, BitVec.eq_of_toNat_eq h⟩
  rw [decodeRow_D0, shiftGroup, takeModRM_encodeRM hn hrm]
  rfl

theorem unaryGroup_refuses (hb : b = 0xF6#8 ∨ b = 0xF7#8) (h : n = 1) :
    decodeRow (b :: bs) = .error .unassigned := by
  subst hbs h
  obtain ⟨w, rfl⟩ : ∃ w, b = byteOf (0xF6 + Width.bit w) := by
    rcases hb with rfl | rfl
    · exact ⟨.byte, rfl⟩
    · exact ⟨.word, rfl⟩
  rw [decodeRow_F6, unaryGroup, takeModRM_encodeRM hn hrm]
  rfl

theorem groupFE_FF_refuse (h : b = 0xFE#8 ∧ 2 ≤ n ∨ b = 0xFF#8 ∧ n = 7) :
    decodeRow (b :: bs) = .error .unassigned := by
  subst hbs
  rcases h with ⟨rfl, h2⟩ | ⟨rfl, rfl⟩
  · rw [decodeRow_FE, rowF0, takeModRM_encodeRM hn hrm]
    interval_cases n <;> rfl
  · rw [decodeRow_FF, groupFF, takeModRM_encodeRM hn hrm]
    rfl

/-- The rows that need memory refuse a register (R118, R121). -/
theorem memory_rows_refuse (hreg : ∃ i, rm = .reg i)
    (h : (b = 0x8D#8 ∨ b = 0xC4#8 ∨ b = 0xC5#8) ∨ b = 0xFF#8 ∧ (n = 3 ∨ n = 5)) :
    decodeRow (b :: bs) = .error .unassigned := by
  subst hbs
  obtain ⟨i, rfl⟩ := hreg
  have htake (k : Reg16 → Mem → Instr) (rest : List Byte) :
      takeMem (encodeRM n (.reg i) ++ rest) k = .error .unassigned :=
    takeModRM_encodeRM hn hrm rest _
  rcases h with (rfl | rfl | rfl) | ⟨rfl, h⟩
  · exact htake .lea _
  · exact htake .les _
  · exact htake .lds _
  · rw [decodeRow_FF, groupFF, takeModRM_encodeRM hn hrm]
    rcases h with rfl | rfl <;> rfl

end

theorem aam_aad_refuse {b m : Byte} (rest : List Byte) (hb : b = 0xD4#8 ∨ b = 0xD5#8)
    (hm : m ≠ 0x0A#8) : decodeRow (b :: m :: rest) = .error .unassigned := by
  rcases hb with rfl | rfl
  · exact if_neg hm
  · exact if_neg hm

/-- Settles O4: prefixes, first bytes, and then each list of selectors of R131. -/
theorem refusedEncodings : Obligations.RefusedEncodings := by
  refine ⟨fun ps p rest hps hd hp hany => decode_duplicate ⟨hps, hd⟩ hp hany rest,
    fun i rest hw hi => ⟨fun hs => ⟨?_, ?_⟩, fun hm => ?_⟩,
    fun b rest h => decodeRow_unassigned rest h, ?_⟩
  · exact decode_checkPrefixes (p := .repne) rfl hi hw
      (by simp [checkPrefixes, Instr.isRepeatPrefix, hs]) rest
  · exact decode_checkPrefixes (p := .rep) rfl hi hw
      (by simp [checkPrefixes, Instr.isRepeatPrefix, hs]) rest
  · exact decode_checkPrefixes (p := .lock) rfl hi hw
      (by simp [checkPrefixes, Instr.isRepeatPrefix, hm]) rest
  · intro b m rest hlen sel h
    have hn : sel < 8 := Nat.mod_lt _ (by decide)
    obtain ⟨rm, lo, hi, tail, hrm, he, hreg⟩ := exists_encodeRM (m := m) hlen
    rcases h with ⟨hb, h⟩ | h | h | ⟨hb, h⟩ | ⟨⟨hlo, hhi⟩, h⟩ | ⟨hb, h⟩ | h | h | ⟨hb, h⟩ |
      ⟨hb, h⟩ | ⟨hb, h, hc⟩
    · exact groupShort_refuses hn hrm he hb h
    · exact movSreg_refuses hn hrm he (.inl h)
    · exact movSreg_refuses hn hrm he (.inr h)
    · exact popRm_movRmImm_refuse hn hrm he hb h
    · exact shiftGroup_refuses hn hrm he hlo hhi h
    · exact unaryGroup_refuses hn hrm he hb h
    · exact groupFE_FF_refuse hn hrm he (.inl h)
    · exact groupFE_FF_refuse hn hrm he (.inr h)
    · exact aam_aad_refuse rest hb h
    · exact memory_rows_refuse hn hrm he (hreg h) (.inl hb)
    · exact memory_rows_refuse hn hrm he (hreg hc) (.inr ⟨hb, h⟩)

/-- Settles O5, by evaluation. -/
theorem sampleWords : Obligations.SampleWords := ⟨rfl, rfl, rfl, rfl, rfl, rfl, rfl⟩

end Sys2Proof

namespace Sys2Proof.Machine

/-! ## Iteration control (R301, R318 to R322) -/

/-- A short transfer after a change of registers: taken, IP moves by the signed displacement;
nothing else changes (R301, R330). -/
theorem branches_jumpIf {P : Prop} {c : Bool} (hc : c = true ↔ P) {changed : List Reg16}
    {s u : State} (h : RegsOnly changed s u) (hf : u.flags = s.flags)
    (hw : u.written = s.written) (disp : Byte) :
    Branches P disp.toInt changed s (u.jumpIf c disp) := by
  have hframe : TransferOnly changed [] s u :=
    ⟨h.regs, by rw [h.segs], by rw [h.segs], by rw [h.segs], hf, h.stores.memory, h.hidden⟩
  cases c with
  | false =>
    exact ⟨fun hP => absurd (hc.2 hP) Bool.false_ne_true, fun _ => ⟨h.ip, hw⟩,
      congrArg Segs.cs h.segs, hframe⟩
  | true =>
    have hip : ((u.ip + sext8 disp).toNat : Int) = ((s.ip.toNat : Int) + disp.toInt) % 65536 := by
      have := sext8_toNat disp
      rw [h.ip, BitVec.toNat_add]
      omega
    obtain ⟨hregs, hes, hss, hds, hflags, hmem, hhidden⟩ := hframe
    refine ⟨fun _ => ⟨hip, rfl⟩, fun hP => absurd (hc.1 rfl) hP, congrArg Segs.cs h.segs,
      hregs, hes, hss, hds, hflags, hmem, ?_⟩
    obtain ⟨h1, h2, h3, h4, h5, h6, h7, h8, h9, h10, h11, h12, h13, h14⟩ := hhidden
    exact ⟨h1, h2, h3, h4, h5, h6, h7, h8, h9, h10, h11, h12, h13, h14⟩

/-- CX goes down by one modulo 2^16 (R318). -/
theorem cx_sub_one_toNat (s : State) :
    (s.regs.cx - 1#16).toNat = (s.regs.cx.toNat + 65535) % 65536 := by
  bv_omega

theorem cx_sub_one_eq_zero_iff (s : State) :
    s.regs.cx - 1#16 = 0#16 ↔ (s.regs.cx.toNat + 65535) % 65536 = 0 := by
  rw [← BitVec.toNat_inj, cx_sub_one_toNat]
  rfl

theorem State.jumpIf_regs (s : State) (c : Bool) (disp : Byte) :
    (s.jumpIf c disp).regs = s.regs := by
  cases c <;> rfl

theorem State.jumpIf_flags (s : State) (c : Bool) (disp : Byte) :
    (s.jumpIf c disp).flags = s.flags := by
  cases c <;> rfl

theorem loopIf_cx (s : State) (c : Bool) (disp : Byte) :
    (s.loopIf c disp).regs.cx.toNat = (s.regs.cx.toNat + 65535) % 65536 := by
  rw [State.loopIf, State.jumpIf_regs, ← cx_sub_one_toNat]
  rfl

/-- The decremented CX and the condition decide (R318). -/
theorem branches_loopIf {P : Prop} {c : Bool} (s : State) (disp : Byte)
    (hc : (s.regs.cx.toNat + 65535) % 65536 ≠ 0 ∧ c = true ↔ P) :
    Branches P disp.toInt [.cx] s (s.loopIf c disp) := by
  have hregs : RegsOnly [.cx] s (s.setReg16 .cx (s.regs.cx - 1#16)) :=
    (RegsOnly.refl s).setReg16 _ _
  refine branches_jumpIf ?_ hregs rfl rfl disp
  rw [← hc, Bool.and_eq_true, decide_eq_true_iff, ne_eq, ne_eq, cx_sub_one_eq_zero_iff]

theorem subResult_one (a : Word) : subResult a 1#16 false = a - 1#16 := by
  apply BitVec.eq_of_toNat_eq
  have h := subResult_toNat a 1#16 false
  simp only [BitVec.toNat_ofNat, Bool.toNat_false] at h
  rw [BitVec.toNat_sub]
  have := a.isLt
  simp only [BitVec.toNat_ofNat]
  omega

/-- A short transfer goes by its condition, IP and the set of R400 alone. -/
theorem jumpIf_congr {s u : State} {c d : Bool} (hr : s.regs = u.regs) (hi : s.ip = u.ip)
    (hw : s.written = u.written) (hcd : c = d) (disp : Byte) :
    (s.jumpIf c disp).regs = (u.jumpIf d disp).regs ∧ (s.jumpIf c disp).ip = (u.jumpIf d disp).ip ∧
      (s.jumpIf c disp).written = (u.jumpIf d disp).written := by
  subst hcd
  cases c with
  | false => exact ⟨hr, hi, hw⟩
  | true => exact ⟨hr, congrArg (· + sext8 disp) hi, rfl⟩

/-- DEC CX leaves the sum that LOOP leaves, and ZF shows it (R44, R136, R199). -/
theorem exec_decReg_cx (s : State) : ∃ u, exec (.decReg .cx) s = .next u ∧
    u.regs = (s.setReg16 .cx (s.regs.cx - 1#16)).regs ∧ u.ip = s.ip ∧ u.written = s.written ∧
      (u.flags.zf = true ↔ s.regs.cx - 1#16 = 0#16) := by
  refine ⟨_, rfl, ?_, rfl, rfl, ?_⟩
  · rw [← subResult_one]
    rfl
  · rw [← subResult_one]
    exact (showsResult_sub s.flags _ _ false).zf

/-- Settles O55: the loops from `State.loopIf`; DEC CX has the same sum, and JNZ reads its ZF. -/
theorem loops : Obligations.Loops := by
  intro s disp cx
  refine ⟨⟨_, rfl, loopIf_cx s _ disp, branches_loopIf s disp (by simp [cx])⟩,
    ⟨_, rfl, loopIf_cx s _ disp, branches_loopIf s disp Iff.rfl⟩,
    ⟨_, rfl, loopIf_cx s _ disp, branches_loopIf s disp (by simp [cx])⟩,
    ⟨_, rfl, branches_jumpIf (by simp [← BitVec.toNat_inj]) (.refl s) rfl rfl disp⟩, ?_⟩
  obtain ⟨u, hu, hregs, hip, hwritten, hzf⟩ := exec_decReg_cx s
  have hcond : (decide (s.regs.cx - 1#16 ≠ 0#16) && true) = !u.flags.zf := by
    rw [Bool.and_true, Bool.eq_iff_iff, decide_eq_true_iff, Bool.not_eq_true',
      ← Bool.not_eq_true, hzf]
  obtain ⟨hr, hi, hw⟩ := jumpIf_congr (s := s.setReg16 .cx _) hregs.symm hip.symm
    hwritten.symm hcond disp
  exact ⟨s.loopIf true disp, u, u.jumpIf (!u.flags.zf) disp, rfl, hu, rfl, hr, hi, hw,
    State.jumpIf_flags _ _ _, State.jumpIf_flags _ _ _, hzf.trans (cx_sub_one_eq_zero_iff s)⟩

end Sys2Proof.Machine

namespace Sys2Proof.Machine

/-! ## MOV without a segment register (R152) -/

/-- A copy to a register: unlike a store, it asks nothing of the form of memory. -/
theorem copies_writeReg (s : State) (w : Width) (i : RegNum) (v : BitVec w.bits) :
    Copies w (.reg i) v s (s.writeReg w i v) :=
  ⟨readReg_writeReg_same s w i v, State.writeReg_flags s w i v,
    (RegsOnly.refl s).writeAt rfl rfl w (.reg i) v⟩

/-- Settles O37: each form is one write to its destination, of the operand it reads before. -/
theorem movCopies : Obligations.MovCopies := by
  intro s hm
  refine ⟨fun d w reg rm => ⟨_, rfl, ?_⟩, fun reg imm => ⟨_, rfl, ?_⟩,
    fun imm rm => ⟨_, rfl, ?_⟩, fun w addr => ⟨⟨_, rfl, ?_⟩, ⟨_, rfl, ?_⟩⟩⟩
  · exact copies_writeAt hm w (dstPlace d reg (place rm s)) _
  · exact copies_writeReg s imm.width reg imm.value
  · exact copies_writeAt hm imm.width (place rm s) imm.value
  · exact copies_writeReg s w .r0 _
  · exact copies_writeAt hm w (.mem (s.dataSeg .ds) addr) (s.readAcc w)

/-! ## XLAT, LEA, LDS and LES (R159, R162 to R164) -/

/-- The offset of XLAT's byte: the sum of BX and AL wraps in the segment (R159). -/
theorem add_zext8_eq_ofNat (a : Word) (b : Byte) :
    a + zext8 b = BitVec.ofNat 16 (a.toNat + b.toNat) := by
  rw [zext8, BitVec.ofNat_add, BitVec.ofNat_toNat, BitVec.ofNat_toNat, BitVec.setWidth_eq]

/-- The state with a far pointer loaded into a register and a segment register (R163, R164). -/
def State.pointerLoaded (r : Reg16) (sr : SegReg) (m : Mem) (s : State) : State :=
  (s.setReg16 r (s.readPointer m).1).setSeg sr (s.readPointer m).2

theorem exec_lds (r : Reg16) (m : Mem) (s : State) :
    exec (.lds r m) s = .next (s.pointerLoaded r .ds m) := rfl

theorem exec_les (r : Reg16) (m : Mem) (s : State) :
    exec (.les r m) s = .next (s.pointerLoaded r .es m) := rfl

section
variable (r : Reg16) (sr : SegReg) (m : Mem) (s : State)

theorem pointerLoaded_reg16 : ((s.pointerLoaded r sr m).reg16 r).toNat =
    s.wordAt (s.dataSeg (defaultSeg m)) (effAddr m s) :=
  (congrArg BitVec.toNat (reg16_setReg16_same s r _)).trans (read16_toNat s _ _)

theorem pointerLoaded_seg : ((s.pointerLoaded r sr m).seg sr).toNat =
    s.wordAt (s.dataSeg (defaultSeg m)) (effAddr m s + 2#16) :=
  (congrArg BitVec.toNat (Segs.get_set_same s.segs sr _)).trans (read16_toNat s _ _)

/-- A load of a far pointer changes the two registers and nothing else. -/
theorem pointerLoaded_frame : KeepsRegs [r] s (s.pointerLoaded r sr m) ∧
    (s.pointerLoaded r sr m).segs = s.segs.set sr ((s.pointerLoaded r sr m).seg sr) ∧
    (s.pointerLoaded r sr m).flags = s.flags ∧ (s.pointerLoaded r sr m).ip = s.ip ∧
    StoresOnly [] s (s.pointerLoaded r sr m) ∧ SameHidden s (s.pointerLoaded r sr m) := by
  refine ⟨fun _ h => reg16_setReg16_other s _ (List.ne_of_not_mem_cons h), ?_, rfl, rfl,
    (StoresOnly.refl _).of_eq rfl rfl rfl,
    ⟨rfl, rfl, rfl, rfl, rfl, rfl, rfl, rfl, rfl, rfl, rfl, rfl, rfl, rfl⟩⟩
  exact congrArg (s.segs.set sr) (Segs.get_set_same s.segs sr _).symm

end

/-- Settles O42: XLAT writes AL as a MOV does; LDS and LES answer `pointerLoaded` for DS and ES. -/
theorem addressTransfers : Obligations.AddressTransfers := by
  intro s
  refine ⟨⟨_, rfl, ?_⟩, fun r m => ⟨⟨_, rfl, reg16_setReg16_same s r _,
    (RegsOnly.refl s).setReg16 r _, rfl⟩, ⟨_, exec_lds r m s, ?_⟩, ⟨_, exec_les r m s, ?_⟩⟩⟩
  · rw [← add_zext8_eq_ofNat]
    exact copies_writeReg s .byte .r0 _
  · exact ⟨pointerLoaded_reg16 r .ds m s, pointerLoaded_seg r .ds m s,
      pointerLoaded_frame r .ds m s⟩
  · exact ⟨pointerLoaded_reg16 r .es m s, pointerLoaded_seg r .es m s,
      pointerLoaded_frame r .es m s⟩

end Sys2Proof.Machine

namespace Sys2Proof.Machine

/-! ## ADD, ADC, SUB, SBB, CMP and TEST (R191 to R193, R197, R198, R201, R235) -/

/-- Settles O21: each form reads its operands, adds them with CF or without, and stores at the place
it read first. -/
theorem addAdc : Obligations.AddAdc := by
  intro s hm
  refine ⟨fun d w reg rm => ?_, fun imm => ?_, fun g rm => ?_⟩
  · exact ⟨⟨_, rfl, sums_writeAt hm w _ _ _ false⟩, ⟨_, rfl, sums_writeAt hm w _ _ _ s.flags.cf⟩⟩
  · exact ⟨⟨_, rfl, sums_writeAt hm imm.width (.reg .r0) (s.readAcc imm.width) imm.value false⟩,
      ⟨_, rfl, sums_writeAt hm imm.width (.reg .r0) (s.readAcc imm.width) imm.value s.flags.cf⟩⟩
  · exact ⟨⟨_, rfl, sums_writeAt hm g.width _ _ _ false⟩,
      ⟨_, rfl, sums_writeAt hm g.width _ _ _ s.flags.cf⟩⟩

/-- Settles O22: as ADD and ADC, with the difference. -/
theorem subSbb : Obligations.SubSbb := by
  intro s hm
  refine ⟨fun d w reg rm => ?_, fun imm => ?_, fun g rm => ?_⟩
  · exact ⟨⟨_, rfl, differs_writeAt hm w _ _ _ false⟩,
      ⟨_, rfl, differs_writeAt hm w _ _ _ s.flags.cf⟩⟩
  · exact ⟨⟨_, rfl, differs_writeAt hm imm.width (.reg .r0) (s.readAcc imm.width) imm.value false⟩,
      ⟨_, rfl, differs_writeAt hm imm.width (.reg .r0) (s.readAcc imm.width) imm.value s.flags.cf⟩⟩
  · exact ⟨⟨_, rfl, differs_writeAt hm g.width _ _ _ false⟩,
      ⟨_, rfl, differs_writeAt hm g.width _ _ _ s.flags.cf⟩⟩

/-- The flags of a difference, and nothing stored. -/
theorem compares_sub (w : Width) (s : State) (a b : BitVec w.bits) :
    Compares a b s (s.setFlags (s.flags.sub a b false)) :=
  ⟨differenceFlags_sub w s.flags a b false, regsOnly_setFlags s (s.flags.sub a b false) rfl rfl rfl⟩

/-- The flags of an AND, and nothing stored. -/
theorem tests_and {n : Nat} (s : State) (a b : BitVec n) : Tests a b s (s.logicFlags (a &&& b)) :=
  ⟨logicFlags_logicFlags s _, regsOnly_logicFlags s _⟩

/-- Settles O23: each form sets the flags of its operands, and drops the result. -/
theorem cmpTest : Obligations.CmpTest := fun s =>
  ⟨fun _ w _ _ => ⟨_, rfl, compares_sub w s _ _⟩,
    fun imm => ⟨_, rfl, compares_sub imm.width s _ _⟩,
    fun g _ => ⟨_, rfl, compares_sub g.width s _ _⟩,
    fun _ _ _ => ⟨_, rfl, tests_and s _ _⟩,
    fun _ => ⟨_, rfl, tests_and s _ _⟩,
    fun _ _ => ⟨_, rfl, tests_and s _ _⟩⟩

/-! ## NEG and NOT (R200, R231) -/

/-- Zero minus a number borrows unless the number is zero (R200). -/
theorem neg_cf_iff {n : Nat} (f : Flags) (a : BitVec n) :
    (f.sub 0#n a false).cf = true ↔ a ≠ 0#n := by
  simp [Flags.sub, Nat.pos_iff_ne_zero, BitVec.toNat_eq]

/-- Zero minus a number overflows for the most negative number alone (R200). -/
theorem neg_ofl_iff (w : Width) (f : Flags) (a : BitVec w.bits) :
    (f.sub 0#_ a false).ofl = true ↔ a.toInt = -2 ^ (w.bits - 1) := by
  have hlo := a.le_toInt
  have hhi := a.toInt_lt
  rw [sub_ofl_iff, Overflows, BitVec.toInt_zero, Bool.toNat_false]
  cases w <;> simp only [Width.bits] at * <;> omega

theorem not_eq_ofNat {n : Nat} (a : BitVec n) : ~~~a = BitVec.ofNat n (2 ^ n - 1 - a.toNat) := by
  rw [← BitVec.toNat_not, BitVec.ofNat_toNat, BitVec.setWidth_eq]

/-- Settles O26: NEG is a subtraction from zero, NOT a store alone. -/
theorem negNot : Obligations.NegNot := by
  intro s w rm hm a
  have hneg : (s.modify opNeg w (place rm s)).flags = s.flags.sub 0#_ a false := by
    simp [State.modify, opNeg, a]
  have hnot := copies_writeAt hm w (place rm s) (~~~a)
  refine ⟨⟨_, rfl, differs_writeAt hm w _ _ _ false, ?_, ?_⟩, ⟨_, rfl, hnot.frame, hnot.flags, ?_⟩⟩
  · rw [hneg, neg_cf_iff]
  · rw [hneg, neg_ofl_iff]
  · rw [← not_eq_ofNat]
    exact hnot.value

/-! ## The jumps after CMP (R330) -/

section
variable (w : Width) (f : Flags) (a b : BitVec w.bits)

theorem cmp_cf_iff : (f.sub a b false).cf = true ↔ a.toNat < b.toNat :=
  (differenceFlags_sub w f a b false).cf

theorem cmp_zf_iff : (f.sub a b false).zf = true ↔ a = b := by
  have ha := a.isLt
  have hb := b.isLt
  have hr := subResult_toNat a b false
  rw [(showsResult_sub f a b false).zf, ← BitVec.toNat_inj, ← BitVec.toNat_inj, BitVec.toNat_zero]
  cases w <;> simp only [Width.bits, Bool.toNat_false] at * <;> omega

/-- The sign of a difference is the order of the signed operands, unless it overflowed (R346). -/
theorem cmp_sf_ne_ofl_iff :
    (f.sub a b false).sf ≠ (f.sub a b false).ofl ↔ a.toInt < b.toInt := by
  have ha := a.isLt
  have hb := b.isLt
  have hr := subResult_toNat a b false
  rw [(showsResult_sub f a b false).sf, ne_eq, Bool.eq_iff_iff, sub_ofl_iff]
  simp only [BitVec.msb_eq_decide, BitVec.toInt_eq_toNat_cond, Overflows, decide_eq_true_iff]
  cases w <;> simp only [Width.bits, Bool.toNat_false] at * <;> omega

end

/-- Settles O57: CF is the order of the unsigned operands, SF against OF that of the signed ones, ZF
their equality. -/
theorem compareThenJump : Obligations.CompareThenJump := by
  intro s d w reg rm disp a b
  refine ⟨s.setFlags (s.flags.sub a b false), rfl, ?_⟩
  intro jumps
  have jump {i : Instr} {c : Bool} {P : Prop}
      (hi : exec i (s.setFlags (s.flags.sub a b false)) = .next (State.jumpIf c disp _))
      (hc : c = true ↔ P) : jumps i P := ⟨_, hi, branches_jumpIf hc (.refl _) rfl rfl disp⟩
  have hcf := cmp_cf_iff w s.flags a b
  have hzf := cmp_zf_iff w s.flags a b
  have hlt := cmp_sf_ne_ofl_iff w s.flags a b
  have hge : (s.flags.sub a b false).sf = (s.flags.sub a b false).ofl ↔ b.toInt ≤ a.toInt := by
    rw [← not_lt, ← hlt, not_ne_iff]
  refine ⟨jump rfl ?ja, jump rfl ?jae, jump rfl hcf, jump rfl ?jbe, jump rfl hzf, jump rfl ?jne,
    jump rfl ?jg, jump rfl (beq_iff_eq.trans hge), jump rfl (bne_iff_ne.trans hlt), jump rfl ?jle⟩
  case jne => rw [Bool.not_eq_true', ← Bool.not_eq_true, State.setFlags_flags, hzf]
  case ja | jae | jbe =>
    simp only [State.setFlags_flags, Bool.and_eq_true, Bool.or_eq_true, Bool.not_eq_true',
      ← Bool.not_eq_true, hcf, hzf, ← BitVec.toNat_inj]
    omega
  case jg | jle =>
    simp only [State.setFlags_flags, Bool.and_eq_true, Bool.or_eq_true, Bool.not_eq_true',
      bne_iff_ne, beq_iff_eq, ← Bool.not_eq_true, hlt, hge, hzf, ← BitVec.toInt_inj]
    omega

end Sys2Proof.Machine

namespace Sys2Proof.Machine

/-! ## Registers that an adjustment leaves (R195, R196, R202, R203, R206, R209) -/

/-- AX written from its halves. -/
theorem al_setReg16_wordOf (s : State) (lo hi : Byte) :
    (s.setReg16 .ax (wordOf lo hi)).reg8 .al = lo := loByte_wordOf lo hi

theorem ah_setReg16_wordOf (s : State) (lo hi : Byte) :
    (s.setReg16 .ax (wordOf lo hi)).reg8 .ah = hi := hiByte_wordOf lo hi

/-- AX and the status flags written, some of the flags undefined. -/
theorem regsOnly_adjusted (s : State) (v : Word) (f : Flags) (u : FlagSet)
    (hf : KeepsControlFlags s (s.setFlags f)) (hu : u.tf = false ∧ u.ifl = false ∧ u.df = false) :
    RegsOnly [.ax] s (((s.setReg16 .ax v).setFlags f).undefineFlags u) := by
  obtain ⟨ht, hi, hd⟩ := hf
  obtain ⟨hut, hui, hud⟩ := hu
  exact ((regsOnly_setFlags s f ht hi hd).setReg16 .ax v).undefineFlags hut hui hud

theorem needsAdjust_iff (s : State) :
    s.needsAdjust = true ↔ 9 < (s.reg8 .al).toNat % 16 ∨ s.flags.af = true := by
  simp [State.needsAdjust]

theorem needsHighAdjust_iff (s : State) :
    s.needsHighAdjust = true ↔ 0x99 < (s.reg8 .al).toNat ∨ s.flags.cf = true := by
  simp [State.needsHighAdjust]

/-! ## AAA and AAS (R195, R202) -/

section
variable (s : State) (al ah : Byte) (adj : Bool)

theorem asciiAdjusted_al : ((s.asciiAdjusted al ah adj).reg8 .al).toNat = al.toNat % 16 := by
  have h : (s.asciiAdjusted al ah adj).reg8 .al = al &&& 0x0F#8 := al_setReg16_wordOf s _ ah
  rw [h, BitVec.toNat_and]
  exact Nat.and_two_pow_sub_one_eq_mod al.toNat 4

theorem asciiAdjusted_ah : (s.asciiAdjusted al ah adj).reg8 .ah = ah := ah_setReg16_wordOf s _ ah

theorem asciiAdjusted_regsOnly : RegsOnly [.ax] s (s.asciiAdjusted al ah adj) :=
  regsOnly_adjusted s _ _ _ ⟨rfl, rfl, rfl⟩ ⟨rfl, rfl, rfl⟩

/-- AAA and AAS but for the values that an adjustment gives AL and AH. -/
theorem asciiAdjust_answers :
    let adj := 9 < (s.reg8 .al).toNat % 16 ∨ s.flags.af = true
    ∃ t, (.next (if s.needsAdjust then s.asciiAdjusted al ah true
        else s.asciiAdjusted (s.reg8 .al) (s.reg8 .ah) false) : Res) = .next t ∧
      RegsOnly [.ax] s t ∧
      (adj → (t.reg8 .al).toNat = al.toNat % 16 ∧ (t.reg8 .ah).toNat = ah.toNat) ∧
      (¬adj → (t.reg8 .al).toNat = (s.reg8 .al).toNat % 16 ∧
        (t.reg8 .ah).toNat = (s.reg8 .ah).toNat) ∧
      (t.flags.af = true ↔ adj) ∧ (t.flags.cf = true ↔ adj) := by
  intro adj
  have hadj : s.needsAdjust = true ↔ adj := needsAdjust_iff s
  refine ⟨_, rfl, ?_⟩
  split
  next h =>
    have hp : adj := hadj.1 h
    exact ⟨asciiAdjusted_regsOnly s al ah true,
      fun _ => ⟨asciiAdjusted_al s al ah true, by rw [asciiAdjusted_ah]⟩, fun hn => absurd hp hn,
      iff_of_true rfl hp, iff_of_true rfl hp⟩
  next h =>
    have hn : ¬adj := fun hp => h (hadj.2 hp)
    exact ⟨asciiAdjusted_regsOnly s _ _ false, fun hp => absurd hp hn,
      fun _ => ⟨asciiAdjusted_al s _ _ false, by rw [asciiAdjusted_ah]⟩,
      iff_of_false Bool.false_ne_true hn, iff_of_false Bool.false_ne_true hn⟩

end

/-- Settles O27: AAA and AAS differ in what they add to AL and AH. -/
theorem asciiAdjust : Obligations.AsciiAdjust := by
  intro s al ah adj
  refine ⟨?_, ?_⟩
  · obtain ⟨t, ht, hregs, hp, hn, hflags⟩ :=
      asciiAdjust_answers s (s.reg8 .al + 6#8) (s.reg8 .ah + 1#8)
    refine ⟨t, ht, hregs, fun h => ?_, hn, hflags⟩
    obtain ⟨hal, hah⟩ := hp h
    rw [hal, hah]
    exact ⟨by simp only [BitVec.toNat_add, BitVec.toNat_ofNat]; omega, BitVec.toNat_add _ _⟩
  · obtain ⟨t, ht, hregs, hp, hn, hflags⟩ :=
      asciiAdjust_answers s (s.reg8 .al - 6#8) (s.reg8 .ah - 1#8)
    refine ⟨t, ht, hregs, fun h => ?_, hn, hflags⟩
    obtain ⟨hal, hah⟩ := hp h
    rw [hal, hah]
    exact ⟨by simp only [BitVec.toNat_sub, BitVec.toNat_ofNat]; omega, by
      simp only [BitVec.toNat_sub, BitVec.toNat_ofNat]; omega⟩

/-! ## DAA and DAS (R196, R203) -/

/-- What a decimal adjustment to `al` leaves: AH, the flags of AL, and the two carries. -/
theorem decimalAdjusted_frame (s : State) (al : Byte) (af cf : Bool) :
    RegsOnly [.ax] s (s.decimalAdjusted al af cf) ∧
      (s.decimalAdjusted al af cf).reg8 .ah = s.reg8 .ah ∧
      (s.decimalAdjusted al af cf).reg8 .al = al ∧
      ShowsResult al (s.decimalAdjusted al af cf).flags ∧
      (s.decimalAdjusted al af cf).flags.af = af ∧ (s.decimalAdjusted al af cf).flags.cf = cf :=
  ⟨regsOnly_adjusted s _ _ _ ⟨rfl, rfl, rfl⟩ ⟨rfl, rfl, rfl⟩,
    reg8_setReg8_other s al (by decide), reg8_setReg8_same s .al al,
    (showsResult_szp s.flags al).of_eq rfl rfl rfl, rfl, rfl⟩

/-- DAA and DAS, from the value that their two corrections give AL. -/
theorem decimalAdjust_answers (s : State) {al : Byte} {n low high : Nat} (hal : al.toNat = n)
    (hlow : low = if s.needsAdjust then 6 else 0)
    (hhigh : high = if s.needsHighAdjust then 0x60 else 0) :
    ∃ t, (.next (s.decimalAdjusted al s.needsAdjust s.needsHighAdjust) : Res) = .next t ∧
      RegsOnly [.ax] s t ∧ t.reg8 .ah = s.reg8 .ah ∧ (t.reg8 .al).toNat = n ∧
      ShowsResult (t.reg8 .al) t.flags ∧ (t.flags.af = true ↔ low = 6) ∧
      (t.flags.cf = true ↔ high = 0x60) := by
  obtain ⟨hregs, hah, hal', hshows, haf, hcf⟩ :=
    decimalAdjusted_frame s al s.needsAdjust s.needsHighAdjust
  refine ⟨_, rfl, hregs, hah, by rw [hal', hal], by rwa [hal'], ?_, ?_⟩
  · rw [haf, hlow]
    cases s.needsAdjust <;> decide
  · rw [hcf, hhigh]
    cases s.needsHighAdjust <;> decide

/-- The two corrections of DAA are additions modulo 256 (R196). -/
theorem corrected_add_toNat (al : Byte) (low high : Bool) :
    (if high then (if low then al + 0x06#8 else al) + 0x60#8
      else if low then al + 0x06#8 else al).toNat =
      (al.toNat + (if low then 6 else 0) + if high then 0x60 else 0) % 256 := by
  have h := al.isLt
  cases low <;> cases high <;> simp only [BitVec.toNat_add, BitVec.toNat_ofNat, if_true,
    Bool.false_eq_true, if_false] <;> omega

/-- Those of DAS are subtractions modulo 256 (R203). -/
theorem corrected_sub_toNat (al : Byte) (low high : Bool) :
    (if high then (if low then al - 0x06#8 else al) - 0x60#8
      else if low then al - 0x06#8 else al).toNat =
      (al.toNat + 512 - (if low then 6 else 0) - if high then 0x60 else 0) % 256 := by
  have h := al.isLt
  cases low <;> cases high <;> simp only [BitVec.toNat_sub, BitVec.toNat_ofNat, if_true,
    Bool.false_eq_true, if_false] <;> omega

/-- Settles O28: each correction is asked for by its test on the entry values. -/
theorem decimalAdjust : Obligations.DecimalAdjust := by
  intro s al low high
  have hlow : low = if s.needsAdjust then 6 else 0 := by simp only [needsAdjust_iff, low, al]
  have hhigh : high = if s.needsHighAdjust then 0x60 else 0 := by
    simp only [needsHighAdjust_iff, high, al]
  refine ⟨decimalAdjust_answers s ?_ hlow hhigh, decimalAdjust_answers s ?_ hlow hhigh⟩
  · rw [hlow, hhigh]
    exact corrected_add_toNat _ _ _
  · rw [hlow, hhigh]
    exact corrected_sub_toNat _ _ _

/-! ## Packed decimal numbers (R196, R203, R215) -/

/-- The two decimal digits of a number below 100, packed in a byte (R215). -/
def packed (n : Nat) : Nat := n / 10 * 16 + n % 10

theorem packed_eq_of_digits {n h l : Nat} (hn : n = 10 * h + l) (hl : l < 10) :
    packed n = 16 * h + l := by
  unfold packed
  omega

theorem exists_digits (n : Nat) : ∃ h l, n = 10 * h + l ∧ l < 10 :=
  ⟨n / 10, n % 10, (Nat.div_add_mod n 10).symm, Nat.mod_lt n (by decide)⟩

/-- Sums `h` and `l` of two decimal digits and a carry, packed and corrected (R196). -/
theorem packed_of_sums {h l : Nat} (hl : l < 20) (hn : 10 * h + l < 200) :
    ((16 * h + l) % 256 + (if 10 ≤ l then 6 else 0) + if 100 ≤ 10 * h + l then 0x60 else 0) % 256 =
      packed ((10 * h + l) % 100) := by
  split_ifs with hlow hhigh hhigh
  · rw [packed_eq_of_digits (h := h - 9) (l := l - 10) (by omega) (by omega)]
    omega
  · rw [packed_eq_of_digits (h := h + 1) (l := l - 10) (by omega) (by omega)]
    omega
  · rw [packed_eq_of_digits (h := h - 10) (l := l) (by omega) (by omega)]
    omega
  · rw [packed_eq_of_digits (h := h) (l := l) (by omega) (by omega)]
    omega

/-- Differences of two decimal digits and a borrow, `h - 10` and `l - 10`, packed and corrected
(R203). -/
theorem packed_of_differences {h l : Nat} (hh : h < 20) (hl : l < 20) (hn : 10 ≤ 10 * h + l) :
    ((16 * h + l + 86) % 256 + 512 - (if l < 10 then 6 else 0) -
      if 10 * h + l < 110 then 0x60 else 0) % 256 = packed ((10 * h + l - 10) % 100) := by
  split_ifs with hlow hhigh hhigh
  · rw [packed_eq_of_digits (h := h - 1) (l := l) (by omega) (by omega)]
    omega
  · rw [packed_eq_of_digits (h := h - 11) (l := l) (by omega) (by omega)]
    omega
  · rw [packed_eq_of_digits (h := h) (l := l - 10) (by omega) (by omega)]
    omega
  · rw [packed_eq_of_digits (h := h - 10) (l := l - 10) (by omega) (by omega)]
    omega

section
variable {x y c : Nat} (hx : x < 100) (hy : y < 100) (hc : c ≤ 1)
include hx hy hc

/-- A packed sum corrected as DAA corrects it: the sum of the numbers, and its decimal carry. -/
theorem packed_add_corrected :
    let al := (packed x + packed y + c) % 256
    let low := if 9 < al % 16 ∨ 16 ≤ packed x % 16 + packed y % 16 + c then 6 else 0
    let high := if 0x99 < al ∨ 256 ≤ packed x + packed y + c then 0x60 else 0
    (al + low + high) % 256 = packed ((x + y + c) % 100) ∧ (high = 0x60 ↔ 100 ≤ x + y + c) := by
  obtain ⟨xh, xl, rfl, hxl⟩ := exists_digits x
  obtain ⟨yh, yl, rfl, hyl⟩ := exists_digits y
  have hpx := packed_eq_of_digits (n := 10 * xh + xl) rfl hxl
  have hpy := packed_eq_of_digits (n := 10 * yh + yl) rfl hyl
  have hsum : 10 * xh + xl + (10 * yh + yl) + c = 10 * (xh + yh) + (xl + yl + c) := by omega
  intro al low high
  have hal : al = (16 * (xh + yh) + (xl + yl + c)) % 256 := congrArg (· % 256) (by omega)
  have hlow : low = if 10 ≤ xl + yl + c then 6 else 0 := if_congr (by omega) rfl rfl
  have hhigh : high = if 100 ≤ 10 * (xh + yh) + (xl + yl + c) then 0x60 else 0 :=
    if_congr (by omega) rfl rfl
  rw [hsum, hal, hlow, hhigh]
  exact ⟨packed_of_sums (by omega) (by omega), by split <;> simp_all⟩

/-- A packed difference corrected as DAS corrects it. -/
theorem packed_sub_corrected :
    let al := (packed x + 256 - packed y - c) % 256
    let low := if 9 < al % 16 ∨ packed x % 16 < packed y % 16 + c then 6 else 0
    let high := if 0x99 < al ∨ packed x < packed y + c then 0x60 else 0
    (al + 512 - low - high) % 256 = packed ((x + 100 - y - c) % 100) ∧
      (high = 0x60 ↔ x < y + c) := by
  obtain ⟨xh, xl, rfl, hxl⟩ := exists_digits x
  obtain ⟨yh, yl, rfl, hyl⟩ := exists_digits y
  have hpx := packed_eq_of_digits (n := 10 * xh + xl) rfl hxl
  have hpy := packed_eq_of_digits (n := 10 * yh + yl) rfl hyl
  have hdiff : 10 * xh + xl + 100 - (10 * yh + yl) - c =
      10 * (xh + 10 - yh) + (xl + 10 - yl - c) - 10 := by omega
  intro al low high
  have hal : al = (16 * (xh + 10 - yh) + (xl + 10 - yl - c) + 86) % 256 := by
    simp only [al]
    omega
  have hlow : low = if xl + 10 - yl - c < 10 then 6 else 0 := if_congr (by omega) rfl rfl
  have hborrow : 0x99 < al ∨ packed (10 * xh + xl) < packed (10 * yh + yl) + c ↔
      packed (10 * xh + xl) < packed (10 * yh + yl) + c := or_iff_right_of_imp fun h => by
    have hle : packed (10 * xh + xl) ≤ 0x99 := by omega
    simp only [al] at h
    omega
  have hhigh : high = if 10 * (xh + 10 - yh) + (xl + 10 - yl - c) < 110 then 0x60 else 0 :=
    if_congr (hborrow.trans (by omega)) rfl rfl
  rw [hdiff, hal, hlow, hhigh]
  exact ⟨packed_of_differences (by omega) (by omega) (by omega), by split <;> simp <;> omega⟩

end

/-- ADC of a byte to AL: what DAA looks at afterwards. -/
theorem exec_adcAcc_al (s : State) (b : Byte) : ∃ t, exec (.adcAcc (.b b)) s = .next t ∧
    t.reg8 .al = addResult (s.reg8 .al) b s.flags.cf ∧
    t.flags = s.flags.add (s.reg8 .al) b s.flags.cf :=
  ⟨_, rfl, reg8_setReg8_same _ .al _, rfl⟩

/-- SBB of a byte from AL: what DAS looks at afterwards. -/
theorem exec_sbbAcc_al (s : State) (b : Byte) : ∃ t, exec (.sbbAcc (.b b)) s = .next t ∧
    t.reg8 .al = subResult (s.reg8 .al) b s.flags.cf ∧
    t.flags = s.flags.sub (s.reg8 .al) b s.flags.cf :=
  ⟨_, rfl, reg8_setReg8_same _ .al _, rfl⟩

theorem packed_mod (n : Nat) : packed (n % 100) = n % 100 / 10 * 16 + n % 10 := by
  rw [packed, Nat.mod_mod_of_dvd n (by decide)]

theorem packed_ofNat_toNat {n : Nat} (h : n < 100) :
    (BitVec.ofNat 8 (packed n)).toNat = packed n := by
  rw [BitVec.toNat_ofNat, Nat.mod_eq_of_lt]
  unfold packed
  omega

/-- Settles O29: what DAA and DAS do after ADC and SBB is the correction of a packed sum and of a
packed difference. -/
theorem packedDecimal : Obligations.PackedDecimal := by
  intro s x y hx hy hal
  have hc := Bool.toNat_le s.flags.cf
  have hb := packed_ofNat_toNat hy
  change _ = packed x at hal
  refine ⟨?_, ?_⟩
  · obtain ⟨t, ht, htal, htf⟩ := exec_adcAcc_al s (BitVec.ofNat 8 (packed y))
    obtain ⟨⟨u, hu, -, -, hual, -, -, hucf⟩, -⟩ := decimalAdjust t
    obtain ⟨hvalue, hcarry⟩ := packed_add_corrected hx hy hc
    simp only [htal, htf, addResult_toNat, Flags.add, decide_eq_true_iff, hal, hb] at hual hucf
    exact ⟨t, u, ht, hu, (hual.trans hvalue).trans (packed_mod _), hucf.trans hcarry⟩
  · obtain ⟨t, ht, htal, htf⟩ := exec_sbbAcc_al s (BitVec.ofNat 8 (packed y))
    obtain ⟨-, u, hu, -, -, hual, -, -, hucf⟩ := decimalAdjust t
    obtain ⟨hvalue, hborrow⟩ := packed_sub_corrected hx hy hc
    have htn : (t.reg8 .al).toNat = (packed x + 256 - packed y - s.flags.cf.toNat) % 256 := by
      have h := subResult_toNat (s.reg8 .al) (BitVec.ofNat 8 (packed y)) s.flags.cf
      have hy' : packed y < 256 := hb ▸ BitVec.isLt _
      rw [← htal, hal, hb] at h
      omega
    simp only [htn, htf, Flags.sub, decide_eq_true_iff, hal, hb] at hual hucf
    exact ⟨t, u, ht, hu, (hual.trans hvalue).trans (packed_mod _), hucf.trans hborrow⟩

end Sys2Proof.Machine

namespace Sys2Proof.Machine

/-! ## AAM, AAD, CBW and CWD (R206, R209, R210, R211) -/

/-- What AAM and AAD leave: both halves of AX, and the flags of AL. -/
theorem baseTen_answers (s : State) (lo hi : Byte) :
    ∃ t, (.next (((s.setReg16 .ax (wordOf lo hi)).setFlags (s.flags.szp lo)).undefineFlags
        .decimal) : Res) = .next t ∧ RegsOnly [.ax] s t ∧ t.reg8 .ah = hi ∧ t.reg8 .al = lo ∧
      ShowsResult lo t.flags :=
  ⟨_, rfl, regsOnly_adjusted s _ _ _ ⟨rfl, rfl, rfl⟩ ⟨rfl, rfl, rfl⟩,
    ah_setReg16_wordOf s lo hi, al_setReg16_wordOf s lo hi,
    (showsResult_szp s.flags lo).of_eq rfl rfl rfl⟩

/-- A word under a word of copies of its sign is the same number (R211). -/
theorem signWord_append_toInt (v : Word) :
    ((if v.msb then 0xFFFF#16 else 0x0000#16) ++ v).toInt = v.toInt := by
  rw [BitVec.toInt_append, BitVec.toInt_eq_msb_cond v]
  cases v.msb with
  | false => simp
  | true =>
    simp only [if_true, BitVec.reduceToInt]
    omega

/-- Settles O30: AAM and AAD write both halves of AX; CBW and CWD write copies of the sign. -/
theorem adjustAndExtend : Obligations.AdjustAndExtend := by
  intro s
  have hal := (s.reg8 .al).isLt
  refine ⟨?_, ?_, ⟨_, rfl, (RegsOnly.refl s).setReg16 .ax _, rfl, ?_⟩,
    ⟨_, rfl, (RegsOnly.refl s).setReg16 .dx _, rfl, signWord_append_toInt s.regs.ax⟩⟩
  · obtain ⟨t, ht, hregs, hah, hal', hshows⟩ := baseTen_answers s
      (BitVec.ofNat 8 ((s.reg8 .al).toNat % 10)) (BitVec.ofNat 8 ((s.reg8 .al).toNat / 10))
    refine ⟨t, ht, hregs, ?_, ?_, hal' ▸ hshows⟩
    · rw [hah, BitVec.toNat_ofNat]
      omega
    · rw [hal', BitVec.toNat_ofNat]
      omega
  · obtain ⟨t, ht, hregs, hah, hal', hshows⟩ := baseTen_answers s
      (BitVec.ofNat 8 ((s.reg8 .ah).toNat * 10 + (s.reg8 .al).toNat)) 0#8
    exact ⟨t, ht, hregs, hah, by rw [hal', BitVec.toNat_ofNat], hal' ▸ hshows⟩
  · exact BitVec.toInt_signExtend_of_le (by decide)

/-! ## MUL and IMUL (R204, R205) -/

/-- The registers of a double-width product or dividend: AX, or DX:AX (R204, R207). -/
def doubleRegs : Width → List Reg16
  | .byte => [.ax]
  | .word => [.ax, .dx]

/-- What a multiplication leaves: the product, and CF and OF alike. -/
def State.multiplied (w : Width) (p : BitVec 32) (upper : Bool) (s : State) : State :=
  (s.setProduct w p).afterMultiply upper

theorem exec_mulRm (w : Width) (rm : RM) (s : State) : exec (.mulRm w rm) s =
    let p := (s.readAcc w).toNat * (s.readAt w (place rm s)).toNat
    .next (s.multiplied w (BitVec.ofNat 32 p) (decide (2 ^ w.bits ≤ p))) := rfl

theorem exec_imulRm (w : Width) (rm : RM) (s : State) : exec (.imulRm w rm) s =
    let p := (s.readAcc w).toInt * (s.readAt w (place rm s)).toInt
    .next (s.multiplied w (BitVec.ofInt 32 p) (decide ((BitVec.ofInt w.bits p).toInt ≠ p))) := rfl

theorem multiplied_regsOnly (s : State) (w : Width) (p : BitVec 32) (upper : Bool) :
    RegsOnly (doubleRegs w) s (s.multiplied w p upper) := by
  cases w with
  | byte => exact regsOnly_adjusted s _ _ _ ⟨rfl, rfl, rfl⟩ ⟨rfl, rfl, rfl⟩
  | word =>
    have h := (regsOnly_adjusted s (p.extractLsb' 0 16) { s.flags with cf := upper, ofl := upper }
      .multiply ⟨rfl, rfl, rfl⟩ ⟨rfl, rfl, rfl⟩).setReg16 .dx (p.extractLsb' 16 16)
    exact h.mono (by simp [doubleRegs])

theorem multiplied_word_dx_ax (s : State) (p : BitVec 32) (upper : Bool) :
    (s.multiplied .word p upper).regs.dx ++ (s.multiplied .word p upper).regs.ax = p :=
  BitVec.extractLsb'_append_extractLsb' (w := 16)

/-- The low bits of a number in two's complement are the number in fewer bits. -/
theorem extractLsb'_ofInt {m n : Nat} (h : n ≤ m) (x : Int) :
    (BitVec.ofInt m x).extractLsb' 0 n = BitVec.ofInt n x := by
  rw [← BitVec.setWidth_eq_extractLsb' h, ← BitVec.signExtend_eq_setWidth_of_le _ h]
  apply BitVec.eq_of_toInt_eq
  rw [BitVec.toInt_signExtend_eq_toInt_bmod_of_le _ h, BitVec.toInt_ofInt, BitVec.toInt_ofInt,
    Int.bmod_bmod_of_dvd (Nat.pow_dvd_pow 2 h)]

/-- The low bits of a number hold it exactly where their sign extension is the number (R205). -/
theorem toInt_ofInt_ne_iff {m n : Nat} (h : n ≤ m) {v : BitVec m} {x : Int} (hv : v.toInt = x) :
    (BitVec.ofInt n x).toInt ≠ x ↔ v ≠ (v.extractLsb' 0 n).signExtend m := by
  have hlo : v.extractLsb' 0 n = BitVec.ofInt n x := by
    rw [← hv, ← extractLsb'_ofInt h, BitVec.ofInt_toInt]
  rw [hlo, ← BitVec.toInt_ne, BitVec.toInt_signExtend_of_le h, hv, ne_comm]

/-- The upper half of a number is not zero exactly where the lower half does not hold it (R204). -/
theorem le_iff_extractLsb'_ne_zero {m k n : Nat} {v : BitVec m} {x : Nat} (h : m = k + n)
    (hx : v.toNat = x) : 2 ^ k ≤ x ↔ v.extractLsb' k n ≠ 0#n := by
  have hv : v.toNat < 2 ^ k * 2 ^ n := by
    rw [← Nat.pow_add, ← h]
    exact v.isLt
  rw [← BitVec.toNat_ne_iff_ne, BitVec.extractLsb'_toNat, BitVec.toNat_zero,
    Nat.shiftRight_eq_div_pow, Nat.mod_eq_of_lt (Nat.div_lt_of_lt_mul hv), Nat.div_ne_zero_iff, hx]
  simp

theorem dx_append_ax_toNat (dx ax : Word) : (dx ++ ax).toNat = dx.toNat * 65536 + ax.toNat := by
  have h := ax.isLt
  rw [BitVec.toNat_append, ← Nat.shiftLeft_add_eq_or_of_lt h, Nat.shiftLeft_eq]

/-! The double-width products are exact. -/

theorem mul_byte_exact (a b : Byte) :
    ((BitVec.ofNat 32 (a.toNat * b.toNat)).extractLsb' 0 16).toNat = a.toNat * b.toNat := by
  rw [BitVec.extractLsb'_toNat, BitVec.toNat_ofNat, Nat.shiftRight_zero,
    Nat.mod_mod_of_dvd _ (by decide), Nat.mod_eq_of_lt BitVec.toNat_mul_toNat_lt]

theorem mul_word_exact (a b : Word) : (BitVec.ofNat 32 (a.toNat * b.toNat)).toNat =
    a.toNat * b.toNat := by
  rw [BitVec.toNat_ofNat, Nat.mod_eq_of_lt BitVec.toNat_mul_toNat_lt]

theorem imul_byte_exact (a b : Byte) :
    ((BitVec.ofInt 32 (a.toInt * b.toInt)).extractLsb' 0 16).toInt = a.toInt * b.toInt := by
  have hlo := BitVec.le_toInt_mul_toInt (x := a) (y := b)
  have hhi := BitVec.toInt_mul_toInt_le (x := a) (y := b)
  rw [extractLsb'_ofInt (by decide)]
  exact BitVec.toInt_ofInt_eq_self (by decide) (by omega) (by omega)

theorem imul_word_exact (a b : Word) : (BitVec.ofInt 32 (a.toInt * b.toInt)).toInt =
    a.toInt * b.toInt := by
  have hlo := BitVec.le_toInt_mul_toInt (x := a) (y := b)
  have hhi := BitVec.toInt_mul_toInt_le (x := a) (y := b)
  exact BitVec.toInt_ofInt_eq_self (by decide) (by omega) (by omega)

/-- Settles O31: the products are exact, and CF says whether the lower half holds them. -/
theorem mulImul : Obligations.MulImul := by
  intro s rm
  refine ⟨⟨_, exec_mulRm .byte rm s, multiplied_regsOnly s .byte _ _, ?_⟩,
    ⟨_, exec_mulRm .word rm s, multiplied_regsOnly s .word _ _, ?_⟩,
    ⟨_, exec_imulRm .byte rm s, multiplied_regsOnly s .byte _ _, ?_⟩,
    ⟨_, exec_imulRm .word rm s, multiplied_regsOnly s .word _ _, ?_⟩⟩
  · have hval := mul_byte_exact (s.reg8 .al) (s.readAt .byte (place rm s))
    exact ⟨hval, decide_eq_true_iff.trans (le_iff_extractLsb'_ne_zero (k := 8) rfl hval), rfl⟩
  · have hval := mul_word_exact s.regs.ax (s.readAt .word (place rm s))
    rw [← dx_append_ax_toNat, multiplied_word_dx_ax]
    exact ⟨hval, decide_eq_true_iff.trans (le_iff_extractLsb'_ne_zero (k := 16) rfl hval), rfl⟩
  · have hval := imul_byte_exact (s.reg8 .al) (s.readAt .byte (place rm s))
    exact ⟨hval, decide_eq_true_iff.trans (toInt_ofInt_ne_iff (n := 8) (by decide) hval), rfl⟩
  · have hval := imul_word_exact s.regs.ax (s.readAt .word (place rm s))
    rw [multiplied_word_dx_ax]
    exact ⟨hval, decide_eq_true_iff.trans (toInt_ofInt_ne_iff (n := 16) (by decide) hval), rfl⟩

end Sys2Proof.Machine

namespace Sys2Proof.Machine

/-! ## DIV and IDIV where the quotient fits (R207, R208) -/

theorem setQuotient_regsOnly (s : State) (w : Width) (q r : BitVec w.bits) :
    RegsOnly (doubleRegs w) s (s.setQuotient w q r) := by
  cases w with
  | byte => exact regsOnly_adjusted s (wordOf q r) s.flags _ ⟨rfl, rfl, rfl⟩ ⟨rfl, rfl, rfl⟩
  | word =>
    have h := (regsOnly_adjusted s q s.flags .status ⟨rfl, rfl, rfl⟩ ⟨rfl, rfl, rfl⟩).setReg16 .dx r
    exact h.mono (by simp [doubleRegs])

theorem setQuotient_al (s : State) (q r : Byte) : (s.setQuotient .byte q r).reg8 .al = q :=
  al_setReg16_wordOf s q r

theorem setQuotient_ah (s : State) (q r : Byte) : (s.setQuotient .byte q r).reg8 .ah = r :=
  ah_setReg16_wordOf s q r

theorem setQuotient_readAcc (s : State) (w : Width) (q r : BitVec w.bits) :
    (s.setQuotient w q r).readAcc w = q := by
  cases w
  · exact setQuotient_al s q r
  · rfl

theorem dividend_byte_toNat (s : State) : (s.dividend .byte).toNat = s.regs.ax.toNat :=
  BitVec.toNat_setWidth_of_le (by decide)

theorem dividend_word_toNat (s : State) :
    (s.dividend .word).toNat = s.regs.dx.toNat * 65536 + s.regs.ax.toNat := dx_append_ax_toNat _ _

/-- DIV, by its divisor (R207). -/
theorem exec_divRm {w : Width} {rm : RM} {s : State} {d : BitVec w.bits}
    (hd : s.readAt w (place rm s) = d) : exec (.divRm w rm) s =
      if d.toNat = 0 ∨ 2 ^ w.bits ≤ (s.dividend w).toNat / d.toNat then .next (s.divideError w)
      else .next (s.setQuotient w (BitVec.ofNat w.bits ((s.dividend w).toNat / d.toNat))
        (BitVec.ofNat w.bits ((s.dividend w).toNat % d.toNat))) := by
  subst hd
  rfl

/-- IDIV, by its divisor (R208). -/
theorem exec_idivRm {w : Width} {rm : RM} {s : State} {d : BitVec w.bits}
    (hd : s.readAt w (place rm s) = d) : exec (.idivRm w rm) s =
      if d.toInt = 0 ∨ quotientTooBig w ((s.signedDividend w).tdiv d.toInt) = true then
        .next (s.divideError w)
      else .next (s.setQuotient w (BitVec.ofInt w.bits ((s.signedDividend w).tdiv d.toInt))
        (BitVec.ofInt w.bits ((s.signedDividend w).tmod d.toInt))) := by
  subst hd
  rfl

/-- DIV where the quotient fits: the division equation (R207). -/
theorem exec_divRm_fits {w : Width} {rm : RM} {s : State} {d : BitVec w.bits}
    (hd : s.readAt w (place rm s) = d) (h : (s.dividend w).toNat < 2 ^ w.bits * d.toNat) :
    ∃ q r : BitVec w.bits, exec (.divRm w rm) s = .next (s.setQuotient w q r) ∧
      (s.dividend w).toNat = q.toNat * d.toNat + r.toNat ∧ r.toNat < d.toNat := by
  have hpos : 0 < d.toNat := Nat.pos_of_lt_mul_left h
  have hq : (s.dividend w).toNat / d.toNat < 2 ^ w.bits := (Nat.div_lt_iff_lt_mul hpos).2 h
  have hr := Nat.mod_lt (s.dividend w).toNat hpos
  refine ⟨_, _, (exec_divRm hd).trans (if_neg (not_or.2 ⟨hpos.ne', hq.not_ge⟩)), ?_⟩
  rw [BitVec.toNat_ofNat, BitVec.toNat_ofNat, Nat.mod_eq_of_lt hq,
    Nat.mod_eq_of_lt (hr.trans d.isLt)]
  exact ⟨(Nat.div_add_mod' _ _).symm, hr⟩

/-- A remainder is smaller than the divisor, and of the dividend's sign where it is not zero. -/
theorem tmod_bounds (n : Int) {d : Int} (hd : d ≠ 0) :
    (n.tmod d).natAbs < d.natAbs ∧ (n.tmod d = 0 ∨ (n.tmod d < 0 ↔ n < 0)) := by
  refine ⟨?_, ?_⟩
  · rw [Int.natAbs_tmod]
    exact Nat.mod_lt _ (Int.natAbs_pos.2 hd)
  · rcases lt_or_ge n 0 with hn | hn
    · have h := Int.tmod_nonneg d (Int.neg_nonneg_of_nonpos hn.le)
      rw [Int.neg_tmod] at h
      omega
    · have := Int.tmod_nonneg d hn
      omega

theorem toInt_ofInt_of_natAbs_lt {n : Nat} {x : Int} (hn : 0 < n) (h : x.natAbs < 2 ^ (n - 1)) :
    (BitVec.ofInt n x).toInt = x := by
  have : (x.natAbs : Int) < 2 ^ (n - 1) := by exact_mod_cast h
  exact BitVec.toInt_ofInt_eq_self hn (by omega) (by omega)

theorem natAbs_toInt_le {n : Nat} (x : BitVec n) : x.toInt.natAbs ≤ 2 ^ (n - 1) := by
  have hlo := x.le_toInt
  have hhi := x.toInt_lt
  have : (x.toInt.natAbs : Int) ≤ 2 ^ (n - 1) := by omega
  exact_mod_cast this

theorem quotientTooBig_iff (w : Width) (q : Int) : quotientTooBig w q = true ↔
    q < -2 ^ (w.bits - 1) ∨ 2 ^ (w.bits - 1) ≤ q ∨
      q = -2 ^ (w.bits - 1) ∧ Config.idivMinQuotientFaults = true := by
  simp [quotientTooBig, or_assoc]

theorem not_quotientTooBig_of_natAbs_lt {w : Width} {q : Int} (h : q.natAbs < 2 ^ (w.bits - 1)) :
    ¬quotientTooBig w q = true := by
  have : (q.natAbs : Int) < 2 ^ (w.bits - 1) := by exact_mod_cast h
  rw [quotientTooBig_iff]
  omega

/-- IDIV where the quotient is inside the symmetric range: the division equation (R208). -/
theorem exec_idivRm_fits {w : Width} {rm : RM} {s : State} {d : BitVec w.bits}
    (hd : s.readAt w (place rm s) = d) (h0 : d.toInt ≠ 0)
    (h : (s.signedDividend w).natAbs < 2 ^ (w.bits - 1) * d.toInt.natAbs) :
    ∃ q r : BitVec w.bits, exec (.idivRm w rm) s = .next (s.setQuotient w q r) ∧
      s.signedDividend w = q.toInt * d.toInt + r.toInt ∧ r.toInt.natAbs < d.toInt.natAbs ∧
      (r.toInt = 0 ∨ (r.toInt < 0 ↔ s.signedDividend w < 0)) := by
  have hbits : 0 < w.bits := by cases w <;> decide
  obtain ⟨hr, hsign⟩ := tmod_bounds (s.signedDividend w) h0
  have hq : ((s.signedDividend w).tdiv d.toInt).natAbs < 2 ^ (w.bits - 1) := by
    rw [Int.natAbs_tdiv]
    exact (Nat.div_lt_iff_lt_mul (Int.natAbs_pos.2 h0)).2 h
  refine ⟨_, _, (exec_idivRm hd).trans
    (if_neg (not_or.2 ⟨h0, not_quotientTooBig_of_natAbs_lt hq⟩)), ?_⟩
  rw [toInt_ofInt_of_natAbs_lt hbits hq,
    toInt_ofInt_of_natAbs_lt hbits (hr.trans_le (natAbs_toInt_le d))]
  exact ⟨(Int.tdiv_mul_add_tmod _ _).symm, hr, hsign⟩

/-- Settles O32: the quotient and the remainder of the division equation stand in the registers of
each width. -/
theorem divIdiv : Obligations.DivIdiv := by
  intro s rm
  refine ⟨fun h => ?_, fun h => ?_, fun hd h => ?_, fun hd h => ?_⟩
  · rw [← dividend_byte_toNat] at h
    obtain ⟨q, r, ht, heq, hr⟩ := exec_divRm_fits (w := .byte) rfl h
    refine ⟨_, ht, setQuotient_regsOnly s .byte q r, ?_⟩
    rw [setQuotient_al, setQuotient_ah, ← dividend_byte_toNat]
    exact ⟨heq, hr⟩
  · have hfits : (s.dividend .word).toNat < 65536 * (s.readAt .word (place rm s)).toNat := by
      have hax := s.regs.ax.isLt
      rw [dividend_word_toNat]
      omega
    obtain ⟨q, r, ht, heq, hr⟩ := exec_divRm_fits (w := .word) rfl hfits
    exact ⟨_, ht, setQuotient_regsOnly s .word q r, (dividend_word_toNat s).symm.trans heq, hr⟩
  · obtain ⟨q, r, ht, heq, hr, hsign⟩ := exec_idivRm_fits (w := .byte) rfl hd h
    refine ⟨_, ht, setQuotient_regsOnly s .byte q r, ?_⟩
    rw [setQuotient_al, setQuotient_ah]
    exact ⟨heq, hr, hsign⟩
  · obtain ⟨q, r, ht, heq, hr, hsign⟩ := exec_idivRm_fits (w := .word) rfl hd h
    exact ⟨_, ht, setQuotient_regsOnly s .word q r, heq, hr, hsign⟩

end Sys2Proof.Machine

namespace Sys2Proof.Machine

/-! ## The interrupt sequence (R356) -/

/-- Words of one segment that share no offset share no byte. -/
theorem operandBytes_disjoint {seg a b : Word} (hab : a ≠ b) (hab' : a ≠ b + 1#16)
    (hba : a + 1#16 ≠ b) : ∀ x ∈ operandBytes .word seg a, x ∉ operandBytes .word seg b := by
  have hne {u v : Word} (h : u ≠ v) : (physAddr seg u).toNat ≠ (physAddr seg v).toNat :=
    fun e => h (physAddr_inj e)
  have hsucc : a + 1#16 ≠ b + 1#16 := fun e => hab (add_right_cancel e)
  simp [operandBytes, hne hab, hne hab', hne hba, hne hsucc]

/-- A later push keeps a word of the stack that it does not reach. -/
theorem Stored.push16 {s u : State} {off sp v : Word} (h : Stored .word (.mem u.segs.ss off) v s u)
    (hsp : u.regs.sp = sp)
    (hoff : off ≠ sp - 2#16 ∧ off ≠ sp - 2#16 + 1#16 ∧ off + 1#16 ≠ sp - 2#16) (v' : Word) :
    Stored .word (.mem u.segs.ss off) v s (u.push16 v') := by
  obtain ⟨hlo, hmid, hhi⟩ := hsp ▸ hoff
  have hkeep : ∀ a ∈ operandBytes .word u.segs.ss off, (u.push16 v').byteAt a = u.byteAt a :=
    fun a ha => byteAt_write16_other u.decSp v' (.inl (operandBytes_disjoint hlo hmid hhi a ha))
  exact ⟨fun hk => (hkeep _ (by simp [operandBytes])).trans (h.1 hk),
    fun hw hk => (hkeep _ (by simp [operandBytes])).trans (h.2 hw hk)⟩

theorem Memory.wf_push16 {s : State} (h : Memory.wf s.mem) (v : Word) :
    Memory.wf (s.push16 v).mem :=
  Memory.wf_memAfter (s := s.decSp.write8 _ _ _)
    (Memory.wf_memAfter (s := s.decSp) h (physAddr_lt _ _) _) (physAddr_lt _ _) _

/-- The interrupt sequence with the flags pushed and interrupts masked (R356). -/
def State.pushedFlags (s : State) : State := (s.nextDraw.push16 s.flagsImage).maskInterrupts

/-- The interrupt sequence with CS pushed. -/
def State.pushedCs (s : State) : State := s.pushedFlags.push16 s.segs.cs

/-- The interrupt sequence with the return offset pushed: what it stores. -/
def State.pushedIp (ret : Word) (s : State) : State := s.pushedCs.push16 ret

section
variable (s : State) (type : Byte) (ret : Word)

theorem interrupt_sp : (s.interrupt type ret).regs.sp = s.regs.sp - 2#16 - 2#16 - 2#16 := rfl

/-- The vector is read as the three words have been pushed, and nothing is stored after them. -/
theorem interrupt_wordAt (seg off : Word) :
    (s.interrupt type ret).wordAt seg off = (s.pushedIp ret).wordAt seg off := by
  have h := readByte_of_eq (s := s.pushedIp ret) (t := s.interrupt type ret) rfl rfl rfl
  rw [State.wordAt, State.wordAt, h, h]

theorem interrupt_ip : (s.interrupt type ret).ip =
    (s.pushedIp ret).read16 0#16 (4#16 * zext8 type) := rfl

theorem interrupt_cs : (s.interrupt type ret).segs.cs =
    (s.pushedIp ret).read16 0#16 (4#16 * zext8 type + 2#16) := rfl

theorem pushedIp_storesOnly :
    StoresOnly (stackBytes s.segs.ss s.regs.sp 3) s (s.pushedIp ret) := by
  have hp : StoresOnly (stackBytes s.segs.ss s.regs.sp 1) s (s.nextDraw.push16 s.flagsImage) :=
    (storesOnly_push16 s.nextDraw s.flagsImage).of_eq rfl rfl rfl
  have hf : StoresOnly (stackBytes s.segs.ss s.regs.sp 1) s s.pushedFlags :=
    ⟨hp.memory, hp.written⟩
  have h : StoresOnly (stackBytes s.segs.ss s.regs.sp 1 ++
      stackBytes s.segs.ss (s.regs.sp - 2#16) 1 ++
      stackBytes s.segs.ss (s.regs.sp - 2#16 - 2#16) 1) s (s.pushedIp ret) :=
    (hf.trans (storesOnly_push16 s.pushedFlags s.segs.cs) rfl).trans
      (storesOnly_push16 s.pushedCs ret) rfl
  simpa only [stackBytes, List.append_nil, List.append_assoc] using h

theorem pushedIp_keepsRegs : KeepsRegs [.sp] s (s.pushedIp ret) :=
  keepsRegs_sp (v := s.regs.sp - 2#16 - 2#16 - 2#16) rfl

variable {s} (hm : Memory.wf s.mem)
include hm

/-! The three words stand on the stack, the offset on top (R356). -/

theorem pushedIp_savedFlags :
    Stored .word (.mem s.segs.ss (s.regs.sp - 2#16)) s.flagsImage s (s.pushedIp ret) := by
  have hf : Stored .word (.mem s.segs.ss (s.regs.sp - 2#16)) s.flagsImage s s.pushedFlags :=
    (stored_push16 (s := s.nextDraw) hm s.flagsImage).of_eq rfl
  have hcs : Stored .word (.mem s.segs.ss (s.regs.sp - 2#16)) s.flagsImage s s.pushedCs :=
    hf.push16 (u := s.pushedFlags) (sp := s.regs.sp - 2#16) rfl (by bv_omega) s.segs.cs
  exact hcs.push16 (u := s.pushedCs) (sp := s.regs.sp - 2#16 - 2#16) rfl (by bv_omega) ret

theorem pushedIp_savedCs :
    Stored .word (.mem s.segs.ss (s.regs.sp - 2#16 - 2#16)) s.segs.cs s (s.pushedIp ret) := by
  have hf : Memory.wf s.pushedFlags.mem := Memory.wf_push16 (s := s.nextDraw) hm s.flagsImage
  have hcs : Stored .word (.mem s.segs.ss (s.regs.sp - 2#16 - 2#16)) s.segs.cs s s.pushedCs :=
    (stored_push16 hf s.segs.cs).of_eq rfl
  exact hcs.push16 (u := s.pushedCs) (sp := s.regs.sp - 2#16 - 2#16) rfl (by bv_omega) ret

theorem pushedIp_savedIp :
    Stored .word (.mem s.segs.ss (s.regs.sp - 2#16 - 2#16 - 2#16)) ret s (s.pushedIp ret) := by
  have hf : Memory.wf s.pushedFlags.mem := Memory.wf_push16 (s := s.nextDraw) hm s.flagsImage
  exact (stored_push16 (s := s.pushedCs) (Memory.wf_push16 hf s.segs.cs) ret).of_eq rfl

/-- The interrupt sequence enters the routine of its type (R356). -/
theorem entered_interrupt : Entered type ret s.flags [] s (s.interrupt type ret) where
  sp := by
    rw [interrupt_sp]
    simp only [BitVec.toNat_sub, BitVec.toNat_ofNat]
    omega
  savedIp := pushedIp_savedIp ret hm
  savedCs := by
    have h : s.regs.sp - 2#16 - 2#16 - 2#16 + 2#16 = s.regs.sp - 2#16 - 2#16 :=
      BitVec.sub_add_cancel _ _
    exact h.symm ▸ pushedIp_savedCs ret hm
  savedFlags := by
    have h : s.regs.sp - 2#16 - 2#16 - 2#16 + 4#16 = s.regs.sp - 2#16 := by bv_omega
    exact ⟨s.flagsImage, ofWord_flagsImage s, h.symm ▸ pushedIp_savedFlags ret hm⟩
  flags := rfl
  vectorIp := by rw [interrupt_wordAt, interrupt_ip, read16_toNat]
  vectorCs := by rw [interrupt_wordAt, interrupt_cs, read16_toNat]
  running := ⟨rfl, rfl⟩
  written := rfl
  regs := pushedIp_keepsRegs s ret
  es := rfl
  ss := rfl
  ds := rfl
  memory := (pushedIp_storesOnly s ret).memory
  hidden := ⟨rfl, rfl, rfl, rfl, rfl, rfl, rfl, rfl, rfl, rfl, rfl, rfl, rfl, rfl⟩

end

/-! ## The divide error (R207, R208, R358) -/

/-- Registers and status flags that change before the sequence, SP not among them. -/
theorem Entered.of_regsOnly {type : Byte} {ret : Word} {f : Flags} {l : List Reg16} {s u t : State}
    (h : RegsOnly l s u) (hl : .sp ∉ l) (e : Entered type ret f [] u t) :
    Entered type ret f l s t := by
  have hsp : u.regs.sp = s.regs.sp := h.regs .sp hl
  have hmap : u.memMap = s.memMap := h.hidden.memMap
  have hss : u.segs.ss = s.segs.ss := congrArg Segs.ss h.segs
  have hcs : u.segs.cs = s.segs.cs := congrArg Segs.cs h.segs
  obtain ⟨image, himage, hflags⟩ := e.savedFlags
  have hhidden := h.hidden.trans e.hidden
  rw [h.hidden.halted, h.hidden.waiting] at hhidden
  exact {
    e with
    sp := hsp ▸ e.sp
    savedIp := hss ▸ e.savedIp.of_eq hmap
    savedCs := hss ▸ hcs ▸ e.savedCs.of_eq hmap
    savedFlags := ⟨image, himage, hss ▸ hflags.of_eq hmap⟩
    regs := fun r hr => by
      obtain ⟨hr', hrl⟩ := List.ne_and_not_mem_of_not_mem_cons hr
      exact (e.regs r (by simpa using hr')).trans (h.regs r hrl)
    es := e.es.trans (congrArg Segs.es h.segs)
    ss := e.ss.trans hss
    ds := e.ds.trans (congrArg Segs.ds h.segs)
    memory := fun a ha => by
      rw [← hss, ← hsp, ← kindAt_of_eq hmap] at ha
      exact (e.memory a ha).trans (h.stores.memory a (.inl List.not_mem_nil))
    hidden := hhidden }

/-- A register that becomes undefined (R6). -/
theorem RegsOnly.undefineReg {l : List Reg16} {s t : State} (h : RegsOnly l s t) (r : Reg16) :
    RegsOnly (r :: l) s (t.undefineReg r) := by
  have hdraw : RegsOnly l s t.nextDraw :=
    ⟨h.regs, h.segs, h.ip, h.control, ⟨h.stores.memory, h.stores.written⟩,
      h.hidden.trans (sameHidden_nextDraw t)⟩
  exact hdraw.setReg16 r t.drawn

/-- What the divide error leaves open before it runs the sequence (R358). -/
def State.divisionFailed (w : Width) (s : State) : State :=
  match w with
  | .byte => (s.undefineFlags .status).undefineReg .ax
  | .word => ((s.undefineFlags .status).undefineReg .ax).undefineReg .dx

theorem divideError_eq (w : Width) (s : State) :
    s.divideError w = (s.divisionFailed w).interrupt 0#8 s.ip := by
  cases w <;> rfl

theorem divisionFailed_regsOnly (w : Width) (s : State) :
    RegsOnly (doubleRegs w) s (s.divisionFailed w) := by
  have hax := ((RegsOnly.refl s).undefineFlags (u := .status) rfl rfl rfl).undefineReg .ax
  cases w with
  | byte => exact hax
  | word => exact (hax.undefineReg .dx).mono (by simp [doubleRegs])

theorem divisionFailed_mem (w : Width) (s : State) : (s.divisionFailed w).mem = s.mem := by
  cases w <;> rfl

/-- The divide error takes interrupt 0, with the control flags as they were (R358). -/
theorem divideError_enters {s : State} (hm : Memory.wf s.mem) (w : Width) :
    ∃ f : Flags, (f.tf = s.flags.tf ∧ f.ifl = s.flags.ifl ∧ f.df = s.flags.df) ∧
      Entered 0#8 s.ip f (doubleRegs w) s (s.divideError w) := by
  have hregs := divisionFailed_regsOnly w s
  have hmem : Memory.wf (s.divisionFailed w).mem := by rwa [divisionFailed_mem]
  refine ⟨(s.divisionFailed w).flags, hregs.control, ?_⟩
  rw [divideError_eq]
  exact (entered_interrupt 0#8 s.ip hmem).of_regsOnly hregs (by cases w <;> simp [doubleRegs])

/-- For the most negative quotient the part decides (R208, log entry 6). -/
theorem quotientTooBig_min (w : Width) :
    quotientTooBig w (-2 ^ (w.bits - 1)) = Config.idivMinQuotientFaults := by
  cases w <;> simp [quotientTooBig]

theorem toInt_ofInt_min (w : Width) :
    (BitVec.ofInt w.bits (-2 ^ (w.bits - 1))).toInt = -2 ^ (w.bits - 1) := by
  cases w <;> rfl

/-- Settles O33: where the quotient does not fit the divide error is taken; for the most negative
one the open parameter says whether it fits. -/
theorem divideError : Obligations.DivideError := by
  intro s w rm hm regs traps
  have hregs : doubleRegs w = regs := by cases w <;> rfl
  have htraps : traps (s.divideError w) := by
    have h := divideError_enters hm w
    rwa [hregs] at h
  refine ⟨fun h => ⟨_, (exec_divRm rfl).trans (if_pos h), htraps⟩,
    fun h => ⟨_, (exec_idivRm rfl).trans (if_pos (h.imp_right fun hq => ?_)), htraps⟩,
    fun hd hq => ?_⟩
  · exact (quotientTooBig_iff w _).2 (or_assoc.1 (.inl hq))
  · have hbig := quotientTooBig_min w
    rw [← hq] at hbig
    cases hf : Config.idivMinQuotientFaults with
    | true =>
      exact ⟨_, (exec_idivRm rfl).trans (if_pos (.inr (hbig.trans hf))), fun _ => htraps, nofun⟩
    | false =>
      refine ⟨_, (exec_idivRm rfl).trans (if_neg (not_or.2 ⟨hd, by simp [hbig, hf]⟩)), nofun,
        fun _ => ⟨hregs ▸ setQuotient_regsOnly s w _ _, ?_⟩⟩
      rw [setQuotient_readAcc, hq]
      exact toInt_ofInt_min w

end Sys2Proof.Machine

namespace Sys2Proof.Machine

/-! ## Single-bit steps, repeated (R240) -/

theorem width_bits_pos (w : Width) : 0 < w.bits := by
  cases w <;> decide

/-- The last step of a count, peeled off. -/
theorem shiftSteps_succ (step : ShiftStep) {n : Nat} (k : Nat) (v : BitVec n) (c : Bool) :
    shiftSteps step n (k + 1) v c =
      step n (shiftSteps step n k v c).1 (shiftSteps step n k v c).2 := by
  induction k generalizing v c with
  | zero => rfl
  | succ k ih => exact ih (step n v c).1 (step n v c).2

/-- The one induction over counts: where a single step turns what `view` sees of operand and carry by
one place, a count of `k` turns it by `k`. -/
theorem shiftSteps_turn {α : Type} {n : Nat} {step : ShiftStep} {view : BitVec n → Bool → α}
    {turn : α → Nat → α} (zero : ∀ a, turn a 0 = a)
    (add : ∀ a k, turn a (k + 1) = turn (turn a k) 1)
    (one : ∀ v c, view (step n v c).1 (step n v c).2 = turn (view v c) 1)
    (k : Nat) (v : BitVec n) (c : Bool) :
    view (shiftSteps step n k v c).1 (shiftSteps step n k v c).2 = turn (view v c) k := by
  induction k with
  | zero => exact (zero _).symm
  | succ k ih => rw [shiftSteps_succ, one, ih, ← add]

/-- As `shiftSteps_turn`, for the operand alone. -/
theorem shiftSteps_fst {n : Nat} {step : ShiftStep} {turn : BitVec n → Nat → BitVec n}
    (zero : ∀ v, turn v 0 = v) (add : ∀ v k, turn v (k + 1) = turn (turn v k) 1)
    (one : ∀ v c, (step n v c).1 = turn v 1) (k : Nat) (v : BitVec n) (c : Bool) :
    (shiftSteps step n k v c).1 = turn v k :=
  shiftSteps_turn (view := fun v _ => v) zero add one k v c

/-- CF is what the last step moves out. -/
theorem shiftSteps_snd {n : Nat} (step : ShiftStep) {k : Nat} (hk : k ≠ 0) (v : BitVec n) (c : Bool) :
    (shiftSteps step n k v c).2 =
      (step n (shiftSteps step n (k - 1) v c).1 (shiftSteps step n (k - 1) v c).2).2 := by
  obtain ⟨j, rfl⟩ := Nat.exists_eq_succ_of_ne_zero hk
  exact congrArg Prod.snd (shiftSteps_succ step j v c)

/-! ### The bits of a single step -/

theorem lowBit_getLsbD {n i : Nat} (hi : i < n) (b : Bool) :
    (lowBit n b).getLsbD i = (decide (i = 0) && b) := by
  cases b <;> simp [lowBit, BitVec.getLsbD_one]
  omega

theorem shiftLeft_or_lowBit_getLsbD {n i : Nat} (hi : i < n) (v : BitVec n) (b : Bool) :
    (v <<< 1 ||| lowBit n b).getLsbD i = if i = 0 then b else v.getLsbD (i - 1) := by
  rw [BitVec.getLsbD_or, BitVec.getLsbD_shiftLeft, lowBit_getLsbD hi]
  by_cases h : i = 0 <;> simp [h, hi]

theorem ushiftRight_or_highBit_getLsbD {n i : Nat} (hi : i < n) (v : BitVec n) (b : Bool) :
    (v >>> 1 ||| highBit n b).getLsbD i = if i + 1 = n then b else v.getLsbD (i + 1) := by
  have hlow : i - (n - 1) < n := by omega
  rw [BitVec.getLsbD_or, BitVec.getLsbD_ushiftRight, highBit, BitVec.getLsbD_shiftLeft,
    lowBit_getLsbD hlow, Nat.add_comm 1 i]
  by_cases h : i + 1 = n
  · have hlast : ¬i < n - 1 ∧ i - (n - 1) = 0 := by omega
    simp [h, hi, hlast]
  · have hlast : i < n - 1 := by omega
    simp [h, hlast]

/-! ### Rotations of a bit vector, one place at a time -/

/-- Counting on by one, modulo `n`: where a rotation starts over. -/
theorem succ_mod_eq {n : Nat} (hn : 0 < n) (k : Nat) :
    (k + 1) % n = if k % n + 1 = n then 0 else k % n + 1 := by
  have hlt := Nat.mod_lt k hn
  rw [← Nat.mod_add_mod]
  split
  · next h => rw [h, Nat.mod_self]
  · exact Nat.mod_eq_of_lt (by omega)

theorem rotateLeft_zero {n : Nat} (v : BitVec n) : v.rotateLeft 0 = v := by
  simp [BitVec.rotateLeft_def, BitVec.ushiftRight_eq_zero]

theorem rotateRight_zero {n : Nat} (v : BitVec n) : v.rotateRight 0 = v := by
  simp [BitVec.rotateRight_def, BitVec.shiftLeft_eq_zero]

theorem rotateLeft_one_getLsbD {n i : Nat} (hi : i < n) (v : BitVec n) :
    (v.rotateLeft 1).getLsbD i = if i = 0 then v.msb else v.getLsbD (i - 1) := by
  have hone : 1 % n = if 1 = n then 0 else 1 := by
    simpa using succ_mod_eq (Nat.zero_lt_of_lt hi) 0
  rw [BitVec.getLsbD_rotateLeft, hone, BitVec.msb_eq_getLsbD_last]
  split
  · obtain rfl : i = 0 := by omega
    simp [‹1 = n›.symm]
  · by_cases h : i = 0 <;> simp [h, hi]

theorem rotateRight_one_getLsbD {n i : Nat} (hi : i < n) (v : BitVec n) :
    (v.rotateRight 1).getLsbD i = if i + 1 = n then v.getLsbD 0 else v.getLsbD (i + 1) := by
  have hone : 1 % n = if 1 = n then 0 else 1 := by
    simpa using succ_mod_eq (Nat.zero_lt_of_lt hi) 0
  rw [BitVec.getLsbD_rotateRight, hone]
  split
  · obtain rfl : i = 0 := by omega
    simp [‹1 = n›.symm]
  · by_cases h : i + 1 = n
    · have hlast : ¬i < n - 1 ∧ i - (n - 1) = 0 := by omega
      simp [h, hi, hlast]
    · have hlast : i < n - 1 := by omega
      simp [h, hlast, Nat.add_comm]

/-- Bit by bit: the two ways to count differ only where a rotation by `k % n` places starts over. -/
theorem rotateLeft_add_one {n : Nat} (v : BitVec n) (k : Nat) :
    v.rotateLeft (k + 1) = (v.rotateLeft k).rotateLeft 1 := by
  refine BitVec.eq_of_getLsbD_eq fun i hi => ?_
  have hn := Nat.zero_lt_of_lt hi
  have hlt := Nat.mod_lt k hn
  have hk := succ_mod_eq hn k
  rw [rotateLeft_one_getLsbD hi, BitVec.msb_eq_getLsbD_last]
  simp only [BitVec.getLsbD_rotateLeft, hk, Bool.cond_eq_ite, hi, decide_eq_true_eq, decide_true,
    Bool.true_and]
  generalize k % n = r at *
  by_cases hlast : r + 1 = n <;> simp only [hlast, if_true, if_false] <;> grind

/-- As `rotateLeft_add_one`, to the right. -/
theorem rotateRight_add_one {n : Nat} (v : BitVec n) (k : Nat) :
    v.rotateRight (k + 1) = (v.rotateRight k).rotateRight 1 := by
  refine BitVec.eq_of_getLsbD_eq fun i hi => ?_
  have hn := Nat.zero_lt_of_lt hi
  have hlt := Nat.mod_lt k hn
  have hk := succ_mod_eq hn k
  have hnext : i + 1 ≠ n → i + 1 < n := by omega
  rw [rotateRight_one_getLsbD hi]
  simp only [BitVec.getLsbD_rotateRight, hk, Bool.cond_eq_ite, hi, decide_eq_true_eq, decide_true,
    Bool.true_and]
  generalize k % n = r at *
  by_cases hlast : r + 1 = n <;> simp only [hlast, if_true, if_false] <;> grind

/-! ### What a single step does -/

theorem sarStep_eq {n : Nat} (v : BitVec n) (c : Bool) :
    sarStep n v c = (v.sshiftRight 1, v.getLsbD 0) := by
  refine Prod.ext (BitVec.eq_of_getLsbD_eq fun i hi => ?_) rfl
  rw [sarStep, ushiftRight_or_highBit_getLsbD hi, BitVec.getLsbD_sshiftRight, Nat.add_comm 1 i]
  by_cases h : i + 1 = n
  · simp [h, hi]
  · have hlt : i + 1 < n := by omega
    simp [h, hi, hlt]

/-- ROL: the top bit comes in below, and CF shows it there. -/
theorem rolStep_eq {n : Nat} (hn : 0 < n) (v : BitVec n) (c : Bool) :
    rolStep n v c = (v.rotateLeft 1, (v.rotateLeft 1).getLsbD 0) := by
  refine Prod.ext (BitVec.eq_of_getLsbD_eq fun i hi => ?_) ?_
  · rw [rolStep, shiftLeft_or_lowBit_getLsbD hi, rotateLeft_one_getLsbD hi]
  · rw [rotateLeft_one_getLsbD hn, if_pos rfl]
    rfl

/-- ROR: the bottom bit comes in above, and CF shows it there. -/
theorem rorStep_eq {n : Nat} (hn : 0 < n) (v : BitVec n) (c : Bool) :
    rorStep n v c = (v.rotateRight 1, (v.rotateRight 1).msb) := by
  refine Prod.ext (BitVec.eq_of_getLsbD_eq fun i hi => ?_) ?_
  · rw [rorStep, ushiftRight_or_highBit_getLsbD hi, rotateRight_one_getLsbD hi]
  · rw [BitVec.msb_eq_getLsbD_last, rotateRight_one_getLsbD (by omega), if_pos (by omega)]
    rfl

/-- The ring of CF and an operand, CF at its top. -/
def carryRing {n : Nat} (v : BitVec n) (c : Bool) : BitVec (1 + n) := BitVec.ofBool c ++ v

theorem carryRing_getLsbD {n : Nat} (v : BitVec n) (c : Bool) (i : Nat) :
    (carryRing v c).getLsbD i = if i < n then v.getLsbD i else decide (i = n) && c := by
  rw [carryRing, BitVec.getLsbD_append]
  split
  · rfl
  · rw [BitVec.getLsbD_ofBool]
    congr 2
    simp only [eq_iff_iff]
    omega

theorem carryRing_msb {n : Nat} (v : BitVec n) (c : Bool) : (carryRing v c).msb = c := by
  rw [BitVec.msb_eq_getLsbD_last, carryRing_getLsbD, if_neg (by omega)]
  simp

theorem rclStep_ring {n : Nat} (hn : 0 < n) (v : BitVec n) (c : Bool) :
    carryRing (rclStep n v c).1 (rclStep n v c).2 = (carryRing v c).rotateLeft 1 := by
  refine BitVec.eq_of_getLsbD_eq fun i hi => ?_
  rw [carryRing_getLsbD, rotateLeft_one_getLsbD hi, carryRing_msb, carryRing_getLsbD]
  split
  · next h =>
    rw [rclStep, shiftLeft_or_lowBit_getLsbD h, if_pos (by omega : i - 1 < n)]
  · obtain rfl : i = n := by omega
    simp [rclStep, hn, hn.ne', BitVec.msb_eq_getLsbD_last]

theorem rcrStep_ring {n : Nat} (hn : 0 < n) (v : BitVec n) (c : Bool) :
    carryRing (rcrStep n v c).1 (rcrStep n v c).2 = (carryRing v c).rotateRight 1 := by
  refine BitVec.eq_of_getLsbD_eq fun i hi => ?_
  rw [carryRing_getLsbD, rotateRight_one_getLsbD hi, carryRing_getLsbD, carryRing_getLsbD]
  split
  · next h =>
    rw [rcrStep, ushiftRight_or_highBit_getLsbD h, if_neg (by omega : ¬i + 1 = 1 + n)]
    by_cases hlast : i + 1 = n
    · simp [hlast]
    · rw [if_neg hlast, if_pos (by omega)]
  · obtain rfl : i = n := by omega
    simp [rcrStep, hn, Nat.add_comm]

/-! ### What a count of steps does (R243 to R249) -/

theorem shiftSteps_shl_fst {n : Nat} (k : Nat) (v : BitVec n) (c : Bool) :
    (shiftSteps shlStep n k v c).1 = v <<< k :=
  shiftSteps_fst (turn := (· <<< ·)) BitVec.shiftLeft_zero (fun v k => BitVec.shiftLeft_add v k 1)
    (fun _ _ => rfl) k v c

theorem shiftSteps_shr_fst {n : Nat} (k : Nat) (v : BitVec n) (c : Bool) :
    (shiftSteps shrStep n k v c).1 = v >>> k :=
  shiftSteps_fst (turn := (· >>> ·)) BitVec.ushiftRight_zero (fun v k => BitVec.shiftRight_add v k 1)
    (fun _ _ => rfl) k v c

theorem shiftSteps_sar_fst {n : Nat} (k : Nat) (v : BitVec n) (c : Bool) :
    (shiftSteps sarStep n k v c).1 = v.sshiftRight k :=
  shiftSteps_fst (turn := BitVec.sshiftRight) (fun _ => BitVec.sshiftRight_zero)
    (fun _ _ => BitVec.sshiftRight_add) (fun v c => by rw [sarStep_eq]) k v c

theorem shiftSteps_rol_fst {n : Nat} (hn : 0 < n) (k : Nat) (v : BitVec n) (c : Bool) :
    (shiftSteps rolStep n k v c).1 = v.rotateLeft k :=
  shiftSteps_fst (turn := BitVec.rotateLeft) rotateLeft_zero rotateLeft_add_one
    (fun v c => by rw [rolStep_eq hn]) k v c

theorem shiftSteps_ror_fst {n : Nat} (hn : 0 < n) (k : Nat) (v : BitVec n) (c : Bool) :
    (shiftSteps rorStep n k v c).1 = v.rotateRight k :=
  shiftSteps_fst (turn := BitVec.rotateRight) rotateRight_zero rotateRight_add_one
    (fun v c => by rw [rorStep_eq hn]) k v c

theorem shiftSteps_rcl_ring {n : Nat} (hn : 0 < n) (k : Nat) (v : BitVec n) (c : Bool) :
    carryRing (shiftSteps rclStep n k v c).1 (shiftSteps rclStep n k v c).2 =
      (carryRing v c).rotateLeft k :=
  shiftSteps_turn (view := carryRing) rotateLeft_zero rotateLeft_add_one (rclStep_ring hn) k v c

theorem shiftSteps_rcr_ring {n : Nat} (hn : 0 < n) (k : Nat) (v : BitVec n) (c : Bool) :
    carryRing (shiftSteps rcrStep n k v c).1 (shiftSteps rcrStep n k v c).2 =
      (carryRing v c).rotateRight k :=
  shiftSteps_turn (view := carryRing) rotateRight_zero rotateRight_add_one (rcrStep_ring hn) k v c

/-- CF after SHL: the lowest bit above the operand, of the product that is not cut. -/
theorem shiftSteps_shl_snd_iff {n k : Nat} (hn : 0 < n) (hk : k ≠ 0) (v : BitVec n) (c : Bool) :
    (shiftSteps shlStep n k v c).2 = true ↔ v.toNat * 2 ^ k / 2 ^ n % 2 = 1 := by
  have hbit : (v <<< (k - 1)).msb = (v.toNat <<< k).testBit n := by
    rw [BitVec.msb_eq_getLsbD_last, BitVec.getLsbD_shiftLeft, Nat.testBit_shiftLeft, BitVec.getLsbD,
      show n - 1 - (k - 1) = n - k by omega]
    by_cases h : k ≤ n
    · simp [h, show n - 1 < n ∧ ¬n - 1 < k - 1 by omega]
    · simp [h, show n - 1 < k - 1 by omega]
  rw [shiftSteps_snd _ hk, shiftSteps_shl_fst, shlStep, hbit, Nat.testBit_eq_decide_div_mod_eq,
    Nat.shiftLeft_eq, decide_eq_true_iff]

theorem shiftSteps_shr_snd_iff {n k : Nat} (hk : k ≠ 0) (v : BitVec n) (c : Bool) :
    (shiftSteps shrStep n k v c).2 = true ↔ v.toNat / 2 ^ (k - 1) % 2 = 1 := by
  rw [shiftSteps_snd _ hk, shiftSteps_shr_fst, shrStep, BitVec.getLsbD, Nat.testBit_zero,
    BitVec.toNat_ushiftRight, Nat.shiftRight_eq_div_pow, decide_eq_true_iff]

/-- The bottom bit says whether a number in two's complement is odd. -/
theorem getLsbD_zero_iff_toInt {n : Nat} (v : BitVec n) : v.getLsbD 0 = true ↔ v.toInt % 2 = 1 := by
  rw [BitVec.getLsbD, Nat.testBit_zero, decide_eq_true_iff, BitVec.toInt_eq_toNat_cond]
  cases n with
  | zero => simp [BitVec.toNat_of_zero_length]
  | succ n => split <;> omega

theorem shiftSteps_sar_snd_iff {n k : Nat} (hk : k ≠ 0) (v : BitVec n) (c : Bool) :
    (shiftSteps sarStep n k v c).2 = true ↔ v.toInt / 2 ^ (k - 1) % 2 = 1 := by
  rw [shiftSteps_snd _ hk, shiftSteps_sar_fst, sarStep, getLsbD_zero_iff_toInt,
    BitVec.toInt_sshiftRight, Int.shiftRight_eq_div_pow]
  norm_cast

/-- ROL by a count that is not zero: CF is the bit that crossed from the top to the bottom. -/
theorem shiftSteps_rol {n k : Nat} (hn : 0 < n) (hk : k ≠ 0) (v : BitVec n) (c : Bool) :
    shiftSteps rolStep n k v c = (v.rotateLeft k, (v.rotateLeft k).getLsbD 0) := by
  refine Prod.ext (shiftSteps_rol_fst hn k v c) ?_
  rw [shiftSteps_snd _ hk, rolStep_eq hn, shiftSteps_rol_fst hn, ← rotateLeft_add_one,
    Nat.sub_one_add_one hk]

/-- ROR by a count that is not zero: CF is the bit that crossed from the bottom to the top. -/
theorem shiftSteps_ror {n k : Nat} (hn : 0 < n) (hk : k ≠ 0) (v : BitVec n) (c : Bool) :
    shiftSteps rorStep n k v c = (v.rotateRight k, (v.rotateRight k).msb) := by
  refine Prod.ext (shiftSteps_ror_fst hn k v c) ?_
  rw [shiftSteps_snd _ hk, rorStep_eq hn, shiftSteps_ror_fst hn, ← rotateRight_add_one,
    Nat.sub_one_add_one hk]

/-- OF after SHL by one place is signed overflow of the doubling (R243). -/
theorem shl_overflows_iff (w : Width) (v : BitVec w.bits) :
    leftOverflow w.bits v (v <<< 1) v.msb = true ↔ Overflows w.bits (2 * v.toInt) := by
  have hv := v.isLt
  simp only [leftOverflow, bne_iff_ne, ne_eq, BitVec.msb_eq_decide, BitVec.toInt_eq_toNat_cond,
    Overflows, BitVec.toNat_shiftLeft, Nat.shiftLeft_eq, decide_eq_decide]
  cases w <;> simp only [Width.bits] at * <;> omega

/-! ### Shifts and rotates of a state (R240, R241) -/

/-- What a shift and a rotate by a count that is not zero have in common: the result at the destination,
CF and, for a count of 1, OF. -/
structure Shifted (w : Width) (p : Place) (k : Nat) (r : BitVec w.bits × Bool) (ofl : Bool)
    (s t : State) : Prop where
  frame : WritesOnly w p s t
  stored : Stored w p r.1 s t
  cf : t.flags.cf = r.2
  ofl : k = 1 → t.flags.ofl = ofl

/-- The four status flags that a rotate keeps (R241). -/
def KeepsShown (s t : State) : Prop :=
  t.flags.sf = s.flags.sf ∧ t.flags.zf = s.flags.zf ∧ t.flags.pf = s.flags.pf ∧
    t.flags.af = s.flags.af

theorem shift_zero {s : State} {cnt : ShiftCount} (h : s.shiftCount cnt = 0) (step : ShiftStep)
    (ovf : ShiftOverflow) (w : Width) (p : Place) : s.shift step ovf cnt w p = s := if_pos h

theorem rotate_zero {s : State} {cnt : ShiftCount} (h : s.shiftCount cnt = 0) (step : ShiftStep)
    (ovf : ShiftOverflow) (w : Width) (p : Place) : s.rotate step ovf cnt w p = s := if_pos h

/-- A change of status flags, followed by the store of a result. -/
theorem shifted_writeAt {s u : State} (hm : Memory.wf s.mem) (h : RegsOnly [] s u)
    (hmem : u.mem = s.mem) (hwritten : u.written = s.written) {w : Width} (p : Place) {k : Nat}
    {r : BitVec w.bits × Bool} {ofl : Bool} (hcf : u.flags.cf = r.2)
    (hofl : k = 1 → u.flags.ofl = ofl) :
    Shifted w p k r ofl s (u.writeAt w p r.1) where
  frame := h.writeAt hmem hwritten w p r.1
  stored := (stored_writeAt (hmem ▸ hm) w p r.1).of_eq h.hidden.memMap
  cf := by rwa [State.writeAt_flags]
  ofl := by rwa [State.writeAt_flags]

section
variable {s : State} {cnt : ShiftCount} (hm : Memory.wf s.mem) (hk : s.shiftCount cnt ≠ 0)
  (step : ShiftStep) (ovf : ShiftOverflow) (w : Width) (p : Place)
include hm hk

theorem shift_shifted :
    let r := shiftSteps step w.bits (s.shiftCount cnt) (s.readAt w p) s.flags.cf
    Shifted w p (s.shiftCount cnt) r (ovf w.bits (s.readAt w p) r.1 r.2) s
        (s.shift step ovf cnt w p) ∧
      ShowsResult r.1 (s.shift step ovf cnt w p).flags := by
  intro r
  have hflags := regsOnly_setFlags s { s.flags.szp r.1 with
    cf := r.2, ofl := ovf w.bits (s.readAt w p) r.1 r.2 } rfl rfl rfl
  have hshows := showsResult_szp s.flags r.1
  simp only [State.shift, if_neg hk]
  split
  · exact ⟨shifted_writeAt hm (hflags.undefineFlags rfl rfl rfl) rfl rfl p rfl fun _ => rfl,
      by rw [State.writeAt_flags]; exact hshows.of_eq rfl rfl rfl⟩
  · next h1 =>
    exact ⟨shifted_writeAt hm (hflags.undefineFlags rfl rfl rfl) rfl rfl p rfl (absurd · h1),
      by rw [State.writeAt_flags]; exact hshows.of_eq rfl rfl rfl⟩

theorem rotate_shifted :
    let r := shiftSteps step w.bits (s.shiftCount cnt) (s.readAt w p) s.flags.cf
    Shifted w p (s.shiftCount cnt) r (ovf w.bits (s.readAt w p) r.1 r.2) s
        (s.rotate step ovf cnt w p) ∧
      KeepsShown s (s.rotate step ovf cnt w p) := by
  intro r
  have hflags := regsOnly_setFlags s { s.flags with
    cf := r.2, ofl := ovf w.bits (s.readAt w p) r.1 r.2 } rfl rfl rfl
  simp only [State.rotate, if_neg hk, KeepsShown]
  split
  · exact ⟨shifted_writeAt hm hflags rfl rfl p rfl fun _ => rfl, by simp⟩
  · next h1 =>
    exact ⟨shifted_writeAt hm (hflags.undefineFlags rfl rfl rfl) rfl rfl p rfl (absurd · h1),
      by simp [Flags.undefine, FlagSet.onlyOf, FlagSet.none, Flags.clear]⟩

end

/-- Settles O34: the closed forms of a count of single-bit steps, at the destination and in CF. -/
theorem shifts : Obligations.Shifts := by
  intro s cnt w rm hm k p v
  have hw := width_bits_pos w
  refine ⟨fun h => ⟨congrArg _ (shift_zero h ..), congrArg _ (shift_zero h ..),
    congrArg _ (shift_zero h ..)⟩, fun hk => ⟨?_, ?_, ?_⟩⟩
  · obtain ⟨h, hshows⟩ := shift_shifted hm hk shlStep leftOverflow w p
    refine ⟨_, _, rfl, h.frame, ?_, h.stored, hshows, ?_, fun h1 => ?_⟩
    · rw [shiftSteps_shl_fst, BitVec.toNat_shiftLeft, Nat.shiftLeft_eq]
    · rw [h.cf, shiftSteps_shl_snd_iff hw hk]
    · rw [h.ofl h1, show s.shiftCount cnt = 1 from h1]
      exact shl_overflows_iff w v
  · obtain ⟨h, hshows⟩ := shift_shifted hm hk shrStep shrOverflow w p
    refine ⟨_, _, rfl, h.frame, ?_, h.stored, hshows, ?_, h.ofl⟩
    · rw [shiftSteps_shr_fst, BitVec.toNat_ushiftRight, Nat.shiftRight_eq_div_pow]
    · rw [h.cf, shiftSteps_shr_snd_iff hk]
  · obtain ⟨h, hshows⟩ := shift_shifted hm hk sarStep sarOverflow w p
    refine ⟨_, _, rfl, h.frame, ?_, h.stored, hshows, ?_, h.ofl⟩
    · rw [shiftSteps_sar_fst, BitVec.toInt_sshiftRight, Int.shiftRight_eq_div_pow]
      norm_cast
    · rw [h.cf, shiftSteps_sar_snd_iff hk]

/-- Settles O35: a count of single-bit rotates is one rotation by the count, and CF shows the bit that
crossed last. -/
theorem rotates : Obligations.Rotates := by
  intro s cnt w rm hm k p v keeps
  have hw := width_bits_pos w
  refine ⟨fun h => ⟨congrArg _ (rotate_zero h ..), congrArg _ (rotate_zero h ..)⟩,
    fun hk => ⟨?_, ?_⟩⟩
  · obtain ⟨h, hkeeps⟩ := rotate_shifted hm hk rolStep leftOverflow w p
    rw [shiftSteps_rol hw hk] at h
    exact ⟨_, rfl, h.frame, hkeeps, h.stored, h.cf, fun h1 => h.cf ▸ h.ofl h1⟩
  · obtain ⟨h, hkeeps⟩ := rotate_shifted hm hk rorStep rightOverflow w p
    rw [shiftSteps_ror hw hk] at h
    exact ⟨_, rfl, h.frame, hkeeps, h.stored, h.cf, h.ofl⟩

/-- Settles O36: each single-bit step turns the ring of CF and the operand by one place. -/
theorem rotatesThroughCarry : Obligations.RotatesThroughCarry := by
  intro s cnt w rm hm k p v keeps
  have hw := width_bits_pos w
  refine ⟨fun h => ⟨congrArg _ (rotate_zero h ..), congrArg _ (rotate_zero h ..)⟩,
    fun hk => ⟨?_, ?_⟩⟩
  · obtain ⟨h, hkeeps⟩ := rotate_shifted hm hk rclStep leftOverflow w p
    refine ⟨_, _, rfl, h.frame, hkeeps, h.stored, ?_, fun h1 => ?_⟩
    · rw [h.cf]
      exact shiftSteps_rcl_ring hw k v s.flags.cf
    · rw [h.ofl h1, h.cf]
      rfl
  · obtain ⟨h, hkeeps⟩ := rotate_shifted hm hk rcrStep rightOverflow w p
    refine ⟨_, _, rfl, h.frame, hkeeps, h.stored, ?_, h.ofl⟩
    rw [h.cf]
    exact shiftSteps_rcr_ring hw k v s.flags.cf

end Sys2Proof.Machine

namespace Sys2Proof.Machine

/-! ## Accepting an interrupt (R263, R288, R353 to R357, R364, R401) -/

/-- A repeat in progress has a segment override or LOCK among its prefixes (R401). -/
def State.SecondPrefix (s : State) : Prop :=
  ∃ r, s.repeating = some r ∧ (r.prefixes.seg ≠ none ∨ r.prefixes.lock = true)

theorem secondPrefix_iff (s : State) :
    s.repeating.any (fun r => r.prefixes.hasSegOrLock) = true ↔ s.SecondPrefix := by
  cases h : s.repeating <;>
    simp [State.SecondPrefix, h, Prefixes.hasSegOrLock, Option.isSome_iff_ne_none]

/-- What an acceptance answers: the interrupt sequence with the repeat dropped, or the refusal of R401. -/
theorem accept_answers {s : State} (hm : Memory.wf s.mem) (type : Byte) :
    (¬s.SecondPrefix → ∃ t, s.accept type = .next t ∧
      Entered type s.returnOffset s.flags [] s.dropRepeat t) ∧
    (s.SecondPrefix → s.accept type = .refused .interruptibleRepeatWithPrefix) := by
  rw [← secondPrefix_iff]
  exact ⟨fun h => ⟨_, if_neg h, entered_interrupt (s := s.dropRepeat) type _ hm⟩, fun h => if_pos h⟩

theorem samplePins_of_schedule_nil {s : State} (h : s.pinSchedule = []) : s.samplePins = s := by
  simp [State.samplePins, h]

/-- At an acceptance point a step accepts the request recognised first. -/
theorem step_of_recognise {s u : State} {type : Byte} (hp : s.pinSchedule = [])
    (hr : s.pins.reset = false) (hw : s.waiting = true → s.pins.test = false)
    (hs : s.intShadow = false) (h : s.recognise = some (type, u)) : step s = u.accept type := by
  have hwt : ¬(s.waiting && s.pins.test) = true := by
    rw [Bool.and_eq_true]
    exact fun ⟨h1, h2⟩ => absurd h2 (by simp [hw h1])
  simp [step, cycle, cycleSampled, samplePins_of_schedule_nil hp, hr, hwt, h, hs]

/-- Under the shadow a step goes on, whatever is requested (R364). -/
theorem step_of_shadow {s : State} (hp : s.pinSchedule = []) (hr : s.pins.reset = false)
    (hs : s.intShadow = true) : step s = runNext exec s := by
  simp only [step, cycle, cycleSampled, samplePins_of_schedule_nil hp, hr, hs]
  cases s.recognise <;> simp

/-- A halted processor, and a waiting one without TEST, only ends the shadow (R288, R292). -/
theorem runNext_idle {s : State} (h : s.halted = true ∨ s.waiting = true)
    (hw : s.waiting = true → s.pins.test = false) : runNext exec s = .next s.clearShadow := by
  by_cases hh : s.halted = true
  · simp [runNext, hh]
  · have hwait : s.waiting = true := h.resolve_left hh
    simp [runNext_waiting (Bool.eq_false_iff.2 hh) hwait, hw hwait]

/-- A step that goes on runs the instruction at CS:IP, where no repeat is in progress. -/
theorem runsInstruction_of_step {s : State} (h : step s = runNext exec s) (hh : s.halted = false)
    (hw : s.waiting = false) (hr : s.repeating = none) : RunsInstruction s := by
  intro d hd hc
  rw [h]
  refine ⟨fun hp t ht => runNext_decoded hh hw hr hd hc ?_,
    fun u t hu ht => runNext_decoded hh hw hr hd hc ?_⟩
  · rw [hp]
    exact (runRows_single _ _).trans ht
  · rw [runRows_append, show runRows exec d.prefixes (s.clearShadow.begin d.length) = _ from hu]
    simpa using ht

/-- Settles O8: each request is the one recognised where those before it are absent, and its
acceptance is the interrupt sequence. -/
theorem acceptsInOrder : Obligations.AcceptsInOrder := by
  intro s hp hr hw hm
  refine ⟨fun hs => ⟨fun hn => ?_, fun type hn hi ht => ?_, fun hn hi ht => ?_⟩,
    fun hs => ⟨fun h => ?_, runsInstruction_of_step (step_of_shadow hp hr hs)⟩⟩
  · rw [step_of_recognise hp hr hw hs (type := 2#8) (u := s.takeNmi)
      (by simp [State.recognise, hn])]
    exact accept_answers (s := s.takeNmi) hm 2#8
  · rw [step_of_recognise hp hr hw hs (type := type) (u := s)
      (by simp [State.recognise, State.maskedIntr, hn, hi, ht])]
    exact accept_answers hm type
  · have hmask : s.maskedIntr = none := by rcases hi with hi | hi <;> simp [State.maskedIntr, hi]
    rw [step_of_recognise hp hr hw hs (type := 1#8) (u := s.takeTrap)
      (by simp [State.recognise, hn, hmask, ht])]
    exact accept_answers (s := s.takeTrap) hm 1#8
  · rw [step_of_shadow hp hr hs]
    exact runNext_idle h hw

end Sys2Proof.Machine

namespace Sys2Proof.Machine

/-! ## One element of a string operation (R260, R265 to R270) -/

/-- The registers that one element writes: the pointers it uses, and the accumulator of LODS. -/
def elementRegs : StringOp → List Reg16
  | .movs | .cmps => [.si, .di]
  | .stos | .scas => [.di]
  | .lods => [.ax, .si]

@[simp] theorem exec_stringOp (op : StringOp) (w : Width) (s : State) :
    exec (op.instr w) s = s.stringInstr op w := by cases op <;> rfl

theorem exec_of_no_repeat {s : State} (h : s.prefixes.rep = none) (op : StringOp) (w : Width) :
    exec (op.instr w) s = .next (s.element op w) := by
  rw [exec_stringOp, State.stringInstr, h]

/-- A pointer moves by one element, whatever was done before that leaves it and DF alone (R260). -/
theorem moved_advance {s u : State} {r : Reg16} (hr : u.reg16 r = s.reg16 r)
    (hf : u.flags.df = s.flags.df) (w : Width) :
    Moved (s.reg16 r) ((u.advance r w).reg16 r) (pointerStep w s.flags.df) := by
  rw [State.advance, reg16_setReg16_same, hr, hf]
  have := (s.reg16 r).isLt
  cases w <;> cases s.flags.df <;>
    simp only [Moved, elementStep, pointerStep, BitVec.toNat_add, BitVec.toNat_ofNat,
      Bool.false_eq_true, if_true, if_false, Width.bits] <;> omega

theorem RegsOnly.setFlags {l : List Reg16} {s t : State} (h : RegsOnly l s t) {f : Flags}
    (hf : f.tf = t.flags.tf ∧ f.ifl = t.flags.ifl ∧ f.df = t.flags.df) :
    RegsOnly l s (t.setFlags f) where
  regs := h.regs
  segs := h.segs
  ip := h.ip
  control :=
    have ⟨ht, hi, hd⟩ := h.control
    have ⟨kt, ki, kd⟩ := hf
    ⟨kt.trans ht, ki.trans hi, kd.trans hd⟩
  stores := ⟨h.stores.memory, h.stores.written⟩
  hidden := h.hidden.trans (sameHidden_setFlags t f)

theorem KeepsRegs.setReg16 {l : List Reg16} {s t : State} (h : KeepsRegs l s t) (r : Reg16)
    (v : Word) : KeepsRegs (r :: l) s (t.setReg16 r v) := fun r' hr' => by
  obtain ⟨hne, hl⟩ := List.ne_and_not_mem_of_not_mem_cons hr'
  exact (reg16_setReg16_other t v hne).trans (h r' hl)

theorem KeepsRegs.mono {l l' : List Reg16} {s t : State} (h : KeepsRegs l s t) (hl : l ⊆ l') :
    KeepsRegs l' s t := fun r hr => h r fun hm => hr (hl hm)

theorem KeepsRegs.of_regs {s t : State} (h : t.regs = s.regs) : KeepsRegs [] s t :=
  fun r _ => reg16_of_regs h r

theorem keepsRegs_writeAcc (s : State) (w : Width) (v : BitVec w.bits) :
    KeepsRegs [.ax] s (s.writeAcc w v) := fun r hr => by
  cases w with
  | byte => exact reg16_setReg8_other s v (List.ne_of_not_mem_cons hr)
  | word => exact reg16_setReg16_other s v (List.ne_of_not_mem_cons hr)

theorem regsOnly_writeAcc (s : State) (w : Width) (v : BitVec w.bits) :
    RegsOnly [.ax] s (s.writeAcc w v) where
  regs := keepsRegs_writeAcc s w v
  segs := State.writeReg_segs s w .r0 v
  ip := State.writeReg_ip s w .r0 v
  control := by simp [State.writeAcc, KeepsControlFlags]
  stores := writeReg_storesOnly s w .r0 v
  hidden := writeReg_sameHidden s w .r0 v

section
variable (s : State) (w : Width)

theorem regsOnly_lodsElement : RegsOnly [.ax, .si] s (s.lodsElement w) :=
  ((regsOnly_writeAcc s w _).setReg16 .si _).mono (by simp)

theorem regsOnly_cmpsElement : RegsOnly [.si, .di] s (s.cmpsElement w) :=
  ((((regsOnly_nextDraw s).setFlags (f := s.flags.sub _ _ _) ⟨rfl, rfl, rfl⟩).setReg16 .si
    _).setReg16 .di _).mono (by simp)

theorem regsOnly_scasElement : RegsOnly [.di] s (s.scasElement w) :=
  ((RegsOnly.refl s).setFlags (f := s.flags.sub _ _ _) ⟨rfl, rfl, rfl⟩).setReg16 .di _

theorem element_sameHidden (op : StringOp) : SameHidden s (s.element op w) := by
  cases op with
  | movs =>
    exact ((sameHidden_writeAt (.refl s) w (.mem _ _) _).trans (sameHidden_setReg16 _ .si _)).trans
      (sameHidden_setReg16 _ .di _)
  | cmps => exact (regsOnly_cmpsElement s w).hidden
  | stos => exact (sameHidden_writeAt (.refl s) w (.mem _ _) _).trans (sameHidden_setReg16 _ .di _)
  | lods => exact (regsOnly_lodsElement s w).hidden
  | scas => exact (regsOnly_scasElement s w).hidden

theorem element_keepsRegs (op : StringOp) : KeepsRegs (elementRegs op) s (s.element op w) := by
  cases op with
  | movs =>
    exact (((KeepsRegs.of_regs (State.writeMem_regs s w _ _ _)).setReg16 .si _).setReg16 .di _).mono
      (by simp [elementRegs])
  | cmps => exact (regsOnly_cmpsElement s w).regs
  | stos => exact (KeepsRegs.of_regs (State.writeMem_regs s w _ _ _)).setReg16 .di _
  | lods => exact (regsOnly_lodsElement s w).regs
  | scas => exact (regsOnly_scasElement s w).regs

theorem element_segs (op : StringOp) : (s.element op w).segs = s.segs :=
  ((Ordinary.refl s).element op w).segs

theorem element_ip (op : StringOp) : (s.element op w).ip = s.ip := by
  cases op with
  | movs => exact State.writeMem_ip s w _ _ _
  | cmps => exact (regsOnly_cmpsElement s w).ip
  | stos => exact State.writeMem_ip s w _ _ _
  | lods => exact (regsOnly_lodsElement s w).ip
  | scas => exact (regsOnly_scasElement s w).ip

/-- MOVS, STOS and LODS leave the flags (R266, R269, R270). -/
theorem element_flags {op : StringOp} (h : op = .movs ∨ op = .stos ∨ op = .lods) :
    (s.element op w).flags = s.flags := by
  rcases h with rfl | rfl | rfl
  · exact State.writeMem_flags s w _ _ _
  · exact State.writeMem_flags s w _ _ _
  · exact State.writeReg_flags s w .r0 _

/-- The operations with a source move SI (R260). -/
theorem element_si {op : StringOp} (h : op ≠ .stos ∧ op ≠ .scas) :
    Moved s.regs.si (s.element op w).regs.si (pointerStep w s.flags.df) := by
  obtain ⟨hstos, hscas⟩ := h
  cases op with
  | movs =>
    exact moved_advance (r := .si) (reg16_of_regs (State.writeMem_regs s w _ _ _) .si)
      (congrArg Flags.df (State.writeMem_flags s w _ _ _)) w
  | cmps => exact moved_advance (s := s) (u := s.nextDraw) (r := .si) rfl rfl w
  | lods =>
    exact moved_advance (keepsRegs_writeAcc s w _ .si (by decide))
      (congrArg Flags.df (State.writeReg_flags s w .r0 _)) w
  | stos => exact absurd rfl hstos
  | scas => exact absurd rfl hscas

/-- The operations with a destination move DI (R260). -/
theorem element_di {op : StringOp} (h : op ≠ .lods) :
    Moved s.regs.di (s.element op w).regs.di (pointerStep w s.flags.df) := by
  have hdi : ∀ v : BitVec w.bits, (s.writeMem w s.segs.es s.regs.di v).reg16 .di = s.reg16 .di :=
    fun v => reg16_of_regs (State.writeMem_regs s w _ _ v) .di
  have hdf : ∀ v : BitVec w.bits, (s.writeMem w s.segs.es s.regs.di v).flags.df = s.flags.df :=
    fun v => congrArg Flags.df (State.writeMem_flags s w _ _ v)
  cases op with
  | movs =>
    exact moved_advance (r := .di)
      (u := (s.writeMem w s.segs.es s.regs.di (s.sourceElement w)).advance .si w) (hdi _) (hdf _) w
  | cmps => exact moved_advance (s := s) (u := s.nextDraw.advance .si w) (r := .di) rfl rfl w
  | stos => exact moved_advance (hdi _) (hdf _) w
  | lods => exact absurd rfl h
  | scas => exact moved_advance (s := s) (u := s) (r := .di) rfl rfl w

/-- What LODS loads (R269). -/
theorem lodsElement_readAcc : (s.lodsElement w).readAcc w = s.sourceElement w := by
  rw [← readReg_writeReg_same s w .r0 (s.sourceElement w)]
  cases w <;> rfl

theorem lodsElement_ah : (s.lodsElement .byte).reg8 .ah = s.reg8 .ah :=
  reg8_setReg8_other s (r := .al) (r' := .ah) (s.sourceElement .byte) (by decide)

end

/-- Settles O45: what one element stores, loads or compares, beside the pointers it moves. -/
theorem stringElements : Obligations.StringElements := by
  intro s w hm hrep k source dest
  refine ⟨⟨_, exec_of_no_repeat hrep .movs w, ?_⟩, ⟨_, exec_of_no_repeat hrep .stos w, ?_⟩,
    ⟨_, exec_of_no_repeat hrep .lods w, ?_⟩, ⟨_, exec_of_no_repeat hrep .cmps w, ?_⟩,
    ⟨_, exec_of_no_repeat hrep .scas w, ?_⟩⟩
  · have hst := storesOnly_writeMem s w s.segs.es s.regs.di (s.sourceElement w)
    exact ⟨stored_writeMem hm w _ _ (s.sourceElement w), element_si s w (by decide),
      element_di s w (by decide), element_keepsRegs s w .movs, element_segs s w _,
      element_flags s w (by decide), element_ip s w _, ⟨hst.memory, hst.written⟩,
      element_sameHidden s w _⟩
  · have hst := storesOnly_writeMem s w s.segs.es s.regs.di (s.readAcc w)
    exact ⟨stored_writeMem hm w _ _ (s.readAcc w), element_di s w (by decide),
      element_keepsRegs s w .stos, element_segs s w _, element_flags s w (by decide),
      element_ip s w _, ⟨hst.memory, hst.written⟩, element_sameHidden s w _⟩
  · refine ⟨lodsElement_readAcc s w, element_si s w (by decide), ?_, regsOnly_lodsElement s w,
      element_flags s w (by decide)⟩
    rintro rfl
    exact lodsElement_ah s
  · exact ⟨differenceFlags_sub w s.flags _ _ false, element_si s w (by decide),
      element_di s w (by decide), regsOnly_cmpsElement s w⟩
  · exact ⟨differenceFlags_sub w s.flags _ _ false, element_di s w (by decide),
      regsOnly_scasElement s w⟩

/-! ## The repeat loop (R261 to R265) -/

/-- Of the prefixes an element reads the segment override alone. -/
theorem element_setPrefixes (s : State) {p : Prefixes} (hp : p.seg = s.prefixes.seg) (op : StringOp)
    (w : Width) : (s.setPrefixes p).element op w = (s.element op w).setPrefixes p := by
  have hsrc : (s.setPrefixes p).sourceElement w = s.sourceElement w := by
    simp only [State.sourceElement, State.dataSeg, State.setPrefixes_prefixes, hp]
    rfl
  cases op with
  | movs => cases w <;> simp only [State.element, State.movsElement, hsrc] <;> rfl
  | cmps => simp only [State.element, State.cmpsElement, hsrc]; rfl
  | stos => cases w <;> rfl
  | lods => cases w <;> simp only [State.element, State.lodsElement, hsrc] <;> rfl
  | scas => rfl

/-- Without its repetition the instruction is one element (R265). -/
theorem exec_setPrefixes (s : State) {p : Prefixes} (hs : p.seg = s.prefixes.seg)
    (hr : p.rep = none) (op : StringOp) (w : Width) :
    exec (op.instr w) (s.setPrefixes p) = .next ((s.element op w).setPrefixes p) := by
  rw [exec_of_no_repeat hr, element_setPrefixes s hs]

/-- What one pass of the loop does before it looks whether to go on: an element, and CX one less. -/
def State.countedElement (op : StringOp) (w : Width) (s : State) : State :=
  (s.element op w).setReg16 .cx (s.regs.cx - 1#16)

theorem repeatPass_zero {s : State} (h : s.regs.cx = 0#16) (op : StringOp) (w : Width)
    (r : RepeatPrefix) : s.repeatPass op w r = s := if_pos h

/-- A pass after which the loop goes on: the instruction stands again at its first byte (R263). -/
def State.suspended (op : StringOp) (w : Width) (s : State) : State :=
  { s.countedElement op w with
    ip := s.instrStart, repeating := some ⟨op, w, s.prefixes, s.ip⟩ }

theorem repeatPass_ends {s : State} {op : StringOp} {w : Width} {r : RepeatPrefix}
    (hcx : s.regs.cx ≠ 0#16)
    (h : s.regs.cx - 1#16 = 0#16 ∨ endsRepeat op r (s.element op w).flags.zf = true) :
    s.repeatPass op w r = s.countedElement op w := (if_neg hcx).trans (if_pos h)

theorem repeatPass_goesOn {s : State} {op : StringOp} {w : Width} {r : RepeatPrefix}
    (hcx : s.regs.cx ≠ 0#16)
    (h : ¬(s.regs.cx - 1#16 = 0#16 ∨ endsRepeat op r (s.element op w).flags.zf = true)) :
    s.repeatPass op w r = s.suspended op w := (if_neg hcx).trans (if_neg h)

/-- The comparing operations end REPE where ZF is clear and REPNE where it is set (R262, R264). -/
theorem endsRepeat_iff (op : StringOp) (r : RepeatPrefix) (zf : Bool) :
    endsRepeat op r zf = true ↔ (op = .cmps ∨ op = .scas) ∧
      (r = .repe ∧ zf = false ∨ r = .repne ∧ zf = true) := by
  cases op <;> cases r <;> simp [endsRepeat]

/-- A repeated instruction is one pass where R401 does not refuse it. -/
theorem exec_of_repeat {s : State} {r : RepeatPrefix} (h : s.prefixes.rep = some r)
    (hn : s.prefixes.hasSegOrLock = true → s.interruptible = false) (op : StringOp) (w : Width) :
    exec (op.instr w) s = .next (s.repeatPass op w r) := by
  have hn' : ¬(s.prefixes.hasSegOrLock && s.interruptible) = true := by
    rw [Bool.and_eq_true]
    exact fun ⟨h1, h2⟩ => absurd h2 (by simp [hn h1])
  rw [exec_stringOp, State.stringInstr, h]
  exact if_neg hn'

theorem sub_one_toNat {v : Word} (h : v ≠ 0#16) : (v - 1#16).toNat + 1 = v.toNat := by
  bv_omega

theorem countedElement_keepsRegs (s : State) (op : StringOp) (w : Width) :
    KeepsRegs [.cx] (s.element op w) (s.countedElement op w) :=
  (KeepsRegs.of_regs rfl).setReg16 .cx _

theorem countedElement_sameHidden (s : State) (op : StringOp) (w : Width) :
    SameHidden s (s.countedElement op w) :=
  (element_sameHidden s w op).trans (sameHidden_setReg16 _ .cx _)

/-- Settles O46: a pass is the element, which does not see that it is repeated, with CX counted down;
the tests of `State.repeatPass` are those of the spec. -/
theorem repeatPass : Obligations.RepeatPass := by
  intro op w r s hrep hopen
  have hn : s.prefixes.hasSegOrLock = true → s.interruptible = false := by
    rcases hopen with ⟨hseg, hlock⟩ | ⟨hif, htf, hnmi⟩
    · simp [Prefixes.hasSegOrLock, hseg, hlock]
    · simp [State.interruptible, hif, htf, hnmi]
  have hunprefixed := exec_setPrefixes s (p := { s.prefixes with rep := none }) rfl rfl op w
  have hhidden := countedElement_sameHidden s op w
  refine ⟨fun hcx => ?_, fun hcx => ?_⟩
  · rw [exec_of_repeat hrep hn, repeatPass_zero hcx]
  · by_cases hends : s.regs.cx - 1#16 = 0#16 ∨ endsRepeat op r (s.element op w).flags.zf = true
    · have hpass := (exec_of_repeat hrep hn op w).trans (congrArg _ (repeatPass_ends hcx hends))
      rw [endsRepeat_iff] at hends
      exact ⟨_, _, hunprefixed, hpass, sub_one_toNat hcx, countedElement_keepsRegs s op w, rfl, rfl,
        rfl, { hhidden with repeating := rfl }, fun _ => ⟨element_ip s w op, hhidden.repeating⟩,
        fun h => absurd hends h⟩
    · have hpass := (exec_of_repeat hrep hn op w).trans (congrArg _ (repeatPass_goesOn hcx hends))
      rw [endsRepeat_iff] at hends
      exact ⟨_, _, hunprefixed, hpass, sub_one_toNat hcx, countedElement_keepsRegs s op w, rfl, rfl,
        rfl, { hhidden with repeating := rfl }, fun h => absurd h hends, fun _ => ⟨rfl, rfl⟩⟩

end Sys2Proof.Machine

namespace Sys2Proof.Machine

/-! ## States that hold the same operands

What the bus gives depends on the count of draws, which one step of a repeat and one unprefixed
element advance differently; where every address is RAM or ROM, an element sees only what `Alike`
compares, and the segment override. -/

/-- The two states agree on what a copying string element reads and writes: CX is not among it. -/
structure Alike (s u : State) : Prop where
  regs : KeepsRegs [.cx] s u
  segs : u.segs = s.segs
  flags : u.flags = s.flags
  mem : u.mem = s.mem
  memMap : u.memMap = s.memMap

/-- A read of RAM or ROM gives what memory holds. -/
theorem readByte_memory {s : State} {a : Nat} (h : s.kindAt a ≠ .bus) :
    s.readByte a = s.byteAt a := by
  cases hk : s.kindAt a with
  | ram => exact readByte_ram hk
  | rom => exact readByte_rom hk
  | bus => exact absurd hk h

namespace Alike

variable {s u : State}

theorem trans {t : State} (h : Alike s u) (k : Alike u t) : Alike s t where
  regs r hr := (k.regs r hr).trans (h.regs r hr)
  segs := k.segs.trans h.segs
  flags := k.flags.trans h.flags
  mem := k.mem.trans h.mem
  memMap := k.memMap.trans h.memMap

theorem symm (h : Alike s u) : Alike u s where
  regs r hr := (h.regs r hr).symm
  segs := h.segs.symm
  flags := h.flags.symm
  mem := h.mem.symm
  memMap := h.memMap.symm

theorem readMem (h : Alike s u) (hk : ∀ a, s.kindAt a ≠ .bus) (w : Width) (seg off : Word) :
    u.readMem w seg off = s.readMem w seg off := by
  have hbyte : ∀ a, u.readByte a = s.readByte a := fun a => by
    rw [readByte_memory (hk a), readByte_memory ((kindAt_of_eq h.memMap a).trans_ne (hk a)),
      State.byteAt, State.byteAt, h.mem]
  cases w <;> simp only [State.readMem, State.read16, State.read8, hbyte]

theorem sourceElement (h : Alike s u) (hk : ∀ a, s.kindAt a ≠ .bus)
    (hp : u.prefixes.seg = s.prefixes.seg) (w : Width) :
    u.sourceElement w = s.sourceElement w := by
  have hsi : u.regs.si = s.regs.si := h.regs .si (by decide)
  rw [State.sourceElement, State.sourceElement, h.readMem hk, State.dataSeg, State.dataSeg,
    State.seg, State.seg, hp, h.segs, hsi]

theorem readAcc (h : Alike s u) (w : Width) : u.readAcc w = s.readAcc w := by
  have hax : u.reg16 .ax = s.reg16 .ax := h.regs .ax (by decide)
  cases w with
  | byte => exact congrArg loByte hax
  | word => exact hax

theorem setReg16 (h : Alike s u) (r : Reg16) (v : Word) : Alike (s.setReg16 r v) (u.setReg16 r v) :=
  { h with regs := fun r' hr' => by rw [reg16_setReg16, reg16_setReg16, h.regs r' hr'] }

theorem advance (h : Alike s u) {r : Reg16} (hr : r ≠ .cx) (w : Width) :
    Alike (s.advance r w) (u.advance r w) := by
  rw [State.advance, State.advance, h.flags, h.regs r (by simpa using hr)]
  exact h.setReg16 r _

theorem writeAcc (h : Alike s u) (w : Width) (v : BitVec w.bits) :
    Alike (s.writeAcc w v) (u.writeAcc w v) := by
  cases w with
  | byte =>
    have hax : u.reg16 .ax = s.reg16 .ax := h.regs .ax (by decide)
    have hu : u.writeAcc .byte v = u.setReg16 .ax (wordOf v (hiByte (s.reg16 .ax))) := by
      rw [← hax]
      rfl
    rw [hu]
    exact h.setReg16 .ax _
  | word => exact h.setReg16 .ax v

theorem write8 (h : Alike s u) (seg off : Word) (v : Byte) :
    Alike (s.write8 seg off v) (u.write8 seg off v) := by
  have hmem : ∀ a, u.memAfter a v = s.memAfter a v := fun a => by
    rw [State.memAfter, State.memAfter, kindAt_of_eq h.memMap, h.mem]
  exact { h with mem := hmem _ }

theorem writeMem (h : Alike s u) (w : Width) (seg off : Word) (v : BitVec w.bits) :
    Alike (s.writeMem w seg off v) (u.writeMem w seg off v) := by
  cases w with
  | byte => exact h.write8 seg off v
  | word => exact (h.write8 seg off _).write8 seg _ _

/-- An element of MOVS, STOS or LODS keeps states alike. -/
theorem element (h : Alike s u) (hk : ∀ a, s.kindAt a ≠ .bus)
    (hp : u.prefixes.seg = s.prefixes.seg) {op : StringOp}
    (hop : op = .movs ∨ op = .stos ∨ op = .lods) (w : Width) :
    Alike (s.element op w) (u.element op w) := by
  have hdi : u.regs.di = s.regs.di := h.regs .di (by decide)
  rcases hop with rfl | rfl | rfl
  · simp only [State.element, State.movsElement, h.sourceElement hk hp, h.segs, hdi]
    exact ((h.writeMem w _ _ _).advance (by decide) w).advance (by decide) w
  · simp only [State.element, State.stosElement, h.readAcc, h.segs, hdi]
    exact (h.writeMem w _ _ _).advance (by decide) w
  · simp only [State.element, State.lodsElement, h.sourceElement hk hp]
    exact (h.writeAcc w _).advance (by decide) w

end Alike

/-- The two states agree in the general and segment registers, the flags and memory with its map: what
`Iterated` speaks of. -/
structure SameData (s u : State) : Prop where
  regs : u.regs = s.regs
  segs : u.segs = s.segs
  flags : u.flags = s.flags
  mem : u.mem = s.mem
  memMap : u.memMap = s.memMap

theorem SameData.alike {s u : State} (h : SameData s u) : Alike s u :=
  ⟨fun r _ => reg16_of_regs h.regs r, h.segs, h.flags, h.mem, h.memMap⟩

/-! ## A repeat that runs to its end (R261, R263) -/

/-- Unprefixed elements one after another are iterations of `State.element` (R265). -/
theorem runRows_replicate {s : State} (h : s.prefixes.rep = none) (op : StringOp) (w : Width)
    (n : Nat) :
    runRows exec (List.replicate n (op.instr w)) s = .next ((State.element op w)^[n] s) := by
  induction n generalizing s with
  | zero => rfl
  | succ n ih =>
    have hp : (s.element op w).prefixes.rep = none := by
      rw [(element_sameHidden s w op).prefixes, h]
    rw [List.replicate_succ, runRows, exec_of_no_repeat h]
    exact ih hp

theorem iterate_element_prefixes (s : State) (op : StringOp) (w : Width) (n : Nat) :
    ((State.element op w)^[n] s).prefixes = s.prefixes := by
  induction n generalizing s with
  | zero => rfl
  | succ n ih => exact (ih (s.element op w)).trans (element_sameHidden s w op).prefixes

theorem Moved.trans {a b c : Word} {x y : Int} (h : Moved a b x) (k : Moved b c y) :
    Moved a c (x + y) := by
  unfold Moved at *
  omega

/-- What `n` iterations of a repeated MOVS, STOS or LODS leave: CX and the pointers have moved on by `n`
elements, and where every address is RAM or ROM the state is one that `n` unprefixed elements leave. -/
structure Iterated (op : StringOp) (w : Width) (n : Nat) (s t : State) : Prop where
  cx : t.regs.cx.toNat + n = s.regs.cx.toNat
  regs : KeepsRegs [.ax, .cx, .si, .di] s t
  ax : op ≠ .lods → t.regs.ax = s.regs.ax
  si : op ≠ .stos → Moved s.regs.si t.regs.si (pointerStep w s.flags.df * n)
  di : op ≠ .lods → Moved s.regs.di t.regs.di (pointerStep w s.flags.df * n)
  segs : t.segs = s.segs
  flags : t.flags = s.flags
  memMap : t.memMap = s.memMap
  memory : op = .lods → t.mem = s.mem
  alike : (∀ a, s.kindAt a ≠ .bus) → ∀ u : State, u.prefixes.seg = none → Alike s u →
    Alike t ((State.element op w)^[n] u)

theorem Iterated.trans {op : StringOp} {w : Width} {n m : Nat} {s u t : State}
    (h : Iterated op w n s u) (k : Iterated op w m u t) : Iterated op w (n + m) s t where
  cx := by have := h.cx; have := k.cx; omega
  regs r hr := (k.regs r hr).trans (h.regs r hr)
  ax ho := (k.ax ho).trans (h.ax ho)
  si ho := by
    have hk := k.si ho
    rw [h.flags] at hk
    simpa [mul_add] using (h.si ho).trans hk
  di ho := by
    have hk := k.di ho
    rw [h.flags] at hk
    simpa [mul_add] using (h.di ho).trans hk
  segs := k.segs.trans h.segs
  flags := k.flags.trans h.flags
  memMap := k.memMap.trans h.memMap
  memory ho := (k.memory ho).trans (h.memory ho)
  alike hb v hv ha := by
    have hb' : ∀ a, u.kindAt a ≠ .bus := fun a => (kindAt_of_eq h.memMap a).trans_ne (hb a)
    have hv' : ((State.element op w)^[n] v).prefixes.seg = none := by
      rw [iterate_element_prefixes, hv]
    rw [Nat.add_comm, Function.iterate_add_apply]
    exact k.alike hb' _ hv' (h.alike hb v hv ha)

theorem Iterated.of_sameData {op : StringOp} {w : Width} {n : Nat} {s s' t t' : State}
    (h : Iterated op w n s t) (hs : SameData s s') (ht : SameData t t') :
    Iterated op w n s' t' where
  cx := by rw [hs.regs, ht.regs, h.cx]
  regs r hr := by rw [reg16_of_regs hs.regs, reg16_of_regs ht.regs, h.regs r hr]
  ax ho := by rw [hs.regs, ht.regs, h.ax ho]
  si ho := by rw [hs.regs, ht.regs, hs.flags]; exact h.si ho
  di ho := by rw [hs.regs, ht.regs, hs.flags]; exact h.di ho
  segs := by rw [hs.segs, ht.segs, h.segs]
  flags := by rw [hs.flags, ht.flags, h.flags]
  memMap := by rw [hs.memMap, ht.memMap, h.memMap]
  memory ho := by rw [hs.mem, ht.mem, h.memory ho]
  alike hb u hu ha :=
    ht.alike.symm.trans (h.alike (fun a => (kindAt_of_eq hs.memMap a).symm.trans_ne (hb a)) u hu
      (hs.alike.trans ha))

/-- One element with CX counted down is one iteration. -/
theorem iterated_countedElement {s : State} (hcx : s.regs.cx ≠ 0#16) (hp : s.prefixes.seg = none)
    {op : StringOp} (hop : op = .movs ∨ op = .stos ∨ op = .lods) (w : Width) :
    Iterated op w 1 s (s.countedElement op w) where
  cx := sub_one_toNat hcx
  regs := ((element_keepsRegs s w op).setReg16 .cx _).mono (by cases op <;> simp [elementRegs])
  ax ho := element_keepsRegs s w op .ax (by cases op <;> simp_all [elementRegs])
  si ho := by
    rw [Nat.cast_one, mul_one]
    exact element_si s w ⟨ho, by rintro rfl; simp at hop⟩
  di ho := by
    rw [Nat.cast_one, mul_one]
    exact element_di s w ho
  segs := element_segs s w op
  flags := element_flags s w hop
  memMap := (element_sameHidden s w op).memMap
  memory ho := by
    subst ho
    exact State.writeReg_mem s w .r0 _
  alike hb u hu ha :=
    have hcounted : Alike (s.element op w) (s.countedElement op w) :=
      ⟨countedElement_keepsRegs s op w, rfl, rfl, rfl, rfl⟩
    hcounted.symm.trans (ha.element hb (hu.trans hp.symm) hop w)

/-- Between two iterations of `r`, with nothing that asks for the processor's attention. -/
structure Between (r : Repeating) (s : State) : Prop where
  quiet : Quiet s
  halted : s.halted = false
  waiting : s.waiting = false
  tf : s.flags.tf = false
  repeating : s.repeating = some r

theorem endsRepeat_of_copies {op : StringOp} (h : op = .movs ∨ op = .stos ∨ op = .lods)
    (r : RepeatPrefix) (zf : Bool) : endsRepeat op r zf = false := by
  rcases h with rfl | rfl | rfl <;> rfl

/-- A repeat of MOVS, STOS or LODS with no segment override and no LOCK (R261). -/
structure Copying (r : Repeating) : Prop where
  rep : r.prefixes.rep ≠ none
  seg : r.prefixes.seg = none
  lock : r.prefixes.lock = false
  op : r.op = .movs ∨ r.op = .stos ∨ r.op = .lods

/-- A quiet step between two iterations is the next pass. -/
theorem Between.step_eq {r : Repeating} {s : State} (h : Between r s) {p : RepeatPrefix}
    (hr : Copying r) (hp : r.prefixes.rep = some p) :
    step s = .next (((s.clearShadow.resume r).repeatPass r.op r.width p).complete false) := by
  have hn : (s.clearShadow.resume r).prefixes.hasSegOrLock = true →
      (s.clearShadow.resume r).interruptible = false := by
    simp [Prefixes.hasSegOrLock, hr.seg, hr.lock]
  rw [step_of_quiet h.quiet]
  simp only [runNext, h.halted, h.waiting, h.repeating, h.tf, Bool.false_eq_true, if_false,
    exec_of_repeat (s := s.clearShadow.resume r) hp hn, completeRes]

/-- The last pass ends the repeat, with IP past the instruction. -/
theorem Between.step_last {r : Repeating} {s : State} (h : Between r s) (hr : Copying r)
    (hcx : s.regs.cx.toNat = 1) : ∃ t, step s = .next t ∧ Iterated r.op r.width 1 s t ∧
      t.repeating = none ∧ t.ip = r.next := by
  obtain ⟨p, hp⟩ := Option.ne_none_iff_exists'.1 hr.rep
  have hne : (s.clearShadow.resume r).regs.cx ≠ 0#16 := fun e => by simp_all
  have hone : s.regs.cx = 1#16 := BitVec.eq_of_toNat_eq hcx
  have hstep := h.step_eq hr hp
  rw [repeatPass_ends hne (.inl (by simp [hone]))] at hstep
  refine ⟨_, hstep, (iterated_countedElement hne hr.seg hr.op r.width).of_sameData
    ⟨rfl, rfl, rfl, rfl, rfl⟩ ⟨rfl, rfl, rfl, rfl, rfl⟩, ?_, ?_⟩
  · exact (countedElement_sameHidden _ r.op r.width).repeating
  · exact element_ip _ r.width r.op

/-- Every other pass leaves the processor between two iterations. -/
theorem Between.step_goesOn {r : Repeating} {s : State} (h : Between r s) (hr : Copying r)
    (hcx : 1 < s.regs.cx.toNat) : ∃ t, step s = .next t ∧ Iterated r.op r.width 1 s t ∧
      Between r t := by
  obtain ⟨p, hp⟩ := Option.ne_none_iff_exists'.1 hr.rep
  have hne : (s.clearShadow.resume r).regs.cx ≠ 0#16 := fun e => by simp_all
  have hmore : ¬((s.clearShadow.resume r).regs.cx - 1#16 = 0#16 ∨ endsRepeat r.op p
      ((s.clearShadow.resume r).element r.op r.width).flags.zf = true) := by
    have hcx1 : s.regs.cx - 1#16 ≠ 0#16 := by bv_omega
    rw [endsRepeat_of_copies hr.op]
    exact not_or.2 ⟨hcx1, Bool.false_ne_true⟩
  have hstep := h.step_eq hr hp
  rw [repeatPass_goesOn hne hmore] at hstep
  have hflags : ((s.clearShadow.resume r).element r.op r.width).flags = s.flags :=
    element_flags _ r.width hr.op
  have hhidden := countedElement_sameHidden (s.clearShadow.resume r) r.op r.width
  refine ⟨_, hstep, (iterated_countedElement hne hr.seg hr.op r.width).of_sameData
    ⟨rfl, rfl, rfl, rfl, rfl⟩ ⟨rfl, rfl, rfl, rfl, rfl⟩, ?_⟩
  exact {
    quiet := {
      schedule := hhidden.pinSchedule.trans h.quiet.schedule
      reset := (congrArg Pins.reset hhidden.pins).trans h.quiet.reset
      nmi := hhidden.nmiLatch.trans h.quiet.nmi
      intr := h.quiet.intr.imp (congrArg Pins.intr hhidden.pins).trans
        (congrArg Flags.ifl hflags).trans
      trap := by
        rw [State.complete_trapPending, Bool.false_and, Bool.or_false]
        exact hhidden.trapPending.trans h.quiet.trap }
    halted := hhidden.halted.trans h.halted
    waiting := hhidden.waiting.trans h.waiting
    tf := (congrArg Flags.tf hflags).trans h.tf
    repeating := rfl }

theorem run_succ {s t : State} (h : step s = .next t) (n : Nat) :
    core.run (n + 1) s = core.run n t := by
  have hstep : core.step s = .next t := h
  simp only [Host.Core.run, hstep]

/-- A repeat that nothing interrupts runs to its end in as many steps as CX counts. -/
theorem Between.run {r : Repeating} (hr : Copying r) (n : Nat) {s : State} (h : Between r s)
    (hcx : s.regs.cx.toNat = n + 1) : ∃ t, core.run (n + 1) s = .next t ∧
      Iterated r.op r.width (n + 1) s t ∧ t.repeating = none ∧ t.ip = r.next := by
  induction n generalizing s with
  | zero =>
    obtain ⟨t, hstep, ht⟩ := h.step_last hr hcx
    exact ⟨t, run_succ hstep 0, ht⟩
  | succ n ih =>
    obtain ⟨u, hstep, hu, hbetween⟩ := h.step_goesOn hr (by omega)
    obtain ⟨t, hrun, ht, hend⟩ := ih hbetween (by have := hu.cx; omega)
    exact ⟨t, (run_succ hstep _).trans hrun, Nat.add_comm 1 (n + 1) ▸ hu.trans ht, hend⟩

/-- Settles O47, by induction on CX: each step is one element, and unprefixed elements beside it keep
the states alike. -/
theorem repeatRuns : Obligations.RepeatRuns := by
  intro s r hq hh hw htf hrep hrp hseg hlock hcx hop
  obtain ⟨n, hn⟩ : ∃ n, s.regs.cx.toNat = n + 1 :=
    Nat.exists_eq_succ_of_ne_zero fun e => hcx (BitVec.eq_of_toNat_eq e)
  obtain ⟨t, hrun, ht, hend, hip⟩ :=
    Between.run ⟨hrp, hseg, hlock, hop⟩ n ⟨hq, hh, hw, htf, hrep⟩ hn
  rw [← hn] at hrun ht
  have hcx0 : t.regs.cx = 0#16 := BitVec.eq_of_toNat_eq (by have := ht.cx; simpa using this)
  refine ⟨t, hrun, hend, hip, hcx0, ht.segs, ht.flags, ht.regs, ⟨ht.si, ht.di⟩, ht.ax, fun ho a _ =>
    congrArg (Memory.read · a) (ht.memory ho), fun hb => ?_⟩
  have halike := ht.alike hb (s.setPrefixes Prefixes.none) rfl ⟨fun _ _ => rfl, rfl, rfl, rfl, rfl⟩
  refine ⟨_, runRows_replicate (s := s.setPrefixes Prefixes.none) rfl r.op r.width _,
    halike.mem.symm, Regs.ext_get fun x => ?_⟩
  by_cases hx : x = .cx
  · rw [hx]
    exact hcx0
  · exact (halike.regs x (by simpa using hx)).symm.trans (Regs.get_set_other _ 0#16 hx).symm

end Sys2Proof.Machine

namespace Sys2Proof.Machine

/-! ## Steps that idle, that are refused and that end a wait (R288, R292, R376, R131, R400) -/

theorem runNext_halted {s : State} (h : s.halted = true) : runNext exec s = .next s.clearShadow := by
  simp [runNext, h]

theorem clearShadow_eq_self {s : State} (h : s.intShadow = false) : s.clearShadow = s :=
  congrArg (fun b => { s with intShadow := b }) h.symm

/-- Where the processor neither idles nor repeats, a step that goes on is a fetch, the shadow ended. -/
theorem runNext_running {s : State} (hh : s.halted = false) (hw : s.waiting = false)
    (hr : s.repeating = none) : runNext exec s = runFetched exec s.clearShadow := by
  simp [runNext, hh, hw, hr]

/-- Bytes that spell no instruction are refused with the decoder's reason (R131). -/
theorem runFetched_undecodable {s : State} {e : DecodeError}
    (h : decode (s.fetchBytes maxLength) = .error e) :
    runFetched exec s = .refused (.undecodable e) := by
  simp [runFetched, h]

/-- An instruction with a byte written since the last taken transfer is refused (R400). -/
theorem runFetched_selfModified {s : State} {d : Decoded}
    (h : decode (s.fetchBytes maxLength) = .ok d) (hc : s.runsWrittenCode d.length = true) :
    runFetched exec s = .refused .selfModifiedCode := by
  simp [runFetched, h, hc]

theorem runsWrittenCode_iff (s : State) (n : Nat) : s.runsWrittenCode n = true ↔
    ∃ k < n, (physAddr s.segs.cs (s.ip + BitVec.ofNat 16 k)).toNat ∈ s.written := by
  simp [State.runsWrittenCode, State.fetchAddrs]

/-- Settles O7: a quiet step goes on, which is the idle step of a halt or a wait, and a fetch elsewhere. -/
theorem stepIdlesOrRefuses : Obligations.StepIdlesOrRefuses := by
  intro s hq
  rw [step_of_quiet hq]
  refine ⟨fun hidle hs => ?_, fun hh hw hr => ?_⟩
  · have hgoes : runNext exec s = .next s.clearShadow := by
      cases hh : s.halted with
      | true => exact runNext_halted hh
      | false =>
        obtain ⟨hw, ht⟩ := hidle.resolve_left (by simp [hh])
        exact runNext_idle (.inr hw) fun _ => ht
    rw [hgoes, clearShadow_eq_self hs]
  · rw [runNext_running hh hw hr]
    exact ⟨fun e he => runFetched_undecodable (s := s.clearShadow) he, fun d k hd hk hmem =>
      runFetched_selfModified (s := s.clearShadow) hd ((runsWrittenCode_iff _ _).2 ⟨k, hk, hmem⟩)⟩

/-! ## The flag instructions, NOP and HLT (R281 to R287, R289, R292) -/

/-- Settles O48: each answer is one update of the state; CMC's new CF is the complement of the old. -/
theorem flagInstructions : Obligations.FlagInstructions := by
  intro s
  refine ⟨⟨_, rfl, rfl, rfl⟩, ⟨_, rfl, rfl, rfl⟩, ⟨_, rfl, rfl, ?complemented, rfl⟩, ⟨_, rfl, rfl, rfl⟩,
    ⟨_, rfl, rfl, rfl⟩, ⟨_, rfl, rfl, rfl⟩, ⟨_, rfl, rfl, rfl⟩, rfl, rfl⟩
  case complemented => exact Bool.not_ne_self s.flags.cf

/-! ## WAIT (R288, R362, R376) -/

/-- WAIT leaves the processor waiting where TEST is not asserted, and only there. -/
theorem exec_wait (s : State) : exec .wait s = .next { s with waiting := !s.pins.test } := by
  simp only [exec, execWait]
  cases s.pins.test <;> rfl

/-- RESET aside, a waiting processor with TEST asserted looks at no request (R288). -/
theorem step_of_test {s : State} (hp : s.pinSchedule = []) (hr : s.pins.reset = false)
    (hw : s.waiting = true) (ht : s.pins.test = true) : step s = runNext exec s := by
  simp [step, cycle, cycleSampled, samplePins_of_schedule_nil hp, hr, hw, ht]

/-- The end of a wait completes an instruction: the trap that is due follows TF (R362). -/
theorem endWait_eq (s : State) : s.endWait = { s with
    waiting := false
    intShadow := false
    prefixes := Prefixes.none
    lockOutput := s.repeating.any (fun r => r.prefixes.lock)
    trapPending := s.trapPending || s.flags.tf } := by
  simp [State.endWait, State.complete, State.clearShadow]

/-- A WAIT that is fetched without TEST enters the wait state, and no trap is due (R288, R362). -/
theorem step_fetches_wait {s : State} (hq : Quiet s) (hh : s.halted = false)
    (hw : s.waiting = false) (hr : s.repeating = none) (ht : s.pins.test = false)
    (hd : decode (s.fetchBytes maxLength) = .ok ⟨[], .wait, 1⟩) (hc : s.runsWrittenCode 1 = false) :
    step s = .next (State.complete s.flags.tf { s.clearShadow.begin 1 with waiting := true }) := by
  rw [step_of_quiet hq]
  refine runNext_decoded hh hw hr hd hc ?_
  have hwait := exec_wait (s.clearShadow.begin 1)
  rw [show (s.clearShadow.begin 1).pins.test = false from ht] at hwait
  exact (runRows_single _ _).trans hwait

/-- Settles O49: the instruction by `exec_wait`, its step by what a fetch runs, and the wait state by
`runNext_waiting`. -/
theorem wait : Obligations.Wait := by
  refine ⟨fun s ht => ?_, fun s ht => ?_, fun s hq hh hw hr ht hd hc => ?_, fun s hq hh hw ht => ?_,
    fun s hp hr hh hw ht => ?_⟩
  · rw [exec_wait, ht, Bool.not_true]
  · rw [exec_wait, ht, Bool.not_false]
  · refine ⟨_, step_fetches_wait hq hh hw hr ht hd hc, rfl, rfl, rfl, rfl, rfl, rfl, rfl, ?_⟩
    simp [hq.trap]
  · rw [step_of_quiet hq]
    exact runNext_idle (.inr hw) fun _ => ht
  · rw [step_of_test hp hr hw ht, runNext_waiting hh hw, if_pos ht, endWait_eq]

end Sys2Proof.Machine

namespace Sys2Proof.Machine

/-! ## Frames of transfers of control (R300, R301, R400) -/

section
variable {changed : List Reg16} {addrs : List Nat} {s u : State}

/-- Stores and changes of registers that come before a transfer, the flags kept. -/
theorem TransferOnly.of_storesOnly (hr : KeepsRegs changed s u) (hs : u.segs = s.segs)
    (hf : u.flags = s.flags) (hm : StoresOnly addrs s u) (hh : SameHidden s u) :
    TransferOnly changed addrs s u :=
  ⟨hr, by rw [hs], by rw [hs], by rw [hs], hf, hm.memory, hh⟩

theorem TransferOnly.refl (s : State) : TransferOnly [] [] s s :=
  .of_storesOnly (.of_regs rfl) rfl rfl (.refl s) (.refl s)

theorem sameHidden_jumpFar (s : State) (seg off : Word) : SameHidden s (s.jumpFar seg off) :=
  ⟨rfl, rfl, rfl, rfl, rfl, rfl, rfl, rfl, rfl, rfl, rfl, rfl, rfl, rfl⟩

/-- The transfer itself adds nothing to what came before it. -/
theorem TransferOnly.jumpFar (h : TransferOnly changed addrs s u) (seg off : Word) :
    TransferOnly changed addrs s (u.jumpFar seg off) :=
  { h with hidden := h.hidden.trans (sameHidden_jumpFar u seg off) }

/-- A transfer within the segment is one that loads CS with what it holds. -/
theorem TransferOnly.jump (h : TransferOnly changed addrs s u) (off : Word) :
    TransferOnly changed addrs s (u.jump off) := h.jumpFar u.segs.cs off

/-- Only SP was moved before the transfer. -/
theorem transferOnly_setSp (s : State) (v : Word) : TransferOnly [.sp] [] s (s.setReg16 .sp v) :=
  .of_storesOnly (keepsRegs_sp rfl) rfl rfl ((StoresOnly.refl _).of_eq rfl rfl rfl)
    (sameHidden_setReg16 s .sp v)

end

/-! ## JMP (R313 to R317) -/

/-- A taken transfer also empties the set of R400. -/
theorem jumpFar_written_transferOnly (s : State) (seg off : Word) :
    (s.jumpFar seg off).written = [] ∧ TransferOnly [] [] s (s.jumpFar seg off) :=
  ⟨rfl, (TransferOnly.refl s).jumpFar seg off⟩

theorem jump_written_transferOnly (s : State) (off : Word) :
    (s.jump off).written = [] ∧ TransferOnly [] [] s (s.jump off) :=
  ⟨rfl, (TransferOnly.refl s).jump off⟩

/-- Settles O54: a near form is `State.jump`, the short one a jump that is always taken, and a far
one `State.jumpFar`. -/
theorem jumps : Obligations.Jumps := by
  intro s only
  refine ⟨fun disp => ⟨_, rfl, jump_written_transferOnly s _, rfl, BitVec.toNat_add _ _⟩,
    fun disp => ⟨s.jumpIf true disp, rfl, branches_jumpIf (by simp) (.refl s) rfl rfl disp⟩,
    fun rm => ⟨_, rfl, jump_written_transferOnly s _, rfl, rfl⟩,
    fun off seg => ⟨_, rfl, jumpFar_written_transferOnly s seg off, rfl, rfl⟩,
    fun m => ⟨_, rfl, jumpFar_written_transferOnly s _ _, ?_, ?_⟩⟩
  · exact read16_toNat s _ _
  · exact read16_toNat s _ _

/-! ## The conditional jumps (R330 to R348) -/

/-- Settles O56: each jump is `State.jumpIf` on its condition of the table. -/
theorem conditionalJumps : Obligations.ConditionalJumps := by
  intro s disp f jumps
  have jump {i : Instr} {c : Bool} {P : Prop} (hi : exec i s = .next (s.jumpIf c disp))
      (hc : c = true ↔ P) : jumps i P := ⟨_, hi, branches_jumpIf hc (.refl s) rfl rfl disp⟩
  have hnot (b : Bool) : (!b) = true ↔ b = false := (Bool.not_eq_true' b).to_iff
  exact ⟨jump rfl .rfl, jump rfl (hnot f.ofl), jump rfl .rfl, jump rfl (hnot f.cf), jump rfl .rfl,
    jump rfl (hnot f.zf), jump rfl Bool.or_eq_true_iff, jump rfl (by simp [f]), jump rfl .rfl,
    jump rfl (hnot f.sf), jump rfl .rfl, jump rfl (hnot f.pf), jump rfl bne_iff_ne,
    jump rfl beq_iff_eq, jump rfl (by simp [f]), jump rfl (by simp [f])⟩

/-! ## CALL (R303 to R306) -/

/-- IP is pushed, and control goes to `off` within the segment (R302). -/
def State.callNearTo (off : Word) (s : State) : State := (s.push16 s.ip).jump off

theorem exec_callRel (disp : Word) (s : State) :
    exec (.callRel disp) s = .next (s.callNearTo (s.ip + disp)) := rfl

theorem exec_callRm (rm : RM) (s : State) :
    exec (.callRm rm) s = .next (s.callNearTo (s.readAt .word (place rm s))) := rfl

theorem exec_callFar (off seg : Word) (s : State) :
    exec (.callFar off seg) s = .next (s.callFarTo seg off) := rfl

theorem exec_callFarMem (m : Mem) (s : State) : exec (.callFarMem m) s =
    .next (s.callFarTo (s.readPointer m).2 (s.readPointer m).1) := rfl

theorem transferOnly_push16 (s : State) (v : Word) :
    TransferOnly [.sp] (stackBytes s.segs.ss s.regs.sp 1) s (s.push16 v) :=
  .of_storesOnly (keepsRegs_sp rfl) rfl rfl (storesOnly_push16 s v) (sameHidden_push16 s v)

theorem callNearTo_transferOnly (s : State) (off : Word) :
    TransferOnly [.sp] (stackBytes s.segs.ss s.regs.sp 1) s (s.callNearTo off) :=
  (transferOnly_push16 s s.ip).jump off

theorem callFarTo_regs (s : State) (seg off : Word) :
    (s.callFarTo seg off).regs = s.regs.set .sp (s.regs.sp - 4#16) := by
  have hsp : s.regs.sp - 2#16 - 2#16 = s.regs.sp - 4#16 := by bv_omega
  rw [← hsp]
  rfl

/-- CS is pushed first, so it stands two bytes above the offset. -/
theorem callFarTo_sp_add_two (s : State) (seg off : Word) :
    (s.callFarTo seg off).regs.sp + 2#16 = s.regs.sp - 2#16 := BitVec.sub_add_cancel _ _

theorem storesOnly_push16_push16 (s : State) (v v' : Word) :
    StoresOnly (stackBytes s.segs.ss s.regs.sp 2) s ((s.push16 v).push16 v') := by
  have h : StoresOnly (stackBytes s.segs.ss s.regs.sp 1 ++
      stackBytes s.segs.ss (s.regs.sp - 2#16) 1) s ((s.push16 v).push16 v') :=
    (storesOnly_push16 s v).trans (storesOnly_push16 (s.push16 v) v') rfl
  simpa only [stackBytes, List.append_nil] using h

theorem callFarTo_transferOnly (s : State) (seg off : Word) :
    TransferOnly [.sp] (stackBytes s.segs.ss s.regs.sp 2) s (s.callFarTo seg off) :=
  have hpushed : TransferOnly [.sp] (stackBytes s.segs.ss s.regs.sp 2) s
      ((s.push16 s.segs.cs).push16 s.ip) :=
    .of_storesOnly (keepsRegs_sp (callFarTo_regs s seg off)) rfl rfl
      (storesOnly_push16_push16 s _ _) ((sameHidden_push16 s _).trans (sameHidden_push16 _ _))
  hpushed.jumpFar seg off

section
variable {s : State} (hm : Memory.wf s.mem)
include hm

/-! The offset stands on top of the stack, and after a far call CS above it (R302). -/

theorem callNearTo_savedIp (off : Word) :
    Stored .word (.mem s.segs.ss (s.callNearTo off).regs.sp) s.ip s (s.callNearTo off) :=
  stored_push16 hm s.ip

theorem callFarTo_savedIp (seg off : Word) :
    Stored .word (.mem s.segs.ss (s.callFarTo seg off).regs.sp) s.ip s (s.callFarTo seg off) :=
  (stored_push16 (Memory.wf_push16 hm s.segs.cs) s.ip).of_eq rfl

theorem callFarTo_savedCs (seg off : Word) :
    Stored .word (.mem s.segs.ss ((s.callFarTo seg off).regs.sp + 2#16)) s.segs.cs s
      (s.callFarTo seg off) := by
  rw [callFarTo_sp_add_two]
  exact (stored_push16 hm s.segs.cs).push16 (u := s.push16 s.segs.cs) (sp := s.regs.sp - 2#16) rfl
    (by bv_omega) s.ip

end

/-- Settles O51: the four forms are `State.callNearTo` and `State.callFarTo`, at a target
read before the pushes. -/
theorem calls : Obligations.Calls := by
  intro s hm near far
  have hnear (off : Word) : near (s.callNearTo off) :=
    ⟨rfl, rfl, callNearTo_savedIp hm off, rfl, callNearTo_transferOnly s off⟩
  have hfar (seg off : Word) : far (s.callFarTo seg off) :=
    ⟨congrArg Regs.sp (callFarTo_regs s seg off), callFarTo_savedIp hm seg off,
      callFarTo_savedCs hm seg off, rfl, callFarTo_transferOnly s seg off⟩
  exact ⟨fun disp => ⟨_, exec_callRel disp s, hnear _, BitVec.toNat_add _ _⟩,
    fun rm => ⟨_, exec_callRm rm s, hnear _, rfl⟩,
    fun off seg => ⟨_, exec_callFar off seg s, hfar seg off, rfl, rfl⟩,
    fun m => ⟨_, exec_callFarMem m s, hfar _ _, read16_toNat s _ _, read16_toNat s _ _⟩⟩

/-! ## RET and IRET (R308 to R311, R327) -/

section
variable (s : State)

theorem release_zero : s.release 0#16 = s := by
  rw [State.release, BitVec.add_zero]
  exact setReg16_reg16_self s .sp

theorem returnNear_ip : s.returnNear.ip = s.read16 s.segs.ss s.regs.sp := rfl

theorem returnFar_ip : s.returnFar.ip = s.read16 s.segs.ss s.regs.sp := rfl

theorem returnFar_segs : s.returnFar.segs =
    s.segs.set .cs (s.read16 s.segs.ss (s.regs.sp + 2#16)) := rfl

theorem interruptReturn_ip : s.interruptReturn.ip = s.read16 s.segs.ss s.regs.sp := rfl

theorem interruptReturn_segs : s.interruptReturn.segs =
    s.segs.set .cs (s.read16 s.segs.ss (s.regs.sp + 2#16)) := rfl

theorem interruptReturn_flags : s.interruptReturn.flags =
    Flags.ofWord (s.read16 s.segs.ss (s.regs.sp + 4#16)) := by
  have hsp : s.regs.sp + 2#16 + 2#16 = s.regs.sp + 4#16 := BitVec.add_assoc _ _ _
  rw [← hsp]
  rfl

theorem returnFar_regs : s.returnFar.regs = s.regs.set .sp (s.regs.sp + 4#16) :=
  congrArg (s.regs.set .sp) (BitVec.add_assoc s.regs.sp 2#16 2#16)

theorem interruptReturn_regs : s.interruptReturn.regs = s.regs.set .sp (s.regs.sp + 6#16) := by
  have hsp : s.regs.sp + 2#16 + 2#16 + 2#16 = s.regs.sp + 6#16 := by bv_omega
  rw [← hsp]
  rfl

/-- Popping the offset and moving SP past the parameters changes nothing but SP and IP. -/
theorem returnNear_release_transferOnly (n : Word) :
    TransferOnly [.sp] [] s (s.returnNear.release n) :=
  (transferOnly_setSp s _).jump _

theorem returnFar_release_transferOnly (n : Word) :
    TransferOnly [.sp] [] s (s.returnFar.release n) :=
  (transferOnly_setSp s _).jumpFar _ _

theorem returnNear_release_sp (n : Word) : (s.returnNear.release n).regs.sp.toNat =
    (s.regs.sp.toNat + 2 + n.toNat) % 65536 := by
  change (s.regs.sp + 2#16 + n).toNat = _
  bv_omega

theorem returnFar_release_sp (n : Word) : (s.returnFar.release n).regs.sp.toNat =
    (s.regs.sp.toNat + 4 + n.toNat) % 65536 := by
  change (s.regs.sp + 2#16 + 2#16 + n).toNat = _
  bv_omega

end

/-- Settles O52: a return without an immediate releases no parameters. -/
theorem returns : Obligations.Returns := by
  intro s near far
  have hnear (n : Word) : near n.toNat (s.returnNear.release n) :=
    ⟨read16_toNat s _ _, rfl, returnNear_release_sp s n, rfl, returnNear_release_transferOnly s n⟩
  have hfar (n : Word) : far n.toNat (s.returnFar.release n) :=
    ⟨read16_toNat s _ _, read16_toNat s _ _, returnFar_release_sp s n, rfl,
      returnFar_release_transferOnly s n⟩
  exact ⟨⟨_, rfl, release_zero s.returnNear ▸ hnear 0#16⟩,
    ⟨_, rfl, release_zero s.returnFar ▸ hfar 0#16⟩,
    fun data => ⟨⟨_, rfl, hnear data⟩, ⟨_, rfl, hfar data⟩⟩⟩

theorem sameHidden_interruptReturn (s : State) : SameHidden s s.interruptReturn :=
  ⟨rfl, rfl, rfl, rfl, rfl, rfl, rfl, rfl, rfl, rfl, rfl, rfl, rfl, rfl⟩

theorem exec_iret (s : State) : exec .iret s = .next s.interruptReturn := rfl

/-- Settles O59: each popped word is read where it stands before SP moves. -/
theorem iret : Obligations.Iret := by
  intro s
  refine ⟨_, exec_iret s, read16_toNat s _ _, read16_toNat s _ _, ?flags, ?sp,
    keepsRegs_sp (interruptReturn_regs s), rfl, fun _ _ => rfl, rfl, sameHidden_interruptReturn s⟩
  case flags => rw [← read16_toNat, BitVec.ofNat_toNat, BitVec.setWidth_eq, interruptReturn_flags]
  case sp =>
    rw [interruptReturn_regs]
    exact BitVec.toNat_add _ _

/-! ## A transfer and its return (R302, R307, R327, R356) -/

/-- A word that was stored to RAM is the word read there. -/
theorem Stored.read16 {seg off v : Word} {s t : State} (h : Stored .word (.mem seg off) v s t)
    (hk : AllRam (operandBytes .word seg off) s) (hmap : t.memMap = s.memMap) :
    t.read16 seg off = v := by
  obtain ⟨hlo, hhi⟩ := h
  have hkind : ∀ a ∈ operandBytes .word seg off, t.kindAt a = .ram :=
    fun a ha => (kindAt_of_eq hmap a).trans (hk a ha)
  have h1 : (physAddr seg off).toNat ∈ operandBytes .word seg off := by simp [operandBytes]
  have h2 : (physAddr seg (off + 1#16)).toNat ∈ operandBytes .word seg off := by simp [operandBytes]
  rw [State.read16, State.read8, State.read8, readByte_ram (hkind _ h1), readByte_ram (hkind _ h2),
    hlo (hk _ h1), hhi rfl (hk _ h2)]
  exact wordOf_loByte_hiByte v

/-- The stack of `n + 1` words is the word on top and the stack below it. -/
theorem allRam_stackBytes_succ {ss sp : Word} {n : Nat} {s : State} :
    AllRam (stackBytes ss sp (n + 1)) s ↔
      AllRam (operandBytes .word ss (sp - 2#16)) s ∧ AllRam (stackBytes ss (sp - 2#16) n) s :=
  List.forall_mem_append

/-- SP comes back, and so does every register. -/
theorem Regs.set_sp_sub_add (g : Regs) (n : Word) :
    (g.set .sp (g.sp - n)).set .sp (g.sp - n + n) = g := by
  rw [Regs.set_set, BitVec.sub_add_cancel]
  exact Regs.set_get g .sp

theorem interrupt_regs (s : State) (type : Byte) (ret : Word) :
    (s.interrupt type ret).regs = s.regs.set .sp (s.regs.sp - 6#16) := by
  have hsp : s.regs.sp - 2#16 - 2#16 - 2#16 = s.regs.sp - 6#16 := by bv_omega
  rw [← hsp]
  rfl

section
variable {s : State} (hm : Memory.wf s.mem)
include hm

/-- A near return undoes a near call whose stack is RAM. -/
theorem callNearTo_returnNear (hk : AllRam (stackBytes s.segs.ss s.regs.sp 1) s) (off : Word) :
    (s.callNearTo off).returnNear.regs = s.regs ∧ (s.callNearTo off).returnNear.segs = s.segs ∧
      (s.callNearTo off).returnNear.ip = s.ip ∧ (s.callNearTo off).returnNear.flags = s.flags := by
  have hip := (callNearTo_savedIp hm off).read16 (allRam_stackBytes_succ.1 hk).1 rfl
  exact ⟨push16_drop16_regs s s.ip, rfl, (returnNear_ip _).trans hip, rfl⟩

/-- A far return undoes a far call whose stack is RAM. -/
theorem callFarTo_returnFar (hk : AllRam (stackBytes s.segs.ss s.regs.sp 2) s) (seg off : Word) :
    (s.callFarTo seg off).returnFar.regs = s.regs ∧ (s.callFarTo seg off).returnFar.segs = s.segs ∧
      (s.callFarTo seg off).returnFar.ip = s.ip ∧
      (s.callFarTo seg off).returnFar.flags = s.flags := by
  obtain ⟨hcs, hrest⟩ := allRam_stackBytes_succ.1 hk
  obtain ⟨hip, -⟩ := allRam_stackBytes_succ.1 hrest
  have hreadIp := (callFarTo_savedIp hm seg off).read16 hip rfl
  rw [← callFarTo_sp_add_two s seg off] at hcs
  have hreadCs := (callFarTo_savedCs hm seg off).read16 hcs rfl
  refine ⟨?regs, ?segs, (returnFar_ip _).trans hreadIp, rfl⟩
  case regs =>
    rw [returnFar_regs, callFarTo_regs]
    exact s.regs.set_sp_sub_add 4#16
  case segs =>
    rw [returnFar_segs]
    exact congrArg (s.segs.set .cs) hreadCs

/-- The return reads the three words where the sequence saved them. -/
theorem interruptReturn_interrupt (hk : AllRam (stackBytes s.segs.ss s.regs.sp 3) s) (type : Byte)
    (ret : Word) :
    (s.interrupt type ret).interruptReturn.ip = ret ∧
      (s.interrupt type ret).interruptReturn.segs = s.segs ∧
      (s.interrupt type ret).interruptReturn.flags = s.flags := by
  have entered := entered_interrupt type ret hm
  obtain ⟨image, himage, hsaved⟩ := entered.savedFlags
  obtain ⟨hflags, hrest⟩ := allRam_stackBytes_succ.1 hk
  obtain ⟨hcs, hrest⟩ := allRam_stackBytes_succ.1 hrest
  obtain ⟨hip, -⟩ := allRam_stackBytes_succ.1 hrest
  have hspCs : (s.interrupt type ret).regs.sp + 2#16 = s.regs.sp - 2#16 - 2#16 :=
    BitVec.sub_add_cancel _ _
  have hspFlags : (s.interrupt type ret).regs.sp + 4#16 = s.regs.sp - 2#16 := by
    rw [interrupt_sp]
    bv_omega
  have hreadIp := entered.savedIp.read16 hip rfl
  have hreadCs := entered.savedCs.read16 (hspCs ▸ hcs) rfl
  have hreadFlags := hsaved.read16 (hspFlags ▸ hflags) rfl
  refine ⟨(interruptReturn_ip _).trans hreadIp, ?segs, ?flags⟩
  case segs =>
    rw [interruptReturn_segs]
    exact congrArg (s.segs.set .cs) hreadCs
  case flags =>
    rw [interruptReturn_flags, ← himage]
    exact congrArg Flags.ofWord hreadFlags

end

/-- Settles O53: what the call pushed to RAM is what the return pops. -/
theorem callThenReturn : Obligations.CallThenReturn := by
  intro s hm back
  exact ⟨fun hk => ⟨fun disp => ⟨_, _, exec_callRel disp s, rfl, callNearTo_returnNear hm hk _⟩,
      fun rm => ⟨_, _, exec_callRm rm s, rfl, callNearTo_returnNear hm hk _⟩⟩,
    fun hk => ⟨fun off seg => ⟨_, _, exec_callFar off seg s, rfl, callFarTo_returnFar hm hk _ _⟩,
      fun m => ⟨_, _, exec_callFarMem m s, rfl, callFarTo_returnFar hm hk _ _⟩⟩⟩

/-- Settles O60: the words popped are those the sequence saved, and SP goes up by the six it went
down. -/
theorem iretUndoesInterrupt : Obligations.IretUndoesInterrupt := by
  intro s type ret hm hk
  obtain ⟨hip, hsegs, hflags⟩ := interruptReturn_interrupt hm hk type ret
  refine ⟨_, exec_iret _, ?regs, hsegs, hflags, hip, fun a ha => ?memory⟩
  case regs =>
    rw [interruptReturn_regs, interrupt_regs]
    exact s.regs.set_sp_sub_add 6#16
  case memory =>
    rw [State.byteAt, State.interruptReturn_mem]
    exact (entered_interrupt type ret hm).memory a ha

end Sys2Proof.Machine

namespace Sys2Proof.Machine

/-! ## The trap that follows an instruction (R362) -/

/-- No instruction raises or drops a trap itself (R362). -/
theorem exec_trapPending {i : Instr} {s t : State} (h : exec i s = .next t) :
    t.trapPending = s.trapPending := by
  cases exec_effect h with
  | ordinary h | farTransfer _ _ h | loadSeg _ _ _ h | setControl _ _ h | interruptReturn _ _ _ h
  | interrupt _ _ h | halt _ h | wait _ _ h | goesOn _ _ _ _ _ h => exact h.trapPending

theorem runRows_trapPending {rows : List Instr} {s t : State} (h : runRows exec rows s = .next t) :
    t.trapPending = s.trapPending := by
  induction rows generalizing s with
  | nil =>
    cases h
    rfl
  | cons i rows ih =>
    simp only [runRows] at h
    split at h
    · next u hu => exact (ih h).trans (exec_trapPending hu)
    · cases h
    · cases h

/-- Settles O10: `complete` and `endWait` alone write the trap, and no trap was pending before. -/
theorem trapFollowsTf : Obligations.TrapFollowsTf := by
  intro s t hq hrun ht
  rw [step_of_quiet hq] at ht
  rcases runNext_cases ht with ⟨hh, -⟩ | ⟨-, -, -, rfl⟩ | ⟨-, hw, -, rfl⟩ |
    ⟨r, u, -, -, -, hu, rfl⟩ | ⟨d, u, -, -, -, -, -, hu, rfl⟩
  · exact absurd (hh.symm.trans hrun) (by decide)
  · simp [hq.trap]
  · simp [hq.trap, hw]
  · have hkept : u.trapPending = false := (exec_trapPending hu).trans hq.trap
    simp [hkept]
  · have hkept : u.trapPending = false := (runRows_trapPending hu).trans hq.trap
    simp [hkept]

/-! ## Which instructions complete (R31, R352, R401) -/

theorem hasSegOrLock_iff (p : Prefixes) :
    p.hasSegOrLock = true ↔ p.seg ≠ none ∨ p.lock = true := by
  simp [Prefixes.hasSegOrLock, Option.isSome_iff_ne_none]

theorem interruptible_iff (s : State) :
    s.interruptible = true ↔ s.flags.ifl = true ∨ s.flags.tf = true ∨ s.nmiLatch = true := by
  simp [State.interruptible, or_assoc]

/-- The string instructions are the five operations at both widths. -/
theorem exists_stringOp_of_isString {i : Instr} (h : i.isString = true) :
    ∃ (op : StringOp) (w : Width), i = op.instr w := by
  cases i with
  | movs w => exact ⟨.movs, w, rfl⟩
  | cmps w => exact ⟨.cmps, w, rfl⟩
  | stos w => exact ⟨.stos, w, rfl⟩
  | lods w => exact ⟨.lods, w, rfl⟩
  | scas w => exact ⟨.scas, w, rfl⟩
  | _ => cases h

/-- A string instruction completes, or R401 refuses it: repeated, with a second prefix, where an
interrupt can be accepted. -/
theorem exec_stringOp_cases (op : StringOp) (w : Width) (s : State) :
    (∃ t, exec (op.instr w) s = .next t) ∨
      (s.prefixes.rep ≠ none ∧ s.prefixes.hasSegOrLock = true ∧ s.interruptible = true ∧
        exec (op.instr w) s = .refused .interruptibleRepeatWithPrefix) := by
  cases hrep : s.prefixes.rep with
  | none => exact .inl ⟨_, exec_of_no_repeat hrep op w⟩
  | some r =>
    by_cases hopen : s.prefixes.hasSegOrLock = true ∧ s.interruptible = true
    · obtain ⟨hprefix, hint⟩ := hopen
      refine .inr ⟨nofun, hprefix, hint, ?_⟩
      simp [State.stringInstr, hrep, hprefix, hint]
    · exact .inl ⟨_, exec_of_repeat hrep
        (fun hprefix => Bool.eq_false_iff.2 fun hint => hopen ⟨hprefix, hint⟩) op w⟩

/-- A choice between two answers that are next states is one. -/
theorem ite_next {c : Prop} [Decidable c] (t u : State) :
    ∃ v, (if c then .next t else .next u : Res) = .next v := by
  split
  · exact ⟨t, rfl⟩
  · exact ⟨u, rfl⟩

/-- Only a load of CS, which no encoding spells, and the strings can be refused (R31, R401). -/
theorem exec_completes_of_not_isString {i : Instr} (hi : i.wellFormed = true)
    (hs : i.isString = false) (s : State) : ∃ t, exec i s = .next t := by
  cases i with
  | popSreg sr => exact ⟨_, loadSeg_of_ne_cs s.drop16 _ (by simpa [Instr.wellFormed] using hi)⟩
  | movSregRm sr rm =>
    obtain ⟨hsr, -⟩ : sr ≠ .cs ∧ rm.wellFormed = true := by simpa [Instr.wellFormed] using hi
    exact ⟨_, loadSeg_of_ne_cs s _ hsr⟩
  | divRm w rm =>
    rw [exec_divRm rfl]
    exact ite_next _ _
  | idivRm w rm =>
    rw [exec_idivRm rfl]
    exact ite_next _ _
  | pushRm rm | esc _ rm => cases rm <;> exact ⟨_, rfl⟩
  | wait => exact ⟨_, exec_wait s⟩
  | movs | cmps | stos | lods | scas => cases hs
  | _ => exact ⟨_, rfl⟩

/-- Settles O13: a string instruction by the cases of R401, and every other one completes. -/
theorem everyInstructionCompletes : Obligations.EveryInstructionCompletes := by
  intro i s hi
  cases hs : i.isString with
  | false => exact .inl (exec_completes_of_not_isString hi hs s)
  | true =>
    obtain ⟨op, w, rfl⟩ := exists_stringOp_of_isString hs
    refine (exec_stringOp_cases op w s).imp_right fun ⟨hrep, hprefix, hint, hrefused⟩ => ?_
    exact ⟨rfl, hrep, (hasSegOrLock_iff _).1 hprefix, (interruptible_iff s).1 hint, hrefused⟩

/-! ## INT, INT 3 and INTO (R323 to R326) -/

theorem exec_intN (type : Byte) (s : State) :
    exec (.intN type) s = .next (s.interrupt type s.ip) := rfl

theorem exec_int3 (s : State) : exec .int3 s = .next (s.interrupt 3#8 s.ip) := rfl

/-- INTO looks at OF alone (R326). -/
theorem exec_into (s : State) :
    exec .into s = .next (if s.flags.ofl then s.interrupt 4#8 s.ip else s) := rfl

/-- Settles O58: the three instructions run the sequence of `entered_interrupt`. -/
theorem softwareInterrupts : Obligations.SoftwareInterrupts := by
  intro s hm
  have entered := fun (type : Byte) (ret : Word) => entered_interrupt type ret hm
  refine ⟨entered, fun type => ⟨_, exec_intN type s, entered type s.ip⟩,
    ⟨_, exec_int3 s, entered 3#8 s.ip⟩, fun hof => ?taken, fun hof => ?notTaken⟩
  case taken => exact ⟨_, (exec_into s).trans (congrArg _ (if_pos hof)), entered 4#8 s.ip⟩
  case notTaken => rw [exec_into, hof, if_neg Bool.false_ne_true]

end Sys2Proof.Machine
